-- ==== Sys2Proof/Word.lean ====
section
/-!
DEFINITION. The words of the machine: bytes, 32-bit registers, 64-bit names and addresses, and the 96-bit
instruction word (R5, R6, R53).
-/

namespace Sys2Proof

/-- One byte of memory (R6). -/
abbrev Byte := BitVec 8

/-- One 32-bit register, predicate mask or thread mask (R26). -/
abbrev Word := BitVec 32

/-- A register pair, an object name, a 64-bit address (R28, R58). -/
abbrev DWord := BitVec 64

/-- The instruction word (R53). -/
abbrev IWord := BitVec 96

/-- A buffer record (R238). -/
abbrev Rec := BitVec 320

end Sys2Proof
end

