-- ==== Sys2Proof/Config.lean ====
section
/-!
DEFINITION. What the part fixes (R2, R4) and the free values: the values the manual leaves undefined. A free value
is an opaque constant applied to an index, so no proof can learn what it is (log entry 4).
-/

namespace Sys2Proof.Config

/-- The group width of this part (R2, R16). -/
def W : Nat := 32

/-- Cores of a die (R4): 16 quads of 4 cores. -/
def coresPerDie : Nat := 64

/-- Copy engines of a die (R4). -/
def enginesPerDie : Nat := 6

/-- The names a die's deferred list holds (R259). -/
def deferredCap : Nat := 4096

/-- The pins of swapped-out groups a die's shadow table holds (R259). -/
def pinShadowCap : Nat := 65536

/-- The jobs an engine's queue holds (R262). -/
def engineCap : Nat := 64

/-- The jobs an operand window holds (R284). -/
def windowCap : Nat := 16

/-- The slots of a die's counted directory (R247). -/
def tileSlots : Nat := 4096

/-- The counted lines one L2 slice may hold: 768 KiB of 128-byte lines (R249). -/
def sliceShare : Nat := 6144

/-- A free value of `w` bits: undefined by the manual, so unconstrained (log entry 4). `State.free` supplies `n`. -/
opaque free (w n : Nat) : BitVec w

/-- A free natural number, for a choice the manual leaves open among several (log entry 4). -/
opaque pick (n : Nat) : Nat

end Sys2Proof.Config
end

