-- ==== Sys2Proof/Syntax.lean ====
section
/-!
DEFINITION. The instructions of the opcode table, one constructor per row of spec/opcode_table.json: first the
instructions of the 96-bit word (R75 to R80), then the events of the device, which have no word and come from the
agenda of the state (log entry 1). Operands are the fields D, A and B with their classes (R56).
-/

namespace Sys2Proof

/-- Special registers by number (R59). -/
inductive SReg where
  | gwidth | tid | gid | role | ngroups | crewx | crewy | crewz | ncrewx | ncrewy | ncrewz | lane | core | quad | die
  | pkg | tsclo | tschi | refclklo | refclkhi | fpmode | ybound | faultmask | specdepth | ctx
  deriving DecidableEq, Repr, Inhabited

/-- An operand field: class and value (R56). A long immediate joins A and B (R57). -/
inductive Opd where
  | v (n : BitVec 8)
  | g (n : BitVec 6)
  | p (n : BitVec 3)
  | t (n : BitVec 3)
  | si (x : BitVec 16)
  | ui (x : BitVec 16)
  | sr (r : SReg)
  | pin (n : BitVec 2)
  | rc (n : BitVec 8)
  | li (x : Word)
  | aw (off : BitVec 16)
  | ring (k : BitVec 4) (s : BitVec 12)
  deriving DecidableEq, Repr, Inhabited

/-- Guard and hints of a word (R53, R63, R64). -/
structure Hdr where
  neg : Bool
  prd : BitVec 3
  dly : BitVec 4
  ru  : BitVec 2
  pri : BitVec 2
  deriving DecidableEq, Repr, Inhabited

/-- `s32` or `n32` (R75). -/
inductive ITy where
  | s32 | n32
  deriving DecidableEq, Repr, Inhabited

/-- The scales of `lea` (R159). -/
inductive Scale where
  | x1 | x2 | x4 | x8
  deriving DecidableEq, Repr, Inhabited

/-- The relations of `cmp` and `fcmp` (R163, R186). -/
inductive Rel where
  | eq | ne | lt | le | gt | ge | un | ord
  deriving DecidableEq, Repr, Inhabited

/-- The forms of `plog` (R164). -/
inductive PlogOp where
  | and | or | xor | not
  deriving DecidableEq, Repr, Inhabited

/-- 32 or 64 bits (R166). -/
inductive MovW where
  | b32 | b64
  deriving DecidableEq, Repr, Inhabited

/-- The forms of `xmov` (R168). -/
inductive XmovOp where
  | idx | up | down | xor
  deriving DecidableEq, Repr, Inhabited

/-- The combinations of `lsred` and `lscan` (R170). -/
inductive ScanOp where
  | iadd | fadd | smin | smax | nmin | nmax | fmin | fmax | and | or | xor
  deriving DecidableEq, Repr, Inhabited

/-- The forms of `vote` (R171). -/
inductive VoteOp where
  | all | any | uni
  deriving DecidableEq, Repr, Inhabited

/-- RND of layouts F, V and MR (R65): 0 takes sr.fpmode. -/
inductive Rnd where
  | mode | rn | rz | rp | rm
  deriving DecidableEq, Repr, Inhabited

/-- FTZ of layout F (R65): 0 takes sr.fpmode. -/
inductive Ftz where
  | mode | ftz | den
  deriving DecidableEq, Repr, Inhabited

/-- Layout F of MOD (R65). -/
structure FMod where
  rnd  : Rnd
  ftz  : Ftz
  nanc : Bool
  sat  : Bool
  deriving DecidableEq, Repr, Inhabited

/-- The floating types (R181). -/
inductive FTy where
  | f32 | f16x2 | bf16x2
  deriving DecidableEq, Repr, Inhabited

/-- The formats of `cvt` (R77). -/
inductive Fmt where
  | f32 | f16 | bf16 | e4m3 | e5m2 | s8 | s4 | s32 | n32
  deriving DecidableEq, Repr, Inhabited

/-- Load widths (R243). -/
inductive LdW where
  | s8 | n8 | s16 | n16 | b32 | b64
  deriving DecidableEq, Repr, Inhabited

/-- Store widths (R243). -/
inductive StW where
  | b8 | b16 | b32 | b64
  deriving DecidableEq, Repr, Inhabited

/-- Atomic operations (R251). -/
inductive AtomOp where
  | add | smin | smax | nmin | nmax | and | or | xor | xchg | cas | fadd | fmin | fmax | pmax
  deriving DecidableEq, Repr, Inhabited

/-- Cache levels (R65). -/
inductive Lvl where
  | l1 | l2 | cis | mem
  deriving DecidableEq, Repr, Inhabited

/-- Scopes (R3). -/
inductive Scope where
  | core | quad | die | pkg | pod | sys
  deriving DecidableEq, Repr, Inhabited

/-- Barrier levels (R265). -/
inductive BarLvl where
  | core | quad | die | pkg | pod
  deriving DecidableEq, Repr, Inhabited

/-- The arrival actions of `eprun` and `kvgath` (R305, R341). -/
inductive Arv where
  | none | set | add
  deriving DecidableEq, Repr, Inhabited

/-- Functions that train at start-up (R414, R418). -/
inductive Func where
  | s0 | die (d : Nat) | hbm (s : Nat) | cis | port (p : Nat)
  deriving DecidableEq, Repr, Inhabited

/-- What the patrol scrub finds in a granule (R420). -/
inductive Scrubbed where
  | clean | corrected | uncorrectable
  deriving DecidableEq, Repr, Inhabited

/-- Where a host access acts (R209, R402): device memory by device address, or host memory. -/
inductive HostSpace where
  | device | host
  deriving DecidableEq, Repr, Inhabited

/-- Buffers of streamed lines (R203): the L1 of a lane, the fused L1 of a core, a die's buffer. -/
inductive BufId where
  | l1 (core lane : Nat)
  | l1f (core : Nat)
  | die (d : Nat)
  deriving DecidableEq, Repr, Inhabited

/-- What a park service serves (R392): a group, a job of an engine, a device job, a Cascade job. -/
inductive Parked where
  | group (gk : Nat)
  | engine (e j : Nat)
  | device (d j : Nat)
  | cascade (crew j : Nat)
  deriving DecidableEq, Repr, Inhabited

/-- The page table leaf that the run-time installs: where the leaf lies (a physical key) and its value (R392, R401). -/
structure Leaf where
  key   : Nat
  value : DWord
  deriving DecidableEq, Repr, Inhabited

/-- The modifiers of an `mloop.attn` for its B operand (R310): SPB and CTB. -/
structure LoopSide where
  spb : Bool
  ctb : Bool
  deriving DecidableEq, Repr

/-- One row of spec/opcode_table.json each. -/
inductive Instr where
  -- integer, logic, compare, move (R158 to R172)
  | add (h : Hdr) (ty : ITy) (sat : Bool) (d a b : Opd)
  | sub (h : Hdr) (ty : ITy) (sat : Bool) (d a b : Opd)
  | mul (h : Hdr) (ty : ITy) (sat : Bool) (d a b : Opd)
  | mulhi (h : Hdr) (ty : ITy) (d a b : Opd)
  | mad (h : Hdr) (ty : ITy) (sat : Bool) (d a b : Opd)
  | div (h : Hdr) (ty : ITy) (d a b : Opd)
  | rem (h : Hdr) (ty : ITy) (d a b : Opd)
  | min (h : Hdr) (ty : ITy) (d a b : Opd)
  | max (h : Hdr) (ty : ITy) (d a b : Opd)
  | abs (h : Hdr) (sat : Bool) (d a : Opd)
  | lea (h : Hdr) (sc : Scale) (d a b : Opd)
  | and (h : Hdr) (d a b : Opd)
  | or (h : Hdr) (d a b : Opd)
  | xor (h : Hdr) (d a b : Opd)
  | not (h : Hdr) (d a : Opd)
  | shl (h : Hdr) (d a b : Opd)
  | shr (h : Hdr) (ty : ITy) (d a b : Opd)
  | rot (h : Hdr) (d a b : Opd)
  | bfx (h : Hdr) (ty : ITy) (d a b : Opd)
  | bfi (h : Hdr) (d a b : Opd)
  | bitPop (h : Hdr) (d a : Opd)
  | bitClz (h : Hdr) (d a : Opd)
  | bitRev (h : Hdr) (d a : Opd)
  | cmp (h : Hdr) (ty : ITy) (rel : Rel) (d a b : Opd)
  | plog (h : Hdr) (op : PlogOp) (d a : Opd) (b : Option Opd)
  | sel (h : Hdr) (neg : Bool) (prd : BitVec 3) (d a b : Opd)
  | mov (h : Hdr) (w : MovW) (d a : Opd)
  | xmov (h : Hdr) (op : XmovOp) (d a b : Opd)
  | lsred (h : Hdr) (op : ScanOp) (m : FMod) (d a : Opd)
  | lscan (h : Hdr) (op : ScanOp) (m : FMod) (d a : Opd)
  | vote (h : Hdr) (op : VoteOp) (d a : Opd)
  | ballot (h : Hdr) (d a : Opd) (b : Option Opd)
  | cmprs (h : Hdr) (d a b : Opd)
  | expnd (h : Hdr) (d a b : Opd)
  -- floating point and conversion (R183 to R196)
  | fadd (h : Hdr) (ty : FTy) (m : FMod) (d a b : Opd)
  | fsub (h : Hdr) (ty : FTy) (m : FMod) (d a b : Opd)
  | fmul (h : Hdr) (ty : FTy) (m : FMod) (d a b : Opd)
  | fma (h : Hdr) (ty : FTy) (m : FMod) (d a b : Opd)
  | fmin (h : Hdr) (ty : FTy) (m : FMod) (d a b : Opd)
  | fmax (h : Hdr) (ty : FTy) (m : FMod) (d a b : Opd)
  | fcmp (h : Hdr) (ty : FTy) (rel : Rel) (d a b : Opd)
  | fcls (h : Hdr) (d a b : Opd)
  | fabs (h : Hdr) (ty : FTy) (d a : Opd)
  | fneg (h : Hdr) (ty : FTy) (d a : Opd)
  | fdiv (h : Hdr) (m : FMod) (d a b : Opd)
  | sqrt (h : Hdr) (m : FMod) (d a : Opd)
  | rcp (h : Hdr) (m : FMod) (d a : Opd)
  | rsqrt (h : Hdr) (m : FMod) (d a : Opd)
  | exp2 (h : Hdr) (m : FMod) (d a : Opd)
  | log2 (h : Hdr) (m : FMod) (d a : Opd)
  | sin (h : Hdr) (m : FMod) (d a : Opd)
  | cos (h : Hdr) (m : FMod) (d a : Opd)
  | tanh (h : Hdr) (m : FMod) (d a : Opd)
  | frnd (h : Hdr) (m : FMod) (d a : Opd)
  | scl (h : Hdr) (m : FMod) (d a b : Opd)
  | cvt (h : Hdr) (dst src : Fmt) (m : FMod) (ovn : Bool) (d a : Opd)
  | cvt2 (h : Hdr) (bf : Bool) (m : FMod) (ovn : Bool) (d a b : Opd)
  | decv (h : Hdr) (d a : Opd)
  -- memory (R243 to R261)
  | ld (h : Hdr) (w : LdW) (d a b : Opd)
  | st (h : Hdr) (w : StW) (d a b : Opd)
  | lds (h : Hdr) (w : LdW) (d a b : Opd)
  | sts (h : Hdr) (w : StW) (d a b : Opd)
  | ldr (h : Hdr) (d a b : Opd)
  | str (h : Hdr) (d a b : Opd)
  | fillc (h : Hdr) (d a b : Opd)
  | ldc (h : Hdr) (w : LdW) (last : Bool) (d a b : Opd)
  | stc (h : Hdr) (w : StW) (d a b : Opd)
  | atom (h : Hdr) (op : AtomOp) (d a b : Opd)
  | atoms (h : Hdr) (op : AtomOp) (d a b : Opd)
  | red (h : Hdr) (op : AtomOp) (rnd : Rnd) (ftz : Bool) (a b : Opd)
  | cmoClean (h : Hdr) (l : Lvl) (a b : Opd)
  | cmoInval (h : Hdr) (l : Lvl) (a b : Opd)
  | cmoCleaninval (h : Hdr) (l : Lvl) (a b : Opd)
  | fence (h : Hdr) (s : Scope)
  | pf (h : Hdr) (l : Lvl) (a b : Opd)
  | pin (h : Hdr) (d a : Opd)
  | unpin (h : Hdr) (d : Opd)
  | reclaim (h : Hdr) (d a : Opd)
  | cpy (h : Hdr) (d a b : Opd)
  | cpyCvt (h : Hdr) (d a b : Opd)
  | cpyFill (h : Hdr) (d a b : Opd)
  -- synchronisation (R264 to R282)
  | barArrive (h : Hdr) (d : Option Opd) (l : BarLvl) (idx : BitVec 4)
  | barWait (h : Hdr) (l : BarLvl) (idx : BitVec 4)
  | barSync (h : Hdr) (d : Option Opd) (l : BarLvl) (idx : BitVec 4)
  | barDrop (h : Hdr) (d : Option Opd) (l : BarLvl) (idx : BitVec 4)
  | waitAny (h : Hdr) (d a b : Opd)
  | waitAll (h : Hdr) (d a b : Opd)
  | arrvSet (h : Hdr) (d a : Opd)
  | arrvAdd (h : Hdr) (d a : Opd)
  | arrvExpect (h : Hdr) (d a : Opd)
  | ringTake (h : Hdr) (d a : Opd) (prod lap : Bool)
  | ringGive (h : Hdr) (a : Opd) (prod lap : Bool)
  | yield (h : Hdr) (dl : BitVec 16)
  | trail (h : Hdr) (regs : List Opd)
  | regroup (h : Hdr) (a b : Opd)
  | join (h : Hdr)
  | fork (h : Hdr) (d a : Opd)
  -- control flow (R173 to R177)
  | br (h : Hdr) (off : BitVec 16) (rec : Option (BitVec 16))
  | call (h : Hdr) (d a : Opd)
  | ret (h : Hdr) (a : Opd)
  | jmp (h : Hdr) (a : Opd)
  | exit (h : Hdr)
  -- matrix (R303 to R315)
  | mcb (h : Hdr) (a b : Opd)
  | msort (h : Hdr) (ctd : Bool) (a b : Opd)
  | mparts (h : Hdr) (opn cls sp : Bool) (a b : Opd)
  | mloopDense (h : Hdr) (opn cls spa spb ctb : Bool) (d a b : Opd)
  | mloopAttn (h : Hdr) (opn cls spa : Bool) (side : LoopSide) (d a b : Opd)
  | mfence (h : Hdr)
  | mringPop (h : Hdr)
  | mringStat (h : Hdr) (d : Opd)
  | epcfg (h : Hdr) (a : Opd)
  | eprun (h : Hdr) (arv : Arv) (d a : Option Opd)
  | mreadPerm (h : Hdr) (d a : Opd)
  | mreadWs (h : Hdr) (d a : Opd)
  -- KV pages and segments (R328 to R353)
  | kvapp (h : Hdr) (a b : Opd)
  | pgshare (h : Hdr) (a : Opd)
  | pgrel (h : Hdr) (a : Opd)
  | extset (h : Hdr) (a b : Opd)
  | extsetRm (h : Hdr) (a b : Opd)
  | extsetClr (h : Hdr) (a : Opd)
  | qclear (h : Hdr) (a b : Opd)
  | segbegin (h : Hdr) (a b : Opd)
  | segseal (h : Hdr) (a b : Opd)
  | link (h : Hdr) (d a b : Opd)
  | linkVfy (h : Hdr) (d a b : Opd)
  | unlink (h : Hdr) (d a b : Opd)
  | kvgath (h : Hdr) (arv : Arv) (d : Option Opd) (a : Opd) (b : Option Opd)
  | ropeq (h : Hdr) (d a b : Opd)
  | repset (h : Hdr) (d a : Opd)
  | ovlcommit (h : Hdr) (d a b : Opd)
  -- sampling (R356 to R364)
  | rngc (h : Hdr) (d a b : Opd)
  | gumbel (h : Hdr) (d a b : Opd)
  | latexp (h : Hdr) (d a : Opd)
  | accept (h : Hdr) (d a : Opd)
  -- system (R396 to R400, R167)
  | launch (h : Hdr) (d a : Opd)
  | trap (h : Hdr) (code : BitVec 16)
  | srd (h : Hdr) (d a : Opd) (b : Option Opd)
  | swr (h : Hdr) (d a : Opd) (b : Option Opd)
  | specdepthSetPending (ctx : Nat) (value : Word)
  | specdepthApplyImmediate (ctx : Nat) (value : Word)
  | specdepthCancel (ctx : Nat) (value : Word)
  | nop (h : Hdr)
  -- events of the issuing group
  | illegalWord (cause : BitVec 8) (role : Bool)
  | longLatencyWriteback (gk : Nat)
  | fragmentReturn (gk : Nat)
  | watchdogOverrun
  | waitEvaluation (gk : Nat)
  | waitTimeout (gk : Nat)
  -- events of the buffers, engines, device jobs and Cascade units
  | bufferFill (b : BufId) (ctx line : Nat)
  | bufferClean (b : BufId) (ctx line : Nat)
  | bufferDrop (b : BufId) (ctx line : Nat)
  | engineStep (e j off : Nat)
  | gatherTokenStep (e j tok : Nat)
  | deviceJobStep (d j off : Nat)
  | copyJobCompletion (e : Nat)
  | gatherCompletion (e : Nat)
  | cloneCompletion (d j : Nat)
  | tokenComparisonCompletion (d j : Nat)
  | linkVfyDecision (gk : Nat)
  | jobFaultDelivery (gk : Nat)
  | cascadeRead (crew j region : Nat)
  | epilogueWrite (crew j elem : Nat)
  | cascadeCompletion (crew : Nat)
  -- events of the control core
  | parkService (w : Parked) (leaf : Option Leaf)
  | debugResume (gk : Nat)
  | debugKill (gk : Nat)
  | debugWindowWrite (gk off : Nat) (value : Word)
  -- events of the schedulers
  | crewOffer (handle lin : Nat)
  | placementWaitExpiry (handle lin core : Nat)
  | crewRetire (crew : Nat)
  | launchEnd (handle : Nat)
  | contextSwitchOut (ctx : Nat)
  | contextValidObserved (ctx : Nat)
  | contextSwitchComplete (crew : Nat)
  -- events of the system
  | hostAccess (sp : HostSpace) (addr : Nat) (data : Option (List Byte))
  | reset
  | functionTrainingEnd (f : Func) (ok : Bool)
  | bootStart (hi : Word)
  | managementRegisterWrite (off : Nat) (value : Word)
  | flitCrcRetry (port : Nat)
  | portDegrade (port lanes : Nat)
  | packageUnreachable (pkg : Nat)
  | migrationInstallComplete (d j : Nat) (leaf : Leaf)
  | patrolScrub (granule : Nat) (r : Scrubbed)
  | contextSwitchIn (ctx : Nat)
  | hostUnreachable
  deriving DecidableEq, Repr, Inhabited

end Sys2Proof
end

