-- ==== Sys2Proof/Machine/State.lean ====
section
/-!
DEFINITION. The state of the device, as plain data: everything the manual gives the package (INVENTORY.md, State),
and `State.reset`. Stores of registers and bytes are lists of (key, value) pairs with strictly rising keys.
-/

namespace Sys2Proof.Machine

/-- Why a step stops without a next state. No rule of the manual stops the machine: every exception is taken as a next
state (R385, R236, R391). The constructor is raised by no meaning; it keeps the type inhabited (safe). -/
inductive Fault where
  /-- Raised by nobody: reserved for a machine with no step at all. Safe: it can only stop a run. -/
  | halted
  deriving DecidableEq, Repr

/-- Why an instruction has no meaning here. -/
inductive Refusal where
  /-- Raised by an arm of `exec` whose instruction is not yet modelled. Safe: it can only stop a run. -/
  | notModelled (mnemonic : String)
  deriving DecidableEq, Repr

/-- Keys `lo` to `hi - 1` of a bank whose contents are undefined: each reads as a free value of this seed (log entry 4). -/
structure Hole where
  lo   : Nat
  hi   : Nat
  seed : Nat
  deriving DecidableEq, Repr

/-- A store of `w`-bit cells: what was written, and the undefined ranges underneath; any other key reads zero. -/
structure Bank (w : Nat) where
  cells : List (Nat × BitVec w)
  holes : List Hole
  deriving DecidableEq, Repr

/-- The empty bank: every key reads zero. -/
def Bank.zero (w : Nat) : Bank w := ⟨[], []⟩

/-- One STR line in a buffer (R203, R210, R421). -/
structure BufLine where
  buf    : BufId
  ctx    : Nat
  line   : Nat
  value  : BitVec 1024
  dirty  : BitVec 128
  poison : BitVec 4
  deriving DecidableEq, Repr

/-- A counted tile (R224, R246): its bytes by offset, and its poisoned granules of 32 bytes (R421). -/
structure Tile where
  die    : Nat
  slot   : Nat
  ctx    : Nat
  handle : Nat
  gen    : Nat
  readers : Nat
  lines  : Nat
  bytes  : List (Nat × Byte)
  poison : List Nat
  order  : Nat
  deriving DecidableEq, Repr

/-- Where the loader placed the tables and the code of an image (R126, R127); the manual does not say how the device
finds them from a descriptor's address (log entry 5). -/
structure Image where
  ctx   : Nat
  code  : Nat
  codeEnd : Nat
  desc  : Nat
  descEnd : Nat
  recs  : Nat
  bars  : Nat
  roles : Nat
  lives : Nat
  cbs   : Nat
  deriving DecidableEq, Repr

/-- A kernel descriptor as the device read it (R116). -/
structure Desc where
  addr    : Nat
  entry   : Nat
  crew    : Nat
  split   : Nat
  vregs   : Nat
  deadline : Nat
  arglen  : Nat
  scratch : Nat
  fpmode  : Word
  rec0    : Nat
  recCnt  : Nat
  bar0    : Nat
  barCnt  : Nat
  role0   : Nat
  roleCnt : Nat
  live0   : Nat
  liveCnt : Nat
  cb0     : Nat
  cbCnt   : Nat
  deriving DecidableEq, Repr

/-- A role entry (R119). -/
structure RoleDecl where
  first : Nat
  count : Nat
  role  : Nat
  entry : Nat
  deriving DecidableEq, Repr

/-- A barrier entry (R118). -/
structure BarDecl where
  level   : Nat
  index   : Nat
  count   : Nat
  members : Word
  deriving DecidableEq, Repr

/-- A barrier instance (R267): phase P, expected E, arrived count C, pending drops Q, and the groups (by key) whose
arrived or dropped flag is set. -/
structure BarInst where
  level   : Nat
  index   : Nat
  phase   : Word
  expect  : Nat
  count   : Nat
  drops   : Nat
  arrived : List Nat
  dropped : List Nat
  deriving DecidableEq, Repr

/-- An instance shared by a pod join set (R413), with the launches of other packages that are in the set. -/
structure PodBar where
  ctx  : Nat
  desc : Nat
  inst : BarInst
  remote : Nat
  deriving DecidableEq, Repr

/-- An accepted launch (R371 to R384). `met` says that its DONE word held 1 after its end (R376), `ownSplit` that its record gave
its split (R371), `roleTorn` that a store left the roles of its groups undefined, with their seed (R129). -/
structure Launch where
  handle  : Nat
  ctx     : Nat
  issuer  : Nat
  parent  : Option Nat
  desc    : Desc
  image   : Image
  queue   : Nat
  pre     : List Nat
  met     : Bool
  cx      : Nat
  cy      : Nat
  cz      : Nat
  split   : Nat
  ownSplit : Bool
  args    : List (Nat × Word)
  done    : Nat
  stats   : Nat
  roles   : List RoleDecl
  roleTorn : Option Nat
  bars    : List BarDecl
  insts   : List BarInst
  next    : Nat
  retired : Nat
  traps   : Nat
  killed  : Nat
  ended   : Bool
  deriving DecidableEq, Repr

/-- Observed state of a context (R368, R361, R45). -/
structure Context where
  id      : Nat
  valid   : Bool
  run     : Bool
  ybound  : Nat
  depth   : Word
  freeq   : Nat
  qtab    : Nat
  save    : Nat
  savecap : Nat
  deriving DecidableEq, Repr

/-- A core: its split and its drain mark (R31, R34). -/
structure Core where
  id    : Nat
  split : Nat
  drain : Bool
  splitDrain : Bool
  deriving DecidableEq, Repr

/-- A result-ring slot (R296): 0 empty, 1 open, 2 done; INT32 or FP32. -/
structure Slot where
  st    : Nat
  int32 : Bool
  deriving DecidableEq, Repr

/-- A record with its index in the kernel's table. -/
structure RecRef where
  r  : Rec
  ix : Nat
  deriving DecidableEq, Repr

/-- What an attention job adds to a dense one (R290, R310): the mask record, whether it is the value phase, and the
query and key origins. -/
structure AttnRef where
  mask  : RecRef
  value : Bool
  qo    : Nat
  ko    : Nat
  deriving DecidableEq, Repr

/-- What a Cascade job does (R304), with the fields of its block. `open` and `close` are the ring flags. -/
inductive CascOp where
  | mcb (slot : Nat) (addr : Nat)
  | msort (g0 n cb q : Nat) (ctd : Option Nat) (off : Nat) (rc : RecRef)
  | mparts (opn cls sp : Bool) (e0 pitch col n q : Nat) (rc : RecRef)
  | mloop (opn cls spa spb : Bool) (ctb : Option Nat) (a0 ai b0 bi c off : Nat) (ra rb : RecRef)
      (attn : Option AttnRef)
  | eprun (arv : Nat) (aw : Nat) (val : Word) (cfg : BitVec 128) (rc : RecRef)
  | epcfg (val : BitVec 128)
  | pop
  deriving DecidableEq, Repr

/-- A job in a Cascade unit's window (R284), or an ordered non-job waiting its turn (R304): its window opening and its
issue as stamps, the regions read (`got`, each as a list of codes, and `gotAt`, the stamp of each region's read) and the
elements an `eprun` wrote (`wrote`), the cause it met with what the record names, and whether a translation fault pauses
it. -/
structure CascJob where
  op     : CascOp
  gid    : Nat
  pc     : Nat
  word   : IWord
  opened : Nat
  issued : Nat
  got    : List (Nat × List Nat)
  gotAt  : List (Nat × Nat)
  wrote  : List Nat
  fault  : Option (BitVec 8)
  failAt : Nat
  paused : Bool
  deriving DecidableEq, Repr

/-- The Cascade unit's state (R283). -/
structure CascUnit where
  perm   : Bank 512
  permT  : List (Nat × Nat)
  cbs    : Bank 256
  ws     : Bank 48
  slots  : List Slot
  ring   : Bank 32
  head   : Nat
  tail   : Nat
  epc    : BitVec 128
  jobs   : List CascJob
  deriving DecidableEq, Repr

/-- Why a crew left its core (R383). -/
inductive Away where
  | switch | join | prio
  deriving DecidableEq, Repr

/-- Where a crew is. -/
inductive CrewStat where
  | resident
  | saved (why : Away)
  | retired
  deriving DecidableEq, Repr

/-- A byte of the crew's window that was written, with what it held before, the write's stamp, and whether a group
wrote it (R219, R221, R223). -/
structure Past where
  addr  : Nat
  old   : Byte
  stamp : Nat
  grp   : Bool
  deriving DecidableEq, Repr

/-- A store to memory while jobs are outstanding: bytes that queued jobs and operand windows must treat as undefined
(R219, R223, R349). `grp` says that a group made it, and not an engine or the host; `own` that an instruction or job on
KV state made it. The bytes of a counted tile stand under the context number 65,536 + handle. -/
structure Seen where
  ctx   : Nat
  va    : Nat
  len   : Nat
  stamp : Nat
  grp   : Bool
  own   : Bool
  deriving DecidableEq, Repr

/-- Bytes whose contents are undefined for those who use them after a store: code for a crew that was resident (R55),
tables for a launch in progress (R129). -/
structure Torn where
  handle : Nat
  crew   : Option Nat
  va     : Nat
  len    : Nat
  deriving DecidableEq, Repr

/-- A crew (R22). `slots`, `slot0` and `savedAt` say where its image lies in the save arena and since when (R382);
`poison` names the poisoned granules of 32 bytes of its space: scratchpad, arrival words, register windows (R35, R420,
R421). -/
structure Crew where
  id      : Nat
  handle  : Nat
  lin     : Nat
  core    : Nat
  base    : Nat
  stat    : CrewStat
  scr     : Bank 8
  poison  : List Nat
  aw      : Bank 8
  recs    : List Rec
  insts   : List BarInst
  hasUnit : Bool
  unit    : CascUnit
  children : Nat
  pending : Option Away
  past    : List Past
  strLines : List Nat
  slots   : Nat
  slot0   : Nat
  savedAt : Nat
  deriving DecidableEq, Repr

/-- What a control transfer does at its run's trailer (R173). -/
inductive Xfer where
  | goto (a : Nat)
  | split (taken : Word) (ta fa x : Nat)
  | exit
  deriving DecidableEq, Repr

/-- A fragment (R38): `pos` counts the words of its run, `tw` the run temporaries written in it (R69), `replay` is the
execution mask of an instruction to be replayed (R236), `due` says that its group parked at the fetch of its word, which has
still to issue (R54, R386), `atPoint` that it waits at a yield or blocking point (R41). `owes` names the registers that the
replay is still to write (R237), and `early` says that the replay is of atomics that came before their turn (R424). -/
structure Frag where
  mask   : Word
  pc     : Nat
  stack  : List (Nat × Nat)
  count  : Nat
  pos    : Nat
  tw     : BitVec 8
  xfer   : Option Xfer
  replay : Option Word
  due    : Bool
  atPoint : Bool
  owes   : List Opd
  early  : Bool
  deriving DecidableEq, Repr

/-- What a group does now. `stopped` and `parked` name the fragment, by its lowest thread, and
the word at which it stopped; a park names the address without a mapping (R236, R392). -/
inductive GroupStat where
  | run
  | stopped (low : Nat) (resume : Nat) (word : IWord)
  | parked (low : Nat) (clone : Bool) (va : Nat) (word : IWord)
  | held
  | ended
  deriving DecidableEq, Repr

/-- A blocking instruction in progress (R46, R344), with its word where another agent's step may end it. -/
inductive Block where
  | wait (deadline : Option Nat) (all : Bool) (d a : Nat) (word : IWord)
  | bar (key : Nat)
  | regroup (pc : Nat) (members live : Word) (word : IWord)
  | join
  | vfy (low : Nat) (result : Option Bool) (d a b : Opd) (word : IWord)
  deriving DecidableEq, Repr

/-- A register cell a long-latency write fills: vector register `n` of thread `i`, or group register `n`. -/
inductive Cell where
  | v (n i : Nat)
  | g (n : Nat)
  deriving DecidableEq, Repr

/-- An outstanding long-latency write (R70): its registers, what it writes, the mask of the fragment that issued it,
and whether that fragment's run is still open. -/
structure Pend where
  regs  : List Opd
  cells : List (Cell × Word)
  frag  : Word
  inRun : Bool
  deriving DecidableEq, Repr

/-- A job's cause waiting for its group's next instruction boundary (R262, R285, R301, R386). `silent` marks a cause
whose record is already written. -/
structure JobFault where
  cause : BitVec 8
  pc    : Nat
  word  : IWord
  src   : BitVec 16
  info0 : DWord
  info1 : DWord
  info2 : DWord
  silent : Bool
  deriving DecidableEq, Repr

/-- A group (R16, R26). `recount` says that a blocked instruction re-executes after its group resumed, and so counts
again (R45). -/
structure Group where
  crew   : Nat
  gid    : Nat
  role   : Nat
  lane   : Nat
  slot   : Nat
  vbase  : Nat
  v      : Bank 32
  g      : Bank 32
  p      : Bank 32
  t      : Bank 32
  pins   : List (Nat × DWord)
  fpmode : Word
  faultmask : Word
  tscHi  : Option Word
  refHi  : Option Word
  frags  : List Frag
  spilled  : List Frag
  splitNo : Nat
  wdog   : Nat
  prio   : Nat
  stat   : GroupStat
  block  : Option Block
  recount : Bool
  out    : List Pend
  jobFaults : List JobFault
  opening : Nat
  barPh  : List (Nat × Word)
  deriving DecidableEq, Repr

/-- Where a copy job reads or writes (R260): memory, the bytes of a stream chunk under a record's class and index (R263),
scratchpad, or the elements of a record. -/
inductive Place where
  | mem (va : Nat)
  | chunk (va cls idx : Nat)
  | scr (a : Nat)
  | elems (rc : Rec) (idx e0 : Nat)
  | packed (rc : Rec) (a : Nat)
  deriving DecidableEq, Repr

/-- One token of a gather: frame index, slot and the frame's data address (R347). `freed` says that the frame's free action ran
since (R349). -/
structure GatherTok where
  frame : Nat
  slot  : Nat
  data  : Nat
  pos   : Nat
  entryAddr : Nat
  fmt   : Nat
  kexp  : Int
  vexp  : Int
  freed : Bool
  deriving DecidableEq, Repr

/-- A gather job (R347, R348). -/
structure Gather where
  rcd    : Nat
  layer  : Nat
  head   : Nat
  toks   : List GatherTok
  koff   : Nat
  voff   : Nat
  hd     : Nat
  rot    : Nat
  tensor : Nat
  name   : DWord
  deriving DecidableEq, Repr

/-- What a copy job does (R260, R261, R347). -/
inductive JobKind where
  | copy
  | fill (pat : Word)
  | cvt
  | stream (rc : Rec) (idx chunk : Nat)
  | gather (x : Gather)
  deriving DecidableEq, Repr

/-- A job of a copy engine (R217, R260). `moved` lists the chunks moved by their offset, `left` what remains. -/
structure Job where
  kind   : JobKind
  crew   : Nat
  gid    : Nat
  ctx    : Nat
  handle : Nat
  pc     : Nat
  word   : IWord
  src    : Place
  dst    : Place
  len    : Nat
  arv    : Nat
  awOff  : Nat
  awVal  : Word
  bytes  : Nat
  moved  : List Nat
  left   : Nat
  paused : Bool
  pauseAt : Nat
  failed : Bool
  issued : Nat
  deriving DecidableEq, Repr

/-- The queue of one copy engine. -/
structure Engine where
  id   : Nat
  jobs : List Job
  deriving DecidableEq, Repr

/-- A device job (R203): a clone, a token comparison (with the address of the segment's record), a page migration. -/
inductive DevKind where
  | clone (src dst keyLen entryAddr : Nat) (name : DWord)
  | compare (rcd x y len : Nat) (bad : Bool)
  | migrate (src dst size : Nat)
  deriving DecidableEq, Repr

/-- A device job of a die. -/
structure DevJob where
  die    : Nat
  kind   : DevKind
  crew   : Nat
  gid    : Nat
  ctx    : Nat
  pc     : Nat
  word   : IWord
  moved  : List Nat
  left   : Nat
  paused : Bool
  pauseAt : Nat
  issued : Nat
  deriving DecidableEq, Repr

/-- Who holds a pin-set entry (R203): a pin register, a clone or a gather. -/
inductive PinBy where
  | reg (gk n : Nat)
  | clone (gk : Nat)
  | gather (gk : Nat)
  deriving DecidableEq, Repr

/-- An entry of the pin set (R203, R427). -/
structure PinEnt where
  ctx  : Nat
  by_  : PinBy
  name : DWord
  deriving DecidableEq, Repr

/-- A name on a die's deferred list (R203, R427). -/
structure DeferEnt where
  die  : Nat
  ctx  : Nat
  name : DWord
  deriving DecidableEq, Repr

/-- The accepted boot record (R417). -/
structure Boot where
  replay : Nat
  fq     : Nat
  ptt    : Nat
  ctxt   : Nat
  wlr    : Nat
  root0  : Nat
  deriving DecidableEq, Repr

/-- One atomic of a replay log (R423): whether it acts on a crew's scratchpad or on memory, the bytes it acts on (by context
and virtual address, or crew and offset), the physical key that memory had then, who applied it (crew, group and thread), and
its place in the order of all. -/
structure AtomEnt where
  scr  : Bool
  addr : Nat
  key  : Nat
  len  : Nat
  who  : Nat
  seq  : Nat
  deriving DecidableEq, Repr

/-- One entry of the replay log (R423): where it lies in the log area, its length, and the seed of its bytes, which are
not architectural (R422); then what it holds. Handle 0 stands for an entry that no launch has taken yet. -/
structure LogEnt where
  at_    : Nat
  size   : Nat
  seed   : Nat
  handle : Nat
  record : BitVec 512
  args   : List (Nat × Word)
  places : List (Nat × Nat)
  atoms  : List AtomEnt
  deriving DecidableEq, Repr

/-- The attachment, the management window and the links (R408 to R419), and the replay log (R422 to R424): `rplLog` is
what was recorded since reset, `rplSaved` what was recorded before, `rplPlay` the entries in force under MODE 2, taken
or still to be taken, `rplNo` the launches accepted under MODE 2, `rplSeq` the atomics recorded so far. -/
structure Sys where
  bootLo  : Word
  bootHi  : Word
  bootReq : Bool
  started : Bool
  ready   : Word
  fail    : Word
  links   : Word
  cec     : Word
  uec     : Word
  lanes   : List (Nat × Nat)
  lost    : List Nat
  hostLost : Bool
  boot    : Option Boot
  rplMode : Nat
  rplStop : Bool
  rplLog  : List LogEnt
  rplSaved : List LogEnt
  rplPlay : List LogEnt
  rplNo   : Nat
  rplSeq  : Nat
  deriving DecidableEq, Repr

/-- Where an ECC error lies (R420): a granule of memory, by physical key; of a buffer's line; of a crew's space (R35), which lies in its
core's store; of a counted tile. -/
inductive EccAt where
  | mem (granule : Nat)
  | line (b : BufId) (ctx line i : Nat)
  | scr (crew granule : Nat)
  | tile (die slot granule : Nat)
  deriving DecidableEq, Repr

/-- One turn of the agenda: a fragment issues; a lane has an issue opportunity and selects (R21, R379); an event happens;
time passes; the loader reports an image; the run-time starts the copy of a page it migrates (R403); the host writes a
doubleword of the DVSEC (R408); an error meets ECC (R420); another package, if `far`, or else the host writes at a physical
key, with poison on some granules (R209, R410, R421); the control core writes a context's yield bound (R45), or the debug
window of a group (R393); the Wellhead program sets a die's placement wait (R34); a launch of package `pkg`, another than this
one, enters a pod join set, one of its groups arrives or drops, or it ends (R410, R413). -/
inductive Turn where
  | issue (gk low : Nat)
  | lane (core lane : Nat)
  | event (i : Instr)
  | pass (ns : Nat)
  | image (im : Image)
  | migrate (die src dst size : Nat)
  | config (off : Nat) (v : Word)
  | error (at_ : EccAt) (uncorrectable : Bool)
  | outside (far : Bool) (key : Nat) (xs : List Byte) (poison : List Nat)
  | ybound (ctx v : Nat)
  | window (die addr : Nat) (v : Word)
  | pwait (die ns : Nat)
  | podJoin (pkg ctx desc : Nat) (bars : List BarDecl)
  | podArrive (pkg ctx desc index key : Nat)
  | podDrop (pkg ctx desc index key : Nat)
  | podEnd (pkg ctx desc : Nat)
  deriving DecidableEq, Repr

/-- What a group waits for that takes its waiters oldest first: a slot of a die's directory (R249), of an engine's queue
(R262), of a crew's operand window (R284). -/
inductive Queue where
  | fill (die : Nat)
  | engine (e : Nat)
  | window (crew : Nat)
  deriving DecidableEq, Repr

/-- A fragment that an instruction at `pc` holds, in the order in which they came. -/
structure Waiter where
  on  : Queue
  gk  : Nat
  low : Nat
  pc  : Nat
  deriving DecidableEq, Repr

/-- A candidate of a lane (R379): the opportunities at which it was ready and not selected, and the lane cycles for which
DLY still holds it (R64). -/
structure Pick where
  gk  : Nat
  low : Nat
  age : Nat
  dly : Nat
  deriving DecidableEq, Repr

/-- The page-entry and frame-entry tables of a KV record that an instruction used (R321, R322, R324). -/
structure KvTab where
  ctx  : Nat
  etab : Nat
  ecnt : Nat
  ftab : Nat
  fcnt : Nat
  deriving DecidableEq, Repr

/-- A page entry that some other store wrote in the step under way, with its former value (R324). -/
structure KvTorn where
  tab : KvTab
  e   : Nat
  old : Nat
  deriving DecidableEq, Repr

/-- A sealed array of a segment, token array or mask, with the address of the segment's record, and whether something stored to
the array since the seal (R343). -/
structure Seal where
  ctx  : Nat
  rcd  : Nat
  a    : Nat
  n    : Nat
  torn : Bool
  deriving DecidableEq, Repr

/-- A crew that an offer found failing condition 4 or 5 of R33 on a core with room for it in total, and since when it has
failed so (R34). -/
structure Failing where
  handle : Nat
  lin    : Nat
  core   : Nat
  since  : Nat
  deriving DecidableEq, Repr

/-- The group and the fragment (by its lowest thread) that issue. -/
structure Focus where
  gk  : Nat
  low : Nat
  deriving DecidableEq, Repr

/-- The state of the package (INVENTORY.md, State). A group's key is crew × 32 + gid. `held` says that the turn under way
met a page on the move (R403). -/
structure State where
  nanos  : Nat
  tsc    : BitVec 64
  pkg    : Nat
  sys    : Sys
  mem    : List (Nat × Byte)
  poison : List Nat
  dev    : List (Nat × Byte)
  bufs   : List BufLine
  tiles  : List Tile
  gens   : List (Nat × Nat)
  fillNo : Nat
  ctxs   : List Context
  stats  : List (Nat × Word)
  images : List Image
  nextHandle : Nat
  launches : List Launch
  podBars : List PodBar
  cores  : List Core
  crews  : List Crew
  groups : List Group
  engines : List Engine
  djobs  : List DevJob
  pins   : List PinEnt
  deferred : List DeferEnt
  agenda : List Turn
  focus  : Focus
  word   : IWord
  seen   : List Seen
  tornAt : List Torn
  stamp  : Nat
  free   : Nat
  crewNo : Nat
  held   : Bool
  waiters : List Waiter
  picks  : List Pick
  kvTabs : List KvTab
  kvTorn : List KvTorn
  seals  : List Seal
  fails  : List Failing
  pwait  : List (Nat × Nat)
  deriving DecidableEq, Repr

/-- The descriptor's default split: R 16, S 12, L 4 KiB, not fused (R116). -/
def splitDefault : Nat := 0x4184

/-- The system part after reset release (R408, R409, R414, R418; log entry 2). -/
def Sys.reset : Sys :=
  { bootLo := 0#32, bootHi := 0#32, bootReq := false, started := false, ready := 0#32, fail := 0#32, links := 0#32,
    cec := 0#32, uec := 0#32, lanes := [], lost := [], hostLost := false, boot := none, rplMode := 0,
    rplStop := false, rplLog := [], rplSaved := [], rplPlay := [], rplNo := 0, rplSeq := 0 }

/-- The machine right after reset release (R414): no context, no launch, no crew, memory with nothing listed. -/
def State.reset : State :=
  { nanos := 0, tsc := 0#64, pkg := 0, sys := Sys.reset, mem := [], poison := [], dev := [], bufs := [], tiles := [],
    gens := [], fillNo := 0, ctxs := [], stats := [], images := [], nextHandle := 1, launches := [], podBars := [],
    cores := [], crews := [], groups := [], engines := [], djobs := [], pins := [], deferred := [], agenda := [],
    focus := ⟨0, 0⟩, word := 0#96, seen := [], tornAt := [], stamp := 0, free := 0, crewNo := 0,
    held := false, waiters := [], picks := [], kvTabs := [], kvTorn := [], seals := [],
    fails := [], pwait := [] }

end Sys2Proof.Machine
end

