-- ==== Sys2Proof/Machine/Store.lean ====
section
/-!
DEFINITION. Keyed lists, banks of cells and the memory list: reading, writing, and making a range undefined. Bits of
numbers and little-endian bytes (R5, R6) stand here too.
-/

namespace Sys2Proof.Machine

/-- Bits `hi` down to `lo` of a number (R13). -/
def bits (x hi lo : Nat) : Nat := (x >>> lo) % 2 ^ (hi + 1 - lo)

/-- `x` taken as an `n`-bit two's-complement value (R13). -/
def sextNat (x n : Nat) : Int :=
  let y := x % 2 ^ n
  if y < 2 ^ (n - 1) then (y : Int) else (y : Int) - (2 : Int) ^ n

/-- An integer as `n` bits of two's complement. -/
def wrapInt (n : Nat) (z : Int) : Nat := (z % (2 : Int) ^ n).toNat

/-- Insert into a sorted list, before the first element that stays after it. -/
def insertBy {α : Type} (le : α → α → Bool) (x : α) : List α → List α
  | [] => [x]
  | y :: r => if le x y then x :: y :: r else y :: insertBy le x r

/-- A stable sort by structural recursion. -/
def sortBy {α : Type} (le : α → α → Bool) : List α → List α
  | [] => []
  | x :: r => insertBy le x (sortBy le r)

/-- Entry at a key. -/
def lookup {β : Type} : List (Nat × β) → Nat → Option β
  | [], _ => none
  | (j, x) :: r, k => if j = k then some x else lookup r k

/-- Insert or replace, keeping keys rising. -/
def put {β : Type} : List (Nat × β) → Nat → β → List (Nat × β)
  | [], k, x => [(k, x)]
  | (j, y) :: r, k, x =>
    if k < j then (k, x) :: (j, y) :: r else if k = j then (k, x) :: r else (j, y) :: put r k x

/-- Remove a key. -/
def erase {β : Type} (l : List (Nat × β)) (k : Nat) : List (Nat × β) := l.filter (fun e => e.1 != k)

/-- Keys strictly rising. -/
def rising {β : Type} : List (Nat × β) → Bool
  | [] => true
  | [_] => true
  | (j, _) :: (k, y) :: r => decide (j < k) && rising ((k, y) :: r)

/-- A key of a bank: what was written, else the undefined value of the topmost hole over it, else zero. -/
def Bank.get {w : Nat} (b : Bank w) (k : Nat) : BitVec w :=
  match lookup b.cells k with
  | some x => x
  | none =>
    match b.holes.find? (fun h => decide (h.lo ≤ k) && decide (k < h.hi)) with
    | some h => Config.free w (h.seed * 2 ^ 40 + k)
    | none => 0#w

/-- Write a key of a bank. -/
def Bank.set {w : Nat} (b : Bank w) (k : Nat) (x : BitVec w) : Bank w := { b with cells := put b.cells k x }

/-- Make keys `lo` to `hi - 1` undefined. -/
def Bank.havoc {w : Nat} (b : Bank w) (lo hi seed : Nat) : Bank w :=
  { cells := b.cells.filter (fun e => decide (e.1 < lo) || decide (hi ≤ e.1)),
    holes := ⟨lo, hi, seed⟩ :: b.holes.filter (fun h => !(decide (lo ≤ h.lo) && decide (h.hi ≤ hi))) }

/-- Make keys `lo` to `hi - 1` zero again. -/
def Bank.fill {w : Nat} (b : Bank w) (lo n : Nat) (x : BitVec w) : Bank w :=
  (List.range n).foldl (fun b i => b.set (lo + i) x) b

/-- What an unlisted byte of memory reads as (R414: undefined; log entry 3). -/
def unlisted : Byte := 0#8

/-- One byte of the memory list. -/
def memGet (m : List (Nat × Byte)) (k : Nat) : Byte := (lookup m k).getD unlisted

/-- Write one byte, keeping the canonical form: no entry equal to what an unlisted byte reads as. -/
def memSet (m : List (Nat × Byte)) (k : Nat) (x : Byte) : List (Nat × Byte) :=
  if x = unlisted then erase m k else put m k x

/-- The canonical form of memory: keys strictly rising, no entry that an unlisted byte would read as. -/
def Memory.wf (m : List (Nat × Byte)) : Bool := rising m && m.all (fun e => e.2 != unlisted)

/-- Bytes as a little-endian number (R6). -/
def leNat : List Byte → Nat
  | [] => 0
  | x :: r => x.toNat + 256 * leNat r

/-- A number as `n` little-endian bytes (R6). -/
def leBytes : Nat → Nat → List Byte
  | 0, _ => []
  | n + 1, x => BitVec.ofNat 8 x :: leBytes n (x / 256)

/-- `n` bytes of memory from a physical key. -/
def memBytes (m : List (Nat × Byte)) (k n : Nat) : List Byte := (List.range n).map (fun i => memGet m (k + i))

/-- Write bytes of memory from a physical key. -/
def memPut (m : List (Nat × Byte)) (k : Nat) : List Byte → List (Nat × Byte)
  | [] => m
  | x :: r => memPut (memSet m k x) (k + 1) r

/-- The threads of a mask, ascending. -/
def lanes (m : Word) : List Nat := (List.range Config.W).filter (fun i => m.getLsbD i)

/-- The lowest thread of a mask; W for an empty one. -/
def lowest (m : Word) : Nat := ((List.range Config.W).find? (fun i => m.getLsbD i)).getD Config.W

/-- The number of threads of a mask. -/
def popcount (m : Word) : Nat := (lanes m).length

/-- A mask of the threads a test holds for. -/
def maskOf (f : Nat → Bool) : Word :=
  (List.range Config.W).foldl (fun m i => if f i then m ||| (1#32 <<< i) else m) 0#32

/-- All 32 threads. -/
def allThreads : Word := 0xFFFFFFFF#32

/-- Ceiling division. -/
def ceilDiv (a b : Nat) : Nat := (a + b - 1) / b

/-- Round up to a multiple. -/
def roundUp (a b : Nat) : Nat := ceilDiv a b * b

/-- Whether an unordered pair of ranges of the given lengths meets. -/
def overlaps (a n b m : Nat) : Bool := decide (a < b + m) && decide (b < a + n) && decide (0 < n) && decide (0 < m)

end Sys2Proof.Machine
end

