-- ==== Sys2Proof/Machine/Paging.lean ====
section
/-!
DEFINITION. Translation (R199, R200, R401, R402): the walk of the radix page table of a context, and the physical key
of the byte a virtual address names. A page being moved holds its accesses (R403).
-/

namespace Sys2Proof.Machine

/-- A page as its leaf describes it: class 0 COH, 1 STR, 2 DEV, permissions, and the key of the addressed byte. -/
structure Page where
  key : Nat
  cls : Nat
  rd  : Bool
  wr  : Bool
  ex  : Bool
  leafKey : Nat
  deriving DecidableEq, Repr

/-- The outcome of a translation. -/
inductive Trans where
  | page (p : Page)
  | cause (c : BitVec 8)
  | hold
  deriving DecidableEq, Repr

/-- Bytes of one HBM stack: 80 GB (R402). -/
def stackBytes : Nat := 80000000000

/-- Bytes of device memory: 1,280 GB (R402). -/
def deviceBytes : Nat := 1280000000000

/-- The physical key of host memory (R402, tier T3). -/
def hostKey (pa : Nat) : Nat := 6145 * 2 ^ 51 + pa

/-- The physical key of memory lent by a package (R402, tier T2); this package's own memory is its T1 memory. -/
def pkgKey (s : State) (pkg pa : Nat) : Nat := if pkg = s.pkg then pa else (1 + pkg) * 2 ^ 51 + pa

/-- An 8-byte table entry at a device address. -/
def entryAt (s : State) (pa : Nat) : Nat := leNat (memBytes s.mem pa 8)

/-- A pointer entry: V, not LEAF, every other field than FRAME zero (R401). -/
def pointerOk (e : Nat) : Bool := bits e 63 63 == 1 && bits e 62 62 == 0 && bits e 61 39 == 0

/-- A leaf entry of 2 MiB or 64 KiB that keeps the rules of R401 and R402. -/
def leafOk (big : Bool) (e : Nat) : Bool :=
  bits e 63 63 == 1 && bits e 62 62 == 1 && bits e 61 60 != 3 && bits e 59 58 != 3 && bits e 52 52 == 0
    && (if bits e 59 58 == 1 then decide (bits e 51 39 ≤ 6143) else bits e 51 39 == 0)
    && (if big then bits e 38 0 % 512 == 0 else bits e 38 0 % 16 == 0)
    && (if bits e 59 58 == 2 then true
        else
          let pa := bits e 38 0 * 4096
          let n := if big then 2 ^ 21 else 2 ^ 16
          decide (pa + n ≤ deviceBytes) && pa / stackBytes == (pa + n - 1) / stackBytes)

/-- The leaf found by the walk: its own device address, its value, whether it is a 2 MiB page. -/
structure Found where
  at_ : Nat
  e   : Nat
  big : Bool
  deriving DecidableEq, Repr

/-- The walk from a root (R401). -/
def walk (s : State) (root va : Nat) : Option Found :=
  let e1 := entryAt s (root + 8 * bits va 55 47)
  if pointerOk e1 then
    let e2 := entryAt s (bits e1 38 0 * 4096 + 8 * bits va 46 38)
    if pointerOk e2 then
      let e3 := entryAt s (bits e2 38 0 * 4096 + 8 * bits va 37 29)
      if pointerOk e3 then
        let a4 := bits e3 38 0 * 4096 + 8 * bits va 28 21
        let e4 := entryAt s a4
        if leafOk true e4 then some ⟨a4, e4, true⟩
        else if pointerOk e4 then
          let a5 := bits e4 38 0 * 4096 + 8 * bits va 20 16
          let e5 := entryAt s a5
          if leafOk false e5 then some ⟨a5, e5, false⟩ else none
        else none
      else none
    else none
  else none

/-- The device address a leaf gives a virtual address, before its tier is taken into account. -/
def Found.pa (x : Found) (va : Nat) : Nat :=
  bits x.e 38 0 * 4096 + (if x.big then va % 2 ^ 21 else va % 2 ^ 16)

/-- Whether a stack failed its training (R415, R419). -/
def stackFailed (s : State) (pa : Nat) : Bool := s.sys.fail.getLsbD (pa / stackBytes)

/-- The physical key of the byte that a leaf gives a virtual address (R402). -/
def Found.key (s : State) (x : Found) (va : Nat) : Nat :=
  if bits x.e 59 58 == 0 then x.pa va
  else if bits x.e 59 58 == 1 then pkgKey s (bits x.e 51 39) (x.pa va)
  else hostKey (x.pa va)

/-- The page of a leaf, as an access to a virtual address uses it. -/
def Found.page (s : State) (x : Found) (va : Nat) : Page :=
  ⟨x.key s va, bits x.e 61 60, bits x.e 55 55 == 1, bits x.e 54 54 == 1, bits x.e 53 53 == 1, x.at_⟩

/-- What an access by way of a leaf meets: a page on the move holds it (R403); so does T2 until the links are ready (R415);
a failed stack, a lost package or a lost host gives cause 0x14 (R404, R415). -/
def Found.reach (s : State) (x : Found) (va : Nat) : Trans :=
  let pkg := bits x.e 51 39
  let local_ := if stackFailed s (x.pa va) then .cause 0x14#8 else .page (x.page s va)
  if bits x.e 57 57 == 1 then .hold
  else if bits x.e 59 58 == 0 then local_
  else if bits x.e 59 58 == 1 then
    (if !s.sys.ready.getLsbD 29 then .hold
     else if pkg == s.pkg then local_
     else if s.sys.lost.contains pkg then .cause 0x14#8
     else .page (x.page s va))
  else if s.sys.hostLost then .cause 0x14#8
  else .page (x.page s va)

/-- The leaf of the word at PTT + 8c, an address of context 0 (R401, R417). -/
def rootLeaf (s : State) (b : Boot) (ctx : Nat) : Option Found := walk s b.root0 (b.ptt + 8 * ctx)

/-- The root of a context's page table (R401, R417): ROOT0 for context 0, else the word at PTT + 8c, read like any access
of context 0; what that access meets instead of a word. -/
def rootOf (s : State) (ctx : Nat) : Except Trans Nat :=
  match s.sys.boot with
  | none => .error (.cause 0x10#8)
  | some b =>
    if ctx = 0 then .ok b.root0
    else
      match rootLeaf s b ctx with
      | none => .error (.cause 0x10#8)
      | some x =>
        match x.reach s (b.ptt + 8 * ctx) with
        | .page p => .ok (entryAt s p.key)
        | t => .error t

/-- Translate one virtual address of a context (R235 orders 2 and 3, R401 to R404). -/
def translate (s : State) (ctx va : Nat) : Trans :=
  if 2 ^ 56 ≤ va then .cause 0x11#8
  else
    match rootOf s ctx with
    | .error t => t
    | .ok root =>
      match walk s root va with
      | none => .cause 0x10#8
      | some x => x.reach s va

/-- The root of a context's page table, whether or not an access may be made there now. -/
def rootAt (s : State) (ctx : Nat) : Option Nat :=
  s.sys.boot.bind (fun b =>
    if ctx = 0 then some b.root0
    else (rootLeaf s b ctx).map (fun x => entryAt s (x.key s (b.ptt + 8 * ctx))))

/-- The physical key of a byte of a context, where it has a translation: a page on the move, or one that cannot be reached
now, has its key too. -/
def keyOf (s : State) (ctx va : Nat) : Option Nat :=
  if 2 ^ 56 ≤ va then none
  else (rootAt s ctx).bind (fun root => (walk s root va).map (fun x => x.key s va))

end Sys2Proof.Machine
end

