-- ==== Sys2Proof/Machine/Mem.lean ====
section
/-!
DEFINITION. Accesses to pages in their class (R200, R206, R210, R421): the checks of R235 orders 2 to 6, loads and
stores of bytes, the buffers of streamed lines, and the store log that queued jobs read (R219, R223).
-/

namespace Sys2Proof.Machine

/-- The core of a number, or an untouched core with the default split. -/
def State.core (s : State) (c : Nat) : Core :=
  (s.cores.find? (fun x => x.id == c)).getD ⟨c, splitDefault, false, false⟩

/-- The L1 buffer of a lane: its own, or the core's under fuse (R97, R203). -/
def State.l1Of (s : State) (core lane : Nat) : BufId :=
  if bits (s.core core).split 15 15 == 1 then .l1f core else .l1 core lane

/-- A buffer line of a context and line number. -/
def State.line? (s : State) (b : BufId) (ctx line : Nat) : Option BufLine :=
  s.bufs.find? (fun x => x.buf == b && x.ctx == ctx && x.line == line)

/-- Drop a line from a buffer. -/
def State.dropLine (s : State) (b : BufId) (ctx line : Nat) : State :=
  { s with bufs := s.bufs.filter (fun x => !(x.buf == b && x.ctx == ctx && x.line == line)) }

/-- Place a line in its buffer, replacing the former one. -/
def State.putLine (s : State) (x : BufLine) : State :=
  { s with bufs := x :: (s.dropLine x.buf x.ctx x.line).bufs }

/-- Bytes as a 128-byte line value. -/
def lineOf (l : List Byte) : BitVec 1024 := BitVec.ofNat 1024 (leNat l)

/-- One byte of a line value. -/
def lineByte (v : BitVec 1024) (i : Nat) : Byte := BitVec.extractLsb' (8 * i) 8 v

/-- A line value with one byte replaced. -/
def lineSet (v : BitVec 1024) (i : Nat) (x : Byte) : BitVec 1024 :=
  (v &&& ~~~ (0xFF#1024 <<< (8 * i))) ||| (x.setWidth 1024 <<< (8 * i))

/-- The four granules' poison of a line at a physical key (R420). -/
def poisonAt (s : State) (key : Nat) : BitVec 4 :=
  (List.range 4).foldl (fun m i => if s.poison.contains (key / 32 + i) then m ||| (1#4 <<< i) else m) 0#4

/-- The turn under way met a page on the move, or a clean that cannot be made now: it will be taken back and tried again
(R403, log entry 59). -/
def State.hold (s : State) : State := { s with held := true }

/-- A line as memory holds it, at the key of its first byte. -/
def State.lineOfMem (s : State) (b : BufId) (ctx line k : Nat) : BufLine :=
  ⟨b, ctx, line, lineOf (memBytes s.mem k 128), 0#128, poisonAt s k⟩

/-- The fill step (R205): an absent line copied, clean, from the die buffer or memory into an L1 buffer, or from
memory into a die buffer. A page on the move holds it (R403); where memory cannot be read, nothing is filled. -/
def State.fillLine (s : State) (b : BufId) (die ctx line : Nat) : State :=
  match s.line? b ctx line with
  | some _ => s
  | none =>
    match (if b = .die die then none else s.line? (.die die) ctx line) with
    | some x => s.putLine { x with buf := b, dirty := 0#128 }
    | none =>
      match translate s ctx (line * 128) with
      | .page p => s.putLine (s.lineOfMem b ctx line p.key)
      | .hold => s.hold
      | .cause _ => s

/-- The poison of granules after bytes are written: a write of a whole granule clears it (R421). -/
def clearPoison (p : List Nat) (keys : List Nat) : List Nat :=
  p.filter (fun gr => !((List.range 32).all (fun i => keys.contains (gr * 32 + i))))

/-- Write bytes at given physical keys of memory, clearing the poison of whole granules. -/
def State.memWrite (s : State) (keys : List Nat) (xs : List Byte) : State :=
  { s with mem := (keys.zip xs).foldl (fun m e => memSet m e.1 e.2) s.mem,
           poison := if s.poison.isEmpty then [] else clearPoison s.poison keys }

/-- Whether the dirty mask covers granule `i` of a line. -/
def wholeGranule (d : BitVec 128) (i : Nat) : Bool :=
  BitVec.extractLsb' (32 * i) 32 d == 0xFFFFFFFF#32

/-- Merge the dirty bytes of a line into another copy of it (R210). -/
def mergeLine (into x : BufLine) (keepDirty : Bool) : BufLine :=
  { into with
    value := (List.range 128).foldl
      (fun v i => if x.dirty.getLsbD i then lineSet v i (lineByte x.value i) else v) into.value,
    dirty := if keepDirty then into.dirty ||| x.dirty else into.dirty,
    poison := (List.range 4).foldl
      (fun p i => if wholeGranule x.dirty i then p &&& ~~~ (1#4 <<< i) else p) into.poison }

/-- The dirty bytes of a die buffer's line written to memory, at the key of the line's first byte. -/
def State.cleanTo (s : State) (x : BufLine) (k : Nat) : State :=
  let ks := (List.range 128).filter (fun i => x.dirty.getLsbD i)
  (s.memWrite (ks.map (fun i => k + i)) (ks.map (lineByte x.value))).putLine { x with dirty := 0#128 }

/-- The clean step (R205): the dirty bytes of one line go to the next level and the line becomes clean. A page on the move
holds it (R403); so does one without a translation, or whose memory cannot be reached, until it can be (R202, R254; log
entry 59): whatever forces the clean does not complete before. -/
def State.cleanLine (s : State) (b : BufId) (die ctx line : Nat) : State :=
  match s.line? b ctx line with
  | none => s
  | some x =>
    if x.dirty = 0#128 then s
    else if b = .die die then
      match translate s ctx (line * 128) with
      | .page p => s.cleanTo x p.key
      | _ => s.hold
    else
      let s1 := s.fillLine (.die die) die ctx line
      match s1.line? (.die die) ctx line with
      | none => s1.hold
      | some y => (s1.putLine (mergeLine y x true)).putLine { x with dirty := 0#128 }

/-- Clean every dirty line of a buffer that a test selects. -/
def State.cleanWhere (s : State) (b : BufId) (die : Nat) (t : BufLine → Bool) : State :=
  (s.bufs.filter (fun x => x.buf == b && t x)).foldl (fun s x => s.cleanLine b die x.ctx x.line) s

/-- Drop every line of a buffer that a test selects, dirty bytes included. -/
def State.dropWhere (s : State) (b : BufId) (t : BufLine → Bool) : State :=
  { s with bufs := s.bufs.filter (fun x => !(x.buf == b && t x)) }

/-- One access to memory: context, address, bytes, write or read, whether it is an atomic, whether DEV pages accept it,
and the class its record names, if any (R235). -/
structure Req where
  ctx    : Nat
  va     : Nat
  len    : Nat
  wr     : Bool
  atomic : Bool
  dev    : Bool
  rcls   : Option Nat
  deriving DecidableEq, Repr

/-- The outcome of the checks: class and keys of the bytes, a cause, or a hold (R403). -/
inductive Chk where
  | ok (cls : Nat) (keys : List Nat)
  | cause (c : BitVec 8)
  | hold
  deriving DecidableEq, Repr

/-- The die a buffer belongs to. -/
def dieOfBuf : BufId → Nat
  | .l1 c _ => c / Config.coresPerDie
  | .l1f c => c / Config.coresPerDie
  | .die d => d

/-- Whether the copy of byte `va` that a load of a buffer reads is poisoned (R421). -/
def State.strPoison (s : State) (b : BufId) (ctx va key : Nat) : Bool :=
  let bit := va % 128 / 32
  match s.line? b ctx (va / 128) with
  | some x => x.poison.getLsbD bit
  | none =>
    match s.line? (.die (dieOfBuf b)) ctx (va / 128) with
    | some x => x.poison.getLsbD bit
    | none => s.poison.contains (key / 32)

/-- Whether a page permits a request (R235 order 4). -/
def Page.permits (p : Page) (r : Req) : Bool :=
  (if r.wr then p.wr else p.rd) && !(r.atomic && !(r.wr && p.rd && p.cls == 0)) && !(p.cls == 2 && !r.dev)

/-- Whether a page has the class that the request's record names, if one does (R235 order 5). -/
def Page.classed (p : Page) (r : Req) : Bool :=
  match r.rcls with
  | some c => c == p.cls
  | none => true

/-- The checks of the two pages of a request, the same one where it does not cross (R235 orders 4 and 5). -/
def pagesCause (p q : Page) (r : Req) : Option (BitVec 8) :=
  if !(p.permits r && q.permits r) then some 0x11#8
  else if !(p.classed r && q.classed r) then some 0x30#8
  else none

/-- The checks of R235 from order 2 on, for one access by way of buffer `b`. The class of a range that lies in two pages of
different classes is 3, which no access by class takes (R320). -/
def State.check (s : State) (b : BufId) (r : Req) : Chk :=
  let last := r.va + r.len - 1
  let t1 := translate s r.ctx r.va
  let t2 := if last / 2 ^ 16 = r.va / 2 ^ 16 then t1 else translate s r.ctx last
  if t1 = .cause 0x11#8 ∨ t2 = .cause 0x11#8 then .cause 0x11#8
  else if t1 = .cause 0x10#8 ∨ t2 = .cause 0x10#8 then .cause 0x10#8
  else
    match t1, t2 with
    | .page p, .page q =>
      match pagesCause p q r with
      | some c => .cause c
      | none =>
        let keys := (List.range r.len).map (fun i =>
          if (r.va + i) / 2 ^ 16 = r.va / 2 ^ 16 then p.key + i else q.key + i + 1 - r.len)
        let bad := (!r.wr || r.atomic) && keys.zipIdx.any (fun e =>
          if p.cls == 1 then s.strPoison b r.ctx (r.va + e.2) e.1 else s.poison.contains (e.1 / 32))
        if bad then .cause 0x14#8 else .ok (if q.cls = p.cls then p.cls else 3) keys
    | .cause c, _ => .cause c
    | _, .cause c => .cause c
    | _, _ => .hold

/-- The address that the record of a faulting access names: its first byte that meets the cause (R391). -/
def State.badAt (s : State) (b : BufId) (r : Req) (c : BitVec 8) : Nat :=
  r.va + ((List.range r.len).find? (fun i => s.check b { r with va := r.va + i, len := 1 } == .cause c)).getD 0

/-- Load bytes that passed `check`: COH from memory, STR from the buffer (filled if absent), DEV from the registers. -/
def State.load (s : State) (b : BufId) (ctx va : Nat) (cls : Nat) (keys : List Nat) : State × List Byte :=
  if cls = 1 then
    let s1 := (List.range keys.length).foldl (fun s i => s.fillLine b (dieOfBuf b) ctx ((va + i) / 128)) s
    (s1, (List.range keys.length).map (fun i =>
      match s1.line? b ctx ((va + i) / 128) with
      | some x => lineByte x.value ((va + i) % 128)
      | none => 0#8))
  else if cls = 2 then (s, keys.map (memGet s.dev))
  else (s, keys.map (memGet s.mem))

/-- Store bytes that passed `check`. -/
def State.store (s : State) (b : BufId) (ctx va : Nat) (cls : Nat) (keys : List Nat) (xs : List Byte) : State :=
  if cls = 1 then
    xs.zipIdx.foldl (fun s e =>
      let a := va + e.2
      let s1 := s.fillLine b (dieOfBuf b) ctx (a / 128)
      match s1.line? b ctx (a / 128) with
      | some x => s1.putLine { x with value := lineSet x.value (a % 128) e.1, dirty := x.dirty ||| (1#128 <<< (a % 128)) }
      | none => s1) s
  else if cls = 2 then { s with dev := (keys.zip xs).foldl (fun m e => memSet m e.1 e.2) s.dev }
  else s.memWrite keys xs

/-- The bytes of an instruction word (R54). -/
def wordBytes : Nat := 12

/-- The copy of one byte that a fetch reads (R54): a STR byte from the die buffer if it holds the line, else memory. -/
def State.fetchByte (s : State) (die ctx va cls key : Nat) : Byte :=
  match (if cls = 1 then s.line? (.die die) ctx (va / 128) else none) with
  | some x => lineByte x.value (va % 128)
  | none => memGet s.mem key

/-- Whether some job is outstanding that must learn of stores (R219, R223). -/
def State.busy (s : State) : Bool :=
  s.engines.any (fun e => !e.jobs.isEmpty) || !s.djobs.isEmpty
    || s.crews.any (fun c => !c.unit.jobs.isEmpty || (match c.stat with
      | .saved _ => true
      | _ => false))

/-- The context number under which the store log holds the host's stores, by physical key (R209). -/
def hostCtx : Nat := 2 ^ 32

/-- Where the entries of a launch's kernel lie (R116 to R120): address and bytes. -/
def Launch.recRange (l : Launch) : Nat × Nat := (l.image.recs + 40 * l.desc.rec0, 40 * l.desc.recCnt)
def Launch.roleRange (l : Launch) : Nat × Nat := (l.image.roles + 16 * l.desc.role0, 16 * l.desc.roleCnt)
def Launch.barRange (l : Launch) : Nat × Nat := (l.image.bars + 16 * l.desc.bar0, 16 * l.desc.barCnt)

/-- The tables of a launch (R129). -/
def Launch.tables (l : Launch) : List (Nat × Nat) :=
  [(l.desc.addr, 64), l.roleRange, l.barRange, l.recRange,
   (l.image.lives + 24 * l.desc.live0, 24 * l.desc.liveCnt), (l.image.cbs + 32 * l.desc.cb0, 32 * l.desc.cbCnt)]

/-- The physical key of a store: the host names it, others translate. -/
def storeKey (s : State) (ctx va : Nat) : Option Nat :=
  if ctx = hostCtx then some va else if ctx < 65536 then keyOf s ctx va else none

/-- The parts of a range in the pages of 64 KiB that it touches. -/
def pagePieces (va len : Nat) : List (Nat × Nat) :=
  (List.range ((va % 2 ^ 16 + len + (2 ^ 16 - 1)) / 2 ^ 16)).map (fun k =>
    let lo := Nat.max va ((va / 2 ^ 16 + k) * 2 ^ 16)
    (lo, Nat.min (va + len) ((va / 2 ^ 16 + k + 1) * 2 ^ 16) - lo))

/-- The part of a store, within one page at a physical key, that falls in a range of a context by way of a page that the
range shares. -/
def sharedHit (s : State) (key len rctx a n : Nat) : List (Nat × Nat) :=
  ((List.range ((a + n) / 2 ^ 16 + 1)).drop (a / 2 ^ 16)).filterMap (fun p =>
    match keyOf s rctx (p * 2 ^ 16) with
    | some k =>
      if overlaps key len k (2 ^ 16) ∧ k ≤ key ∧ overlaps (p * 2 ^ 16 + (key - k)) len a n then
        some (p * 2 ^ 16 + (key - k), len)
      else if overlaps key len k (2 ^ 16) ∧ key < k ∧ overlaps (p * 2 ^ 16) (key + len - k) a n then
        some (p * 2 ^ 16, key + len - k)
      else none
    | none => none)

/-- The part of a store that falls in a range of a context, by its virtual address or by way of pages that the range
shares. -/
def hitOf (s : State) (ctx va len rctx a n : Nat) : List (Nat × Nat) :=
  if ctx = rctx ∧ overlaps va len a n then [(va, len)]
  else if 65536 ≤ rctx then []
  else
    (if ctx = hostCtx then [(va, len)] else pagePieces va len).flatMap (fun q =>
      match storeKey s ctx q.1 with
      | none => []
      | some key => sharedHit s key q.2 rctx a n)

/-- What the crews use of a descriptor that a store reached (R129): free values within the ranges of R116, but for CREW,
VREGS and SCRATCH, which stay in the ranges that a core can hold (log entry 4). -/
def Desc.tear (d : Desc) (n : Nat) : Desc :=
  let p := fun (k : Nat) => Config.pick (n * 2 ^ 40 + 2 ^ 39 + k)
  { d with
    entry := p 0, deadline := p 1 % 65536, fpmode := Config.free 32 (n * 2 ^ 40 + 2 ^ 39 + 2), crew := 1 + p 3 % 32,
    split := p 4 % 65536, vregs := 8 + 8 * (p 5 % 32), scratch := p 6 % (31 * 32768 + 1), rec0 := p 7 % 65536,
    recCnt := p 8 % 257, role0 := p 13 % 65536, roleCnt := p 14 % 4, bar0 := p 15 % 65536, barCnt := p 16 % 39, live0 := p 9 % 65536, liveCnt := p 10 % 65536, cb0 := p 11 % 65536, cbCnt := p 12 % 1025 }

/-- What the crews use of a role entry that a store reached (R119, R129). -/
def RoleDecl.tear (n k : Nat) : RoleDecl :=
  let p := fun (i : Nat) => Config.pick (n * 2 ^ 40 + 8 * k + i)
  ⟨p 0 % 32, 1 + p 1 % 32, p 2 % 3, p 3⟩

/-- What the crews use of a barrier entry that a store reached (R118, R129). -/
def BarDecl.tear (n k : Nat) : BarDecl :=
  let p := fun (i : Nat) => Config.pick (n * 2 ^ 40 + 2 ^ 38 + 8 * k + i)
  ⟨p 0 % 5, p 1 % 16, p 2 % 2 ^ 24, Config.free 32 (n * 2 ^ 40 + 2 ^ 38 + 8 * k + 3)⟩

/-- A barrier that already counts, once a store reached the entry that gives its COUNT (R129, R267). -/
def BarInst.tear (n k : Nat) (b : BarInst) : BarInst :=
  { b with expect := Config.pick (n * 2 ^ 40 + 2 ^ 37 + 128 * k + 16 * b.level + b.index) % 2 ^ 24 }

/-- What the crews of a launch use of its descriptor, role and barrier entries, once a store left it undefined (R129): free
values (log entry 4). The descriptor says which role and barrier entries are the kernel's. A launch's own SPLIT, from its
record, stays (R371). -/
def Launch.tear (l : Launch) (desc roles bars : Bool) (n : Nat) : Launch :=
  let d := if desc then l.desc.tear n else l.desc
  { l with
    desc := d,
    split := if desc && !l.ownSplit then d.split else l.split,
    roles := if desc then (List.range d.roleCnt).map (RoleDecl.tear n)
      else if roles then l.roles.zipIdx.map (fun e => RoleDecl.tear n e.2) else l.roles,
    roleTorn := if desc || roles then some n else l.roleTorn,
    bars := if desc then (List.range d.barCnt).map (BarDecl.tear n)
      else if bars then l.bars.zipIdx.map (fun e => BarDecl.tear n e.2) else l.bars,
    insts := if desc || bars then l.insts.map (BarInst.tear n 0) else l.insts }

/-- What a crew took from the tables at its placement, as a store left it (R129, R375): the records it reached, all of them (as
many as the descriptor has now) where it reached the descriptor, and what its `core` barriers count to. -/
def Crew.tear (c : Crew) (hit : Nat → Bool) (all : Option Nat) (bars : Bool) (n : Nat) : Crew :=
  { c with recs := match all with
             | some k => (List.range k).map (fun i => Config.free 320 (n * 2 ^ 40 + i))
             | none => c.recs.zipIdx.map (fun e => if hit e.2 then Config.free 320 (n * 2 ^ 40 + e.2) else e.1),
           insts := if bars then c.insts.map (BarInst.tear n 0) else c.insts }

/-- A store to the tables of launches in progress, for what was read of them before (R129). -/
def State.tearTables (s : State) (ctx va len : Nat) : State :=
  let hit := fun (l : Launch) (t : Nat × Nat) => decide (0 < t.2) && !(hitOf s ctx va len l.ctx t.1 t.2).isEmpty
  let desc := fun (l : Launch) => hit l (l.desc.addr, 64)
  let bars := fun (l : Launch) => desc l || hit l l.barRange
  let any := fun (l : Launch) => !l.ended && (desc l || [l.roleRange, l.barRange, l.recRange].any (hit l))
  if s.launches.any any then
    { s with
      free := s.free + 1,
      launches := s.launches.map (fun l => if any l then l.tear (desc l) (hit l l.roleRange) (bars l) s.free else l),
      podBars := s.podBars.zipIdx.map (fun e =>
        if s.launches.any (fun l => any l && bars l && l.ctx == e.1.ctx && l.desc.addr == e.1.desc) then
          { e.1 with inst := BarInst.tear s.free (e.2 + 1) e.1.inst }
        else e.1),
      crews := s.crews.map (fun c =>
        match s.launches.find? (fun l => l.handle == c.handle) with
        | some l =>
          if any l then
            c.tear (fun k => hit l (l.recRange.1 + 40 * k, 40)) (if desc l then some (l.desc.tear s.free).recCnt else none)
              (bars l) (s.free + 2 ^ 20 * (c.id + 1))
          else c
        | none => c) }
  else s

/-- A store to the code of a resident crew's kernel, or to the tables of a launch in progress (R55, R129). -/
def State.noteTorn (s0 : State) (ctx va len : Nat) : State :=
  if s0.launches.isEmpty then s0
  else
    let s := s0.tearTables ctx va len
    let tabs := (s.launches.filter (fun l => !l.ended)).flatMap (fun l =>
      l.tables.flatMap (fun t => (hitOf s ctx va len l.ctx t.1 t.2).map (fun h => ⟨l.handle, none, h.1, h.2⟩)))
    let code := (s.crews.filter (fun c => c.stat == .resident)).flatMap (fun c =>
      (s.launches.filter (fun l => l.handle == c.handle)).flatMap (fun l =>
        (hitOf s ctx va len l.ctx l.image.code (l.image.codeEnd - l.image.code)).map (fun h => ⟨l.handle, some c.id, h.1, h.2⟩)))
    { s with tornAt := tabs ++ code ++ s.tornAt }

/-- Whether a store left bytes of a launch's tables undefined for its crews (R129). -/
def State.tableTorn (s : State) (handle va n : Nat) : Bool :=
  s.tornAt.any (fun t => t.handle == handle && t.crew.isNone && overlaps va n t.va t.len)

/-- Whether a store left code undefined for a crew (R55). -/
def State.codeTorn (s : State) (crew va n : Nat) : Bool :=
  s.tornAt.any (fun t => t.crew == some crew && overlaps va n t.va t.len)

/-- Log a store for the outstanding jobs; the log is empty while none is outstanding. -/
def State.logSeen (s : State) (ctx va len : Nat) (grp own : Bool) : State :=
  if s.busy then { s with seen := ⟨ctx, va, len, s.stamp, grp, own⟩ :: s.seen, stamp := s.stamp + 1 }
  else { s with seen := [] }

/-- What a store of the KV and segment instructions leaves behind for other users of its bytes. -/
def State.logOwn (s : State) (ctx va len : Nat) (grp : Bool := true) : State :=
  (s.noteTorn ctx va len).logSeen ctx va len grp true

/-- The page entries of a table that a store reaches, with their words before it (R324). -/
def State.entriesHit (s : State) (ctx va len : Nat) (t : KvTab) : List KvTorn :=
  ((hitOf s ctx va len t.ctx t.etab (4 * t.ecnt)).flatMap (fun h =>
    (List.range t.ecnt).filter (fun e => overlaps h.1 h.2 (t.etab + 4 * e) 4))).eraseDups.filterMap (fun e =>
      (keyOf s t.ctx (t.etab + 4 * e)).map (fun k => ⟨t, e, leNat (memBytes s.mem k 4)⟩))

/-- A store by whatever is no KV instruction: page entries it reaches (R324), and sealed arrays (R343). -/
def State.noteKv (s : State) (ctx va len : Nat) : State :=
  if s.kvTabs.isEmpty && s.seals.isEmpty then s
  else
    { s with
      kvTorn := s.kvTabs.flatMap (s.entriesHit ctx va len) ++ s.kvTorn,
      seals := s.seals.map (fun x => if (hitOf s ctx va len x.ctx x.a x.n).isEmpty then x else { x with torn := true }) }

/-- Log a store that no KV or segment instruction makes. -/
def State.logStore (s : State) (ctx va len : Nat) (grp : Bool := true) : State :=
  ((s.noteKv ctx va len).noteTorn ctx va len).logSeen ctx va len grp false

/-- The seals of the segment whose record lies at an address, by whatever address they were made (R343). -/
def State.sealsOf (s : State) (ctx rcd : Nat) : List Seal :=
  s.seals.filter (fun x => !(hitOf s x.ctx x.rcd 64 ctx rcd 64).isEmpty)

/-- Whether something stored to an array of the segment with that record since its seal, in a range that names the array by
whatever address (R343). A record through which nothing was sealed may be a copy of a sealed one: any seal of those bytes counts. -/
def State.sealTorn (s : State) (ctx rcd a n : Nat) : Bool :=
  (if (s.sealsOf ctx rcd).isEmpty then s.seals else s.sealsOf ctx rcd).any (fun x =>
    x.torn && !(hitOf s x.ctx x.a x.n ctx a n).isEmpty)

/-- Whether some byte of a range of a context was stored at or after a stamp, by whatever agent. -/
def State.storedSince (s : State) (ctx va n since : Nat) : Bool :=
  s.seen.any (fun e => decide (since ≤ e.stamp) && !(hitOf s e.ctx e.va e.len ctx va n).isEmpty)

/-- The same between two stamps, the second left out. -/
def State.storedBetween (s : State) (ctx va n since till : Nat) : Bool :=
  s.seen.any (fun e => decide (since ≤ e.stamp) && decide (e.stamp < till) && !(hitOf s e.ctx e.va e.len ctx va n).isEmpty)

/-- Whether something other than an instruction or job on KV state stored to a range since a stamp. -/
def State.foreignSince (s : State) (ctx va n since : Nat) : Bool :=
  s.seen.any (fun e => !e.own && decide (since ≤ e.stamp) && !(hitOf s e.ctx e.va e.len ctx va n).isEmpty)

/-- A COH read by the device or by an instruction that requires COH pages (R320): the bytes, or a cause, or a hold. -/
def State.cohRead (s : State) (ctx va len : Nat) : Except (Option (BitVec 8)) (List Byte) :=
  match s.check (.die 0) ⟨ctx, va, len, false, false, false, none⟩ with
  | .ok 0 keys => .ok (keys.map (memGet s.mem))
  | .ok _ _ => .error (some 0x11#8)
  | .cause c => .error (some c)
  | .hold => .error none

/-- The keys of a range that a COH store may write, or a cause, or a hold. -/
def State.cohKeys (s : State) (ctx va len : Nat) : Except (Option (BitVec 8)) (List Nat) :=
  match s.check (.die 0) ⟨ctx, va, len, true, false, false, none⟩ with
  | .ok 0 keys => .ok keys
  | .ok _ _ => .error (some 0x11#8)
  | .cause c => .error (some c)
  | .hold => .error none

/-- A COH store by the device; nothing when the range cannot be written, and a page on the move holds it (R403). -/
def State.cohStore (s : State) (ctx va len x : Nat) : State :=
  match s.cohKeys ctx va len with
  | .ok keys => (s.logStore ctx va len false).memWrite keys (leBytes len x)
  | .error none => s.hold
  | .error _ => s

/-- A COH store by the device to the tables of a KV record. -/
def State.cohStoreOwn (s : State) (ctx va len x : Nat) : State :=
  match s.cohKeys ctx va len with
  | .ok keys => (s.logOwn ctx va len).memWrite keys (leBytes len x)
  | .error none => s.hold
  | .error _ => s

/-- A COH load by the device as a number; none when the range cannot be read now. -/
def State.cohNat? (s : State) (ctx va len : Nat) : Option Nat :=
  match s.cohRead ctx va len with
  | .ok xs => some (leNat xs)
  | .error _ => none

/-- A COH load by the device that meets a page on the move holds the turn (R403). -/
def State.touch (s : State) (ctx va len : Nat) : State :=
  match s.cohRead ctx va len with
  | .error none => s.hold
  | _ => s

/-- The same for several loads of one length. -/
def State.touchAll (s : State) (ctx : Nat) (l : List (Nat × Nat)) : State := l.foldl (fun s e => s.touch ctx e.1 e.2) s

end Sys2Proof.Machine
end

