-- ==== Sys2Proof/Machine/Groups.lean ====
section
/-!
DEFINITION. Finding and replacing groups, crews, launches and contexts; the issuing site; fragments and their fusion
(R37 to R41); events of the statistics (R150 to R152).
-/

namespace Sys2Proof.Machine

/-- The key of a group. -/
def Group.key (g : Group) : Nat := g.crew * 32 + g.gid

/-- The role of a group of a launch as decoding, `sr.role` and `regroup` see it (R24, R129). -/
def Launch.roleNow (l : Launch) (g : Group) : Nat :=
  match l.roleTorn with
  | none => g.role
  | some n => Config.pick (n * 2 ^ 40 + 2 ^ 36 + g.key) % 3

def State.group? (s : State) (gk : Nat) : Option Group := s.groups.find? (fun g => g.key == gk)

def State.setGroup (s : State) (g : Group) : State :=
  { s with groups := s.groups.map (fun x => if x.key == g.key then g else x) }

def State.crew? (s : State) (id : Nat) : Option Crew := s.crews.find? (fun c => c.id == id)

def State.setCrew (s : State) (c : Crew) : State :=
  { s with crews := s.crews.map (fun x => if x.id == c.id then c else x) }

def State.launch? (s : State) (h : Nat) : Option Launch := s.launches.find? (fun l => l.handle == h)

def State.setLaunch (s : State) (l : Launch) : State :=
  { s with launches := s.launches.map (fun x => if x.handle == l.handle then l else x) }

def State.ctx? (s : State) (c : Nat) : Option Context := s.ctxs.find? (fun x => x.id == c)

/-- Replace or add a context. -/
def State.setCtx (s : State) (c : Context) : State :=
  { s with ctxs := c :: s.ctxs.filter (fun x => x.id != c.id) }

/-- Replace or add a core. -/
def State.setCore (s : State) (c : Core) : State :=
  { s with cores := c :: s.cores.filter (fun x => x.id != c.id) }

/-- The groups of a crew, in ascending gid order. -/
def State.groupsOf (s : State) (crew : Nat) : List Group := s.groups.filter (fun g => g.crew == crew)

/-- Whether a group has threads still to run. -/
def Group.live (g : Group) : Bool := g.stat != .ended

/-- The fragments of a group, the split table's and the overflow store's. -/
def Group.all (g : Group) : List Frag := g.frags ++ g.spilled

/-- The fragment whose lowest thread is `low`, in the split table. -/
def Group.frag? (g : Group) (low : Nat) : Option Frag := g.frags.find? (fun f => lowest f.mask == low)

/-- Replace the fragment whose lowest thread is `low`, in the table or the overflow store. -/
def Group.setFrag (g : Group) (low : Nat) (f : Frag) : Group :=
  { g with frags := g.frags.map (fun x => if lowest x.mask == low then f else x),
           spilled := g.spilled.map (fun x => if lowest x.mask == low then f else x) }

/-- The die of a crew's core. -/
def Crew.die (c : Crew) : Nat := c.core / Config.coresPerDie

/-- The issuing group, fragment, crew and launch. -/
structure Site where
  g : Group
  f : Frag
  c : Crew
  l : Launch
  deriving DecidableEq, Repr

/-- The site of a fragment of a group. -/
def State.siteAt (s : State) (gk low : Nat) : Option Site :=
  match s.group? gk with
  | none => none
  | some g =>
    match g.frag? low, s.crew? g.crew with
    | some f, some c =>
      match s.launch? c.handle with
      | some l => some ⟨g, f, c, l⟩
      | none => none
    | _, _ => none

/-- The site at which `State.focus` issues. -/
def State.site? (s : State) : Option Site := s.siteAt s.focus.gk s.focus.low

/-- The context of the issuing group. -/
def Site.ctx (x : Site) : Nat := x.l.ctx

/-- The buffer that the issuing group's STR accesses use. -/
def Site.buf (x : Site) (s : State) : BufId := s.l1Of x.c.core x.g.lane

/-- Vector registers a group holds (R27). -/
def Site.vregs (x : Site) : Nat := x.l.desc.vregs

/-- Draw a fresh index of free values (log entry 4). -/
def State.draw (s : State) : State × Nat := ({ s with free := s.free + 1 }, s.free)

/-- Events of one instruction: SAT, FTZ, NAN, INV (R151). -/
structure Ev where
  sat : Nat
  ftz : Nat
  nan : Nat
  inv : Nat
  deriving DecidableEq, Repr

def Ev.zero : Ev := ⟨0, 0, 0, 0⟩
def Ev.plus (a b : Ev) : Ev := ⟨a.sat + b.sat, a.ftz + b.ftz, a.nan + b.nan, a.inv + b.inv⟩
def Ev.ofSat : Ev := ⟨1, 0, 0, 0⟩
def Ev.ofFtz : Ev := ⟨0, 1, 0, 0⟩
def Ev.ofNan : Ev := ⟨0, 0, 1, 0⟩
def Ev.ofInv : Ev := ⟨0, 0, 0, 1⟩
def Ev.sum (l : List Ev) : Ev := l.foldl Ev.plus Ev.zero

/-- Each kind of event at most once per element (R151). -/
def Ev.once (e : Ev) : Ev := ⟨Nat.min 1 e.sat, Nat.min 1 e.ftz, Nat.min 1 e.nan, Nat.min 1 e.inv⟩

/-- The key of a statistics counter: kind 0 SAT, 1 FTZ, 2 NAN, 3 INV (R150, R153). -/
def statKey (die ctx tensor kind : Nat) : Nat := ((die * 65536 + ctx) * 4096 + tensor) * 4 + kind

/-- Add to a counter, holding at 0xFFFF_FFFF (R150). -/
def bump (st : List (Nat × Word)) (k n : Nat) : List (Nat × Word) :=
  if n = 0 then st else put st k (BitVec.ofNat 32 (Nat.min 0xFFFFFFFF (((lookup st k).getD 0#32).toNat + n)))

/-- Count events against a tensor of a context on a die (R150 to R152). -/
def State.count (s : State) (die ctx tensor : Nat) (e : Ev) : State :=
  let st := bump (bump s.stats (statKey die ctx tensor 0) e.sat) (statKey die ctx tensor 1) e.ftz
  { s with stats := bump (bump st (statKey die ctx tensor 2) e.nan) (statKey die ctx tensor 3) e.inv }

/-- A fragment waits at its reconvergence address (R40). -/
def Frag.waits (f : Frag) : Bool :=
  match f.stack with
  | (x, _) :: _ => f.pc == x && f.xfer.isNone
  | [] => false

/-- A fragment carries a split number, at any depth of its stack. -/
def Frag.carries (f : Frag) (n : Nat) : Bool := f.stack.any (fun e => e.2 == n)

/-- Whether the fragments of split `n` may fuse: each one that carries it has it on top and waits (R40, R174; log
entry 6). -/
def fusable (fs : List Frag) (n : Nat) : Bool :=
  fs.all (fun f => !f.carries n || (f.waits && (f.stack.head?.map (·.2) == some n)))

/-- The split number that may fuse now: the deepest, with ties to the latest split. -/
def nextFusion (fs : List Frag) : Option Nat :=
  (fs.find? (fun f => f.waits && match f.stack with
    | (_, n) :: _ => fusable fs n
    | [] => false)).bind (fun f => f.stack.head?.map (·.2))

/-- The fragment that fusing a nonempty list gives: union of masks, the common stack less its top, the largest count;
a new run starts (R40, R67). -/
def fuseFrags (fs : List Frag) : Option Frag :=
  match fs with
  | [] => none
  | f :: _ => some
      { mask := fs.foldl (fun m x => m ||| x.mask) 0#32, pc := f.pc, stack := f.stack.tail,
        count := fs.foldl (fun m x => Nat.max m x.count) 0, pos := 0, tw := 0#8, xfer := none, replay := none, due := false,
        atPoint := false, owes := [], early := false }

/-- One fusion of split `n`: the fused fragment takes a table entry. -/
def Group.fuse (g : Group) (n : Nat) : Group :=
  match fuseFrags (g.all.filter (fun f => f.carries n)) with
  | none => g
  | some f => { g with frags := f :: g.frags.filter (fun x => !x.carries n),
                       spilled := g.spilled.filter (fun x => !x.carries n) }

/-- Fuse as long as some split may (R40). Every fusion shortens a stack or removes a fragment. -/
def Group.fuseAll : Nat → Group → Group
  | 0, g => g
  | k + 1, g =>
    match nextFusion g.all with
    | none => g
    | some n => Group.fuseAll k (g.fuse n)

/-- Stack entries of all fragments: a bound of the fusions left. -/
def Group.depth (g : Group) : Nat := g.all.foldl (fun n f => n + f.stack.length) 0

/-- Settle the fragments of a group after one of them moved or ended. -/
def Group.settle (g : Group) : Group := g.fuseAll g.depth

/-- A new fragment from its mask and address: a run start. -/
def Frag.start (mask : Word) (pc : Nat) : Frag :=
  { mask := mask, pc := pc, stack := [], count := 0, pos := 0, tw := 0#8, xfer := none, replay := none, due := false,
    atPoint := false, owes := [], early := false }

/-- The deepest of a list of fragments, with ties to the highest lowest thread (R39). -/
def deepest : List Frag → Option Frag
  | [] => none
  | f :: r =>
    match deepest r with
    | none => some f
    | some m =>
      if m.stack.length < f.stack.length || (m.stack.length == f.stack.length && decide (lowest m.mask < lowest f.mask))
      then some f else some m

/-- Make room in a table that holds nine fragments after the division that gave those of `fresh` (R39): a fragment that was
waiting in the table goes first, the deepest of them; else the deepest of all. -/
def Group.spill (g : Group) (fresh : Frag → Bool) : Group :=
  if g.frags.length ≤ 8 then g
  else
    match (match deepest (g.frags.filter (fun f => f.waits && !fresh f)) with
           | some f => some f
           | none => deepest g.frags) with
    | none => g
    | some f => { g with frags := g.frags.filter (fun x => lowest x.mask != lowest f.mask), spilled := g.spilled ++ [f] }

end Sys2Proof.Machine
end

