-- ==== Sys2Proof/Machine/Num.lean ====
section
/-!
DEFINITION. Number formats (R130 to R134), rounding once to a format (R139, R140), NaN results (R141), the floating
mode (R137, R138) and conversions (R142 to R144). Finite values are exact: a sign, a natural number and a power of two.
-/

namespace Sys2Proof.Machine

/-- A floating format (R130): width, exponent and mantissa bits, bias, and whether it has infinities. -/
structure FFmt where
  w    : Nat
  ew   : Nat
  mw   : Nat
  bias : Nat
  inf  : Bool
  deriving DecidableEq, Repr

def fp32 : FFmt := ⟨32, 8, 23, 127, true⟩
def fp16 : FFmt := ⟨16, 5, 10, 15, true⟩
def bf16 : FFmt := ⟨16, 8, 7, 127, true⟩
def e4m3 : FFmt := ⟨8, 4, 3, 7, false⟩
def e5m2 : FFmt := ⟨8, 5, 2, 15, true⟩

/-- The value of an element (R131): a NaN, an infinity, or (−1)^neg × m × 2^e. -/
inductive Val where
  | nan
  | inf (neg : Bool)
  | fin (neg : Bool) (m : Nat) (e : Int)
  deriving DecidableEq, Repr

/-- Sign of an element. -/
def FFmt.neg (F : FFmt) (x : Nat) : Bool := x.testBit (F.w - 1)

/-- Biased exponent and mantissa fields. -/
def FFmt.exp (F : FFmt) (x : Nat) : Nat := bits x (F.w - 2) F.mw
def FFmt.man (F : FFmt) (x : Nat) : Nat := x % 2 ^ F.mw

/-- The value of an element (R131). -/
def FFmt.val (F : FFmt) (x : Nat) : Val :=
  let e := F.exp x
  let m := F.man x
  if e = 2 ^ F.ew - 1 ∧ F.inf then (if m = 0 then .inf (F.neg x) else .nan)
  else if e = 2 ^ F.ew - 1 ∧ m = 2 ^ F.mw - 1 then .nan
  else if e = 0 then .fin (F.neg x) m (1 - (F.bias : Int) - F.mw)
  else .fin (F.neg x) (2 ^ F.mw + m) ((e : Int) - F.bias - F.mw)

/-- The sign bit of a format in place. -/
def FFmt.sign (F : FFmt) (neg : Bool) : Nat := if neg then 2 ^ (F.w - 1) else 0

/-- The largest finite magnitude's bits (R130). -/
def FFmt.maxBits (F : FFmt) : Nat := if F.inf then (2 ^ F.ew - 1) * 2 ^ F.mw - 1 else 2 ^ (F.w - 1) - 2

/-- An infinity; a format without one has its NaN of the sign there. -/
def FFmt.infBits (F : FFmt) (neg : Bool) : Nat :=
  F.sign neg + (if F.inf then (2 ^ F.ew - 1) * 2 ^ F.mw else 2 ^ (F.w - 1) - 1)

/-- The canonical NaN (R130). -/
def FFmt.canon (F : FFmt) : Nat :=
  if F.inf then (2 ^ F.ew - 1) * 2 ^ F.mw + 2 ^ (F.mw - 1) else 2 ^ (F.w - 1) - 1

/-- A NaN with its quiet bit set (R132). -/
def FFmt.quiet (F : FFmt) (x : Nat) : Nat := x ||| 2 ^ (F.mw - 1)

/-- Whether an element is a NaN. -/
def FFmt.isNan (F : FFmt) (x : Nat) : Bool := F.val x == .nan

/-- Whether an element is a nonzero subnormal. -/
def FFmt.isSub (F : FFmt) (x : Nat) : Bool := F.exp x == 0 && F.man x != 0

/-- The resolved floating mode (R137, R138): rounding 0 nearest-even, 1 toward zero, 2 toward +∞, 3 toward −∞. -/
structure FEnv where
  rnd  : Nat
  ftz  : Bool
  nanc : Bool
  sat  : Bool
  ovn  : Bool
  deriving DecidableEq, Repr

/-- Nearest-even, subnormals kept, SAT and OVN clear: what the units use (R138). -/
def FEnv.unit : FEnv := ⟨0, false, false, false, false⟩

/-- sr.fpmode as a mode (R137). -/
def FEnv.ofMode (w : Word) : FEnv :=
  ⟨bits w.toNat 1 0, w.getLsbD 2, w.getLsbD 4, w.getLsbD 5, w.getLsbD 6⟩

/-- Whether sr.fpmode may hold a value (R137): no reserved field, no reserved FTZ value. -/
def fpmodeOk (w : Word) : Bool := bits w.toNat 31 7 == 0 && !w.getLsbD 3

/-- The rounding of a MOD field resolved against the mode (R138). -/
def resolveRnd (r : Rnd) (m : Nat) : Nat :=
  match r with
  | .mode => m
  | .rn => 0
  | .rz => 1
  | .rp => 2
  | .rm => 3

/-- MOD resolved against sr.fpmode (R138). -/
def FEnv.resolve (w : Word) (f : FMod) (ovn : Bool) : FEnv :=
  let b := FEnv.ofMode w
  { rnd := resolveRnd f.rnd b.rnd,
    ftz := match f.ftz with
      | .mode => b.ftz
      | .ftz => true
      | .den => false,
    nanc := f.nanc || b.nanc, sat := f.sat || b.sat, ovn := ovn || b.ovn }

/-- Whether a truncated magnitude is to be rounded up: `k` what was kept, `r` of `2^sh` what was cut, and `st` whether
something nonzero lies below. -/
def roundUp? (rnd : Nat) (neg : Bool) (k r sh : Nat) (st : Bool) : Bool :=
  if rnd = 0 then decide (2 ^ sh < 2 * r) || (2 * r == 2 ^ sh && (st || k % 2 == 1))
  else if rnd = 1 then false
  else if rnd = 2 then !neg && (decide (0 < r) || st)
  else neg && (decide (0 < r) || st)

/-- What an overflow gives (R139); under NANC its NaN is the canonical one (R142). -/
def FFmt.overflow (F : FFmt) (v : FEnv) (neg : Bool) : Nat × Ev :=
  if !F.inf then
    if v.ovn then (if v.nanc then F.canon else F.infBits neg, Ev.ofSat.plus Ev.ofNan) else (F.sign neg + F.maxBits, Ev.ofSat)
  else if v.sat || v.rnd == 1 || (v.rnd == 2 && neg) || (v.rnd == 3 && !neg) then (F.sign neg + F.maxBits, Ev.ofSat)
  else (F.infBits neg, Ev.ofSat)

/-- The exact value (−1)^neg × m × 2^e rounded once to a format (R139, R140). `st` says that the exact magnitude lies
strictly between m and m + 1 units; m then holds more bits than the format. -/
def FFmt.round (F : FFmt) (v : FEnv) (neg : Bool) (m : Nat) (e : Int) (st : Bool) : Nat × Ev :=
  if m = 0 then (F.sign neg, Ev.zero)
  else
    let top : Int := e + m.log2
    let emin : Int := 1 - (F.bias : Int)
    let q : Int := (if top < emin then emin else top) - F.mw
    let sh := (q - e).toNat
    let k := if q ≤ e then m <<< (e - q).toNat else m >>> sh
    let r := if q ≤ e then 0 else m % 2 ^ sh
    let k1 := if roundUp? v.rnd neg k r sh st then k + 1 else k
    let b := (q - (emin - F.mw)).toNat * 2 ^ F.mw + k1
    if F.maxBits < b then F.overflow v neg
    else if v.ftz && decide (b < 2 ^ F.mw) && decide (0 < b) then (F.sign neg, Ev.ofFtz)
    else (F.sign neg + b, Ev.zero)

/-- A NaN result from a NaN operand (R141). -/
def FFmt.nanOf (F : FFmt) (v : FEnv) (x : Nat) : Nat × Ev := (if v.nanc then F.canon else F.quiet x, Ev.ofNan)

/-- The result of an invalid operation (R141). -/
def FFmt.invalid (F : FFmt) : Nat × Ev := (F.canon, Ev.ofNan)

/-- An operand as it is read: under flushing a subnormal is a zero of its sign (R140). -/
def FFmt.flush (F : FFmt) (v : FEnv) (x : Nat) : Nat := if v.ftz && F.isSub x then F.sign (F.neg x) else x

/-- The sum of two signed magnitudes at a common exponent, rounded; an exact zero takes its sign by R139. -/
def FFmt.roundSum (F : FFmt) (v : FEnv) (na : Bool) (ma : Nat) (ea : Int) (nb : Bool) (mb : Nat) (eb : Int) : Nat × Ev :=
  let e := if ea ≤ eb then ea else eb
  let xa : Int := ((ma <<< (ea - e).toNat : Nat) : Int) * (if na then -1 else 1)
  let xb : Int := ((mb <<< (eb - e).toNat : Nat) : Int) * (if nb then -1 else 1)
  let z := xa + xb
  if z = 0 then (F.sign (if na == nb then na else v.rnd == 3), Ev.zero)
  else F.round v (decide (z < 0)) z.natAbs e false

/-- a + b (R183). -/
def FFmt.addCore (F : FFmt) (v : FEnv) (a b : Nat) : Nat × Ev :=
  match F.val a, F.val b with
  | .nan, _ => F.nanOf v a
  | _, .nan => F.nanOf v b
  | .inf x, .inf y => if x = y then (F.infBits x, Ev.zero) else F.invalid
  | .inf x, _ => (F.infBits x, Ev.zero)
  | _, .inf y => (F.infBits y, Ev.zero)
  | .fin na ma ea, .fin nb mb eb => F.roundSum v na ma ea nb mb eb

/-- The element with its sign flipped; a NaN keeps its payload. -/
def FFmt.negate (F : FFmt) (x : Nat) : Nat := x ^^^ 2 ^ (F.w - 1)

def FFmt.add (F : FFmt) (v : FEnv) (a b : Nat) : Nat × Ev := F.addCore v (F.flush v a) (F.flush v b)

/-- a − b (R183): a NaN operand keeps its own sign. -/
def FFmt.sub (F : FFmt) (v : FEnv) (a b : Nat) : Nat × Ev :=
  let y := F.flush v b
  F.addCore v (F.flush v a) (if F.isNan y then y else F.negate y)

/-- a × b (R183). -/
def FFmt.mul (F : FFmt) (v : FEnv) (a0 b0 : Nat) : Nat × Ev :=
  let a := F.flush v a0
  let b := F.flush v b0
  match F.val a, F.val b with
  | .nan, _ => F.nanOf v a
  | _, .nan => F.nanOf v b
  | .inf x, .inf y => (F.infBits (x != y), Ev.zero)
  | .inf x, .fin y m _ => if m = 0 then F.invalid else (F.infBits (x != y), Ev.zero)
  | .fin x m _, .inf y => if m = 0 then F.invalid else (F.infBits (x != y), Ev.zero)
  | .fin x ma ea, .fin y mb eb => F.round v (x != y) (ma * mb) (ea + eb) false

/-- a × b + c with no rounding of the product (R183). -/
def FFmt.fma (F : FFmt) (v : FEnv) (a0 b0 c0 : Nat) : Nat × Ev :=
  let a := F.flush v a0
  let b := F.flush v b0
  let c := F.flush v c0
  match F.val a, F.val b, F.val c with
  | .nan, _, _ => F.nanOf v a
  | _, .nan, _ => F.nanOf v b
  | _, _, .nan => F.nanOf v c
  | .fin na ma ea, .fin nb mb eb, .fin nc mc ec => F.roundSum v (na != nb) (ma * mb) (ea + eb) nc mc ec
  | .fin _ _ _, .fin _ _ _, .inf z => (F.infBits z, Ev.zero)
  | x, y, z =>
    let sg := fun (q : Val) => match q with
      | .inf n => n
      | .fin n _ _ => n
      | .nan => false
    let zero := fun (q : Val) => match q with
      | .fin _ m _ => m == 0
      | _ => false
    if zero x || zero y then F.invalid
    else
      let p := sg x != sg y
      match z with
      | .inf n => if n = p then (F.infBits p, Ev.zero) else F.invalid
      | _ => (F.infBits p, Ev.zero)

/-- A key that orders non-NaN elements with −0 below +0. -/
def FFmt.order (F : FFmt) (x : Nat) : Int :=
  if F.neg x then -((x % 2 ^ (F.w - 1) : Nat) : Int) - 1 else ((x % 2 ^ (F.w - 1) : Nat) : Int)

/-- `fmin` (`lo`) and `fmax` of two elements (R184). -/
def FFmt.pick (F : FFmt) (v : FEnv) (lo : Bool) (a0 b0 : Nat) : Nat × Ev :=
  let a := F.flush v a0
  let b := F.flush v b0
  match F.isNan a, F.isNan b with
  | true, true => F.nanOf v a
  | true, false => (b, Ev.zero)
  | false, true => (a, Ev.zero)
  | false, false =>
    let le := decide (F.order a ≤ F.order b)
    ((if lo then (if le then a else b) else (if le then b else a)), Ev.zero)

/-- A value that reaches a result without being combined (R170): a NaN is written quiet and counts, a subnormal is
flushed under flushing. -/
def FFmt.pass (F : FFmt) (v : FEnv) (a : Nat) : Nat × Ev :=
  if F.isNan a then F.nanOf v a else (F.flush v a, Ev.zero)

/-- Comparison of two elements with −0 equal to +0 (R186): −1, 0 or 1; none when either is a NaN. -/
def FFmt.cmp? (F : FFmt) (v : FEnv) (a0 b0 : Nat) : Option Int :=
  let a := F.flush v a0
  let b := F.flush v b0
  if F.isNan a || F.isNan b then none
  else
    let k := fun (x : Nat) => if F.neg x then -((x % 2 ^ (F.w - 1) : Nat) : Int) else ((x % 2 ^ (F.w - 1) : Nat) : Int)
    some (if k a < k b then -1 else if k a = k b then 0 else 1)

/-- The class number of an FP32 element (R187). -/
def fclass (x : Nat) : Nat :=
  let s := fp32.neg x
  match fp32.val x with
  | .nan => if x.testBit 22 then 1 else 0
  | .inf n => if n then 2 else 9
  | .fin _ m _ =>
    if m = 0 then (if s then 5 else 6)
    else if fp32.exp x = 0 then (if s then 4 else 7)
    else if s then 3 else 8

/-- a / b (R188). -/
def fdiv32 (v : FEnv) (a0 b0 : Nat) : Nat × Ev :=
  let F := fp32
  let a := F.flush v a0
  let b := F.flush v b0
  match F.val a, F.val b with
  | .nan, _ => F.nanOf v a
  | _, .nan => F.nanOf v b
  | .inf _, .inf _ => F.invalid
  | .inf x, .fin y _ _ => (F.infBits (x != y), Ev.zero)
  | .fin x _ _, .inf y => (F.sign (x != y), Ev.zero)
  | .fin x ma ea, .fin y mb eb =>
    if mb = 0 then (if ma = 0 then F.invalid else (F.infBits (x != y), Ev.zero))
    else if ma = 0 then (F.sign (x != y), Ev.zero)
    else
      let n := ma <<< 80
      F.round v (x != y) (n / mb) (ea - eb - 80) (n % mb != 0)

/-- The integer square root, one bit at a time from bit `k` down. -/
def isqrtFrom (n : Nat) : Nat → Nat → Nat
  | 0, r => if (r + 1) * (r + 1) ≤ n then r + 1 else r
  | k + 1, r => isqrtFrom n k (if (r + 2 ^ (k + 1)) * (r + 2 ^ (k + 1)) ≤ n then r + 2 ^ (k + 1) else r)

def isqrt (n : Nat) : Nat := isqrtFrom n (n.log2 / 2 + 1) 0

/-- √a (R188). -/
def fsqrt32 (v : FEnv) (a0 : Nat) : Nat × Ev :=
  let F := fp32
  let a := F.flush v a0
  match F.val a with
  | .nan => F.nanOf v a
  | .inf n => if n then F.invalid else (F.infBits false, Ev.zero)
  | .fin n m e =>
    if m = 0 then (F.sign n, Ev.zero)
    else if n then F.invalid
    else
      let sh := if e % 2 = 0 then 80 else 81
      let x := m <<< sh
      let r := isqrt x
      F.round v false r ((e - sh) / 2) (r * r != x)

/-- 1 / a (R188). -/
def frcp32 (v : FEnv) (a : Nat) : Nat × Ev := fdiv32 v 0x3F800000 a

/-- 1 / √a, nearest-even (R189). `v` has rounding nearest-even. -/
def frsqrt32 (v : FEnv) (a0 : Nat) : Nat × Ev :=
  let F := fp32
  let a := F.flush v a0
  match F.val a with
  | .nan => F.nanOf v a
  | .inf n => if n then F.invalid else (0, Ev.zero)
  | .fin n m e =>
    if m = 0 then (F.infBits n, Ev.zero)
    else if n then F.invalid
    else
      -- with m·2^e = y·2^(2h): 1/√ = 2^(-h) / √y
      let y := if e % 2 = 0 then m else 2 * m
      let h := if e % 2 = 0 then e / 2 else (e - 1) / 2
      let x := 2 ^ 160 / y
      let r := isqrt x
      F.round v false r (-h - 80) (r * r * y != 2 ^ 160)

/-- Round to an integer in a rounding mode: the magnitude's integer (R143, R190). -/
def roundInt (rnd : Nat) (neg : Bool) (m : Nat) (e : Int) : Nat :=
  if 0 ≤ e then m <<< e.toNat
  else
    let sh := (-e).toNat
    let k := m >>> sh
    if roundUp? rnd neg k (m % 2 ^ sh) sh false then k + 1 else k

/-- `frnd` (R190). -/
def frnd32 (v : FEnv) (a0 : Nat) : Nat × Ev :=
  let F := fp32
  let a := F.flush v a0
  match F.val a with
  | .nan => F.nanOf v a
  | .inf n => (F.infBits n, Ev.zero)
  | .fin n m e => if 0 ≤ e then (a, Ev.zero) else F.round { v with ftz := false } n (roundInt v.rnd n m e) 0 false

/-- `scl` (R191). -/
def fscl32 (v : FEnv) (a0 : Nat) (n : Int) : Nat × Ev :=
  let F := fp32
  let a := F.flush v a0
  let k := if n < -512 then -512 else if 512 < n then 512 else n
  match F.val a with
  | .nan => F.nanOf v a
  | .inf s => (F.infBits s, Ev.zero)
  | .fin s m e => if m = 0 then (a, Ev.zero) else F.round v s m (e + k) false

/-- A conversion between floating formats (R142). -/
def cvtFF (src dst : FFmt) (v : FEnv) (x0 : Nat) : Nat × Ev :=
  let x := src.flush v x0
  match src.val x with
  | .nan =>
    (if v.nanc then dst.canon
     else if !dst.inf then dst.infBits (src.neg x)
     else
       let m := if src.inf then src.man x else 2 ^ src.mw - 1
       let m1 := if src.mw ≤ dst.mw then m <<< (dst.mw - src.mw) else m >>> (src.mw - dst.mw)
       dst.quiet (dst.infBits (src.neg x) + m1), Ev.ofNan)
  | .inf n => if dst.inf then (dst.infBits n, Ev.zero) else dst.overflow v n
  | .fin n m e => if m = 0 then (dst.sign n, Ev.zero) else dst.round v n m e false

/-- Clamp an exact integer to a range, counting SAT where it changes it (R143, R144). -/
def clampEv (z lo hi : Int) : Int × Ev := if z < lo then (lo, Ev.ofSat) else if hi < z then (hi, Ev.ofSat) else (z, Ev.zero)

/-- A conversion of a floating element to an integer range (R143). -/
def cvtFI (src : FFmt) (v : FEnv) (lo hi : Int) (x0 : Nat) : Int × Ev :=
  let x := src.flush v x0
  match src.val x with
  | .nan => (0, Ev.ofInv)
  | .inf n => if n then (lo, Ev.ofSat) else (hi, Ev.ofSat)
  | .fin n m e =>
    let k : Int := roundInt v.rnd n m e
    clampEv (if n then -k else k) lo hi

/-- An integer converted to a floating format (R144). That one beyond FP16's largest finite value overflows, as R139 says of
every result, is the model's reading (log entry 51). -/
def cvtIF (dst : FFmt) (v : FEnv) (z : Int) : Nat × Ev := dst.round v (decide (z < 0)) z.natAbs 0 false

/-- Range of an integer format (R133). -/
def fmtRange : Fmt → Int × Int
  | .s8 => (-128, 127)
  | .s4 => (-8, 7)
  | .n32 => (0, 4294967295)
  | _ => (-2147483648, 2147483647)

/-- The floating format of a code; none for an integer code (R77). -/
def fmtFloat : Fmt → Option FFmt
  | .f32 => some fp32
  | .f16 => some fp16
  | .bf16 => some bf16
  | .e4m3 => some e4m3
  | .e5m2 => some e5m2
  | _ => none

/-- The integer value of the low bits that an integer format reads (R192). -/
def fmtInt (f : Fmt) (w : Word) : Int :=
  match f with
  | .s8 => sextNat w.toNat 8
  | .s4 => sextNat w.toNat 4
  | .n32 => w.toNat
  | _ => w.toInt

/-- `cvt` of one value (R192, R193). -/
def convert (dst src : Fmt) (v : FEnv) (w : Word) : Word × Ev :=
  match fmtFloat src, fmtFloat dst with
  | some s, some d =>
    let (x, ev) := cvtFF s d v (w.toNat % 2 ^ s.w)
    (BitVec.ofNat 32 x, ev)
  | some s, none =>
    let (z, ev) := cvtFI s v (fmtRange dst).1 (fmtRange dst).2 (w.toNat % 2 ^ s.w)
    (BitVec.ofInt 32 z, ev)
  | none, some d =>
    let (x, ev) := cvtIF d v (fmtInt src w)
    (BitVec.ofNat 32 x, ev)
  | none, none =>
    let (z, ev) := clampEv (fmtInt src w) (fmtRange dst).1 (fmtRange dst).2
    (BitVec.ofInt 32 z, ev)

end Sys2Proof.Machine
end

