-- ==== Sys2Proof/Machine/Names.lean ====
section
/-!
DEFINITION. The pin set, the deferred lists and the free actions (R227 to R229, R259, R332, R336, R370, R427).
-/

namespace Sys2Proof.Machine

/-- The kind of a name (R28). -/
def nameKind (n : DWord) : Nat := bits n.toNat 63 60

/-- The name of a KV frame (R319). -/
def frameName (f : Nat) : DWord := BitVec.ofNat 64 (2 ^ 60 + f)

/-- The name of a context-map version (R336). -/
def mapName (a : Nat) : DWord := BitVec.ofNat 64 (3 * 2 ^ 60 + a / 16)

/-- A gather whose tokens in a frame are freed (R349). -/
def Job.freeToks (j : Job) (frame : Nat) : Job :=
  match j.kind with
  | .gather x => { j with kind := .gather { x with toks := x.toks.map (fun t =>
      if t.frame = frame then { t with freed := true } else t) } }
  | _ => j

/-- A freed frame makes the tokens that a gather has still to read from it undefined (R349). -/
def State.markFreed (s : State) (ctx : Nat) (name : DWord) : State :=
  if nameKind name = 1 then
    { s with engines := s.engines.map (fun e => { e with jobs := e.jobs.map (fun j =>
        if j.ctx = ctx then j.freeToks (name.toNat % 2 ^ 60) else j) }) }
  else s

/-- The free action of a name in a context (R332, R336, R259, R370): the name goes to the context's free queue; a queue's
page on the move holds it (R403). -/
def State.freeAction (s0 : State) (ctx : Nat) (name : DWord) : State :=
  let s := s0.markFreed ctx name
  match s.ctx? ctx with
  | none => s
  | some c =>
    if c.freeq = 0 then s
    else
      match s.cohNat? ctx c.freeq 16, s.cohKeys ctx c.freeq 16 with
      | some h, .ok _ =>
        let used := (bits h 31 0 + 2 ^ 32 - bits h 63 32) % 2 ^ 32
        let cap := bits h 95 64
        if cap = 0 ∨ 2 ^ 24 < cap ∨ cap ≤ used then
          s.cohStore ctx (c.freeq + 12) 4 (Nat.min 0xFFFFFFFF (bits h 127 96 + 1))
        else
          let slot := c.freeq + 16 + 8 * (bits h 31 0 % cap)
          match s.cohKeys ctx slot 8 with
          | .ok _ => (s.cohStore ctx slot 8 name.toNat).cohStore ctx c.freeq 4 ((bits h 31 0 + 1) % 2 ^ 32)
          | .error none => s.hold
          | .error _ => s
      | _, _ => s.touch ctx c.freeq 16

/-- Whether an entry of a context holds a name (R427). -/
def State.pinned (s : State) (ctx : Nat) (name : DWord) : Bool :=
  s.pins.any (fun e => e.ctx == ctx && e.name == name)

/-- After an entry left the pin set: a deferred name that no entry holds any more is freed once (R229). -/
def State.release (s : State) (ctx : Nat) (name : DWord) : State :=
  if s.pinned ctx name then s
  else if s.deferred.any (fun d => d.ctx == ctx && d.name == name) then
    { s with deferred := s.deferred.filter (fun d => !(d.ctx == ctx && d.name == name)) }.freeAction ctx name
  else s

/-- Remove the first pin-set entry that equals one, with the deferred free that follows. -/
def State.removePin (s : State) (e : PinEnt) : State :=
  if s.pins.contains e then { s with pins := s.pins.erase e }.release e.ctx e.name else s

/-- The name a pin register holds (R28): 0 when empty. -/
def Group.pinOf (g : Group) (n : Nat) : DWord := (lookup g.pins n).getD 0#64

/-- Empty one pin register of a group (R257). -/
def State.unpinReg (s : State) (ctx gk n : Nat) : State :=
  match s.group? gk with
  | none => s
  | some g =>
    let name := g.pinOf n
    if name = 0#64 then s
    else (s.setGroup { g with pins := erase g.pins n }).removePin ⟨ctx, .reg gk n, name⟩

/-- Write one pin register of a group: the former entry goes first, then the new one comes (R227, R256), so that a register
pinned again with its own deferred name, held by nothing else, frees it (R229). -/
def State.pinReg (s : State) (ctx gk n : Nat) (name : DWord) : State :=
  let s1 := s.unpinReg ctx gk n
  match s1.group? gk with
  | none => s1
  | some g => { s1.setGroup { g with pins := put g.pins n name } with pins := s1.pins ++ [⟨ctx, .reg gk n, name⟩] }

/-- The names deferred on a die. -/
def State.deferredOn (s : State) (die : Nat) : List DeferEnt := s.deferred.filter (fun d => d.die == die)

/-- What a reclaim found (R228, R258, R259). -/
inductive Reclaimed where
  | freed
  | deferred
  | already
  | full
  deriving DecidableEq, Repr

/-- The search and its outcome (R228). A full list changes nothing (R259). -/
def State.reclaimName (s : State) (die ctx : Nat) (name : DWord) : State × Reclaimed :=
  if s.pinned ctx name then
    if s.deferred.contains ⟨die, ctx, name⟩ then (s, .already)
    else if Config.deferredCap ≤ (s.deferredOn die).length then (s, .full)
    else ({ s with deferred := s.deferred ++ [⟨die, ctx, name⟩] }, .deferred)
  else (s.freeAction ctx name, .freed)

end Sys2Proof.Machine
end

