-- ==== Sys2Proof/Machine/Sync.lean ====
section
/-!
DEFINITION. Barrier instances (R267 to R269, R413), the depth change at an iteration boundary (R362), arrival words
(R274, R275) and stage rings (R276).
-/

namespace Sys2Proof.Machine

/-- The number of a barrier in fault records and in `Group.barPh`: level × 256 + index (R391). -/
def barNo (lvl idx : Nat) : Nat := lvl * 256 + idx

/-- A kernel's declaration of a barrier (R118). -/
def Launch.decl? (l : Launch) (lvl idx : Nat) : Option BarDecl :=
  l.bars.find? (fun d => d.level == lvl && d.index == idx)

/-- Whether a gid may use a barrier (R266). -/
def Launch.member (l : Launch) (gid lvl idx : Nat) : Bool :=
  match l.decl? lvl idx with
  | some d => d.members.getLsbD gid
  | none => false

/-- The instance a group of a crew uses: its crew's at `core`, the join set's at `pod`, else its launch's (R267, R413). -/
def State.inst? (s : State) (c : Crew) (l : Launch) (lvl idx : Nat) : Option BarInst :=
  if lvl = 0 then c.insts.find? (fun b => b.index == idx)
  else if lvl = 4 then
    (s.podBars.find? (fun b => b.ctx == l.ctx && b.desc == l.desc.addr && b.inst.index == idx)).map (·.inst)
  else l.insts.find? (fun b => b.level == lvl && b.index == idx)

/-- Replace an instance in a list. -/
def replaceInst (l : List BarInst) (b : BarInst) : List BarInst :=
  l.map (fun x => if x.level == b.level && x.index == b.index then b else x)

/-- Replace the instance of a crew or launch. -/
def State.setInst (s : State) (crew handle : Nat) (b : BarInst) : State :=
  if b.level = 0 then
    { s with crews := s.crews.map (fun c => if c.id == crew then { c with insts := replaceInst c.insts b } else c) }
  else
    match s.launch? handle with
    | none => s
    | some l =>
      if b.level = 4 then
        { s with podBars := s.podBars.map (fun p =>
            if p.ctx == l.ctx && p.desc == l.desc.addr && p.inst.index == b.index then { p with inst := b } else p) }
      else s.setLaunch { l with insts := replaceInst l.insts b }

/-- A new instance at launch (R267). -/
def BarInst.start (d : BarDecl) : BarInst := ⟨d.level, d.index, 0#32, d.count, 0, 0, [], []⟩

/-- The completion of a phase (R268). -/
def BarInst.complete (b : BarInst) : BarInst :=
  { b with phase := b.phase + 1#32, count := 0, expect := b.expect - b.drops, drops := 0, arrived := [] }

/-- Fields of sr.specdepth (R361). -/
def depthOf (w : Word) : Nat := bits w.toNat 7 0

/-- The boundary barrier completes a phase: DEPTH := PEND and PV is cleared (R362). The other fields keep their values
(log entry 7). -/
def applyDepth (w : Word) (lvl idx : Nat) : Word :=
  if w.getLsbD 31 && bits w.toNat 26 24 == lvl && bits w.toNat 23 16 == idx then
    (w &&& 0x7FFFFF00#32) ||| BitVec.ofNat 32 (bits w.toNat 15 8)
  else w

/-- The context's depth after a phase of a barrier of one of its launches completed. -/
def State.boundary (s : State) (ctx lvl idx : Nat) : State :=
  match s.ctx? ctx with
  | none => s
  | some c => s.setCtx { c with depth := applyDepth c.depth lvl idx }

/-- An instance with one more arrival: C := C + 1, and the phase completes at C = E (R268). -/
def BarInst.arrive (b : BarInst) (gk : Nat) : BarInst :=
  let b1 := { b with arrived := gk :: b.arrived, count := b.count + 1 }
  if b1.count = b1.expect then b1.complete else b1

/-- Whether one more arrival completes the phase (R268). -/
def BarInst.completes (b : BarInst) : Bool := b.count + 1 == b.expect

/-- The counting half of an arrival (R268). An arrival at a pod barrier is held until the links are ready (R415). -/
def State.arriveCount (s : State) (c : Crew) (l : Launch) (gk : Nat) (b : BarInst) : State :=
  if b.level = 4 ∧ !s.sys.ready.getLsbD 29 then s.hold
  else
    let s1 := match s.group? gk with
      | none => s
      | some g => s.setGroup { g with barPh := put g.barPh (barNo b.level b.index) b.phase }
    let s2 := s1.setInst c.id l.handle (b.arrive gk)
    if b.completes then s2.boundary l.ctx b.level b.index else s2

/-- `arrive` of R268; none is trap 0x20. The answer is the phase at which the group arrived. -/
def State.barArrive (s : State) (c : Crew) (l : Launch) (gk : Nat) (b : BarInst) : Option (State × Word) :=
  if b.dropped.contains gk || b.arrived.contains gk || b.expect == 0 then none
  else some (s.arriveCount c l gk b, b.phase)

/-- What `drop` of R268 gives: the state, the phase of an arrival it made, and whether it traps with 0x20. The arrival
inside it does not look at the dropped flag that the drop has just set (log entry 8). -/
structure Dropped where
  s     : State
  phase : Option Word
  bad   : Bool
  deriving DecidableEq, Repr

/-- `drop` of R268. -/
def State.barDrop (s : State) (c : Crew) (l : Launch) (gk : Nat) (b : BarInst) : Dropped :=
  if b.dropped.contains gk then ⟨s, none, true⟩
  else
    let b1 := { b with dropped := gk :: b.dropped, drops := b.drops + 1 }
    if b.arrived.contains gk then ⟨s.setInst c.id l.handle b1, none, false⟩
    else if b.expect = 0 then ⟨s.setInst c.id l.handle b1, none, true⟩
    else ⟨s.arriveCount c l gk b1, some b.phase, false⟩

/-- The implicit drops of a group that ends: every instance it is a member of and has not dropped, in ascending level,
then index; they never trap (R269). -/
def State.dropAll (s : State) (crew gid : Nat) : State :=
  match s.crew? crew with
  | none => s
  | some c0 =>
    match s.launch? c0.handle with
    | none => s
    | some l0 =>
      ((List.range 5).flatMap (fun v => (List.range 16).map (fun i => (v, i)))).foldl (fun s e =>
        if l0.member gid e.1 e.2 then
          match s.crew? crew, s.launch? c0.handle with
          | some c, some l =>
            match s.inst? c l e.1 e.2 with
            | some b => if b.dropped.contains (crew * 32 + gid) then s else (s.barDrop c l (crew * 32 + gid) b).s
            | none => s
          | _, _ => s
        else s) s

/-- Whether an instance belongs to a join set (R413). -/
def PodBar.of (p : PodBar) (ctx desc : Nat) : Bool := p.ctx == ctx && p.desc == desc

/-- The instances that a join set still lacks, as its kernel's pod barriers declare them (R413). -/
def State.podMissing (s : State) (ctx desc : Nat) (bars : List BarDecl) : List PodBar :=
  (bars.filter (fun b => b.level == 4 && !s.podBars.any (fun p => p.of ctx desc && p.inst.index == b.index))).map (fun b =>
    ⟨ctx, desc, BarInst.start b, 0⟩)

/-- Whether what another package sends over the links comes: once they are ready (R415), and not from one that is
unreachable (R412). -/
def State.hears (s : State) (pkg : Nat) : Bool := s.sys.ready.getLsbD 29 && pkg != s.pkg && !s.sys.lost.contains pkg

/-- A launch of another package enters a join set (R413): it takes the instances that exist, and creates the others. -/
def State.podJoinFar (s : State) (pkg ctx desc : Nat) (bars : List BarDecl) : State :=
  if s.hears pkg then
    { s with podBars := (s.podBars ++ s.podMissing ctx desc bars).map (fun p =>
        if p.of ctx desc then { p with remote := p.remote + 1 } else p) }
  else s

/-- The key of a group of another package (R402: packages are numbered up to 6,143). -/
def farKey (pkg key : Nat) : Nat := 2 ^ 64 + key * 2 ^ 13 + pkg % 2 ^ 13

/-- Change the instance of a join set as a message of another package says, if it comes; nothing without an instance. -/
def State.podFar (s : State) (pkg ctx desc index : Nat) (f : BarInst → BarInst × Bool) : State :=
  match s.podBars.find? (fun p => p.of ctx desc && p.inst.index == index) with
  | none => s
  | some p =>
    if s.hears pkg then
      let r := f p.inst
      let s1 := { s with podBars := s.podBars.map (fun q =>
        if q.of ctx desc && q.inst.index == index then { q with inst := r.1 } else q) }
      if r.2 then s1.boundary ctx 4 index else s1
    else s

/-- A group of another package arrives (R268, R410, R413); one whose arrival traps there does nothing here. -/
def State.podArriveFar (s : State) (pkg ctx desc index key : Nat) : State :=
  s.podFar pkg ctx desc index (fun b =>
    if b.dropped.contains (farKey pkg key) || b.arrived.contains (farKey pkg key) || b.expect == 0 then (b, false)
    else (b.arrive (farKey pkg key), b.completes))

/-- A group of another package drops (R268, R410, R413). -/
def State.podDropFar (s : State) (pkg ctx desc index key : Nat) : State :=
  s.podFar pkg ctx desc index (fun b =>
    if b.dropped.contains (farKey pkg key) then (b, false)
    else
      let b1 := { b with dropped := farKey pkg key :: b.dropped, drops := b.drops + 1 }
      if b.arrived.contains (farKey pkg key) || b.expect == 0 then (b1, false) else (b1.arrive (farKey pkg key), b1.completes))

/-- The instances of join sets that have no launch left, on any package, go (R413). -/
def State.podSweep (s : State) (ctx desc : Nat) : State :=
  if s.launches.any (fun q => q.ctx == ctx && q.desc.addr == desc && !q.ended) then s
  else { s with podBars := s.podBars.filter (fun p => !p.of ctx desc || p.remote != 0) }

/-- A launch of another package in a join set ends (R413). -/
def State.podEndFar (s : State) (pkg ctx desc : Nat) : State :=
  if s.hears pkg then
    State.podSweep { s with podBars := s.podBars.map (fun p =>
      if p.of ctx desc then { p with remote := p.remote - 1 } else p) } ctx desc
  else s

/-- A word of the arrival-word area. -/
def Crew.awGet (c : Crew) (off : Nat) : Word :=
  BitVec.ofNat 32 (leNat ((List.range 4).map (fun i => c.aw.get (off + i))))

/-- Write a word of the arrival-word area. -/
def Crew.awSet (c : Crew) (off : Nat) (x : Word) : Crew :=
  { c with aw := (leBytes 4 x.toNat).zipIdx.foldl (fun b e => b.set (off + e.2) e.1) c.aw }

/-- `step(n)` of R275. -/
def arrivalStep (w : Word) (n : Int) : Word :=
  if n = 0 then w
  else
    let cnt := (((bits w.toNat 30 0 : Nat) : Int) + n) % (2 : Int) ^ 31
    let ph := w.getLsbD 31 != decide (cnt = 0)
    BitVec.ofNat 32 (cnt.toNat + (if ph then 2 ^ 31 else 0))

/-- Where a slot's FULL and FREE words lie; none is trap 0x12 (R276). The limits of BASE (a multiple of 8) and LEN (at most
64) stand in R276's table without a trap: the model takes such a header as it stands, and reads the four bytes at
BASE + 8s wherever they lie (the model's choice: log entry 60). -/
def Crew.ringSlot? (c : Crew) (k slot : Nat) : Option Nat :=
  let h := (c.awGet (0x3C0 + 4 * k)).toNat
  let base := bits h 25 16
  let len := bits h 6 0
  if bits h 31 26 != 0 || bits h 15 7 != 0 || len == 0 || decide (len ≤ slot) || decide (0x3C0 < base + 8 * len) then none
  else some (base + 8 * slot)

end Sys2Proof.Machine
end

