-- ==== Sys2Proof/Machine/Ops.lean ====
section
/-!
DEFINITION. What every instruction shares: execution masks (R18, R63), the end of an instruction (R45, R69, R71),
waiting at a whole-group point (R41), and taking an exception: the fault record (R387 to R389), the stop (R385), the
park (R236), the kill (R394), a job's fault (R386), and the return from one (R392, R394).
-/

namespace Sys2Proof.Machine

/-- The outcome of a step of this machine. -/
abbrev Out := Host.Outcome State Fault Refusal

/-- The fields of a fault record (R387). -/
structure FaultRec where
  tsc   : Nat
  src   : Nat
  ctx   : Nat
  cause : BitVec 8
  flags : Nat
  gid   : Nat
  slot  : Nat
  pc    : Nat
  word  : IWord
  mask  : Word
  info0 : DWord
  info1 : DWord
  info2 : DWord
  deriving DecidableEq, Repr

/-- FLAGS bits of a fault record (R387). -/
def flagPark : Nat := 1
def flagRole : Nat := 2
def flagClone : Nat := 4
def flagJob : Nat := 8
def flagSecond : Nat := 16

/-- The 64 bytes of a fault record as a number (R387). -/
def FaultRec.toNat (r : FaultRec) : Nat :=
  r.info0.toNat + 2 ^ 64 * r.info1.toNat + 2 ^ 128 * r.info2.toNat + 2 ^ 192 * r.mask.toNat + 2 ^ 224 * r.word.toNat
    + 2 ^ 320 * (r.pc % 2 ^ 64) + 2 ^ 384 * (r.slot % 256) + 2 ^ 392 * (r.gid % 256) + 2 ^ 400 * (r.flags % 256)
    + 2 ^ 408 * r.cause.toNat + 2 ^ 416 * (r.ctx % 2 ^ 16) + 2 ^ 432 * (r.src % 2 ^ 16) + 2 ^ 448 * (r.tsc % 2 ^ 64)

/-- SRC of a fault record (R388). -/
def srcNo (kind die unit lane : Nat) : Nat := kind * 2 ^ 14 + die * 2 ^ 11 + unit * 2 ^ 5 + lane

/-- Write a fault record into a die's queue (R389): at PUT mod 4,096, then PUT; a full ring counts LOST instead. A queue on
the move holds the turn (R403). -/
def State.writeRecord (s : State) (die : Nat) (r : FaultRec) : State :=
  match s.sys.boot with
  | none => s
  | some b =>
    let base := b.fq + die * 0x50000
    match s.cohNat? 0 base 4, s.cohNat? 0 (base + 4) 4 with
    | some put, some get =>
      if 4096 ≤ (put + 2 ^ 32 - get) % 2 ^ 32 then
        match s.cohNat? 0 (base + 8) 4 with
        | some lost => s.cohStore 0 (base + 8) 4 ((lost + 1) % 2 ^ 32)
        | none => s.touch 0 (base + 8) 4
      else (s.cohStore 0 (base + 64 + 64 * (put % 4096)) 64 r.toNat).cohStore 0 base 4 ((put + 1) % 2 ^ 32)
    | _, _ => s.touch 0 base 8

/-- Count one trap of a launch (R385). -/
def State.countTrap (s : State) (handle : Nat) : State :=
  match s.launch? handle with
  | none => s
  | some l => s.setLaunch { l with traps := l.traps + 1 }

/-- Count one killed group of a launch (R394). -/
def State.countKill (s : State) (handle : Nat) : State :=
  match s.launch? handle with
  | none => s
  | some l => s.setLaunch { l with killed := l.killed + 1 }

/-- The cause of an exception with what its record says (R391). -/
structure Trap where
  cause : BitVec 8
  i0    : DWord
  i1    : DWord
  i2    : DWord
  role  : Bool
  deriving DecidableEq, Repr

/-- A trap that names one value. -/
def Trap.one (cause : BitVec 8) (i0 : Nat) : Trap := ⟨cause, BitVec.ofNat 64 i0, 0#64, 0#64, false⟩

/-- SRC of a group on its lane (R388). -/
def Site.src (x : Site) : Nat := srcNo 0 x.c.die (x.c.core % Config.coresPerDie) x.g.lane

/-- The record of an exception of the issuing fragment. -/
def Site.record (x : Site) (s : State) (t : Trap) (flags : Nat) (mask : Word) : FaultRec :=
  { tsc := s.tsc.toNat, src := x.src, ctx := x.ctx, cause := t.cause, flags := flags + (if t.role then flagRole else 0),
    gid := x.g.gid, slot := x.g.slot, pc := x.f.pc, word := s.word, mask := mask, info0 := t.i0, info1 := t.i1,
    info2 := t.i2 }

/-- Whether the instruction being issued counts against the watchdog (R45): not a replay, not an evaluation of a
blocked instruction that has counted already. -/
def Site.counts (x : Site) : Bool := x.f.replay.isNone && (x.g.block.isNone || x.g.recount)

/-- The fragment with the instruction it issues counted. -/
def Site.counted (x : Site) : Frag := { x.f with count := x.f.count + (if x.counts then 1 else 0) }

/-- The site as the state holds it now: its registers, crew and launch may have changed since it was found. -/
def Site.refresh (x : Site) (s : State) : Site :=
  { x with g := (s.group? x.g.key).getD x.g, c := (s.crew? x.c.id).getD x.c, l := (s.launch? x.l.handle).getD x.l }

/-- TAKING AN EXCEPTION, the stop (R385): the record is written, TRAPS counts, and the group stops with the resume address
`resume` (R393); its fragment stays at its word. `mask` is the mask of the faulting threads of a memory access, which the
replay runs (R236); a stop that is no such fault leaves a replay that is due as it is. -/
def State.stopWith (s : State) (x0 : Site) (t : Trap) (flags : Nat) (mask : Word) (counted : Bool) (resume : Nat) : State :=
  let x := x0.refresh s
  let s1 := s.writeRecord x.c.die (x.record s t flags mask)
  let f := if counted then x.counted else x.f
  let g := { x.g.setFrag (lowest x.f.mask) { f with replay := if mask = 0#32 then x.f.replay else some mask } with
    stat := .stopped (lowest x.f.mask) resume s.word, recount := false,
    faultmask := if mask = 0#32 then x.g.faultmask else mask }
  (s1.setGroup g).countTrap x.l.handle

/-- The stop of an ordinary trap: no flag of its own but ROLE (R385, R387). -/
def State.stop (s : State) (x : Site) (t : Trap) (mask : Word) (counted : Bool) (resume : Nat) : State :=
  s.stopWith x t 0 mask counted resume

/-- The end of a group (R178, R269): it drops from its barriers and its pins are retracted, n0 first (the order is the model's
choice: log entry 60); outstanding register writes and job causes are discarded. -/
def State.endGroup (s : State) (gk : Nat) : State :=
  match s.group? gk with
  | none => s
  | some g =>
    let s1 := s.setGroup { g with stat := .ended, frags := [], spilled := [], out := [], block := none, jobFaults := [] }
    let s2 := s1.dropAll g.crew g.gid
    match (s2.crew? g.crew).bind (fun c => s2.launch? c.handle) with
    | none => s2
    | some l => (List.range 4).foldl (fun s n => s.unpinReg l.ctx gk n) s2

/-- The kill of a group (R394). -/
def State.kill (s : State) (gk handle : Nat) : State := (s.endGroup gk).countKill handle

/-- Cause 0x04: the record is written and the group is killed at once (R391). -/
def State.overrun (s : State) (x0 : Site) (i1 i2 : Nat) : State :=
  let x := x0.refresh s
  let t : Trap := ⟨0x04#8, BitVec.ofNat 64 x.g.wdog, BitVec.ofNat 64 (i1 % 2 ^ 32), BitVec.ofNat 64 (i2 % 2 ^ 32), false⟩
  ((s.writeRecord x.c.die (x.record s t 0 0#32)).countTrap x.l.handle).kill x.g.key x.l.handle

/-- The trap of a word that is being executed: it has counted (R45, R385). -/
def State.trap (s : State) (x : Site) (t : Trap) : State := s.stop x t 0#32 true x.f.pc

/-- TAKING AN EXCEPTION, the park (R236): the record with PARK, and the group waits for its service. `counted` is false
where the word was never issued (a fetch): it is due then. -/
def State.park (s : State) (x0 : Site) (va : Nat) (mask : Word) (counted clone : Bool) : State :=
  let x := x0.refresh s
  let t := Trap.one 0x10#8 va
  let s1 := s.writeRecord x.c.die (x.record s t (flagPark + (if clone then flagClone else 0)) mask)
  let f := if counted then x.counted else x.f
  let g := { x.g.setFrag (lowest x.f.mask) { f with replay := if mask = 0#32 then x.f.replay else some mask, due := !counted } with
    stat := .parked (lowest x.f.mask) clone va s.word, recount := false,
    faultmask := if mask = 0#32 then x.g.faultmask else mask }
  s1.setGroup g

/-- The record of a fault that a job met (R386, R387). -/
def JobFault.record (j : JobFault) (s : State) (ctx gid slot flags : Nat) : FaultRec :=
  { tsc := s.tsc.toNat, src := j.src.toNat, ctx := ctx, cause := j.cause, flags := flags, gid := gid, slot := slot,
    pc := j.pc, word := j.word, mask := 0#32, info0 := j.info0, info1 := j.info1, info2 := j.info2 }

/-- A job met a cause whose disposition is a stop: its record is written, and TRAPS counts, as the cause arises (R386, R387,
R390). -/
def State.jobRecord (s : State) (crew gid : Nat) (j : JobFault) (flags : Nat := flagJob) : State :=
  match s.crew? crew with
  | none => s
  | some c =>
    match s.launch? c.handle, s.group? (crew * 32 + gid) with
    | some l, some g => (s.writeRecord c.die (j.record s l.ctx gid g.slot flags)).countTrap l.handle
    | _, _ => s

/-- The issuing group, unless it has ended, is to stop at its next instruction boundary without a further record (R262,
R285, R301, R386). -/
def State.jobStop (s : State) (crew gid : Nat) (j : JobFault) : State :=
  match s.group? (crew * 32 + gid) with
  | none => s
  | some g =>
    match g.stat with
    | .ended => s
    | _ => s.setGroup { g with jobFaults := g.jobFaults ++ [{ j with silent := true }] }

/-- A job met a cause that stops its issuing group (R262, R301, R386). -/
def State.jobFault (s : State) (crew gid : Nat) (j : JobFault) (flags : Nat := flagJob) : State :=
  (s.jobRecord crew gid j flags).jobStop crew gid j

/-- A translation fault that only pauses a job: a record with PARK and JOB, which adds nothing to TRAPS (R262, R387). -/
def State.jobPause (s : State) (crew gid : Nat) (j : JobFault) : State :=
  match s.crew? crew with
  | none => s
  | some c =>
    match s.launch? c.handle, s.group? (crew * 32 + gid) with
    | some l, some g => s.writeRecord c.die (j.record s l.ctx gid g.slot (flagPark + flagJob))
    | _, _ => s

/-- A job's cause reaches its group at an instruction boundary: the group stops, with the resume address at the
record's PC (R262, R386, R393). A silent cause writes no further record. -/
def State.deliver (s : State) (gk : Nat) : State :=
  match s.group? gk with
  | none => s
  | some g =>
    match g.jobFaults, g.all, s.crew? g.crew with
    | j :: r, f :: fs, some c =>
      let low := fs.foldl (fun m x => Nat.min m (lowest x.mask)) (lowest f.mask)
      let g1 := { g with jobFaults := r, stat := .stopped low j.pc j.word }
      match s.launch? c.handle with
      | some l =>
        if j.silent then s.setGroup g1
        else ((s.writeRecord c.die (j.record s l.ctx g.gid g.slot flagJob)).setGroup g1).countTrap l.handle
      | none => s
    | _, _, _ => s

/-- Whether an address is an instruction address of a kernel: its difference from the entry, of either sign, is a multiple
of 12 (R54). -/
def instrAddr (entry a : Nat) : Bool := (a + 11 * entry) % 12 == 0

/-- Whether a `trail` stands at an address, as a fetch would read it. -/
def State.trailAt (s : State) (die ctx a : Nat) : Bool :=
  match translate s ctx (a + 11) with
  | .page p => s.fetchByte die ctx (a + 11) p.cls p.key == 0x75#8
  | _ => false

/-- Whether an address lies in the run that a fragment is in (R67, R72): from the run's start on, with no `trail` between
the fragment's word and it, and within the words a run may have. -/
def State.inRun (s : State) (die ctx : Nat) (f : Frag) (a : Nat) : Bool :=
  let start := f.pc - wordBytes * f.pos
  decide (start ≤ a) && decide (a ≤ start + 23 * wordBytes)
    && (List.range ((a - f.pc) / wordBytes)).all (fun k => !s.trailAt die ctx (f.pc + wordBytes * k))

/-- A fragment at the address where its group resumes (R394): at its word it is as it was; at another word of its run it
keeps its run temporaries (R72); anywhere else a run starts (R67). What it had still to replay or to transfer to is gone
(log entry 27). -/
def State.resumeFrag (s : State) (die ctx : Nat) (f : Frag) (a : Nat) : Frag :=
  if a = f.pc then f
  else
    let f1 := { f with
      pc := a, replay := none, xfer := none, due := false, atPoint := false, owes := [], early := false }
    if s.inRun die ctx f a then { f1 with pos := (a + wordBytes * f.pos - f.pc) / wordBytes }
    else { f1 with pos := 0, tw := 0#8 }

/-- The value of a predicate for a thread (R20). -/
def Group.pred (g : Group) (n : BitVec 3) (i : Nat) : Bool := n == 0#3 || (g.p.get n.toNat).getLsbD i

/-- Whether the guard lets a thread through (R63). -/
def Group.guard (g : Group) (h : Hdr) (i : Nat) : Bool := g.pred h.prd i != h.neg

/-- The execution mask of a vector instruction (R18); a replay runs the faulting threads (R236). -/
def Site.vmask (x : Site) (h : Hdr) : Word :=
  match x.f.replay with
  | some m => m
  | none => maskOf (fun i => x.f.mask.getLsbD i && x.g.guard h i)

/-- The execution mask of a uniform instruction: the lowest thread of the fragment, if the guard passes there (R18). -/
def Site.umask (x : Site) (h : Hdr) : Word :=
  match x.f.replay with
  | some m => maskOf (fun i => i == lowest m)
  | none => maskOf (fun i => i == lowest x.f.mask && x.g.guard h i)

/-- Whether an operand is a vector register (R17). -/
def opdIsV : Opd → Bool
  | .v _ => true
  | _ => false

/-- The temporaries an operand list names, as a mask. -/
def tempsOf (l : List Opd) : BitVec 8 :=
  l.foldl (fun m o => match o with
    | .t n => m ||| (1#8 <<< n.toNat)
    | _ => m) 0#8

/-- Temporaries that a run writes for the first time become undefined in the threads this write leaves out (R69). -/
def State.prepTemps (s : State) (x : Site) (whole : Bool) (dst : List Opd) : State :=
  let fresh := tempsOf dst &&& ~~~ x.f.tw
  if whole || fresh == 0#8 then s
  else
    match s.group? x.g.key with
    | none => s
    | some g =>
      let (s1, n) := s.draw
      let keys := (lanes x.f.mask).flatMap (fun i => (List.range 8).filterMap (fun k =>
        if fresh.getLsbD k then some (i * 8 + k) else none))
      s1.setGroup { g with t := keys.foldl (fun b k => b.havoc k (k + 1) n) g.t }

/-- A read of the low half of a counter latches its high half for the group (R59). -/
def Group.latch (g : Group) (s : State) (src : List Opd) : Group :=
  let g1 := if src.contains (.sr .tsclo) then { g with tscHi := some (s.tsc.extractLsb' 32 32) } else g
  if src.contains (.sr .refclklo) then { g1 with refHi := some (BitVec.ofNat 32 (s.nanos / 10 / 2 ^ 32)) } else g1

/-- The issuing fragment after its instruction: the next word, one more word of the run, one more count, the
temporaries it wrote (R45, R67, R69); `pc` moves by 12. -/
def Site.after (x : Site) (dst : List Opd) : Frag :=
  { x.counted with pc := x.f.pc + 12, pos := x.f.pos + 1, tw := x.f.tw ||| tempsOf dst, replay := none, due := false, atPoint := false,
                   owes := [], early := false }

/-- The crew-relative address of a byte of a register window (R35). -/
def windowBase (gid : Nat) : Nat := 0x40000000 + gid * 0x40000

/-- Whether some unit or engine may still read what a crew's window held (R219, R221). -/
def State.watched (s : State) (c : Crew) : Bool :=
  c.hasUnit || s.engines.any (fun e => e.jobs.any (fun j => j.crew == c.id))

/-- Note that bytes of a crew's window are written and held other values before. -/
def State.notePast (s : State) (crew addr : Nat) (old : List Byte) (grp : Bool) : State :=
  match s.crew? crew with
  | none => s
  | some c =>
    if s.watched c then
      { s.setCrew { c with past := old.zipIdx.map (fun e => ⟨addr + e.2, e.1, s.stamp, grp⟩) ++ c.past } with
        stamp := s.stamp + 1 }
    else if c.past.isEmpty then s
    else s.setCrew { c with past := [] }

/-- Note the words of vector registers that an instruction changed, as bytes of the register window (R36, R221). -/
def State.noteRegs (s : State) (crew : Nat) (old new : Group) (dst : List Opd) : State :=
  let keys := dst.flatMap (fun o => match o with
    | .v n => (List.range Config.W).map (fun i => n.toNat * 32 + i)
    | _ => [])
  (keys.filter (fun k => old.v.get k != new.v.get k)).foldl (fun s k =>
    s.notePast crew (windowBase old.gid + 4 * k) (leBytes 4 (old.v.get k).toNat) true) s

/-- The offsets from the kernel entry that a cause 0x04 record names (R391). -/
def Site.offset (x : Site) (a : Nat) : Nat := (a + 2 ^ 32 - x.l.desc.entry % 2 ^ 32) % 2 ^ 32

/-- Two points of a group at which its fragments wait and which can never both complete (R41): two whole-group points,
or one and a reconvergence address whose fusion needs the fragment at the point. -/
def Group.deadlock (g : Group) : Option (Nat × Nat) :=
  let at_ := g.all.filter (·.atPoint)
  let pcs := sortBy (fun a b => a ≤ b) (at_.map (·.pc))
  match pcs with
  | [] => none
  | p :: r =>
    match r.find? (fun q => q != p) with
    | some q => some (p, q)
    | none =>
      ((g.all.filter (fun f => f.waits && !f.atPoint)).find? (fun f => match f.stack with
        | (_, n) :: _ => at_.any (fun y => y.carries n)
        | [] => false)).map (fun f => (Nat.min p f.pc, Nat.max p f.pc))

/-- After fragments moved: fusions (R40), then the trap of R41 where two points wait for one another. -/
def State.settle (s : State) (x : Site) : State :=
  match s.group? x.g.key with
  | none => s
  | some g0 =>
    let g := g0.settle
    let s1 := s.setGroup g
    match g.deadlock with
    | none => s1
    | some (a, b) => s1.overrun { x with g := g } (x.offset a) (x.offset b)

/-- RETURN FROM AN EXCEPTION: the resume of a stopped group at its resume address (R394); one that is no instruction
address takes trap 0x13 at once. Resuming at the trapping word keeps the replay of its faulting threads (R236). A divided
group's fragments may fuse where this one resumes (R40). -/
def State.resume (s : State) (gk : Nat) : State :=
  match s.group? gk with
  | none => s
  | some g =>
    match g.stat, s.crew? g.crew with
    | .stopped low a w, some c =>
      match (g.all.find? (fun f => lowest f.mask == low)), s.launch? c.handle with
      | some f, some l =>
        if instrAddr l.desc.entry a then
          let f1 := s.resumeFrag c.die l.ctx f a
          let g1 := { g.setFrag low f1 with
            stat := .run, block := if a = f.pc then g.block else none, recount := g.block.isSome }
          if f1.stack.isEmpty then s.setGroup g1 else (s.setGroup g1).settle ⟨g1, f1, c, l⟩
        else
          let x : Site := ⟨{ g with stat := .run }, f, c, l⟩
          ({ s with word := w } : State).stop x (Trap.one 0x13#8 a) 0#32 false f.pc
      | _, _ => s
    | _, _ => s

/-- The end of an instruction that took effect or was guarded off, at the site `x` it issued from. A divided group's
fragments may fuse where this one arrives (R40). -/
def State.finish (s0 : State) (x : Site) (dst : List Opd) : State :=
  match s0.group? x.g.key with
  | none => s0
  | some g =>
    let s := if s0.watched x.c then s0.noteRegs x.c.id x.g g dst else s0
    let s1 := s.setGroup { g.setFrag (lowest x.f.mask) (x.after dst) with
      block := none, recount := false, faultmask := if x.f.replay.isSome then 0#32 else g.faultmask }
    if x.f.stack.isEmpty then s1 else s1.settle x

/-- A blocking instruction that does not complete: the group blocks, the word having counted once (R45, R46). -/
def State.blockOn (s : State) (x : Site) (b : Block) : State :=
  match s.group? x.g.key with
  | none => s
  | some g => s.setGroup { g.setFrag (lowest x.f.mask) { x.counted with replay := none, due := false, owes := [], early := false } with
      block := some b, recount := false, faultmask := if x.f.replay.isSome then 0#32 else g.faultmask }

/-- Whether a waiter still waits: its fragment stands at the word that held it, its group runs, its crew is on a core. -/
def State.waits (s : State) (w : Waiter) : Bool :=
  match s.siteAt w.gk w.low with
  | some x => x.g.stat == .run && x.c.stat == .resident && x.f.pc == w.pc
  | none => false

/-- Whether another fragment comes before the issuing one at a queue: the oldest that waits there (R249, R262, R284). -/
def State.ahead (s : State) (q : Queue) (x : Site) : Bool :=
  match s.waiters.find? (fun w => w.on == q && s.waits w) with
  | some w => !(w.gk == x.g.key && w.low == lowest x.f.mask)
  | none => false

/-- The issuing fragment waits at a queue; one that waits there already keeps its place. -/
def State.waitFor (s : State) (q : Queue) (x : Site) : State :=
  let w : Waiter := ⟨q, x.g.key, lowest x.f.mask, x.f.pc⟩
  if s.waiters.contains w then s else { s with waiters := s.waiters.filter s.waits ++ [w] }

/-- The issuing fragment waits at no queue any more. -/
def State.unwait (s : State) (x : Site) : State :=
  { s with waiters := s.waiters.filter (fun w => !(w.gk == x.g.key && w.low == lowest x.f.mask)) }

/-- Run a meaning at the issuing site; without one (the group has ended, or none is in focus) nothing happens. -/
def State.atSite (s : State) (k : Site → Out) : Out :=
  match s.site? with
  | none => .next s
  | some x => k x

/-- The single fragment that all fragments of a group fuse into at a whole-group point (R41). -/
def pointFrag (fs : List Frag) (f : Frag) : Frag :=
  { f with mask := fs.foldl (fun m y => m ||| y.mask) 0#32, stack := [],
           count := fs.foldl (fun m y => Nat.max m y.count) 0, atPoint := true }

/-- Where every live fragment waits at one whole-group point, `x`'s fragment having come, the group with its fragments
fused, and the site of the fused one (R41). -/
def State.gather (s : State) (x : Site) : Option (State × Site) :=
  let f := { x.f with atPoint := true }
  let g := x.g.setFrag (lowest f.mask) f
  if g.all.all (fun y => y.atPoint && y.pc == f.pc) then
    let pf := pointFrag g.all f
    let g1 := { g with frags := [pf], spilled := [] }
    some ({ s.setGroup g1 with focus := ⟨s.focus.gk, lowest pf.mask⟩ }, { x with g := g1, f := pf })
  else none

/-- A whole-group point (R41): the fragment waits until every live fragment waits at its address; they then fuse and
`k` executes the instruction once. -/
def State.atPoint (s : State) (x : Site) (k : State → Site → Out) : Out :=
  match s.gather x with
  | some (s1, y) => k s1 y
  | none =>
    let f := { x.f with atPoint := true }
    let g := x.g.setFrag (lowest f.mask) f
    .next ((s.setGroup g).settle { x with g := g, f := f })

end Sys2Proof.Machine
end

