-- ==== Sys2Proof/Machine/Operands.lean ====
section
/-!
DEFINITION. Operand forms: reading sources of every class (R56 to R59, R155), register pairs (R58), and writing
destinations, vector and uniform (R20, R155).
-/

namespace Sys2Proof.Machine

/-- The register after this one, the high half of a pair (R58). -/
def opdNext : Opd → Opd
  | .v n => .v (n + 1#8)
  | .g n => .g (n + 1#6)
  | .t n => .t (n + 1#3)
  | .p n => .p (n + 1#3)
  | o => o

/-- Vector register `n` of thread `i` (R26). -/
def Group.vreg (g : Group) (n : BitVec 8) (i : Nat) : Word := g.v.get (n.toNat * 32 + i)

/-- Group register `n` (R26). -/
def Group.greg (g : Group) (n : Nat) : Word := g.g.get n

/-- Run temporary `n` of thread `i` (R26, R69). -/
def Group.treg (g : Group) (n : BitVec 3) (i : Nat) : Word := g.t.get (i * 8 + n.toNat)

/-- A special register for a thread (R29, R59). -/
def Site.sreg (x : Site) (s : State) (i : Nat) : SReg → Word
  | .gwidth => BitVec.ofNat 32 Config.W
  | .tid => BitVec.ofNat 32 i
  | .gid => BitVec.ofNat 32 x.g.gid
  | .role => BitVec.ofNat 32 (x.l.roleNow x.g)
  | .ngroups => BitVec.ofNat 32 x.l.desc.crew
  | .crewx => BitVec.ofNat 32 (x.c.lin % x.l.cx)
  | .crewy => BitVec.ofNat 32 (x.c.lin / x.l.cx % x.l.cy)
  | .crewz => BitVec.ofNat 32 (x.c.lin / x.l.cx / x.l.cy)
  | .ncrewx => BitVec.ofNat 32 x.l.cx
  | .ncrewy => BitVec.ofNat 32 x.l.cy
  | .ncrewz => BitVec.ofNat 32 x.l.cz
  | .lane => BitVec.ofNat 32 x.g.lane
  | .core => BitVec.ofNat 32 (x.c.core % 4)
  | .quad => BitVec.ofNat 32 (x.c.core % Config.coresPerDie / 4)
  | .die => BitVec.ofNat 32 x.c.die
  | .pkg => BitVec.ofNat 32 s.pkg
  | .tsclo => s.tsc.extractLsb' 0 32
  | .tschi => x.g.tscHi.getD (s.tsc.extractLsb' 32 32)
  | .refclklo => BitVec.ofNat 32 (s.nanos / 10)
  | .refclkhi => x.g.refHi.getD (BitVec.ofNat 32 (s.nanos / 10 / 2 ^ 32))
  | .fpmode => x.g.fpmode
  | .ybound => BitVec.ofNat 32 (((s.ctx? x.ctx).map (·.ybound)).getD 4096)
  | .faultmask => if x.g.faultmask.getLsbD i then 1#32 else 0#32
  | .specdepth => ((s.ctx? x.ctx).map (·.depth)).getD 0#32
  | .ctx => BitVec.ofNat 32 (x.ctx % 2 ^ 16)

/-- A 32-bit source operand for thread `i` (R56). A uniform instruction reads at the lowest thread of its mask (R155). -/
def Site.read (x : Site) (s : State) (i : Nat) : Opd → Word
  | .v n => x.g.vreg n i
  | .g n => x.g.greg n.toNat
  | .p n => if x.g.pred n i then 1#32 else 0#32
  | .t n => x.g.treg n i
  | .si v => v.signExtend 32
  | .ui v => v.setWidth 32
  | .sr r => x.sreg s i r
  | .pin _ => 0#32
  | .rc n => n.setWidth 32
  | .li v => v
  | .aw off => off.setWidth 32
  | .ring _ _ => 0#32

/-- A 64-bit source: a pair, or an immediate extended to 64 bits (R58, R166). -/
def Site.read64 (x : Site) (s : State) (i : Nat) (o : Opd) : DWord :=
  match o with
  | .si v => v.signExtend 64
  | .ui v => v.setWidth 64
  | .li v => v.setWidth 64
  | o => x.read s i (opdNext o) ++ x.read s i o

/-- A group-register pair as a number (R58). -/
def Site.gpair (x : Site) (n : Nat) : Nat := (x.g.greg n).toNat + 2 ^ 32 * (x.g.greg (n + 1)).toNat

/-- The number of a group register that an operand names. -/
def opdGno : Opd → Nat
  | .g n => n.toNat
  | _ => 0

/-- Write one thread's register of an operand (R20: p0 discards). -/
def Group.writeAt (g : Group) (i : Nat) (o : Opd) (w : Word) : Group :=
  match o with
  | .v n => { g with v := g.v.set (n.toNat * 32 + i) w }
  | .t n => { g with t := g.t.set (i * 8 + n.toNat) w }
  | .g n => { g with g := g.g.set n.toNat w }
  | .p n =>
    if n = 0#3 then g
    else
      let old := g.p.get n.toNat
      { g with p := g.p.set n.toNat (if w == 0#32 then old &&& ~~~ (1#32 <<< i) else old ||| (1#32 <<< i)) }
  | _ => g

/-- Write a uniform result: a group register once, a temporary or a predicate for all W threads (R20, R155). -/
def Group.writeAll (g : Group) (o : Opd) (w : Word) : Group :=
  match o with
  | .g n => { g with g := g.g.set n.toNat w }
  | .t _ => (List.range Config.W).foldl (fun g i => g.writeAt i o w) g
  | .p n => if n = 0#3 then g else { g with p := g.p.set n.toNat (if w == 0#32 then 0#32 else allThreads) }
  | _ => g

/-- Write a destination: per thread of the mask, or once for a uniform instruction whose mask is not empty. -/
def Group.write (g : Group) (uni : Bool) (e : Word) (o : Opd) (f : Nat → Word) : Group :=
  if uni then (if e = 0#32 then g else g.writeAll o (f (lowest e)))
  else (lanes e).foldl (fun g i => g.writeAt i o (f i)) g

/-- Write a pair destination (R58). -/
def Group.write64 (g : Group) (uni : Bool) (e : Word) (o : Opd) (f : Nat → DWord) : Group :=
  (g.write uni e o (fun i => (f i).setWidth 32)).write uni e (opdNext o) (fun i => (f i).extractLsb' 32 32)

/-- Whether an instruction with these operands is uniform (R17). -/
def uniform (l : List Opd) : Bool := !l.any opdIsV

/-- The execution mask of an instruction with these operands (R18). -/
def Site.emask (x : Site) (h : Hdr) (l : List Opd) : Word := if uniform l then x.umask h else x.vmask h

/-- Change the issuing group in place. -/
def State.modGroup (s : State) (gk : Nat) (f : Group → Group) : State :=
  match s.group? gk with
  | none => s
  | some g => s.setGroup (f g)

/-- Change the issuing group's registers, latch counters that were read, and end the instruction. -/
def State.commit (s : State) (x : Site) (e : Word) (dst src : List Opd) (f : Group → Group) : State :=
  (s.modGroup x.g.key (fun g => f (if e = 0#32 then g else g.latch s src))).finish x dst

/-- A register-to-register instruction: `f` gives the result of each thread from the values before it (R19). -/
def State.alu (s : State) (h : Hdr) (d : Opd) (src : List Opd) (f : Site → Nat → Word) : Out :=
  s.atSite (fun x =>
    let e := x.emask h (d :: src)
    let u := uniform (d :: src)
    let s1 := s.prepTemps x (if u then e != 0#32 else e == x.f.mask) [d]
    .next (s1.commit x e [d] src (fun g => g.write u e d (f x))))

/-- As `alu`, with a 64-bit result in a pair. -/
def State.alu64 (s : State) (h : Hdr) (d : Opd) (src : List Opd) (f : Site → Nat → DWord) : Out :=
  s.atSite (fun x =>
    let e := x.emask h (d :: src)
    let u := uniform (d :: src)
    let s1 := s.prepTemps x (if u then e != 0#32 else e == x.f.mask) [d, opdNext d]
    .next (s1.commit x e [d, opdNext d] src (fun g => g.write64 u e d (f x))))

/-- As `alu`, with statistics events, which count against tensor ID 0 (R152). -/
def State.aluEv (s : State) (h : Hdr) (d : Opd) (src : List Opd) (f : Site → Nat → Word × Ev) : Out :=
  s.atSite (fun x =>
    let e := x.emask h (d :: src)
    let u := uniform (d :: src)
    let s1 := s.prepTemps x (if u then e != 0#32 else e == x.f.mask) [d]
    let ev := Ev.sum ((lanes e).map (fun i => (f x i).2))
    .next ((s1.count x.c.die x.ctx 0 ev).commit x e [d] src (fun g => g.write u e d (fun i => (f x i).1))))

/-- A uniform instruction with an effect of its own: nothing when its guard fails, else `k` with the mask of the one
thread it reads at. -/
def State.uni (s : State) (h : Hdr) (k : Site → Word → Out) (dst : List Opd) : Out :=
  s.atSite (fun x =>
    let e := x.umask h
    if e = 0#32 then .next ((s.prepTemps x false dst).finish x dst) else k x e)

end Sys2Proof.Machine
end

