-- ==== Sys2Proof/Machine/Record.lean ====
section
/-!
DEFINITION. The buffer record: its fields, its checks, where an element lies, and what loads and stores of elements
convert (R238 to R242).
-/

namespace Sys2Proof.Machine

/-- A field of a record (R238). -/
def recBits (r : Rec) (hi lo : Nat) : Nat := bits r.toNat hi lo

def recBase (r : Rec) : Nat := recBits r 55 0
def recClass (r : Rec) : Nat := recBits r 57 56
def recExtent (r : Rec) : Nat := recBits r 111 64
def recEnc (r : Rec) : Nat := recBits r 115 112
def recIlv (r : Rec) : Nat := recBits r 119 116
def recSmode (r : Rec) : Nat := recBits r 123 120
def recScale (r : Rec) : Nat := recBits r 183 128
def recGsize (r : Rec) : Nat := recBits r 191 184
def recTensor (r : Rec) : Nat := recBits r 203 192
def recStride (r : Rec) : Nat := recBits r 239 208
def recCols (r : Rec) : Nat := recBits r 263 240
def recSidx (r : Rec) : Nat := recBits r 319 264

/-- Element formats of records (R238). -/
inductive Enc where
  | f32 | f16 | bf16 | e4m3 | e5m2 | s8 | s4 | s32 | n32 | tern | k4 | k3 | k2 | n6
  deriving DecidableEq, Repr

/-- The format of an ENC value. -/
def encOf : Nat → Option Enc
  | 0 => some .f32
  | 1 => some .f16
  | 2 => some .bf16
  | 3 => some .e4m3
  | 4 => some .e5m2
  | 5 => some .s8
  | 6 => some .s4
  | 7 => some .s32
  | 8 => some .n32
  | 9 => some .tern
  | 10 => some .k4
  | 11 => some .k3
  | 12 => some .k2
  | 13 => some .n6
  | _ => none

/-- Bits of an element (R238). -/
def encBits : Enc → Nat
  | .f32 => 32
  | .f16 => 16
  | .bf16 => 16
  | .e4m3 => 8
  | .e5m2 => 8
  | .s8 => 8
  | .s4 => 4
  | .s32 => 32
  | .n32 => 32
  | .tern => 2
  | .k4 => 4
  | .k3 => 3
  | .k2 => 2
  | .n6 => 6

/-- The floating format of an ENC, if it has one. -/
def encFloat : Enc → Option FFmt
  | .f32 => some fp32
  | .f16 => some fp16
  | .bf16 => some bf16
  | .e4m3 => some e4m3
  | .e5m2 => some e5m2
  | _ => none

/-- Codebook formats. -/
def encCode (e : Enc) : Bool := e == .k4 || e == .k3 || e == .k2

/-- Width of a record's elements. -/
def recWidth (r : Rec) : Nat := ((encOf (recEnc r)).map encBits).getD 8

/-- The checks of R240; `dest` for a store or conversion destination, `stream` for a stream use. -/
def recOk (r : Rec) (dest stream : Bool) : Bool :=
  match encOf (recEnc r) with
  | none => false
  | some e =>
    let w := encBits e
    recBits r 63 58 == 0 && recBits r 127 124 == 0 && recBits r 207 204 == 0
      && decide (recSmode r ≤ 2) && decide (recIlv r ≤ 1) && decide (recClass r ≤ 1)
      && !(recIlv r == 1 && (decide (w < 8) || recBase r % 128 != 0))
      && !(recSmode r != 0 && (decide (16 < recGsize r) || encCode e))
      && !(decide (8 ≤ w) && (recBase r % (w / 8) != 0 || (recCols r != 0 && recStride r % (w / 8) != 0)))
      && !(dest && (e == .tern || encCode e || recSmode r != 0))
      && !(stream && recSidx r == 0)

/-- The bit offset of element `e` from BASE; none beyond the extent (R239). -/
def recOff (r : Rec) (e : Nat) : Option Nat :=
  let w := recWidth r
  let row := if recCols r = 0 then 0 else e / recCols r
  let off := if recCols r = 0 then e * w else row * recStride r * 8 + e % recCols r * w
  if recExtent r * 8 < off + w then none
  else if recIlv r = 1 then some ((off / 8 ^^^ (row % 8) <<< 4) * 8)
  else some off

/-- The exact product of two values; none when invalid, and `.nan` does not occur in operands. -/
def mulVal : Val → Val → Option Val
  | .fin a m e, .fin b n f => some (.fin (a != b) (m * n) (e + f))
  | .inf a, .inf b => some (.inf (a != b))
  | .inf a, .fin b n _ => if n = 0 then none else some (.inf (a != b))
  | .fin a m _, .inf b => if m = 0 then none else some (.inf (a != b))
  | _, _ => none

/-- A value rounded to a format with the units' mode (R138). -/
def roundVal (F : FFmt) (x : Option Val) : Nat × Ev :=
  match x with
  | none => F.invalid
  | some .nan => F.invalid
  | some (.inf n) => (F.infBits n, Ev.zero)
  | some (.fin n m e) => F.round FEnv.unit n m e false

/-- The exact value of an element code, for a format that is not a codebook's (R130, R133, R134). -/
def encVal (e : Enc) (raw : Nat) : Val :=
  match encFloat e with
  | some F => F.val raw
  | none =>
    let z : Int := match e with
      | .s8 => sextNat raw 8
      | .s4 => sextNat raw 4
      | .s32 => sextNat raw 32
      | .tern => if raw = 1 then 1 else if raw = 3 then -1 else 0
      | _ => raw
    .fin (decide (z < 0)) z.natAbs 0

/-- The factor of a scale code: 2^g under `exp8`, the FP32 value under `f32` (R239, R241). -/
def scaleVal (smode code : Nat) : Val := if smode = 1 then .fin false 1 (sextNat code 8) else fp32.val code

/-- What a record-based load gives for an element code and its scale code (R241). A floating element without a factor is
converted under R142, an FP32 one too (log entry 15). -/
def elemLoad (e : Enc) (smode raw code : Nat) : Word × Ev :=
  let word := fun (r : Nat × Ev) => (BitVec.ofNat 32 r.1, r.2)
  if encCode e then (BitVec.ofNat 32 raw, Ev.zero)
  else if e == .tern && raw == 2 then (if smode = 0 then 0#32 else 0x7FC00000#32, Ev.ofInv)
  else if smode = 0 then
    match encFloat e with
    | some F => word (cvtFF F fp32 FEnv.unit raw)
    | none =>
      match encVal e raw with
      | .fin n m _ => (BitVec.ofInt 32 (if n then -(m : Int) else m), Ev.zero)
      | _ => (0#32, Ev.zero)
  else
    match encFloat e, encVal e raw, scaleVal smode code with
    | some F, .nan, _ => word (cvtFF F fp32 FEnv.unit raw)
    | _, _, .nan => word (fp32.nanOf FEnv.unit code)
    | _, x, f => word (roundVal fp32 (mulVal x f))

/-- The code that a record-based store writes for a register value (R242): a floating element is rounded under R142, an
FP32 one too (log entry 15). -/
def elemStore (e : Enc) (w : Word) : Nat × Ev :=
  match encFloat e with
  | some F => cvtFF fp32 F FEnv.unit w.toNat
  | none =>
    match e with
    | .s8 => let r := clampEv w.toInt (-128) 127; (wrapInt 8 r.1, r.2)
    | .s4 => let r := clampEv w.toInt (-8) 7; (wrapInt 4 r.1, r.2)
    | .n6 => let r := clampEv w.toNat 0 63; (r.1.toNat, r.2)
    | _ => (w.toNat, Ev.zero)

/-- The bytes that bits `off` to `off + w − 1` of a string reach: first byte and count. -/
def bitSpan (off w : Nat) : Nat × Nat := (off / 8, (off % 8 + w + 7) / 8)

/-- A field of bytes. -/
def bitGet (xs : List Byte) (lo w : Nat) : Nat := leNat xs >>> lo % 2 ^ w

/-- Bytes with a field replaced (R6, R242). -/
def bitPut (xs : List Byte) (lo w code : Nat) : List Byte :=
  let n := leNat xs
  leBytes xs.length (n - (bitGet xs lo w) <<< lo + (code % 2 ^ w) <<< lo)

end Sys2Proof.Machine
end

