-- ==== Sys2Proof/Machine/Access.lean ====
section
/-!
DEFINITION. What memory instructions share: the crew's scratchpad space (R35, R36, R425), the outcome of each thread's
access, and the driver that takes the threads' steps in order and then completes, parks or stops (R235, R236).
-/

namespace Sys2Proof.Machine

/-- Where a crew-relative range lies (R35): the window, the arrival words, the group's own registers, or nowhere. -/
inductive Region where
  | win | aw | reg | none
  deriving DecidableEq, Repr

/-- The region of a range of a crew's space, as a group sees it (R35). -/
def Site.region (x : Site) (a n : Nat) : Region :=
  let rb := windowBase x.g.gid
  if a + n ≤ x.l.desc.scratch then .win
  else if 0x30000000 ≤ a ∧ a + n ≤ 0x30000400 then .aw
  else if rb ≤ a ∧ a + n ≤ rb + x.vregs * 128 then .reg
  else .none

/-- Whether a range lies in the crew window (R425); an empty one does. -/
def Site.inWindow (x : Site) (a n : Nat) : Bool := n == 0 || x.region a n == .win || x.region a n == .reg

/-- One byte of a crew's space. -/
def scrByte (c : Crew) (g : Group) (a : Nat) : Byte :=
  if a < 0x30000000 then c.scr.get a
  else if a < 0x40000000 then c.aw.get (a - 0x30000000)
  else
    let o := a - windowBase g.gid
    (g.v.get (o / 4)).extractLsb' (8 * (o % 4)) 8

/-- Bytes of a crew's space. -/
def State.scrRead (s : State) (crew gid a n : Nat) : List Byte :=
  match s.crew? crew, s.group? (crew * 32 + gid) with
  | some c, some g => (List.range n).map (fun i => scrByte c g (a + i))
  | _, _ => []

/-- Write one byte of a register window. -/
def Group.putByte (g : Group) (o : Nat) (x : Byte) : Group :=
  let old := g.v.get (o / 4)
  let m : Word := 0xFF#32 <<< (8 * (o % 4))
  { g with v := g.v.set (o / 4) ((old &&& ~~~ m) ||| (x.setWidth 32 <<< (8 * (o % 4)))) }

/-- Granule `g`, of 32 bytes, lies wholly within some ranges (R421). -/
def granuleIn (l : List (Nat × Nat)) (g : Nat) : Bool :=
  (List.range 32).all (fun i => l.any (fun r => decide (r.1 ≤ 32 * g + i) && decide (32 * g + i < r.1 + r.2)))

/-- Whether a range of a crew's space reads a poisoned granule (R420, R421). Only loads and jobs ask: a register operand meets
no poison of its granule in the core store and clears none (log entry 61). -/
def State.scrPoison (s : State) (crew a n : Nat) : Bool :=
  match s.crew? crew with
  | some c => c.poison.any (fun g => overlaps a n (32 * g) 32)
  | none => false

/-- A store to whole granules of a crew's space clears their poison (R421). -/
def Crew.cover (c : Crew) (l : List (Nat × Nat)) : Crew :=
  if c.poison.isEmpty then c else { c with poison := c.poison.filter (fun g => !granuleIn l g) }

/-- Write bytes of a crew's space; what the window held before is noted for jobs (R219, R221). -/
def State.scrWrite (s : State) (crew gid a : Nat) (xs : List Byte) (grp : Bool := true) : State :=
  let s1 := s.notePast crew a (s.scrRead crew gid a xs.length) grp
  match s1.crew? crew with
  | none => s1
  | some c0 =>
    let c := c0.cover [(a, xs.length)]
    if a < 0x30000000 then s1.setCrew { c with scr := xs.zipIdx.foldl (fun b e => b.set (a + e.2) e.1) c.scr }
    else if a < 0x40000000 then
      s1.setCrew { c with aw := xs.zipIdx.foldl (fun b e => b.set (a - 0x30000000 + e.2) e.1) c.aw }
    else (s1.setCrew c).modGroup (crew * 32 + gid) (fun g => xs.zipIdx.foldl (fun g e => g.putByte (a - windowBase gid + e.2) e.1) g)

/-- The outcome of one thread's access: done with a result and its events, a cause with what the record names, held by a moving
page (R403), or an atomic of a replayed launch that comes before its turn (R424). -/
inductive Acc where
  | ok (s : State) (w : DWord) (ev : Ev)
  | bad (cause : BitVec 8) (info : Nat)
  | hold
  | early
  deriving DecidableEq, Repr

/-- What the threads of one instruction did so far. -/
structure Sweep where
  s     : State
  vals  : List (Nat × DWord)
  bads  : List (Nat × BitVec 8 × Nat)
  ev    : Ev
  held  : Bool
  late  : List Nat
  deriving DecidableEq, Repr

/-- No access of them was held, and none came before its turn. -/
def Sweep.clear (w : Sweep) : Bool := !w.held && w.late.isEmpty

/-- The threads' accesses, in ascending thread order (R19). -/
def sweep (f : State → Nat → Acc) : List Nat → Sweep → Sweep
  | [], w => w
  | i :: r, w =>
    match f w.s i with
    | .ok s v ev => sweep f r { w with s := s, vals := w.vals ++ [(i, v)], ev := w.ev.plus ev }
    | .bad c a => sweep f r { w with bads := w.bads ++ [(i, c, a)] }
    | .hold => sweep f r { w with held := true }
    | .early => sweep f r { w with late := w.late ++ [i] }

/-- The mask of a list of threads. -/
def maskOfList (l : List Nat) : Word := maskOf (fun i => l.contains i)

/-- The site of an access that some threads have still to make, those of `m` (R69, R231, R237): it has written its destination in
the others, and its replay owes it to these. -/
def Site.owing (x : Site) (m : Word) (dst : List Opd) : Site :=
  { x with f := { x.f with tw := x.f.tw ||| tempsOf dst, owes := if m = 0#32 then [] else dst, early := false } }

/-- The state after the access of the other threads: what they wrote is noted, and in the threads of `m` a temporary that the run
writes for the first time is undefined (R69). -/
def State.partly (s : State) (x : Site) (m : Word) (dst : List Opd) : State :=
  let s1 := if s.watched x.c then
      (match s.group? x.g.key with
       | some g => s.noteRegs x.c.id x.g g dst
       | none => s)
    else s
  s1.prepTemps { x with f := { x.f with mask := m } } false dst

/-- The end of a memory access (R235, R236): without faults the instruction ends; else sr.faultmask names the faulting
threads and the group parks, when every cause is 0x10, or stops with the cause of the lowest thread that has another. -/
def State.conclude (s : State) (x : Site) (bads : List (Nat × BitVec 8 × Nat)) (dst : List Opd) : State :=
  match bads with
  | [] => s.finish x dst
  | (_, _, a) :: _ =>
    let m := maskOfList (bads.map (·.1))
    let s1 := s.partly x m dst
    match bads.find? (fun b => b.2.1 != 0x10#8) with
    | none => s1.park (x.owing m dst) a m true false
    | some (_, c, b) => s1.stop (x.owing m dst) (Trap.one c b) m true x.f.pc

/-- The end of an instruction under replay whose atomics of the threads `late` came before their turn (R424): the others have
applied, and it issues again for these threads, and for those that faulted once their fault is served. -/
def State.awaitTurn (s : State) (x : Site) (bads : List (Nat × BitVec 8 × Nat)) (late : List Nat) (dst : List Opd) : State :=
  let m := maskOfList late
  let s1 := s.partly x m dst
  match bads with
  | [] => s1.modGroup x.g.key (fun g =>
      { g.setFrag (lowest x.f.mask) { (x.owing m dst).counted with replay := some m, due := false, early := true } with
        recount := false })
  | _ => (s1.conclude x bads dst).modGroup x.g.key (fun g =>
      match g.frag? (lowest x.f.mask) with
      | some f => g.setFrag (lowest x.f.mask) { f with replay := f.replay.map (· ||| m) }
      | none => g)

/-- The registers a value list fills: vector cells per thread, or the group register of a uniform access. -/
def cellsOf (d : Opd) (wide : Bool) (vals : List (Nat × DWord)) : List (Cell × Word) :=
  match d with
  | .v n => vals.flatMap (fun e =>
      (Cell.v n.toNat e.1, e.2.setWidth 32) :: (if wide then [(Cell.v (n.toNat + 1) e.1, e.2.extractLsb' 32 32)] else []))
  | .g n => (vals.take 1).flatMap (fun e =>
      (Cell.g n.toNat, e.2.setWidth 32) :: (if wide then [(Cell.g (n.toNat + 1), e.2.extractLsb' 32 32)] else []))
  | _ => []

/-- Registers written at once by a short access (`lds`, `atoms`). -/
def Group.fillNow (g : Group) (uni : Bool) (d : Opd) (wide : Bool) (vals : List (Nat × DWord)) : Group :=
  if uni then
    match vals with
    | [] => g
    | e :: _ =>
      let g1 := g.writeAll d (e.2.setWidth 32)
      if wide then g1.writeAll (opdNext d) (e.2.extractLsb' 32 32) else g1
  else vals.foldl (fun g e =>
    let g1 := g.writeAt e.1 d (e.2.setWidth 32)
    if wide then g1.writeAt e.1 (opdNext d) (e.2.extractLsb' 32 32) else g1) g

/-- The destination registers of an access. -/
def dstOf (d : Option Opd) (wide : Bool) : List Opd :=
  match d with
  | none => []
  | some o => if wide then [o, opdNext o] else [o]

/-- How an access returns its values: no register, registers at once, or an outstanding long-latency write (R70). -/
inductive Ret where
  | none
  | now (d : Opd) (wide : Bool)
  | late (d : Opd) (wide : Bool)
  deriving DecidableEq, Repr

/-- The destination of a return. -/
def retDst : Ret → List Opd
  | .none => []
  | .now d w => dstOf (some d) w
  | .late d w => dstOf (some d) w

/-- Deliver the values of an access. -/
def State.giveBack (s : State) (x : Site) (uni : Bool) (r : Ret) (vals : List (Nat × DWord)) : State :=
  match r with
  | .none => s
  | .now d w => s.modGroup x.g.key (fun g => g.fillNow uni d w vals)
  | .late d w =>
    if vals.isEmpty then s
    else s.modGroup x.g.key (fun g => { g with out := g.out ++ [⟨dstOf (some d) w, cellsOf d w vals, x.f.mask, true⟩] })

/-- The threads of one instruction stored to some ranges of memory: granules that they cover together lose their poison in
the copy the store acts on (R421). -/
def State.coverMem (s : State) (b : BufId) (ctx : Nat) (l : List (Nat × Nat)) : State :=
  if s.poison.isEmpty && s.bufs.all (fun x => x.poison == 0#4) then s
  else
    let keys := l.flatMap (fun r => (List.range r.2).filterMap (fun i => match translate s ctx (r.1 + i) with
      | .page p => if p.cls = 0 then some p.key else none
      | _ => none))
    { s with
      poison := clearPoison s.poison keys,
      bufs := s.bufs.map (fun x => if x.buf == b && x.ctx == ctx then
          { x with poison := (List.range 4).foldl (fun p i =>
              if granuleIn l (4 * x.line + i) then p &&& ~~~ (1#4 <<< i) else p) x.poison }
        else x) }

/-- The same for the crew's space. -/
def State.coverScr (s : State) (crew : Nat) (l : List (Nat × Nat)) : State :=
  match s.crew? crew with
  | some c => if c.poison.isEmpty then s else s.setCrew (c.cover l)
  | none => s

/-- What an instruction does once its threads have taken their accesses; nothing for most. -/
abbrev After := Site → List Nat → State → State

/-- Nothing more. -/
def noMore : After := fun _ _ s => s

/-- A memory instruction: the accesses of its threads, then its end. `tensor` is where its events count (R152). A held
access makes no step at all, and the instruction is tried again, as is one of which every atomic came before its turn (R424). A
replay has its temporaries (R69, R72). -/
def State.memOp (s : State) (h : Hdr) (ops : List Opd) (r : Ret) (tensor : Site → Nat)
    (f : Site → State → Nat → Acc) (after : After := noMore) : Out :=
  s.atSite (fun x =>
    let e := x.emask h ops
    let u := uniform ops
    let s0 := s.prepTemps x (x.f.replay.isSome || (if u then e != 0#32 else e == x.f.mask)) (retDst r)
    let w := sweep (f x) (lanes e) ⟨s0, [], [], Ev.zero, false, []⟩
    if w.held || (!w.late.isEmpty && w.vals.isEmpty && w.bads.isEmpty) then .next s
    else
      let s1 := ((after x (w.vals.map (·.1)) w.s).count x.c.die x.ctx (tensor x) w.ev).giveBack x u r w.vals
      let s2 := s1.modGroup x.g.key (fun g => if e = 0#32 then g else g.latch s ops)
      if w.late.isEmpty then .next (s2.conclude x w.bads (retDst r))
      else .next (s2.awaitTurn x w.bads w.late (retDst r)))

/-- Note the streamed lines a crew stores to, for its resumption elsewhere (R214). -/
def State.noteLine (s : State) (crew cls a n : Nat) : State :=
  if cls = 1 then
    match s.crew? crew with
    | none => s
    | some c =>
      let ls := if (a + n - 1) / 128 = a / 128 then [a / 128] else [a / 128, (a + n - 1) / 128]
      s.setCrew { c with strLines := ls.filter (fun l => !c.strLines.contains l) ++ c.strLines }
  else s

/-- A direct load of `n` bytes at an address (R243, R235). -/
def Site.loadAt (x : Site) (s : State) (a n : Nat) (dev : Bool) : Acc :=
  if a % n ≠ 0 then .bad 0x13#8 a
  else
    match s.check (x.buf s) ⟨x.ctx, a, n, false, false, dev, none⟩ with
    | .cause c => .bad c a
    | .hold => .hold
    | .ok cls keys =>
      let r := s.load (x.buf s) x.ctx a cls keys
      .ok r.1 (BitVec.ofNat 64 (leNat r.2)) Ev.zero

/-- A direct store of `n` bytes at an address (R243, R235). -/
def Site.storeAt (x : Site) (s : State) (a n val : Nat) (dev : Bool) : Acc :=
  if a % n ≠ 0 then .bad 0x13#8 a
  else
    match s.check (x.buf s) ⟨x.ctx, a, n, true, false, dev, none⟩ with
    | .cause c => .bad c a
    | .hold => .hold
    | .ok cls keys =>
      .ok (((s.logStore x.ctx a n).store (x.buf s) x.ctx a cls keys (leBytes n val)).noteLine x.c.id cls a n) 0#64 Ev.zero

/-- A load of `n` bytes of the crew's space (R244). -/
def Site.ldsAt (x : Site) (s : State) (a n : Nat) : Acc :=
  if a % n ≠ 0 then .bad 0x13#8 a
  else if x.region a n = .none then .bad 0x12#8 a
  else if s.scrPoison x.c.id a n then .bad 0x14#8 a
  else .ok s (BitVec.ofNat 64 (leNat (s.scrRead x.c.id x.g.gid a n))) Ev.zero

/-- A store of `n` bytes of the crew's space (R244). -/
def Site.stsAt (x : Site) (s : State) (a n val : Nat) : Acc :=
  if a % n ≠ 0 then .bad 0x13#8 a
  else if x.region a n = .none then .bad 0x12#8 a
  else .ok (s.scrWrite x.c.id x.g.gid a (leBytes n val)) 0#64 Ev.zero

/-- The scale code of an element, with its own checks (R239); 0 without a scale. Its page is not compared with the record's class:
R200 and R235 do not say whether order 5 holds for SCALE (the model's choice, log entry 60). -/
def Site.scaleAt (x : Site) (s : State) (r : Rec) (e : Nat) : Acc :=
  if recSmode r = 0 then .ok s 0#64 Ev.zero
  else if recSmode r = 1 then x.loadAt s (recScale r + e / 2 ^ recGsize r) 1 false
  else x.loadAt s (recScale r + 4 * (e / 2 ^ recGsize r)) 4 false

/-- The bytes of an element in its page, checked with the record's class (R235, R237). `idx` is the record's index. -/
def Site.elemBytes (x : Site) (s : State) (r : Rec) (idx off : Nat) (wr : Bool) : Except Acc (Nat × Nat × Nat × List Nat) :=
  let sp := bitSpan off (recWidth r)
  let a := recBase r + sp.1
  let q : Req := ⟨x.ctx, a, sp.2, wr, false, false, some (recClass r)⟩
  match s.check (x.buf s) q with
  | .cause c => .error (.bad c (if c = 0x30#8 then idx else s.badAt (x.buf s) q c))
  | .hold => .error .hold
  | .ok cls keys => .ok (a, sp.2, cls, keys)

/-- A record-based load of an element (R239, R241, R245). -/
def Site.elemLoadAt (x : Site) (s : State) (r : Rec) (idx e : Nat) : Acc :=
  match recOff r e, encOf (recEnc r) with
  | some off, some enc =>
    match x.elemBytes s r idx off false with
    | .error a => a
    | .ok (a, _, cls, keys) =>
      let l := s.load (x.buf s) x.ctx a cls keys
      match x.scaleAt l.1 r e with
      | .ok s2 code _ =>
        let v := elemLoad enc (recSmode r) (bitGet l.2 (off % 8) (encBits enc)) code.toNat
        .ok s2 (v.1.setWidth 64) v.2
      | bad => bad
  | _, _ => .bad 0x11#8 (recBase r + e * recWidth r / 8)

/-- Store an element code in its page; the other bits of its bytes keep their values (R242). -/
def Site.codeStoreAt (x : Site) (s : State) (r : Rec) (idx e code : Nat) (ev : Ev) : Acc :=
  match recOff r e, encOf (recEnc r) with
  | some off, some enc =>
    match x.elemBytes s r idx off true with
    | .error a => a
    | .ok (a, n, cls, keys) =>
      let l := if off % 8 = 0 ∧ encBits enc = 8 * n then (s, []) else s.load (x.buf s) x.ctx a cls keys
      let xs := if l.2.isEmpty then leBytes n code else bitPut l.2 (off % 8) (encBits enc) code
      .ok (((l.1.logStore x.ctx a n).store (x.buf s) x.ctx a cls keys xs).noteLine x.c.id cls a n) 0#64 ev
  | _, _ => .bad 0x11#8 (recBase r + e * recWidth r / 8)

/-- Bytes of one line as an engine reads them (R217, R224): COH from M, STR from the die buffer if it holds the line,
else M. A cause, or a hold. -/
def State.engRead (s : State) (die ctx va n : Nat) : Except (Option (BitVec 8)) (List Byte) :=
  match s.check (.die die) ⟨ctx, va, n, false, false, false, none⟩ with
  | .cause c => .error (some c)
  | .hold => .error none
  | .ok cls keys =>
    match (if cls = 1 then s.line? (.die die) ctx (va / 128) else none) with
    | some l => .ok ((List.range n).map (fun i => lineByte l.value (va % 128 + i)))
    | none => .ok (keys.map (memGet s.mem))

/-- Bytes of one line as an engine writes them (R217): to M, and for STR also into the die buffer if it holds the line. -/
def State.engWrite (s : State) (die ctx va : Nat) (xs : List Byte) : Except (Option (BitVec 8)) State :=
  match s.check (.die die) ⟨ctx, va, xs.length, true, false, false, none⟩ with
  | .cause c => .error (some c)
  | .hold => .error none
  | .ok cls keys =>
    let s1 := (s.logStore ctx va xs.length false).memWrite keys xs
    match (if cls = 1 then s.line? (.die die) ctx (va / 128) else none) with
    | none => .ok s1
    | some l =>
      let v := xs.zipIdx.foldl (fun v e => lineSet v (va % 128 + e.2) e.1) l.value
      let whole := fun (i : Nat) => decide (va % 128 ≤ 32 * i) && decide (32 * i + 32 ≤ va % 128 + xs.length)
      let p := (List.range 4).foldl (fun p i => if whole i then p &&& ~~~ (1#4 <<< i) else p) l.poison
      .ok (s1.putLine { l with value := v, poison := p })

/-- Bits of a field written by an engine at keys that passed `check`; the other bits keep their values, in M and in the die
buffer each (R217, R242). -/
def State.engPut (s : State) (die ctx va cls : Nat) (keys : List Nat) (lo w code : Nat) : State :=
  let s1 := (s.logStore ctx va keys.length false).memWrite keys (bitPut (keys.map (memGet s.mem)) lo w code)
  if cls = 1 then
    let old := keys.zipIdx.map (fun e => match s.line? (.die die) ctx ((va + e.2) / 128) with
      | some l => lineByte l.value ((va + e.2) % 128)
      | none => memGet s.mem e.1)
    (bitPut old lo w code).zipIdx.foldl (fun s e => match s.line? (.die die) ctx ((va + e.2) / 128) with
      | some l => s.putLine { l with value := lineSet l.value ((va + e.2) % 128) e.1 }
      | none => s) s1
  else s1

/-- A record of the crew, as it was read at placement (R129). -/
def Site.record? (x : Site) (n : Nat) : Option Rec := x.c.recs[n]?

end Sys2Proof.Machine
end

