-- ==== Sys2Proof/Machine/MemInstr.lean ====
section
/-!
DEFINITION. Loads, stores, record accesses, maintenance, fences, prefetch, pins and reclaim (R243 to R258).
-/

namespace Sys2Proof.Machine

/-- Bytes of a load width (R243). -/
def ldBytes : LdW → Nat
  | .s8 => 1
  | .n8 => 1
  | .s16 => 2
  | .n16 => 2
  | .b32 => 4
  | .b64 => 8

/-- Bytes of a store width (R243). -/
def stBytes : StW → Nat
  | .b8 => 1
  | .b16 => 2
  | .b32 => 4
  | .b64 => 8

/-- What a load width gives for the bytes read (R243). -/
def ldExtend (w : LdW) (v : DWord) : DWord :=
  match w with
  | .s8 => (((v.setWidth 8).signExtend 32 : Word)).setWidth 64
  | .s16 => (((v.setWidth 16).signExtend 32 : Word)).setWidth 64
  | _ => v

/-- An access with its value extended. -/
def Acc.map (a : Acc) (f : DWord → DWord) : Acc :=
  match a with
  | .ok s v ev => .ok s (f v) ev
  | a => a

/-- The address of a direct access: a pair plus a signed offset (R243). -/
def Site.addr (x : Site) (s : State) (i : Nat) (a b : Opd) : Nat :=
  (x.read64 s i a + (x.read s i b).signExtend 64).toNat

/-- The crew-relative address of a scratchpad access (R244). -/
def Site.saddr (x : Site) (s : State) (i : Nat) (a b : Opd) : Nat := (x.read s i a + x.read s i b).toNat

/-- The data of a store (R243). An immediate of a `b64` store extends to 64 bits as one of `mov.b64` does (R166), class 0x4 by
its sign: R56 extends to 32 bits only (the model's choice: log entry 60). -/
def Site.data (x : Site) (s : State) (w : StW) (i : Nat) (d : Opd) : Nat :=
  match w with
  | .b64 => (x.read64 s i d).toNat
  | _ => (x.read s i d).toNat

/-- `ld` (R243). -/
def execLd (h : Hdr) (w : LdW) (d a b : Opd) (s : State) : Out :=
  s.memOp h [d, a, b] (.late d (w == .b64)) (fun _ => 0) (fun x s1 i =>
    (x.loadAt s1 (x.addr s i a b) (ldBytes w) (w == .b32 || w == .b64)).map (ldExtend w))

/-- `st` (R243). -/
def execSt (h : Hdr) (w : StW) (d a b : Opd) (s : State) : Out :=
  s.memOp h [d, a, b] .none (fun _ => 0) (fun x s1 i =>
    x.storeAt s1 (x.addr s i a b) (stBytes w) (x.data s w i d) (w == .b32 || w == .b64))
    (fun x is t => t.coverMem (x.buf s) x.ctx (is.map (fun i => (x.addr s i a b, stBytes w))))

/-- `lds` (R244). -/
def execLds (h : Hdr) (w : LdW) (d a b : Opd) (s : State) : Out :=
  s.memOp h [d, a, b] (.now d (w == .b64)) (fun _ => 0) (fun x s1 i =>
    (x.ldsAt s1 (x.saddr s i a b) (ldBytes w)).map (ldExtend w))

/-- `sts` (R244). -/
def execSts (h : Hdr) (w : StW) (d a b : Opd) (s : State) : Out :=
  s.memOp h [d, a, b] .none (fun _ => 0) (fun x s1 i =>
    x.stsAt s1 (x.saddr s i a b) (stBytes w) (x.data s w i d))
    (fun x is t => t.coverScr x.c.id (is.map (fun i => (x.saddr s i a b, stBytes w))))

/-- The index a record operand names. -/
def opdRec : Opd → Nat
  | .rc n => n.toNat
  | _ => 0

/-- Trap 0x30 for a record, unless the mask is empty (R235). -/
def State.badRecord (s : State) (x : Site) (idx : Nat) : Out := .next (s.trap x (Trap.one 0x30#8 idx))

/-- An instruction on a record of the crew: the record is checked before any thread accesses memory (R235, R240). -/
def State.withRecord (s : State) (h : Hdr) (ops : List Opd) (idx : Nat) (dest : Bool) (k : Rec → Out) : Out :=
  s.atSite (fun x =>
    match x.record? idx with
    | none => s.badRecord x idx
    | some r => if x.emask h ops = 0#32 ∨ recOk r dest false then k r else s.badRecord x idx)

/-- `ldr` (R245). -/
def execLdr (h : Hdr) (d a b : Opd) (s : State) : Out :=
  s.withRecord h [d, a, b] (opdRec a) false (fun r =>
    s.memOp h [d, a, b] (.late d false) (fun _ => recTensor r) (fun x s1 i =>
      x.elemLoadAt s1 r (opdRec a) (x.read s i b).toNat))

/-- The bytes that elements of a record cover wholly between them, one range for each. -/
def elemBytesIn (r : Rec) (es : List Nat) : List (Nat × Nat) :=
  let offs := es.filterMap (recOff r)
  let w := recWidth r
  let touched := offs.flatMap (fun o => (List.range (bitSpan o w).2).map (fun i => o / 8 + i))
  (touched.eraseDups.filter (fun k => (List.range 8).all (fun i => offs.any (fun o => decide (o ≤ 8 * k + i) && decide (8 * k + i < o + w))))).map
    (fun k => (recBase r + k, 1))

/-- `str` (R245). -/
def execStr (h : Hdr) (d a b : Opd) (s : State) : Out :=
  s.withRecord h [d, a, b] (opdRec a) true (fun r =>
    s.memOp h [d, a, b] .none (fun _ => recTensor r) (fun x s1 i =>
      let c := elemStore ((encOf (recEnc r)).getD .f32) (x.read s i d)
      x.codeStoreAt s1 r (opdRec a) (x.read s i b).toNat c.1 c.2)
    (fun x is t => t.coverMem (x.buf s) x.ctx (elemBytesIn r (is.map (fun i => (x.read s i b).toNat)))))

/-- The lines of a range (R253): none for a length of 0. -/
def lineIn (a n l : Nat) : Bool := decide (0 < n) && decide (a / 128 ≤ l) && decide (l ≤ (a + n - 1) / 128)

/-- Whether a line of a buffer lies in a range of a context and its page has a translation, whether or not it can be reached
now (R253). -/
def cmoLine (s : State) (ctx a n : Nat) (x : BufLine) : Bool :=
  x.ctx == ctx && lineIn a n x.line && (keyOf s ctx (x.line * 128)).isSome

/-- Whether a line of the range lies in a page being moved, which holds the instruction (R403). -/
def cmoHeld (s : State) (ctx a n : Nat) : Bool :=
  s.bufs.any (fun x => x.ctx == ctx && lineIn a n x.line && translate s ctx (x.line * 128) == .hold)

/-- The clean of a level (R211): the issuing buffer's lines to the die buffer, beyond `l1` the die buffer's to M. -/
def State.cmoCleanRange (s : State) (x : Site) (l : Lvl) (a n : Nat) : State :=
  let s1 := s.cleanWhere (x.buf s) x.c.die (cmoLine s x.ctx a n)
  if l = .l1 then s1 else s1.cleanWhere (.die x.c.die) x.c.die (cmoLine s1 x.ctx a n)

/-- The drop of a level (R211). -/
def State.cmoDropRange (s : State) (x : Site) (l : Lvl) (a n : Nat) : State :=
  let s1 := s.dropWhere (x.buf s) (cmoLine s x.ctx a n)
  if l = .l1 then s1 else s1.dropWhere (.die x.c.die) (cmoLine s x.ctx a n)

/-- A `cmo` form on its range (R253). -/
def State.cmo (s : State) (h : Hdr) (a b : Opd) (f : State → Site → Nat → Nat → State) : Out :=
  s.uni h (fun x e =>
    let i := lowest e
    let va := (x.read64 s i a).toNat
    let n := (x.read s i b).toNat
    if cmoHeld s x.ctx va n then .next s else .next ((f s x va n).finish x [])) []

/-- `cmo.clean` (R253). -/
def execCmoClean (h : Hdr) (l : Lvl) (a b : Opd) (s : State) : Out :=
  s.cmo h a b (fun s x va n => s.cmoCleanRange x l va n)

/-- `cmo.inval` (R253). -/
def execCmoInval (h : Hdr) (l : Lvl) (a b : Opd) (s : State) : Out :=
  s.cmo h a b (fun s x va n => s.cmoDropRange x l va n)

/-- `cmo.cleaninval` (R253): the clean of its level, then the drop of the lines that are clean. -/
def execCmoCleaninval (h : Hdr) (l : Lvl) (a b : Opd) (s : State) : Out :=
  s.cmo h a b (fun s x va n => (s.cmoCleanRange x l va n).cmoDropRange x l va n)

/-- Whether a scope reaches beyond the die (R211). -/
def scopeFar : Scope → Bool
  | .core => false
  | .quad => false
  | .die => false
  | _ => true

/-- The cleans of a fence (R211): every dirty line of the issuing buffer, and from `pkg` on every dirty line of the die
buffer. -/
def State.fenceClean (s : State) (x : Site) (sc : Scope) : State :=
  let s1 := s.cleanWhere (x.buf s) x.c.die (fun _ => true)
  if scopeFar sc then s1.cleanWhere (.die x.c.die) x.c.die (fun _ => true) else s1

/-- `fence` (R254, R211). -/
def execFence (h : Hdr) (sc : Scope) (s : State) : Out :=
  s.uni h (fun x _ => .next ((s.fenceClean x sc).finish x [])) []

/-- `pf` (R255): no effect that a program can tell. -/
def execPf (_h : Hdr) (_l : Lvl) (_a _b : Opd) (s : State) : Out := s.atSite (fun x => .next (s.finish x []))

/-- The number of a pin operand. -/
def opdPin : Opd → Nat
  | .pin n => n.toNat
  | _ => 0

/-- `pin` (R256). -/
def execPin (h : Hdr) (d a : Opd) (s : State) : Out :=
  s.uni h (fun x e =>
    let name := x.read64 s (lowest e) a
    if name = 0#64 then .next ((s.unpinReg x.ctx x.g.key (opdPin d)).finish x [])
    else if nameKind name = 15 ∨ nameKind name = 0 then .next (s.trap x (Trap.one 0x11#8 name.toNat))
    else .next ((s.pinReg x.ctx x.g.key (opdPin d) name).finish x [])) []

/-- `unpin` (R257). -/
def execUnpin (h : Hdr) (d : Opd) (s : State) : Out :=
  s.uni h (fun x _ => .next ((s.unpinReg x.ctx x.g.key (opdPin d)).finish x [])) []

/-- The result of a reclaim (R258). -/
def reclaimCode : Reclaimed → Nat
  | .freed => 0
  | .deferred => 1
  | .already => 2
  | .full => 0

/-- `reclaim` (R258): its result is an outstanding write. -/
def execReclaim (h : Hdr) (d a : Opd) (s : State) : Out :=
  s.uni h (fun x e =>
    let name := x.read64 s (lowest e) a
    if nameKind name = 15 ∨ nameKind name = 0 then .next (s.trap x (Trap.one 0x11#8 name.toNat))
    else
      let r := s.reclaimName x.c.die x.ctx name
      if r.2 = .full then .next (s.trap x (Trap.one 0x19#8 name.toNat))
      else
        let s1 := r.1.giveBack x true (.late d false) [(lowest e, BitVec.ofNat 64 (reclaimCode r.2))]
        .next (s1.finish x [d])) [d]

/-- `longLatencyWriteback` (R70): the oldest outstanding write of a group reaches its registers. A stopped or parked
group's writes complete too (R385). -/
def execLongLatencyWriteback (gk : Nat) (s : State) : Out :=
  match s.group? gk with
  | none => .next s
  | some g =>
    match g.out with
    | [] => .next s
    | p :: r =>
      let g1 := p.cells.foldl (fun g e => match e.1 with
        | .v n i => { g with v := g.v.set (n * 32 + i) e.2 }
        | .g n => { g with g := g.g.set n e.2 }) { g with out := r }
      .next ((s.noteRegs g.crew g g1 p.regs).setGroup g1)

end Sys2Proof.Machine
end

