-- ==== Sys2Proof/Machine/Atomics.lean ====
section
/-!
DEFINITION. Atomics and reductions (R251, R252), and the order that replay recording keeps for them (R423, R424).
-/

namespace Sys2Proof.Machine

/-- `key(b, c)` of `pmax` (R252), with the NAN event. -/
def pmaxKey (b c : Nat) : Nat × Ev :=
  let nan := fp32.isNan b
  let b1 := if nan then 0x7FC00000 else b
  let o := if b1 < 2 ^ 31 then b1 + 2 ^ 31 else 2 ^ 32 - 1 - b1
  (o * 2 ^ 32 + (2 ^ 32 - 1 - c), if nan then Ev.ofNan else Ev.zero)

/-- The new value of an atomic (R251): `b` and `c` are B and B + 1. -/
def atomNew (op : AtomOp) (v : FEnv) (old b c : Nat) : Nat × Ev :=
  let so := sextNat old 32
  let sb := sextNat b 32
  match op with
  | .add => ((old + b) % 2 ^ 32, Ev.zero)
  | .smin => (if so ≤ sb then old else b, Ev.zero)
  | .smax => (if so ≤ sb then b else old, Ev.zero)
  | .nmin => (Nat.min old b, Ev.zero)
  | .nmax => (Nat.max old b, Ev.zero)
  | .and => (old &&& b, Ev.zero)
  | .or => (old ||| b, Ev.zero)
  | .xor => (old ^^^ b, Ev.zero)
  | .xchg => (b, Ev.zero)
  | .cas => (if old = b then c else old, Ev.zero)
  | .fadd => fp32.add v old b
  | .fmin => fp32.pick v true old b
  | .fmax => fp32.pick v false old b
  | .pmax => let k := pmaxKey b c; (Nat.max old k.1, k.2)

/-- Bytes of an atomic (R251). -/
def atomBytes (op : AtomOp) : Nat := if op = .pmax then 8 else 4

/-- Whether B is a pair. -/
def atomPair (op : AtomOp) : Bool := op == .pmax || op == .cas

/-- Who applies an atomic, in a replay log: the crew's linear index, the gid and the thread. -/
def Site.who (x : Site) (i : Nat) : Nat := (x.c.lin * 32 + x.g.gid) * 32 + i

/-- Where an atomic acts on memory, in a replay log: a context's virtual address, which a page on the move keeps (R403) and
which a replay repeats (R424). -/
def atomAddr (ctx va : Nat) : Nat := ctx * 2 ^ 64 + va

/-- Whether two atomics of a log act on a common byte (R423): of memory, by virtual address or where their pages lay when they
applied, or of the scratchpad of one launch's crew. -/
def AtomEnt.meets (a b : AtomEnt) (same : Bool) : Bool :=
  a.scr == b.scr && (if a.scr then same && overlaps a.addr a.len b.addr b.len
    else overlaps a.addr a.len b.addr b.len || overlaps a.key a.len b.key b.len)

/-- An atomic in the entry of its launch, at the end of the order (R423). -/
def Sys.logAtom (y : Sys) (handle : Nat) (a : AtomEnt) : Sys :=
  if y.rplLog.any (fun e => e.handle == handle) then
    { y with
      rplLog := y.rplLog.map (fun e => if e.handle == handle then { e with atoms := e.atoms ++ [{ a with seq := y.rplSeq }] } else e),
      rplSeq := y.rplSeq + 1 }
  else y

/-- The atomic of a replayed launch that its entry still holds for a thread at a location: the first recorded (R424). -/
def LogEnt.due? (e : LogEnt) (a : AtomEnt) : Option AtomEnt :=
  e.atoms.find? (fun b => b.who == a.who && b.scr == a.scr && b.addr == a.addr && b.len == a.len)

/-- Whether some atomic recorded before `b` of entry `e`, at a byte of its location, has still to apply (R424). -/
def Sys.atomWaits (y : Sys) (e : LogEnt) (b : AtomEnt) : Bool :=
  y.rplPlay.any (fun q => q.atoms.any (fun c => decide (c.seq < b.seq) && c.meets b (q.at_ == e.at_)))

/-- The turn of an atomic at a location (R423, R424): under record it is logged; under replay it waits until every
atomic recorded before it there has applied. What the log does not hold waits for nothing. -/
def State.atomTurn (s : State) (x : Site) (scr : Bool) (addr key len i : Nat) : Option State :=
  let a : AtomEnt := ⟨scr, addr, key, len, x.who i, 0⟩
  let y := s.sys.logAtom x.l.handle a
  match y.rplPlay.find? (fun e => e.handle == x.l.handle) with
  | none => some { s with sys := y }
  | some e =>
    match e.due? a with
    | none => some { s with sys := y }
    | some b =>
      if y.atomWaits e b then none
      else
        some { s with sys := { y with rplPlay := y.rplPlay.map (fun q =>
          if q.handle == x.l.handle then { q with atoms := q.atoms.erase b } else q) } }

/-- The operands b and c of an atomic for a thread. -/
def Site.atomB (x : Site) (s : State) (op : AtomOp) (i : Nat) (b : Opd) : Nat × Nat :=
  if atomPair op then ((x.read s i b).toNat, (x.read s i (opdNext b)).toNat) else ((x.read s i b).toNat, 0)

/-- One thread's atomic on COH memory, within one step (R226, R251). -/
def Site.atomAt (x : Site) (s : State) (op : AtomOp) (v : FEnv) (i a b c : Nat) : Acc :=
  let n := atomBytes op
  if a % n ≠ 0 then .bad 0x13#8 a
  else
    match s.check (x.buf s) ⟨x.ctx, a, n, true, true, false, none⟩ with
    | .cause k => .bad k a
    | .hold => .hold
    | .ok cls keys =>
      match s.atomTurn x false (atomAddr x.ctx a) (keys.headD 0) n i with
      | none => .early
      | some s1 =>
        let old := leNat (s1.load (x.buf s) x.ctx a cls keys).2
        let r := atomNew op v old b c
        .ok ((s1.logStore x.ctx a n).store (x.buf s) x.ctx a cls keys (leBytes n r.1)) (BitVec.ofNat 64 old) r.2

/-- `atom` (R251). -/
def execAtom (h : Hdr) (op : AtomOp) (d a b : Opd) (s : State) : Out :=
  s.memOp h [d, a, b] (.late d (op == .pmax)) (fun _ => 0) (fun x s1 i =>
    let q := x.atomB s op i b
    x.atomAt s1 op (FEnv.ofMode x.g.fpmode) i (x.read64 s i a).toNat q.1 q.2)

/-- The mode of a reduction: `fadd` under its MR fields resolved against sr.fpmode, all others under sr.fpmode (R251). -/
def redEnv (op : AtomOp) (rnd : Rnd) (ftz : Bool) (mode : Word) : FEnv :=
  let m := FEnv.ofMode mode
  if op = .fadd then { m with rnd := resolveRnd rnd m.rnd, ftz := ftz || m.ftz } else m

/-- `red` (R251): nothing is returned; `fadd` rounds under its MR fields. -/
def execRed (h : Hdr) (op : AtomOp) (rnd : Rnd) (ftz : Bool) (a b : Opd) (s : State) : Out :=
  s.memOp h [a, b] .none (fun _ => 0) (fun x s1 i =>
    let q := x.atomB s op i b
    x.atomAt s1 op (redEnv op rnd ftz x.g.fpmode) i (x.read64 s i a).toNat q.1 q.2)

/-- One thread's atomic on the crew's space (R251). -/
def Site.atomsAt (x : Site) (s : State) (op : AtomOp) (i ad b c : Nat) : Acc :=
  let n := atomBytes op
  if ad % n ≠ 0 then .bad 0x13#8 ad
  else if x.region ad n = .none then .bad 0x12#8 ad
  else if s.scrPoison x.c.id ad n then .bad 0x14#8 ad
  else
    match s.atomTurn x true (x.c.lin * 2 ^ 32 + ad) 0 n i with
    | none => .early
    | some s2 =>
      let old := leNat (s2.scrRead x.c.id x.g.gid ad n)
      let r := atomNew op (FEnv.ofMode x.g.fpmode) old b c
      .ok (s2.scrWrite x.c.id x.g.gid ad (leBytes n r.1)) (BitVec.ofNat 64 old) r.2

/-- `atoms` (R251), on the crew's space. -/
def execAtoms (h : Hdr) (op : AtomOp) (d a b : Opd) (s : State) : Out :=
  s.memOp h [d, a, b] (.now d (op == .pmax)) (fun _ => 0) (fun x s1 i =>
    let q := x.atomB s op i b
    x.atomsAt s1 op i (x.read s i a).toNat q.1 q.2)

end Sys2Proof.Machine
end

