-- ==== Sys2Proof/Machine/Counted.lean ====
section
/-!
DEFINITION. Counted tiles: the directory, `fillc`, `ldc`, `stc` (R224, R246 to R250).
-/

namespace Sys2Proof.Machine

/-- The current generation of a slot (R247): 1 at reset. -/
def State.genOf (s : State) (die slot : Nat) : Nat := (lookup s.gens (die * Config.tileSlots + slot)).getD 1

/-- A tile's handle (R247). -/
def Tile.handleNo (t : Tile) : Nat := t.gen * 2 ^ 15 + t.die * 2 ^ 12 + t.slot

/-- The entry a handle names for a context and a launch; none when the handle is stale (R247). A register with nonzero bits
31:24, and a handle with the generation of a slot that holds no entry, name none either (the model's choice: log entry 60). -/
def State.tile? (s : State) (ctx launch h : Nat) : Option Tile :=
  s.tiles.find? (fun t => t.handleNo == h && t.ctx == ctx && t.handle == launch)

/-- Replace an entry. -/
def State.setTile (s : State) (t : Tile) : State :=
  { s with tiles := s.tiles.map (fun y => if y.die == t.die && y.slot == t.slot then t else y) }

/-- Drop an entry: its generation advances, from 511 back to 1 (R247). -/
def State.dropTile (s : State) (t : Tile) : State :=
  { s with tiles := s.tiles.filter (fun y => !(y.die == t.die && y.slot == t.slot)),
           gens := put s.gens (t.die * Config.tileSlots + t.slot) (if t.gen = 511 then 1 else t.gen + 1) }

/-- A consuming access: the reader count falls by one, and at 0 the entry is dropped (R224). -/
def State.consume (s : State) (t : Tile) : State :=
  if t.readers ≤ 1 then s.dropTile t else s.setTile { t with readers := t.readers - 1 }

/-- Bytes of a tile. -/
def Tile.read (t : Tile) (off n : Nat) : List Byte := (List.range n).map (fun i => (lookup t.bytes (off + i)).getD 0#8)

/-- Whether a range of a tile reads a poisoned granule (R421). -/
def Tile.poisonIn (t : Tile) (off n : Nat) : Bool := t.poison.any (fun g => overlaps off n (32 * g) 32)

/-- A store to whole granules of a tile clears their poison (R421). -/
def Tile.cover (t : Tile) (l : List (Nat × Nat)) : Tile :=
  if t.poison.isEmpty then t else { t with poison := t.poison.filter (fun g => !granuleIn l g) }

/-- Write bytes of a tile. -/
def Tile.write (t : Tile) (off : Nat) (xs : List Byte) : Tile :=
  { t with bytes := xs.zipIdx.foldl (fun m e => put m (off + e.2) e.1) t.bytes }

/-- The threads of one `stc` stored to some ranges of a tile (R421). -/
def State.coverTile (s : State) (t : Option Tile) (l : List (Nat × Nat)) : State :=
  match t.bind (fun t => s.tile? t.ctx t.handle t.handleNo) with
  | some t => if t.poison.isEmpty then s else s.setTile (t.cover l)
  | none => s

/-- Counted lines that slice `sl` of a die holds (R246, R249). -/
def State.sliceUse (s : State) (die sl : Nat) : Nat :=
  ((s.tiles.filter (fun t => t.die == die)).map (fun t =>
    ((List.range t.lines).filter (fun k => (t.slot + k) % 32 == sl)).length)).foldl (· + ·) 0

/-- Whether a tile of `n` lines fits at a slot (R249). -/
def State.slotFits (s : State) (die n slot : Nat) : Bool :=
  !(s.tiles.any (fun t => t.die == die && t.slot == slot)) &&
    (List.range 32).all (fun sl =>
      let add := ((List.range n).filter (fun k => (slot + k) % 32 == sl)).length
      add == 0 || decide (s.sliceUse die sl + add ≤ Config.sliceShare))

/-- The slot a fill takes (R246). -/
def State.fillSlot (s : State) (die n : Nat) : Option Nat :=
  (List.range Config.tileSlots).find? (fun k => s.slotFits die n k)

/-- The bytes of all source lines; the first line that faults decides, with its address. -/
def State.fillBytes (s : State) (die ctx : Nat) : List Nat → Except (Option (BitVec 8) × Nat) (List Byte)
  | [] => .ok []
  | va :: r =>
    match s.engRead die ctx va 128 with
    | .error (some c) => .error (some c, s.badAt (.die die) ⟨ctx, va, 128, false, false, false, none⟩ c)
    | .error none => .error (none, va)
    | .ok xs =>
      match s.fillBytes die ctx r with
      | .error e => .error e
      | .ok ys => .ok (xs ++ ys)

/-- `fillc` (R246): one that finds no slot or no share waits, and stalled fills of a die go oldest first (R249; log entry 52). -/
def execFillc (h : Hdr) (d a b : Opd) (s : State) : Out :=
  s.uni h (fun x e =>
    let i := lowest e
    let va := (x.read64 s i a).toNat
    let w := (x.read s i b).toNat
    let lines := bits w 15 8
    let readers := bits w 7 0
    if lines = 0 ∨ 128 < lines ∨ readers = 0 ∨ 2 ^ 16 ≤ w then .next (s.trap x (Trap.one 0x11#8 w))
    else if va % 128 ≠ 0 then .next (s.conclude x [(i, 0x13#8, va)] [d])
    else if s.ahead (.fill x.c.die) x then .next (s.waitFor (.fill x.c.die) x)
    else
      match (if va = 0 then .ok [] else s.fillBytes x.c.die x.ctx ((List.range lines).map (fun k => va + 128 * k))) with
      | .error (some c, ad) => .next (s.conclude x [(i, c, ad)] [d])
      | .error (none, _) => .next s
      | .ok xs =>
        match s.fillSlot x.c.die lines with
        | none => .next (s.waitFor (.fill x.c.die) x)
        | some slot =>
          let t : Tile := { die := x.c.die, slot := slot, ctx := x.ctx, handle := x.l.handle, gen := s.genOf x.c.die slot,
                            readers := readers, lines := lines, bytes := xs.zipIdx.map (fun e => (e.2, e.1)), poison := [], order := s.fillNo }
          let s1 : State := { s with tiles := s.tiles ++ [t], fillNo := s.fillNo + 1 }
          .next (((s1.unwait x).giveBack x true (.late d false) [(i, BitVec.ofNat 64 t.handleNo)]).finish x [d])) [d]

/-- An instruction on a counted tile: a stale handle traps before any thread's access (R235, R248). -/
def State.withTile (s : State) (h : Hdr) (ops : List Opd) (a : Opd) (k : Site → Word → Option Tile → Out) : Out :=
  s.atSite (fun x =>
    let e := x.emask h ops
    if e = 0#32 then k x e none
    else
      let hd := (x.read s (lowest e) a).toNat
      match s.tile? x.ctx x.l.handle hd with
      | none => .next (s.trap x (Trap.one 0x18#8 hd))
      | some t => k x e (some t))

/-- One thread's access to a tile: alignment, then the tile's end (R235, R248). -/
def tileAcc (t : Option Tile) (off n : Nat) (k : Tile → Acc) : Acc :=
  match t with
  | none => .hold
  | some t => if off % n ≠ 0 then .bad 0x13#8 off else if t.lines * 128 < off + n then .bad 0x11#8 off else k t

/-- The end of `ldc.last`: the consuming access, when no thread faulted (R248). -/
def State.ldcLast (s : State) (last : Bool) (ok : Bool) (t : Option Tile) : State :=
  match t with
  | some t => if last && ok then s.consume t else s
  | none => s

/-- `ldc` (R248). -/
def execLdc (h : Hdr) (w : LdW) (last : Bool) (d a b : Opd) (s : State) : Out :=
  s.withTile h [d, a, b] a (fun x e t =>
    let f := fun s1 i => tileAcc t (x.read s i b).toNat (ldBytes w) (fun t =>
      if t.poisonIn (x.read s i b).toNat (ldBytes w) then Acc.bad 0x14#8 (x.read s i b).toNat
      else Acc.ok s1 (ldExtend w (BitVec.ofNat 64 (leNat (t.read (x.read s i b).toNat (ldBytes w))))) Ev.zero)
    let sw := sweep f (lanes e) ⟨s, [], [], Ev.zero, false, []⟩
    let s1 := (sw.s.ldcLast last sw.bads.isEmpty t).giveBack x (uniform [d, a, b]) (.late d (w == .b64)) sw.vals
    let s2 := s1.modGroup x.g.key (fun g => if e = 0#32 then g else g.latch s [a, b])
    .next (s2.conclude x sw.bads (dstOf (some d) (w == .b64))))

/-- `stc` (R248). -/
def execStc (h : Hdr) (w : StW) (d a b : Opd) (s : State) : Out :=
  s.withTile h [d, a, b] a (fun x e t =>
    let f := fun (s1 : State) i => tileAcc t (x.read s i b).toNat (stBytes w) (fun t =>
      match s1.tile? t.ctx t.handle t.handleNo with
      | some t1 => Acc.ok ((s1.logStore (65536 + t.handleNo) (x.read s i b).toNat (stBytes w)).setTile (t1.write (x.read s i b).toNat (leBytes (stBytes w) (x.data s w i d)))) 0#64 Ev.zero
      | none => Acc.hold)
    let sw := sweep f (lanes e) ⟨s, [], [], Ev.zero, false, []⟩
    .next ((sw.s.coverTile t (sw.vals.map (fun e => ((x.read s e.1 b).toNat, stBytes w)))).conclude x sw.bads []))

end Sys2Proof.Machine
end

