-- ==== Sys2Proof/Machine/Copy.lean ====
section
/-!
DEFINITION. Copy engines: `cpy`, `cpy.cvt`, `cpy.fill`, their chunks and completions, and stream chunks (R217 to R219,
R260 to R263).
-/

namespace Sys2Proof.Machine

/-- The queue of an engine. -/
def State.queue (s : State) (e : Nat) : List Job := ((s.engines.find? (fun x => x.id == e)).map (·.jobs)).getD []

/-- Replace the queue of an engine. -/
def State.setQueue (s : State) (e : Nat) (jobs : List Job) : State :=
  { s with engines := ⟨e, jobs⟩ :: s.engines.filter (fun x => x.id != e) }

/-- Replace the job at a position of a queue. -/
def State.setJob (s : State) (e k : Nat) (j : Job) : State := s.setQueue e ((s.queue e).set k j)

/-- Fields of CTL (R260). -/
def ctlArv (w : Nat) : Nat := bits w 25 24
def ctlDrec (w : Nat) : Nat := bits w 23 16
def ctlSrec (w : Nat) : Nat := bits w 15 8

/-- The three forms of `cpy` (R260). -/
inductive CpyForm where
  | plain | cvt | fill
  deriving DecidableEq, Repr

/-- Bytes that `n` elements of a record occupy when densely packed, the last one whole: where the elements do not fill it, R260
does not say what its destination byte count is (the model's choice: log entry 53). -/
def packedBytes (n : Nat) (r : Rec) : Nat := (n * recWidth r + 7) / 8

/-- The first failing check of a copy block (R261), in the order of the table, or the job. R260 calls g(a+1) and g(a+3) zero
under `cvt`, and R261 names no trap for another value there: the model takes 0x11 (log entry 53). -/
def cpyCheck (x : Site) (form : CpyForm) (a eng off : Nat) (stamp : Nat) (pc : Nat) (word : IWord) : Except Trap Job :=
  let g := fun k => (x.g.greg (a + k)).toNat
  let ctl := g 5
  let ssp := ctl.testBit 0
  let dsp := ctl.testBit 1
  let strm := ctl.testBit 2
  let bad11 := bits ctl 31 26 != 0 || bits ctl 7 3 != 0 || ctlArv ctl == 3 || (strm && form != .plain)
    || (ssp && (form == .fill || strm)) || (ssp && g 1 != 0) || (dsp && g 3 != 0) || decide (5 < eng)
    || (form == .cvt && !ssp && g 1 != 0) || (form == .cvt && !dsp && g 3 != 0)
  let n := g 4
  let sr := (x.record? (ctlSrec ctl)).getD 0#320
  let dr := (x.record? (ctlDrec ctl)).getD 0#320
  let sn := if form = .cvt then packedBytes n sr else n
  let dn := if form = .cvt then packedBytes n dr else n
  let srcA := if ssp then g 0 else g 0 + 2 ^ 32 * g 1
  let dstA := if dsp then g 2 else g 2 + 2 ^ 32 * g 3
  let badS := form == .cvt && ((x.record? (ctlSrec ctl)).isNone || !recOk sr false false)
  let badD := form == .cvt && ((x.record? (ctlDrec ctl)).isNone || !recOk dr true false)
  let badT := strm && ((x.record? (ctlSrec ctl)).isNone || !recOk sr false true)
  if bad11 then .error (Trap.one 0x11#8 (if 5 < eng then eng else ctl))
  else if ssp && !badS && !x.inWindow (g 0) sn then .error (Trap.one 0x12#8 (g 0))
  else if dsp && !strm && !badD && !x.inWindow (g 2) dn then .error (Trap.one 0x12#8 (g 2))
  else if form == .fill && (dstA % 4 != 0 || n % 4 != 0) then .error (Trap.one 0x13#8 dstA)
  else if badS || badT then .error (Trap.one 0x30#8 (ctlSrec ctl))
  else if badD then .error (Trap.one 0x30#8 (ctlDrec ctl))
  else
    let cvt := form == .cvt
    .ok { kind := if cvt then .cvt else if form = .fill then .fill (x.g.greg (a + 7))
                  else if strm then .stream sr (ctlSrec ctl) n else .copy,
          crew := x.c.id, gid := x.g.gid, ctx := x.ctx, handle := x.l.handle, pc := pc, word := word,
          src := if cvt then (if ssp then .packed sr (g 0) else .elems sr (ctlSrec ctl) (g 0))
                 else if ssp then .scr srcA else .mem srcA,
          dst := if cvt then (if dsp then .packed dr (g 2) else .elems dr (ctlDrec ctl) (g 2))
                 else if dsp then .scr dstA else .mem dstA,
          len := if strm then 0 else n, arv := ctlArv ctl, awOff := off, awVal := x.g.greg (a + 6),
          bytes := if strm then 0 else dn, moved := [], left := if strm then 1 else n, paused := false, pauseAt := 0, failed := false,
          issued := stamp }

/-- The offset an arrival-word operand names. -/
def opdAw : Opd → Nat
  | .aw off => off.toNat
  | _ => 0

/-- A copy command (R260 to R262): checked, then appended to its engine's queue. A full queue holds the group, and waiting
groups go oldest first (log entry 52). -/
def State.cpy (s : State) (h : Hdr) (form : CpyForm) (d a b : Opd) : Out :=
  s.uni h (fun x e =>
    let eng := (x.read s (lowest e) b).toNat
    match cpyCheck x form (opdGno a) eng (opdAw d) s.stamp x.f.pc s.word with
    | .error t => .next (s.trap x t)
    | .ok j =>
      let q := x.c.die * Config.enginesPerDie + eng
      if Config.engineCap ≤ (s.queue q).length ∨ s.ahead (.engine q) x then .next (s.waitFor (.engine q) x)
      else .next (((s.unwait x).setQueue q (s.queue q ++ [j])).finish x [])) []

/-- `cpy` (R260, R261). -/
def execCpy (h : Hdr) (d a b : Opd) (s : State) : Out := s.cpy h .plain d a b

/-- `cpy.cvt` (R260, R261). -/
def execCpyCvt (h : Hdr) (d a b : Opd) (s : State) : Out := s.cpy h .cvt d a b

/-- `cpy.fill` (R260, R261). -/
def execCpyFill (h : Hdr) (d a b : Opd) (s : State) : Out := s.cpy h .fill d a b

/-- The address by which a place's chunks are cut into lines; none for elements. -/
def Place.line? : Place → Option Nat
  | .mem va => some va
  | .chunk va _ _ => some va
  | .scr a => some a
  | _ => none

/-- Bytes from an offset to the end of the line it lies in, at a place. -/
def toLineEnd (p : Place) (off : Nat) : Nat :=
  match p.line? with
  | some a => 128 - (a + off) % 128
  | none => 128

/-- Whether an offset starts a chunk of a job (R217): at 0, or at the start of a source or destination line. -/
def Job.chunkAt (j : Job) (off : Nat) : Bool :=
  let starts := fun (p : Place) => match p.line? with
    | some a => (a + off) % 128 == 0
    | none => false
  decide (off < j.len) && (off == 0 || starts j.dst || (match j.kind with
    | .copy => starts j.src
    | _ => false))

/-- The bytes of the chunk at an offset. R217 bounds a chunk by 128 bytes: the model takes what lies between two starts of
lines, and for a converting copy one element (log entry 53). -/
def Job.chunkLen (j : Job) (off : Nat) : Nat :=
  let m := Nat.min (toLineEnd j.dst off) (j.len - off)
  match j.kind with
  | .copy => Nat.min m (toLineEnd j.src off)
  | _ => m

/-- The die of an engine. -/
def dieOfEngine (e : Nat) : Nat := e / Config.enginesPerDie

/-- What an engine step of a job met. -/
inductive Met where
  | ok (s : State)
  | bad (cause : BitVec 8) (info : Nat)
  | hold
  deriving DecidableEq, Repr

/-- The checks of a range that a record describes, by an engine: the order is that of R235, and the class of the record
against the pages' comes last (R200). -/
def State.engCheck (s : State) (die ctx va n : Nat) (wr : Bool) (cls idx : Nat) : Except Met (Nat × List Nat) :=
  let q : Req := ⟨ctx, va, n, wr, false, false, some cls⟩
  match s.check (.die die) q with
  | .ok c keys => .ok (c, keys)
  | .cause c => .error (.bad c (if c = 0x30#8 then idx else s.badAt (.die die) q c))
  | .hold => .error .hold

/-- Read bytes of a place for a job (R217, R425). -/
def State.placeRead (s : State) (die : Nat) (j : Job) (p : Place) (off n : Nat) : Except Met (List Byte) :=
  match p with
  | .scr a => if s.scrPoison j.crew (a + off) n then .error (.bad 0x14#8 (a + off)) else .ok (s.scrRead j.crew j.gid (a + off) n)
  | .mem va =>
    match s.engRead die j.ctx (va + off) n with
    | .ok xs => .ok xs
    | .error (some c) => .error (.bad c (s.badAt (.die die) ⟨j.ctx, va + off, n, false, false, false, none⟩ c))
    | .error none => .error .hold
  | .chunk va cls idx =>
    (match s.engCheck die j.ctx (va + off) n false cls idx with
     | .error m => .error m
     | .ok _ =>
       match s.engRead die j.ctx (va + off) n with
       | .ok xs => .ok xs
       | .error _ => .error .hold)
  | _ => .ok []

/-- Write bytes of a place for a job (R217). -/
def State.placeWrite (s : State) (die : Nat) (j : Job) (p : Place) (off : Nat) (xs : List Byte) : Met :=
  match p with
  | .scr a => .ok (s.scrWrite j.crew j.gid (a + off) xs false)
  | .mem va =>
    match s.engWrite die j.ctx (va + off) xs with
    | .ok s1 => .ok s1
    | .error (some c) => .bad c (va + off)
    | .error none => .hold
  | _ => .ok s

/-- Bytes in memory, a line at a time: an element may straddle two lines. -/
def State.engReadSpan (s : State) (die ctx va n : Nat) : Except (Option (BitVec 8)) (List Byte) :=
  let m := 128 - va % 128
  if n ≤ m then s.engRead die ctx va n
  else
    match s.engRead die ctx va m, s.engRead die ctx (va + m) (n - m) with
    | .ok xs, .ok ys => .ok (xs ++ ys)
    | .error c, _ => .error c
    | _, .error c => .error c

/-- An outcome of a memory part as a job's outcome. -/
def metOf {α : Type} (x : Except (Option (BitVec 8)) α) (info : Nat) (k : α → Except Met α) : Except Met α :=
  match x with
  | .ok a => k a
  | .error (some c) => .error (.bad c info)
  | .error none => .error .hold

/-- Read element `e` of a record by an engine: the element's code (R239, R241). -/
def State.engElem (s : State) (die ctx : Nat) (r : Rec) (idx e : Nat) : Except Met Nat :=
  match recOff r e with
  | none => .error (.bad 0x11#8 (recBase r + e * recWidth r / 8))
  | some off =>
    let sp := bitSpan off (recWidth r)
    let va := recBase r + sp.1
    match s.engCheck die ctx va sp.2 false (recClass r) idx with
    | .error m => .error m
    | .ok _ =>
      match s.engReadSpan die ctx va sp.2 with
      | .ok xs => .ok (bitGet xs (off % 8) (recWidth r))
      | .error (some c) => .error (.bad c va)
      | .error none => .error .hold

/-- The scale code of element `e` of a record, read by an engine (R239). -/
def State.engScale (s : State) (die ctx : Nat) (r : Rec) (e : Nat) : Except Met Nat :=
  if recSmode r = 0 then .ok 0
  else
    let n := if recSmode r = 1 then 1 else 4
    let va := recScale r + n * (e / 2 ^ recGsize r)
    if va % n ≠ 0 then .error (.bad 0x13#8 va)
    else
      match s.engRead die ctx va n with
      | .ok xs => .ok (leNat xs)
      | .error (some c) => .error (.bad c va)
      | .error none => .error .hold

/-- Write the code of element `e` of a record by an engine (R242); the other bits of its bytes keep their values, whether or
not the page may be read. -/
def State.engElemPut (s : State) (die ctx : Nat) (r : Rec) (idx e code : Nat) : Met :=
  match recOff r e with
  | none => .bad 0x11#8 (recBase r + e * recWidth r / 8)
  | some off =>
    let sp := bitSpan off (recWidth r)
    let va := recBase r + sp.1
    match s.engCheck die ctx va sp.2 true (recClass r) idx with
    | .error m => m
    | .ok (cls, keys) => .ok (s.engPut die ctx va cls keys (off % 8) (recWidth r) code)

/-- The code of element `k` packed densely in the crew's space from a byte address (R260). -/
def State.packedGet (s : State) (crew gid a k w : Nat) : Nat :=
  let sp := bitSpan (k * w) w
  bitGet (s.scrRead crew gid (a + sp.1) sp.2) (k * w % 8) w

/-- Write element `k` packed densely in the crew's space. -/
def State.packedPut (s : State) (crew gid a k w code : Nat) : State :=
  let sp := bitSpan (k * w) w
  s.scrWrite crew gid (a + sp.1) (bitPut (s.scrRead crew gid (a + sp.1) sp.2) (k * w % 8) w code) false

/-- One element of `cpy.cvt`: read under R241, written under R242; events count against the two records (R261). An element
index past 2^32 is taken as it is (log entry 53). -/
def State.cvtStep (s : State) (die : Nat) (j : Job) (k : Nat) : Met :=
  let rd : Except Met (Rec × Nat × Nat) := match j.src with
    | .elems r idx e0 =>
      match s.engElem die j.ctx r idx (e0 + k), s.engScale die j.ctx r (e0 + k) with
      | .ok c, .ok f => .ok (r, c, f)
      | .error m, _ => .error m
      | _, .error m => .error m
    | .packed r a =>
      match s.engScale die j.ctx r k with
      | .ok f =>
        let sp := bitSpan (k * recWidth r) (recWidth r)
        if s.scrPoison j.crew (a + sp.1) sp.2 then .error (.bad 0x14#8 (a + sp.1))
        else .ok (r, s.packedGet j.crew j.gid a k (recWidth r), f)
      | .error m => .error m
    | _ => .error .hold
  match rd with
  | .error m => m
  | .ok (r, c, f) =>
    let v := elemLoad ((encOf (recEnc r)).getD .f32) (recSmode r) c f
    let s1 := s.count die j.ctx (recTensor r) v.2
    match j.dst with
    | .elems q idx e0 =>
      let o := elemStore ((encOf (recEnc q)).getD .f32) v.1
      (s1.count die j.ctx (recTensor q) o.2).engElemPut die j.ctx q idx (e0 + k) o.1
    | .packed q a =>
      let o := elemStore ((encOf (recEnc q)).getD .f32) v.1
      .ok ((s1.count die j.ctx (recTensor q) o.2).packedPut j.crew j.gid a k (recWidth q) o.1)
    | _ => .hold

/-- The site a job's crew and group form, for checks of the crew window. -/
def State.jobSite? (s : State) (crew gid : Nat) : Option Site :=
  match s.crew? crew, s.group? (crew * 32 + gid) with
  | some c, some g =>
    match s.launch? c.handle with
    | some l => some ⟨g, Frag.start 0#32 0, c, l⟩
    | none => none
  | _, _ => none

/-- What a stream job makes of its index entry (R263): a copy of the chunk's bytes. A scratchpad destination that passes the
window stops it with 0x12 (log entry 53). A job that stops so counts the LEN that it read, if that is one. -/
def State.streamTake (s : State) (j : Job) (r : Rec) (idx w : Nat) : Except (Met × Nat) Job :=
  let n := bits w 52 40
  let off := bits w 39 0
  if n = 0 ∨ 4096 < n then .error (.bad 0x30#8 idx, 0)
  else if bits w 63 53 ≠ 0 ∨ recExtent r < off + n then .error (.bad 0x30#8 idx, n)
  else
    let j1 := { j with kind := .copy, src := .chunk (recBase r + off) (recClass r) idx, len := n, bytes := n, left := n, moved := [] }
    match j.dst, s.jobSite? j.crew j.gid with
    | .scr a, some x => if x.inWindow a n then .ok j1 else .error (.bad 0x12#8 a, n)
    | _, _ => .ok j1

/-- The step of a stream job that reads its index entry (R263). An entry that is not aligned stops it with 0x13 (log entry
53). Its page is not compared with the record's class, as that of a scale is not (log entry 60). -/
def State.streamStep (s : State) (die : Nat) (j : Job) (r : Rec) (idx chunk : Nat) : Except (Met × Nat) Job :=
  let va := recSidx r + 8 * chunk
  if va % 8 ≠ 0 then .error (.bad 0x13#8 va, 0)
  else
    match s.engRead die j.ctx va 8 with
    | .error none => .error (.hold, 0)
    | .error (some c) => .error (.bad (if c = 0x10#8 then 0x11#8 else c) va, 0)
    | .ok xs => s.streamTake j r idx (leNat xs)

/-- Offsets of a job's destination that a store to `[va, va+n)` of its place's space makes undefined, from where its
place starts. -/
def taintRange (base len va n : Nat) : List Nat :=
  let lo := va - base
  let hi := Nat.min len (va + n - base)
  if va + n ≤ base then [] else (List.range (hi - lo)).map (fun i => lo + i)

/-- Whether a job has moved the chunk that holds an offset. -/
def Job.movedAt (j : Job) (i : Nat) : Bool := j.moved.any (fun m => decide (m ≤ i) && decide (i < m + j.chunkLen m))

/-- The bytes of a crew's space that groups of it stored to since a job's issue (R219). -/
def State.storedBytes (s : State) (j : Job) : List Nat :=
  (((((s.crew? j.crew).map (·.past)).getD []).filter (fun p => p.grp && decide (j.issued ≤ p.stamp))).map (·.addr)).eraseDups

/-- The bytes of a range of a job's context that groups stored to since its issue (R219), by their addresses. -/
def State.storedIn (s : State) (j : Job) (a n : Nat) : List Nat :=
  ((s.seen.filter (fun e => e.grp && decide (j.issued ≤ e.stamp))).flatMap (fun e =>
    (hitOf s e.ctx e.va e.len j.ctx a n).flatMap (fun h => (taintRange a n h.1 h.2).map (a + ·)))).eraseDups

/-- The offsets of a plain copy or fill whose destination bytes are undefined at completion: those that a group stored to
(R219), and of the chunks moved those whose ranges overlap (R261, R262). -/
def State.taints (s : State) (j : Job) : List Nat :=
  let at_ := fun (p : Place) => match p with
    | .mem va => (s.storedIn j va j.len).map (· - va)
    | .chunk va _ _ => (s.storedIn j va j.len).map (· - va)
    | .scr a => (s.storedBytes j).flatMap (fun p => taintRange a j.len p 1)
    | _ => []
  let lap := match j.kind, j.src, j.dst with
    | .copy, .mem a, .mem b => if a = b then [] else taintRange a j.len b j.len
    | .copy, .chunk a _ _, .mem b => if a = b then [] else taintRange a j.len b j.len
    | .copy, .scr a, .scr b => if a = b then [] else taintRange a j.len b j.len
    | _, _, _ => []
  (lap.filter j.movedAt ++ (match j.kind with
    | .copy => at_ j.src
    | _ => []) ++ at_ j.dst).eraseDups

/-- The bytes of an element at a place, as a span of its space. -/
def elemSpan (p : Place) (k : Nat) : Option (Bool × Nat × Nat) :=
  match p with
  | .elems r _ e0 => (recOff r (e0 + k)).map (fun off =>
      let sp := bitSpan off (recWidth r)
      (true, recBase r + sp.1, sp.2))
  | .packed r a =>
    let sp := bitSpan (k * recWidth r) (recWidth r)
    some (false, a + sp.1, sp.2)
  | _ => none

/-- The scale bytes of an element at a source place, in memory. -/
def scaleSpan (p : Place) (k : Nat) : Option (Nat × Nat) :=
  let at_ := fun (r : Rec) (e : Nat) =>
    let n := if recSmode r = 1 then 1 else 4
    if recSmode r = 0 then none else some (recScale r + n * (e / 2 ^ recGsize r), n)
  match p with
  | .elems r _ e0 => at_ r (e0 + k)
  | .packed r _ => at_ r k
  | _ => none

/-- The bytes of element `k` at a place of a job that groups stored to since its issue (R219). -/
def State.elemStored (s : State) (j : Job) (p : Place) (k : Nat) : List Nat :=
  match elemSpan p k with
  | some (true, a, n) => s.storedIn j a n
  | some (false, a, n) => (s.storedBytes j).filter (fun q => overlaps a n q 1)
  | none => []

/-- The elements of a converting copy whose destination is undefined at completion: those of whose source, scale bytes
included, a group stored to some byte (R219), and of the elements moved those whose ranges overlap (R261, R262). -/
def State.cvtTaints (s : State) (j : Job) : List Nat :=
  let scale := fun (k : Nat) => match scaleSpan j.src k with
    | some (a, n) => !(s.storedIn j a n).isEmpty
    | none => false
  let same := (List.range j.len).all (fun k => elemSpan j.src k == elemSpan j.dst k)
  let lap := fun (k : Nat) => !same && j.moved.contains k && (match elemSpan j.src k with
    | some (b, a, n) => (List.range j.len).any (fun i => match elemSpan j.dst i with
        | some (b2, a2, n2) => b == b2 && overlaps a n a2 n2
        | none => false)
    | none => false)
  (List.range j.len).filter (fun k => !(s.elemStored j j.src k).isEmpty || scale k || lap k)

/-- The bytes of a converting copy's destination that a group stored to (R219): addresses, in memory or in the crew's space. -/
def State.cvtStored (s : State) (j : Job) : List Nat :=
  ((List.range j.len).flatMap (s.elemStored j j.dst)).eraseDups

/-- Make the tainted destination bytes of a job undefined: whole elements of a converting copy where its source was stored to,
and the single bytes of its destination that were. -/
def State.taintJob (s0 : State) (die : Nat) (j : Job) : State :=
  let (s, n) := s0.draw
  let fresh := fun (w k : Nat) => (Config.free w (n * 2 ^ 40 + k)).toNat
  match j.kind with
  | .cvt =>
    let s1 := (s.cvtTaints j).foldl (fun s k => match j.dst with
      | .elems r idx e0 =>
        (match s.engElemPut die j.ctx r idx (e0 + k) (fresh (recWidth r) k) with
         | .ok s1 => s1
         | .hold => s.hold
         | .bad _ _ => s)
      | .packed r a => s.packedPut j.crew j.gid a k (recWidth r) (fresh (recWidth r) k)
      | _ => s) s
    (s.cvtStored j).zipIdx.foldl (fun t (a, k) =>
      let xs := leBytes 1 (fresh 8 (2 ^ 39 + k))
      match j.dst with
      | .packed _ _ => t.scrWrite j.crew j.gid a xs false
      | _ => (match t.engWrite die j.ctx a xs with
        | .ok s1 => s1
        | .error none => t.hold
        | .error (some _) => t)) s1
  | _ => (s.taints j).foldl (fun s k =>
      match s.placeWrite die j j.dst k (leBytes 1 (fresh 8 k)) with
      | .ok s1 => s1
      | .hold => s.hold
      | .bad _ _ => s) s

/-- The arrival action of a job (R216, R275). -/
def State.arrival (s : State) (crew arv off : Nat) (val : Word) (n : Nat) : State :=
  match s.crew? crew with
  | none => s
  | some c =>
    if arv = 1 then s.setCrew (c.awSet off val)
    else if arv = 2 then s.setCrew (c.awSet off (arrivalStep (c.awGet off) n))
    else s

/-- The completion of a copy job: bytes left undefined, the arrival word, and the job leaves its queue (R205, R218). An
arrival `add` counts the destination's bytes; of a stream job that failed before it read a LEN they are not known,
and it adds 0 (log entry 53). -/
def State.completeJob (s : State) (e k : Nat) (j : Job) : State :=
  let s1 := s.taintJob (dieOfEngine e) j
  (s1.setQueue e ((s1.queue e).eraseIdx k)).arrival j.crew j.arv j.awOff j.awVal j.bytes

/-- The record of a cause that a copy job met (R387). -/
def Job.fault (j : Job) (e k : Nat) (cause : BitVec 8) (info : Nat) : JobFault :=
  { cause := cause, pc := j.pc, word := j.word,
    src := BitVec.ofNat 16 (srcNo 2 (dieOfEngine e) (e % Config.enginesPerDie) 0), info0 := BitVec.ofNat 64 info,
    info1 := 0#64, info2 := BitVec.ofNat 64 (e % Config.enginesPerDie + 256 * k), silent := false }

/-- What follows a step of a copy job (R262): progress; a pause with its record; or the end of the job with its cause. -/
def State.afterChunk (s : State) (e k : Nat) (j : Job) (m : Met) (j1 : Job) : State :=
  match m with
  | .ok s1 => s1.setJob e k j1
  | .hold => s
  | .bad c info =>
    if c = 0x10#8 then (s.jobPause j.crew j.gid (j.fault e k c info)).setJob e k { j with paused := true, pauseAt := info }
    else (s.completeJob e k { j with failed := true }).jobFault j.crew j.gid (j.fault e k c info)

/-- `engineStep` (R217): engine `e` moves the chunk at offset `off` of the job at position `k` of its queue. -/
def execEngineStep (e k off : Nat) (s : State) : Out :=
  match (s.queue e)[k]? with
  | none => .next s
  | some j =>
    let die := dieOfEngine e
    if j.paused ∨ j.left = 0 then .next s
    else
      match j.kind with
      | .gather _ => .next s
      | .stream r idx chunk =>
        match s.streamStep die j r idx chunk with
        | .ok j1 => .next (s.setJob e k j1)
        | .error (m, n) => .next (s.afterChunk e k { j with bytes := n } m j)
      | .cvt =>
        if j.moved.contains off || decide (j.len ≤ off) then .next s
        else .next (s.afterChunk e k j (s.cvtStep die j off) { j with moved := off :: j.moved, left := j.left - 1 })
      | .fill pat =>
        if j.moved.contains off || !j.chunkAt off then .next s
        else
          let n := j.chunkLen off
          let xs := (List.range n).map (fun i => pat.extractLsb' (8 * ((off + i) % 4)) 8)
          .next (s.afterChunk e k j (s.placeWrite die j j.dst off xs) { j with moved := off :: j.moved, left := j.left - n })
      | .copy =>
        if j.moved.contains off || !j.chunkAt off then .next s
        else
          let n := j.chunkLen off
          match s.placeRead die j j.src off n with
          | .error m => .next (s.afterChunk e k j m j)
          | .ok xs =>
            .next (s.afterChunk e k j (s.placeWrite die j j.dst off xs) { j with moved := off :: j.moved, left := j.left - n })

/-- `copyJobCompletion` (R205, R218): the oldest job of a queue, once every chunk has moved. -/
def execCopyJobCompletion (e : Nat) (s : State) : Out :=
  match s.queue e with
  | [] => .next s
  | j :: _ =>
    match j.kind with
    | .gather _ => .next s
    | _ => if j.left = 0 ∧ !j.paused then .next (s.completeJob e 0 j) else .next s

end Sys2Proof.Machine
end

