-- ==== Sys2Proof/Machine/Trans.lean ====
section
/-!
DEFINITION. The functions whose results are the exact real rounded once (R189, R300, R357): each is enclosed between two
fixed-point numbers at a rising precision until both ends round alike. Should no precision decide, the result is a free
value (log entry 9).
-/

namespace Sys2Proof.Machine

/-- A product of fixed-point numbers with P fraction bits, rounded down. -/
def fxMul (P : Nat) (a b : Int) : Int := a * b / (2 : Int) ^ P

/-- A dyadic as a fixed-point number, rounded down in magnitude. -/
def fxOf (P : Nat) (neg : Bool) (m : Nat) (e : Int) : Int :=
  let x : Nat := if 0 ≤ e + P then m <<< (e + P).toNat else m >>> (-(e + P)).toNat
  if neg then -(x : Int) else x

/-- Terms of the exponential series from the k-th on. -/
def expTerms (P : Nat) (x : Int) : Nat → Nat → Int → Int
  | 0, _, _ => 0
  | n + 1, k, t => t + expTerms P x n (k + 1) (fxMul P t x / (k + 1 : Nat))

/-- e^x for 0 ≤ x < 1. -/
def expFx (P : Nat) (x : Int) : Int := expTerms P x (P / 4) 0 (2 ^ P)

/-- Terms of the series of the inverse hyperbolic tangent, by odd powers. -/
def athTerms (P : Nat) (z2 : Int) : Nat → Nat → Int → Int
  | 0, _, _ => 0
  | n + 1, k, t => t / (2 * k + 1 : Nat) + athTerms P z2 n (k + 1) (fxMul P t z2)

/-- ln x for 1 ≤ x ≤ 2. -/
def lnFx (P : Nat) (x : Int) : Int :=
  let one : Int := (2 : Int) ^ P
  let z := (x - one) * one / (x + one)
  2 * athTerms P (fxMul P z z) (P / 3 + 2) 0 z

/-- ln 2. -/
def ln2Fx (P : Nat) : Int := lnFx P (2 * (2 : Int) ^ P)

/-- Terms of the series of atan(1/n). -/
def atanTerms (n : Nat) : Nat → Nat → Int → Int
  | 0, _, _ => 0
  | f + 1, k, t => t / (2 * k + 1 : Nat) - atanTerms n f (k + 1) (t / (n * n : Nat))

/-- π by Machin's formula. -/
def piFx (P : Nat) : Int :=
  16 * atanTerms 5 (P / 4 + 2) 0 ((2 : Int) ^ P / 5) - 4 * atanTerms 239 (P / 4 + 2) 0 ((2 : Int) ^ P / 239)

/-- Terms of the sine (`k` odd) and cosine (`k` even) series. -/
def trigTerms (P : Nat) (x2 : Int) : Nat → Nat → Int → Int
  | 0, _, _ => 0
  | n + 1, k, t => t - trigTerms P x2 n (k + 2) (fxMul P t x2 / ((k + 1) * (k + 2) : Nat))

def sinFx (P : Nat) (x : Int) : Int := trigTerms P (fxMul P x x) (P / 4) 1 x
def cosFx (P : Nat) (x : Int) : Int := trigTerms P (fxMul P x x) (P / 4) 0 (2 ^ P)

/-- 2^t for a fixed-point t: a fixed-point number from 1 to 2, and its exponent. -/
def exp2Fx (P : Nat) (t : Int) : Int × Int :=
  let n := t / (2 : Int) ^ P
  let f := t % (2 : Int) ^ P
  (expFx P (fxMul P f (ln2Fx P)), (if n < -2000 then -2000 else n) - P)

/-- An enclosure: the exact value is (−1)^neg × y × 2^e up to 2^64 units in y. -/
structure Encl where
  neg : Bool
  y   : Int
  e   : Int
  deriving DecidableEq, Repr

/-- Round an enclosure where both ends round alike. -/
def Encl.round? (v : FEnv) (x : Encl) : Option (Nat × Ev) :=
  let w : FEnv := { v with rnd := 0, ftz := false }
  let lo := fp32.round w x.neg (x.y - 2 ^ 64).toNat x.e true
  let hi := fp32.round w x.neg (x.y + 2 ^ 64).toNat x.e true
  if lo = hi then some (fp32.round { v with rnd := 0 } x.neg x.y.toNat x.e true) else none

/-- Try rising precisions. `key` names the free value that stands in when none decides. -/
def ziv (v : FEnv) (key : Nat) (f : Nat → Encl) : List Nat → Nat × Ev
  | [] => ((Config.free 32 (2 ^ 80 + key)).toNat, Ev.zero)
  | P :: r =>
    match (f P).round? v with
    | some x => x
    | none => ziv v key f r

/-- The precisions tried. -/
def precisions : List Nat := [256, 512, 1024]

/-- Sign and magnitude of a fixed-point number. -/
def enclOf (P : Nat) (y : Int) : Encl := ⟨decide (y < 0), y.natAbs, -(P : Int)⟩

/-- `exp2` (R189). -/
def fexp2 (v : FEnv) (a0 : Nat) : Nat × Ev :=
  let a := fp32.flush v a0
  match fp32.val a with
  | .nan => fp32.nanOf v a
  | .inf n => (if n then 0 else fp32.infBits false, Ev.zero)
  | .fin n m e =>
    let whole := m == 0 || decide (0 ≤ e) || m % 2 ^ (-e).toNat == 0
    if whole then
      let k : Int := if 0 ≤ e then m <<< e.toNat else m >>> (-e).toNat
      let k1 := if n then -k else k
      fp32.round { v with rnd := 0 } false 1 (if k1 < -400 then -400 else k1) false
    else ziv v a (fun P => let r := exp2Fx P (fxOf P n m e); ⟨false, r.1, r.2⟩) precisions

/-- log2 of m·2^e as a fixed-point number. -/
def log2Fx (P : Nat) (m : Nat) (e : Int) : Int :=
  let l := m.log2
  (e + l) * (2 : Int) ^ P + lnFx P (fxOf P false m (-(l : Int))) * (2 : Int) ^ P / ln2Fx P

/-- `log2` (R189). -/
def flog2 (v : FEnv) (a0 : Nat) : Nat × Ev :=
  let a := fp32.flush v a0
  match fp32.val a with
  | .nan => fp32.nanOf v a
  | .inf n => if n then fp32.invalid else (fp32.infBits false, Ev.zero)
  | .fin n m e =>
    if m = 0 then (fp32.infBits true, Ev.zero)
    else if n then fp32.invalid
    else if m = 2 ^ m.log2 then
      let k : Int := e + m.log2
      fp32.round { v with rnd := 0 } (decide (k < 0)) k.natAbs 0 false
    else ziv v a (fun P => enclOf P (log2Fx P m e)) precisions

/-- Sine or cosine of m·2^e: the quadrant from π to P + 160 bits, then the series. -/
def trigEncl (cos neg : Bool) (m : Nat) (e : Int) (P : Nat) : Encl :=
  let Q := P + 160
  let h := piFx Q / 2
  let x : Int := fxOf Q false m e
  let k := (x / h).toNat % 4
  let r := x % h / (2 : Int) ^ 160
  let useCos := if cos then k % 2 == 0 else k % 2 == 1
  let flip := if cos then k == 1 || k == 2 else decide (2 ≤ k) != neg
  let y := if useCos then cosFx P r else sinFx P r
  ⟨flip != decide (y < 0), y.natAbs, -(P : Int)⟩

/-- Whether m·2^e lies below 2^-13, where x and x(1 − x²/3) round alike. -/
def tiny (m : Nat) (e : Int) : Bool := decide (e + m.log2 < -13)

/-- `sin` (R189). -/
def fsin (v : FEnv) (a0 : Nat) : Nat × Ev :=
  let a := fp32.flush v a0
  match fp32.val a with
  | .nan => fp32.nanOf v a
  | .inf _ => fp32.invalid
  | .fin n m e =>
    if m = 0 then (fp32.sign n, Ev.zero)
    else if tiny m e then fp32.round { v with rnd := 0 } n m e false
    else ziv v a (trigEncl false n m e) precisions

/-- `cos` (R189). -/
def fcos (v : FEnv) (a0 : Nat) : Nat × Ev :=
  let a := fp32.flush v a0
  match fp32.val a with
  | .nan => fp32.nanOf v a
  | .inf _ => fp32.invalid
  | .fin n m e => if m = 0 ∨ tiny m e then (0x3F800000, Ev.zero) else ziv v a (trigEncl true n m e) precisions

/-- tanh of m·2^e below 10: (E − 1) / (E + 1) with E = e^(2x). -/
def tanhEncl (n : Bool) (m : Nat) (e : Int) (P : Nat) : Encl :=
  let one : Int := (2 : Int) ^ P
  let r := exp2Fx P (2 * fxOf P false m e * one / ln2Fx P)
  let E := r.1 * (2 : Int) ^ (r.2 + P).toNat
  ⟨n, (E - one) * one / (E + one), -(P : Int)⟩

/-- `tanh` (R189). -/
def ftanh (v : FEnv) (a0 : Nat) : Nat × Ev :=
  let a := fp32.flush v a0
  match fp32.val a with
  | .nan => fp32.nanOf v a
  | .inf n => (fp32.sign n + 0x3F800000, Ev.zero)
  | .fin n m e =>
    if m = 0 then (fp32.sign n, Ev.zero)
    else if tiny m e then fp32.round { v with rnd := 0 } n m e false
    else if 10 ≤ fxOf 0 false m e then (fp32.sign n + 0x3F800000, Ev.zero)
    else ziv v a (tanhEncl n m e) precisions

/-- `gumbel` of a logit and a random word (R357): a − ln(−ln u), rounded once, subnormals kept, no counting but NaN. -/
def gumbelVal (a x : Nat) : Nat × Ev :=
  match fp32.val a with
  | .nan => fp32.nanOf FEnv.unit a
  | .inf n => (fp32.infBits n, Ev.zero)
  | .fin n m e =>
    let k := 2 * (x / 256) + 1
    ziv FEnv.unit (2 ^ 40 + a * 2 ^ 32 + x) (fun P =>
      let lnOf := fun (q : Nat) (ex : Int) => lnFx P (fxOf P false q (-(q.log2 : Int))) + (ex + q.log2) * ln2Fx P
      let y := (-(lnOf k (-25))).toNat
      enclOf P (fxOf P n m e - lnOf y (-(P : Int)))) precisions

/-- y / (1 + e^(−w)) for y = (−1)^n m 2^e and a fixed-point w. -/
def logisticEncl (n : Bool) (m : Nat) (e : Int) (w : Nat → Int) (P : Nat) : Encl :=
  let one : Int := (2 : Int) ^ P
  let r := exp2Fx P (-(w P) * one / ln2Fx P)
  let E := if 0 ≤ r.2 + P then r.1 * (2 : Int) ^ (r.2 + P).toNat else r.1 / (2 : Int) ^ (-(r.2 + P)).toNat
  ⟨n, (m : Int) * (2 : Int) ^ (2 * P) / (one + E), e - P⟩

/-- y / (1 + e^(−w)) rounded once; `w` has the sign of y and grows at least as fast. -/
def logistic (key : Nat) (n : Bool) (m : Nat) (e : Int) (w : Nat → Int) : Nat × Ev :=
  if m = 0 then (fp32.sign n, Ev.zero)
  else if e + m.log2 < -40 then
    fp32.round FEnv.unit n (if n then m <<< 64 - 1 else m <<< 64) (e - 65) true
  else if 64 < w 0 then fp32.round FEnv.unit n m e false
  else if w 0 < -200 then (fp32.sign n, Ev.zero)
  else ziv FEnv.unit key (logisticEncl n m e w) [600, 1200]

/-- `silu` of the epilogue (R300). -/
def silu (a : Nat) : Nat × Ev :=
  match fp32.val a with
  | .nan => fp32.nanOf FEnv.unit a
  | .inf n => (if n then fp32.sign true else fp32.infBits false, Ev.zero)
  | .fin n m e => logistic (2 ^ 76 + a) n m e (fun P => fxOf P n m e)

/-- `gelu` of the epilogue (R300): 0.5y(1 + tanh z) is y / (1 + e^(−2z)). -/
def gelu (a : Nat) : Nat × Ev :=
  match fp32.val a with
  | .nan => fp32.nanOf FEnv.unit a
  | .inf n => (if n then fp32.sign true else fp32.infBits false, Ev.zero)
  | .fin n m e => logistic (2 ^ 77 + a) n m e (fun P =>
      let y := fxOf (P + 512) n m e
      let y3 := y * y * y / (2 : Int) ^ (2 * (P + 512))
      2 * 79788456 * (1000000 * y + 44715 * y3) / 100000000000000 / (2 : Int) ^ 512)

end Sys2Proof.Machine
end

