-- ==== Sys2Proof/Machine/Cascade.lean ====
section
/-!
DEFINITION. The Cascade unit: the ring as jobs will leave it (R296, R297), operand reads (R221, R223, R286 to R290),
what each job computes (R145 to R148, R291 to R295, R426, R428), the epilogue engine (R299 to R301), and the unit's
own steps (R205).
-/

namespace Sys2Proof.Machine

/-- The unit at the start of ownership (R283). -/
def CascUnit.zero : CascUnit :=
  { perm := Bank.zero 512, permT := [], cbs := Bank.zero 256, ws := Bank.zero 48, slots := List.replicate 8 ⟨0, false⟩,
    ring := Bank.zero 32, head := 0, tail := 0, epc := 0#128, jobs := [] }

/-- A ring slot. -/
def CascUnit.slot (u : CascUnit) (k : Nat) : Slot := (u.slots[k]?).getD ⟨0, false⟩

/-- Whether a job is one of the window's, and not an ordered non-job (R304). -/
def CascOp.isJob : CascOp → Bool
  | .epcfg _ => false
  | .pop => false
  | _ => true

/-- Whether two operands give an INT32 accumulator (R289). -/
def intPair (a b : Rec) : Bool :=
  let int := fun (r : Rec) => match encOf (recEnc r) with
    | some .s8 => true
    | some .s4 => true
    | _ => false
  int a && int b

/-- The head slot opens with a type (R296). -/
def CascUnit.openHead (u : CascUnit) (int32 : Bool) : CascUnit := { u with slots := u.slots.set u.head ⟨1, int32⟩ }

/-- The head slot is done, and HEAD advances (R296). -/
def CascUnit.closeHead (u : CascUnit) : CascUnit :=
  { u with slots := u.slots.set u.head { u.slot u.head with st := 2 }, head := (u.head + 1) % 8 }

/-- The tail slot is consumed, and TAIL advances (R296). -/
def CascUnit.freeTail (u : CascUnit) : CascUnit :=
  { u with slots := u.slots.set u.tail { u.slot u.tail with st := 0 }, tail := (u.tail + 1) % 8 }

/-- The ring and the epilogue configuration after a job or non-job (R296, R304); nothing else changes. -/
def CascUnit.ringAfter (u : CascUnit) (op : CascOp) : CascUnit :=
  match op with
  | .mparts opn cls _ _ _ _ _ _ _ =>
    let v := if opn then u.openHead false else u
    if cls then v.closeHead else v
  | .mloop opn cls _ _ _ _ _ _ _ _ _ ra rb _ =>
    let v := if opn then u.openHead (intPair ra.r rb.r) else u
    if cls then v.closeHead else v
  | .eprun _ _ _ _ _ => u.freeTail
  | .pop => u.freeTail
  | .epcfg v => { u with epc := v }
  | _ => u

/-- The ring as it will stand once every earlier job has completed (R297). -/
def CascUnit.project (u : CascUnit) : CascUnit := u.jobs.foldl (fun v j => v.ringAfter j.op) u

/-- Jobs in the window (R284). -/
def CascUnit.pending (u : CascUnit) : Nat := (u.jobs.filter (fun j => j.op.isJob)).length

/-- Zero keys `lo` to `hi - 1` of a bank. -/
def Bank.clear {w : Nat} (b : Bank w) (lo hi : Nat) : Bank w :=
  let c : Bank w := { b with cells := b.cells.filter (fun e => decide (e.1 < lo) || decide (hi ≤ e.1)) }
  if b.holes.any (fun h => decide (h.lo < hi) && decide (lo < h.hi)) then c.fill lo (hi - lo) 0#w else c

/-- The K-step size of an operand pair (R289). -/
def kStep (a b : Rec) : Nat :=
  let half := fun (r : Rec) => match encOf (recEnc r) with
    | some .f16 => true
    | some .bf16 => true
    | _ => false
  let four := fun (r : Rec) => encOf (recEnc r) == some .s4
  if half a || half b then 32 else if four a && four b then 128 else 64

/-- Key blocks an attention job's steps cover (R290). -/
def AttnRef.cols (t : AttnRef) (c ks : Nat) : Nat := if t.value then c * ks / 16 else 4

/-- The operand regions a job reads (R221), by number. For an `mloop`, step s reads A panel 2s and B panel 2s + 1, and
region 2c is the mask or the counted tile. -/
def CascOp.regions : CascOp → List Nat
  | .mcb _ _ => [0]
  | .msort _ _ _ _ _ _ _ => [0]
  | .mparts _ _ _ _ _ _ n _ _ => List.range n
  | .mloop _ _ _ _ ctb _ _ _ _ c _ _ _ attn => List.range (2 * c) ++ (if ctb.isSome || attn.isSome then [2 * c] else [])
  | .eprun _ _ _ cfg _ =>
    (if bits cfg.toNat 8 7 = 0 then [] else [0]) ++ (if bits cfg.toNat 10 9 = 0 then [] else [1])
  | _ => []

/-- What a region read gives, or what it met. -/
abbrev Got := Except Met (List Nat)

/-- A byte of the crew's space as a unit reads it (R221): a value it held at some moment since the window opening. -/
def State.scrPick (s : State) (j : CascJob) (crew seed a : Nat) : Byte :=
  let now := (s.scrRead crew j.gid a 1).headD 0#8
  let old := (((s.crew? crew).map (·.past)).getD []).filter (fun p => p.addr == a && decide (j.opened ≤ p.stamp))
  match old with
  | [] => now
  | _ => ((now :: old.map (·.old))[Config.pick (seed * 2 ^ 40 + a) % (old.length + 1)]?).getD now

/-- A field of `w` bits of the crew's space at a bit offset. -/
def State.scrField (s : State) (j : CascJob) (crew seed off w : Nat) : Nat :=
  let sp := bitSpan off w
  bitGet ((List.range sp.2).map (fun i => s.scrPick j crew seed (sp.1 + i))) (off % 8) w

/-- Fields of `w` bits of the crew's space, at bit offsets; a poisoned granule among them is met instead (R285, R421). -/
def State.scrGot (s : State) (j : CascJob) (crew seed w : Nat) (offs : List Nat) : Got :=
  match offs.find? (fun o => s.scrPoison crew (bitSpan o w).1 (bitSpan o w).2) with
  | some o => .error (.bad 0x14#8 (bitSpan o w).1)
  | none => .ok (offs.map (fun o => s.scrField j crew seed o w))

/-- The code of an element of a memory operand (R306). -/
def State.cascCode (s : State) (die ctx : Nat) (q : RecRef) (e : Nat) : Except Met Nat :=
  if 2 ^ 32 ≤ e then .error (.bad 0x11#8 e) else s.engElem die ctx q.r q.ix e

/-- An element of a memory operand: its code, with its `exp8` byte above bit 32 where the record has one (R286). -/
def State.cascElem (s : State) (die ctx : Nat) (q : RecRef) (e : Nat) : Except Met Nat :=
  match s.cascCode die ctx q e with
  | .error m => .error m
  | .ok c =>
    match s.engScale die ctx q.r e with
    | .error m => .error m
    | .ok f => .ok (c + 2 ^ 32 * f)

/-- A list of elements; the first that meets something decides. -/
def gotAll (f : Nat → Except Met Nat) : List Nat → Got
  | [] => .ok []
  | e :: r =>
    match f e with
    | .error m => .error m
    | .ok c =>
      match gotAll f r with
      | .error m => .error m
      | .ok cs => .ok (c :: cs)

/-- Whether a weight record has no group exponents (R286). -/
def noGroupExp (r : Rec) : Bool := recScale r == 0 || (encOf (recEnc r) == some .tern && recSmode r == 0)

/-- The group exponent of weight group `g` (R286). -/
def State.groupExp (s : State) (die ctx : Nat) (q : RecRef) (g : Nat) : Except Met Nat :=
  if noGroupExp q.r then .ok 0
  else
    match s.engRead die ctx (recScale q.r + g) 1 with
    | .ok xs => .ok (leNat xs)
    | .error (some c) => .error (.bad c (recScale q.r + g))
    | .error none => .error .hold

/-- Bytes of a counted tile as numbers; a poisoned granule among those of a range is met instead (R421). -/
def Tile.nats (t : Tile) : List Nat := (t.read 0 (t.lines * 128)).map (·.toNat)
def Tile.got (t : Tile) (off n : Nat) (xs : List Nat) : Got :=
  match t.poison.find? (fun g => overlaps off n (32 * g) 32) with
  | some g => .error (.bad 0x14#8 (32 * g))
  | none => .ok xs

/-- A field of a tile's bytes. -/
def natField (xs : List Nat) (off w : Nat) : Nat :=
  let sp := bitSpan off w
  bitGet (((xs.drop sp.1).take sp.2).map (BitVec.ofNat 8)) (off % 8) w

/-- Where a mask record holds the bit of a block (R339), as the offset of its byte; none past its columns or its bytes. -/
def maskOff (r : Rec) (qb kb : Nat) : Option Nat :=
  let off := qb * recStride r + kb / 8
  if recCols r ≤ kb ∨ recExtent r ≤ off then none else some off

/-- The mask bit of a block (R339): 0 skipped, 1 computed. -/
def State.maskBit (s : State) (die ctx : Nat) (q : RecRef) (qb kb : Nat) : Except Met Nat :=
  match maskOff q.r qb kb with
  | none => .ok 0
  | some off =>
    let va := recBase q.r + off
    match s.engCheck die ctx va 1 false (recClass q.r) q.ix with
    | .error m => .error m
    | .ok _ =>
      match s.engRead die ctx va 1 with
      | .ok xs => .ok (bits (leNat xs) (kb % 8) (kb % 8))
      | .error (some c) => .error (.bad c va)
      | .error none => .error .hold

/-- The codes a job has read of a region. -/
def CascJob.codes (j : CascJob) (k : Nat) : Option (List Nat) := lookup j.got k

/-- Whether a block is computed, from the mask region (R290): query block `qb` and key block `kb` of the job. -/
def seenBit (mask : List Nat) (cols qb kb : Nat) : Bool := (mask[qb * cols + kb]?).getD 0 == 1

/-- Whether some row of the tile computes key block `kb` (R290). -/
def liveCol (mask : List Nat) (cols kb : Nat) : Bool := (List.range 4).any (fun qb => seenBit mask cols qb kb)

/-- Element indices of panel `k` of an `mloop`: A panels row by row, B panels row by row (R310). -/
def panelElems (a0 ai b0 bi : Nat) (ra rb : Rec) (k : Nat) : List Nat :=
  let ks := kStep ra rb
  let st := k / 2
  if k % 2 = 0 then
    (List.range 64).flatMap (fun i => (List.range ks).map (fun t => a0 + st * ai + i * recCols ra + t))
  else
    (List.range ks).flatMap (fun t => (List.range 64).map (fun i => b0 + st * bi + t * recCols rb + i))

/-- Whether element number `n` of panel `k` is fetched (R290). -/
def panelLive (attn : Option AttnRef) (mask : List Nat) (c ks k n : Nat) : Bool :=
  match attn with
  | none => true
  | some t =>
    let cols := t.cols c ks
    let st := k / 2
    if t.value then
      (if k % 2 = 0 then liveCol mask cols ((st * ks + n % ks) / 16) else liveCol mask cols ((st * ks + n / 64) / 16))
    else if k % 2 = 0 then true
    else liveCol mask cols (n % 64 / 16)

/-- One operand region read by a Cascade read step (R221). Of a counted tile, `mloop.ctb` meets any poisoned granule, `msort.ctd`
one of its operand's bytes (R288, R310); where an exponent byte and a code of one `msort` both meet a cause, the exponent's
counts (R308). The rules do not say: the model's choice, log entry 60. -/
def State.cascGet (s : State) (c : Crew) (ctx : Nat) (j : CascJob) (k seed : Nat) : Got :=
  let die := c.die
  match j.op with
  | .mcb _ addr =>
    (match s.engRead die ctx addr 32 with
     | .ok xs => .ok [if s.tableTorn c.handle addr 32 then (Config.free 256 (seed * 2 ^ 40)).toNat else leNat xs]
     | .error (some c) => .error (.bad c addr)
     | .error none => .error .hold)
  | .msort g0 n _ _ ctd off q =>
    let w := recWidth q.r
    let exps := gotAll (fun t => s.groupExp die ctx q (g0 + t)) (List.range n)
    let codes : Got := match ctd with
      | none => gotAll (s.cascCode die ctx q) ((List.range (64 * n)).map (fun i => 64 * g0 + i))
      | some h =>
        (match s.tile? ctx c.handle h with
         | none => .error (.bad 0x18#8 h)
         | some t => t.got off (ceilDiv (64 * n * w) 8) ((List.range (64 * n)).map (fun i => natField t.nats (8 * off + i * w) w)))
    (match exps, codes with
     | .error m, _ => .error m
     | _, .error m => .error m
     | .ok xs, .ok ys => .ok (xs ++ ys))
  | .mparts _ _ sp e0 pitch _ _ _ q =>
    let es := (List.range 64).map (fun i => e0 + k * pitch + i)
    let w := recWidth q.r
    if sp then s.scrGot j c.id seed w (es.map (fun e => e * w)) else gotAll (s.cascElem die ctx q) es
  | .mloop _ _ spa spb ctb a0 ai b0 bi cnt off ra rb attn =>
    let ks := kStep ra.r rb.r
    if k = 2 * cnt then
      (match attn, ctb with
       | some t, _ =>
         gotAll (fun n => s.maskBit die ctx t.mask (t.qo / 16 + n / t.cols cnt ks) (t.ko / 16 + n % t.cols cnt ks))
           (List.range (4 * t.cols cnt ks))
       | none, some h =>
         (match s.tile? ctx c.handle h with
          | none => .error (.bad 0x18#8 h)
          | some t => t.got 0 (t.lines * 128) t.nats)
       | none, none => .ok [])
    else if (ctb.isSome || attn.isSome) && (j.codes (2 * cnt)).isNone then .error .hold
    else
      let head := (j.codes (2 * cnt)).getD []
      let q := if k % 2 = 0 then ra else rb
      let sp := if k % 2 = 0 then spa else spb
      let w := recWidth q.r
      let es := panelElems a0 ai b0 bi ra.r rb.r k
      if sp then s.scrGot j c.id seed w (es.map (fun e => e * w))
      else if k % 2 = 1 ∧ ctb.isSome then
        gotAll (fun e =>
          match s.engScale die ctx q.r e with
          | .error m => .error m
          | .ok f => .ok (natField head (8 * off + e * w) w + 2 ^ 32 * f)) es
      else
        gotAll (fun n => if panelLive attn head cnt ks k n then s.cascElem die ctx q ((es[n]?).getD 0) else .ok 0)
          (List.range es.length)
  | .eprun _ _ _ cfg _ =>
    let v := cfg.toNat
    let off := if k = 0 then bits v 51 32 else bits v 71 52
    let n := if k = 0 ∧ bits v 8 7 = 2 then bits v 31 26 + 1 else bits v 25 20 + 1
    s.scrGot j c.id seed 32 ((List.range n).map (fun i => 8 * (off + 4 * i)))
  | _ => .ok []

/-- The counted handle that a region read consumes (R224, R288). -/
def CascOp.consumes (op : CascOp) (k : Nat) : Option Nat :=
  match op with
  | .msort _ _ _ _ ctd _ _ => ctd
  | .mloop _ _ _ _ ctb _ _ _ _ c _ _ _ _ => if k = 2 * c then ctb else none
  | _ => none

/-- The record of a cause that a Cascade job met (R387): the unit is its core, `pos` its place in the window. -/
def CascJob.record (j : CascJob) (c : Crew) (cause : BitVec 8) (info pos : Nat) : JobFault :=
  let unit := c.core % Config.coresPerDie
  { cause := cause, pc := j.pc, word := j.word, src := BitVec.ofNat 16 (srcNo 1 c.die unit 0),
    info0 := BitVec.ofNat 64 info,
    info1 := match cause, j.op with
      | 0x31#8, .mcb slot _ => BitVec.ofNat 64 slot
      | _, _ => 0#64,
    info2 := BitVec.ofNat 64 (unit + 256 * pos), silent := false }

/-- Replace the job at a position. -/
def State.setCasc (s : State) (crew k : Nat) (j : CascJob) : State :=
  match s.crew? crew with
  | none => s
  | some c => s.setCrew { c with unit := { c.unit with jobs := c.unit.jobs.set k j } }

/-- `cascadeRead` (R221, R285): one region of the job at position `k` of a crew's window. A read step that meets a cause leaves
the reader count of its tile as it is (R288 does not say: the model's choice, log entry 60). After it the job reads no further
region, so a tile that it has not read is not consumed (R285 does not say: the same entry). -/
def execCascadeRead (crew k region : Nat) (s0 : State) : Out :=
  match s0.crew? crew with
  | none => .next s0
  | some c =>
    match c.unit.jobs[k]?, s0.launch? c.handle with
    | some j, some l =>
      if j.paused || j.fault.isSome || !j.op.regions.contains region || (j.codes region).isSome then .next s0
      else
        let (s, seed) := s0.draw
        match s.cascGet c l.ctx j region seed with
        | .ok xs =>
          let s1 := s.setCasc crew k { j with got := put j.got region xs, gotAt := put j.gotAt region s.stamp }
          (match (j.op.consumes region).bind (s.tile? l.ctx c.handle) with
           | some t => .next (s1.consume t)
           | none => .next s1)
        | .error .hold => .next s0
        | .error (.ok _) => .next s0
        | .error (.bad cause info) =>
          if cause = 0x10#8 then
            .next ((s.jobPause crew j.gid (j.record c cause info k)).setCasc crew k { j with paused := true, failAt := info })
          else
            .next ((s.jobRecord crew j.gid (j.record c cause info k)).setCasc crew k { j with fault := some cause, failAt := info })
    | _, _ => .next s0

/-- The exact value of an element datum (R286): its code's value times its `exp8` factor. -/
def datumVal (r : Rec) (scaled : Bool) (v : Nat) : Val :=
  let x := encVal ((encOf (recEnc r)).getD .f16) (v % 2 ^ 32)
  match x with
  | .fin n m e => if scaled then .fin n m (e + sextNat (v / 2 ^ 32) 8) else x
  | _ => x

/-- Addition to an accumulator with the events of R426. -/
def accAdd (acc y : Nat) : Nat × Ev :=
  let r := fp32.add FEnv.unit acc y
  (r.1, if fp32.isNan acc || fp32.isNan y then { r.2 with nan := 0 } else r.2)

/-- The exact sum of finite products: numerator over 2^-e. -/
def sumProducts (ps : List (Bool × Nat × Int)) : Int × Int :=
  let e := ps.foldl (fun m p => if p.2.2 < m then p.2.2 else m) 0
  (ps.foldl (fun z p => z + ((p.2.1 <<< (p.2.2 - e).toNat : Nat) : Int) * (if p.1 then -1 else 1)) 0, e)

/-- One K-step's contribution to an FP32 element (R147). -/
def stepFloat (ps : List (Val × Val)) : Nat × Ev :=
  let prods := ps.map (fun p => mulVal p.1 p.2)
  let inf := fun (n : Bool) => prods.any (fun p => p == some (.inf n))
  if prods.any (fun p => p.isNone || p == some .nan) || (inf true && inf false) then fp32.invalid
  else if inf true then (fp32.infBits true, Ev.zero)
  else if inf false then (fp32.infBits false, Ev.zero)
  else
    let z := sumProducts (prods.filterMap (fun p => match p with
      | some (.fin n m e) => some (n, m, e)
      | _ => none))
    fp32.round FEnv.unit (decide (z.1 < 0)) z.1.natAbs z.2 false

/-- One K-step added to an INT32 element (R147); where an `exp8` factor leaves a fraction the manual states no result,
and the element takes a value that is free but the same for the same accumulator and the same exact sum (R149; log entry
10). -/
def stepInt (acc : Word) (ps : List (Val × Val)) : Word × Ev :=
  let z := sumProducts ((ps.map (fun p => mulVal p.1 p.2)).filterMap (fun p => match p with
    | some (.fin n m e) => some (n, m, e)
    | _ => none))
  let sh := (-z.2).toNat
  if z.1 % (2 : Int) ^ sh = 0 then
    let r := clampEv (acc.toInt + z.1 / (2 : Int) ^ sh * (2 : Int) ^ z.2.toNat) (-2147483648) 2147483647
    (BitVec.ofInt 32 r.1, r.2)
  else
    let idx := acc.toNat + 2 ^ 32 * (z.1.natAbs * 2 + (if z.1 < 0 then 1 else 0)) * 2 ^ 16 + 2 ^ 32 * sh
    ((Config.free 33 idx).setWidth 32, Ev.zero)

/-- A tile of 4,096 elements with an element changed by a step that may count events. -/
structure TileEv where
  t  : Bank 32
  ev : Ev
  deriving DecidableEq, Repr

/-- All K-steps of a dense or attention job on its tile (R147, R289, R290). `av` and `bv` give element data. -/
def loopTile (t0 : Bank 32) (base c ks : Nat) (int : Bool) (attn : Option AttnRef) (mask : List Nat)
    (av : Nat → Nat → Nat → Val) (bv : Nat → Nat → Nat → Val) : TileEv :=
  let cols := match attn with
    | some a => a.cols c ks
    | none => 0
  let cell := fun (w : TileEv) (i jj : Nat) =>
    let key := base + 64 * i + jj
    let skipped := match attn with
      | some a => !a.value && !seenBit mask cols (i / 16) (jj / 16)
      | none => false
    if skipped then { w with t := w.t.set key 0xFF800000#32 }
    else
      (List.range c).foldl (fun w st =>
        let kk := (List.range ks).filter (fun k => match attn with
          | some a => !a.value || seenBit mask cols (i / 16) ((st * ks + k) / 16)
          | none => true)
        if kk.isEmpty then w
        else
          let ps := kk.map (fun k => (av st i k, bv st k jj))
          let old := w.t.get key
          if int then
            let r := stepInt old ps
            ⟨w.t.set key r.1, w.ev.plus r.2⟩
          else
            let y := stepFloat ps
            let r := accAdd old.toNat y.1
            ⟨w.t.set key (BitVec.ofNat 32 r.1), (w.ev.plus y.2).plus r.2⟩) w
  (List.range 64).foldl (fun w i => (List.range 64).foldl (fun w jj => cell w i jj) w) ⟨t0, Ev.zero⟩

/-- A block-fixed activation (R145): NF, the block exponent and the mantissas. -/
structure BlockFixed where
  nf : Bool
  e  : Int
  m  : List Int
  deriving DecidableEq, Repr

/-- The nearest integer to x / 2^E, ties to even. -/
def rnint (E : Int) (x : Val) : Int :=
  match x with
  | .fin n m e =>
    let k : Int := roundInt 0 n m (e - E)
    if n then -k else k
  | _ => 0

/-- floor(log2) of the largest magnitude; none when all are zero (R145). -/
def topBit (xs : List Val) : Option Int :=
  xs.foldl (fun a x => match x with
    | .fin _ m e =>
      if m = 0 then a
      else
        let t : Int := e + m.log2
        match a with
        | some b => some (if b < t then t else b)
        | none => some t
    | _ => a) none

/-- Conversion to block-fixed (R145). -/
def blockFixed (int8 : Bool) (xs : List Val) : BlockFixed :=
  let nf := xs.any (fun x => match x with
    | .fin _ _ _ => false
    | _ => true)
  let E : Int := if int8 then 0
    else
      match topBit xs with
      | none => -128
      | some t =>
        let e0 : Int := if t - 14 < -128 then -128 else t - 14
        if xs.any (fun x => (rnint e0 x).natAbs == 32768) then e0 + 1 else e0
  ⟨nf, E, xs.map (rnint E)⟩

/-- Fields of a codebook record (R121). -/
def cbLevels (v : Nat) : Nat := bits v 204 200
def cbExp (v : Nat) : Nat := bits v 199 192
def cbLevel (v j : Nat) : Int := sextNat (bits v (12 * j + 11) (12 * j)) 12

/-- Whether a codebook entry is one that `mcb` accepts (R294). -/
def cbOk (v : Nat) : Bool :=
  let n := cbLevels v
  bits v 255 205 == 0 && decide (1 ≤ n) && decide (n ≤ 16)
    && (List.range (n - 1)).all (fun j => decide (cbLevel v j < cbLevel v (j + 1)))

/-- FMT of a weight format (R291). -/
def fmtNo : Enc → Nat
  | .k4 => 1
  | .k3 => 2
  | .k2 => 3
  | _ => 0

/-- The level index of a code; none when it is reserved (R292). -/
def levelIdx (enc : Enc) (nlev code : Nat) : Option Nat :=
  if enc = .tern then (if code = 3 then some 0 else if code = 0 then some 1 else if code = 1 then some 2 else none)
  else if code < nlev then some code else none

/-- `msort` of one weight group (R293): the entry and the number of reserved codes. -/
def sortEntry (enc : Enc) (nlev cb gexp : Nat) (codes : List Nat) : BitVec 512 × Nat :=
  let idx := codes.map (levelIdx enc nlev)
  let at_ := fun (j : Option Nat) => (List.range 64).filter (fun k => (idx[k]?).getD none == j)
  let good := (List.range 16).flatMap (fun j => at_ (some j))
  let bad := at_ none
  let cnt := (List.range 16).map (fun j => (((List.range (j + 1)).map (fun i => (at_ (some i)).length)).foldl (· + ·) 0))
  let pos := (good ++ bad).zipIdx.foldl (fun v e => v + e.1 * 2 ^ (6 * e.2)) 0
  let cts := cnt.zipIdx.foldl (fun v e => v + e.1 * 2 ^ (384 + 7 * e.2)) 0
  (BitVec.ofNat 512 (pos + cts + (gexp % 256) * 2 ^ 496 + cb * 2 ^ 504 + fmtNo enc * 2 ^ 508
    + (if good.length < 64 then 2 ^ 510 else 0)), bad.length)

/-- Fields of a permutation-table entry (R291). -/
def entRsv (p : Nat) : Bool := p.testBit 510
def entFmt (p : Nat) : Nat := bits p 509 508
def entCb (p : Nat) : Nat := bits p 507 504
def entG (p : Nat) : Int := sextNat (bits p 503 496) 8
def entCnt (p j : Nat) : Nat := bits p (384 + 7 * j + 6) (384 + 7 * j)
def entPos (p k : Nat) : Nat := bits p (6 * k + 5) (6 * k)

/-- Summation by parts for one row (R295, R428): the exact 48-bit result. -/
def partsSum (p n : Nat) (lev : Nat → Int) (m : List Int) : Int :=
  let s := fun (c : Nat) => (List.range c).foldl (fun z k => z + (m[entPos p k]?).getD 0) 0
  if n = 0 then 0
  else lev (n - 1) * s (entCnt p (n - 1))
    - (List.range (n - 1)).foldl (fun z j => z + (lev (j + 1) - lev j) * s (entCnt p j)) 0

/-- What one row of `mparts` gives (R295, R148): the wide sum, the value to add, and its events. -/
def partsRow (p cbv : Nat) (b : BlockFixed) : Int × Nat × Ev :=
  let tern := entFmt p = 0
  let n := if tern then 3 else Nat.min 16 (cbLevels cbv)
  let lev := fun (j : Nat) => if tern then (j : Int) - 1 else cbLevel cbv j
  let w := partsSum p n lev b.m
  if entRsv p || n == 0 then (0, fp32.canon, Ev.zero)
  else if b.nf then (w, fp32.canon, Ev.ofNan)
  else
    let ex : Int := (if tern then 0 else (cbExp cbv : Int) - 127) + entG p + b.e
    let y := fp32.round FEnv.unit (decide (w < 0)) w.natAbs ex false
    (w, y.1, y.2)

/-- The bytes of a region that its read reads, for R223: whether each span lies in the crew's space, its address space (a
context, or a tile under 65,536 + handle), its start and its length. -/
def CascJob.spans (j : CascJob) (ctx k : Nat) : List (Bool × Nat × Nat × Nat) :=
  let bitsAt := fun (off w : Nat) => (true, 0, (bitSpan off w).1, (bitSpan off w).2)
  let code := fun (q : RecRef) (e : Nat) => match recOff q.r e with
    | some off => [(false, ctx, recBase q.r + (bitSpan off (recWidth q.r)).1, (bitSpan off (recWidth q.r)).2)]
    | none => []
  let inMem := fun (q : RecRef) (e : Nat) =>
    code q e ++ (if recSmode q.r = 1 then [(false, ctx, recScale q.r + e / 2 ^ recGsize q.r, 1)] else [])
  match j.op with
  | .mcb _ addr => [(false, ctx, addr, 32)]
  | .msort g0 n _ _ ctd off q =>
    (if noGroupExp q.r then [] else [(false, ctx, recScale q.r + g0, n)]) ++
      (match ctd with
       | some h => [(false, 65536 + h, off, n * 8 * recWidth q.r)]
       | none => (List.range (64 * n)).flatMap (fun i => code q (64 * g0 + i)))
  | .mparts _ _ sp e0 pitch _ _ _ q =>
    (List.range 64).flatMap (fun i =>
      let e := e0 + k * pitch + i
      if sp then [bitsAt (e * recWidth q.r) (recWidth q.r)] else inMem q e)
  | .mloop _ _ spa spb ctb a0 ai b0 bi c off ra rb attn =>
    if k = 2 * c then
      (match attn, ctb with
       | some t, _ =>
         let cols := t.cols c (kStep ra.r rb.r)
         (List.range (4 * cols)).filterMap (fun n =>
           (maskOff t.mask.r (t.qo / 16 + n / cols) (t.ko / 16 + n % cols)).map (fun off => (false, ctx, recBase t.mask.r + off, 1)))
       | none, _ => [])
    else
      let q := if k % 2 = 0 then ra else rb
      let sp := if k % 2 = 0 then spa else spb
      let live := fun (n : Nat) => panelLive attn ((j.codes (2 * c)).getD []) c (kStep ra.r rb.r) k n
      (((panelElems a0 ai b0 bi ra.r rb.r k).zipIdx.filter (fun e => sp || live e.2)).map (·.1)).flatMap (fun e =>
        if sp then [bitsAt (e * recWidth q.r) (recWidth q.r)]
        else
          match (if k % 2 = 1 then ctb else none) with
          | some h =>
            (false, 65536 + h, (bitSpan (8 * off + e * recWidth q.r) (recWidth q.r)).1,
             (bitSpan (8 * off + e * recWidth q.r) (recWidth q.r)).2)
              :: (if recSmode q.r = 1 then [(false, ctx, recScale q.r + e / 2 ^ recGsize q.r, 1)] else [])
          | none => inMem q e)
  | .eprun _ _ _ cfg _ =>
    let v := cfg.toNat
    [(true, 0, if k = 0 then bits v 51 32 else bits v 71 52,
      4 * (if k = 0 ∧ bits v 8 7 = 2 then bits v 31 26 + 1 else bits v 25 20 + 1))]
  | _ => []

/-- The region whose read step reads the part of region `k` in a space: a loop reads its tile once, as region 2c (R310). -/
def CascJob.readOf (j : CascJob) (sp k : Nat) : Nat :=
  match j.op with
  | .mloop _ _ _ _ _ _ _ _ _ c _ _ _ _ => if 65536 ≤ sp then 2 * c else k
  | _ => k

/-- Whether a store made a job's read of a region undefined (R223): one to the crew's space between the job's issue and now;
one to memory or a counted tile between the issue and the read step, for a later one does not reach the job (R287; log
entry 54). -/
def State.torn (s : State) (c : Crew) (j : CascJob) (ctx k : Nat) : Bool :=
  (j.spans ctx k).any (fun (scr, sp, a, n) =>
    if scr then c.past.any (fun p => decide (j.issued ≤ p.stamp) && overlaps a n p.addr 1)
    else s.storedBetween sp a n j.issued ((lookup j.gotAt (j.readOf sp k)).getD s.stamp))

/-- The data of a region at completion: what was read, or undefined data where the region, or the mask that decides
what is fetched, was stored to (R223). -/
def State.cascData (s : State) (c : Crew) (j : CascJob) (ctx seed k : Nat) : List Nat :=
  let xs := (j.codes k).getD []
  let masked := match j.op with
    | .mloop _ _ _ _ _ _ _ _ _ n _ _ _ (some _) => s.torn c j ctx (2 * n)
    | _ => false
  if s.torn c j ctx k || masked then
    xs.zipIdx.map (fun e => match j.op with
      | .mcb _ _ => (Config.free 256 (seed * 2 ^ 40 + e.2)).toNat
      | _ => (Config.free 40 (seed * 2 ^ 40 + k * 2 ^ 20 + e.2)).toNat)
  else xs

/-- The effect of a job on the unit at its completion, its statistics (tensor and events), and a cause found only then.
A job that met a fault changes no table and accumulates nothing (R285). -/
structure Effect where
  u      : CascUnit
  tensor : Nat
  ev     : Ev
  fault  : Option (BitVec 8)
  deriving DecidableEq, Repr

/-- What a job computes (R286 to R295). -/
def State.cascEffect (s : State) (c : Crew) (ctx : Nat) (j : CascJob) (seed : Nat) : Effect :=
  let u := c.unit
  let data := s.cascData c j ctx seed
  let ok := j.fault.isNone
  let opened := fun (opn int32 : Bool) =>
    if opn then { u.openHead int32 with ring := u.ring.clear (u.head * 4096) (u.head * 4096 + 4096) } else u
  let closed := fun (cls : Bool) (v : CascUnit) => if cls then v.closeHead else v
  match j.op with
  | .mcb slot _ =>
    let v := (data 0).headD 0
    if !ok then ⟨u, 0, Ev.zero, none⟩
    else if cbOk v then ⟨{ u with cbs := u.cbs.set slot (BitVec.ofNat 256 v) }, 0, Ev.zero, none⟩
    else ⟨u, 0, Ev.zero, some 0x31#8⟩
  | .msort _ n cb q _ _ rq =>
    let enc := (encOf (recEnc rq.r)).getD .tern
    let nlev := cbLevels (u.cbs.get cb).toNat
    let w := encBits enc
    if !ok then ⟨u, 0, Ev.zero, none⟩
    else
      let xs := data 0
      (List.range n).foldl (fun f t =>
        let codes := ((xs.drop (n + 64 * t)).take 64).map (fun v => v % 2 ^ w)
        let r := sortEntry enc nlev cb ((xs[t]?).getD 0) codes
        { f with u := { f.u with perm := f.u.perm.set (q + t) r.1, permT := put f.u.permT (q + t) (recTensor rq.r) },
                 ev := f.ev.plus ⟨0, 0, 0, r.2⟩ }) ⟨u, recTensor rq.r, Ev.zero, none⟩
  | .mparts opn cls _ _ _ col n q rq =>
    let u1 := opened opn false
    let p := (u1.perm.get q).toNat
    let cbv := (u1.cbs.get (entCb p)).toNat
    let tensor := (lookup u1.permT q).getD 0
    if !ok then ⟨closed cls u1, 0, Ev.zero, none⟩
    else
      let r := (List.range n).foldl (fun (f : Effect) r =>
        let vals := (data r).map (fun v => datumVal rq.r false (v % 2 ^ recWidth rq.r))
        let b := blockFixed (encOf (recEnc rq.r) == some .s8) vals
        let y := partsRow p cbv b
        let key := u1.head * 4096 + 64 * r + col
        let a := accAdd (f.u.ring.get key).toNat y.2.1
        { f with u := { f.u with ws := f.u.ws.set r (BitVec.ofInt 48 y.1), ring := f.u.ring.set key (BitVec.ofNat 32 a.1) },
                 ev := (f.ev.plus y.2.2).plus a.2 }) ⟨u1, tensor, Ev.zero, none⟩
      { r with u := closed cls r.u }
  | .mloop opn cls spa spb _ _ _ _ _ cnt _ ra rb attn =>
    let int := intPair ra.r rb.r
    let ks := kStep ra.r rb.r
    let u1 := opened opn int
    if !ok then ⟨closed cls u1, 0, Ev.zero, none⟩
    else
      let panels := (List.range (2 * cnt)).map (fun k => (data k))
      let at_ := fun (k n : Nat) => (((panels[k]?).getD [])[n]?).getD 0
      let fit := fun (q : Rec) (v : Nat) => v % 2 ^ recWidth q + v / 2 ^ 32 * 2 ^ 32
      let av := fun (st i k : Nat) => datumVal ra.r (recSmode ra.r == 1 && !spa) (fit ra.r (at_ (2 * st) (i * ks + k)))
      let bv := fun (st k i : Nat) => datumVal rb.r (recSmode rb.r == 1 && !spb) (fit rb.r (at_ (2 * st + 1) (k * 64 + i)))
      let mask := if attn.isSome then (data (2 * cnt)).map (fun v => v % 2) else []
      let t := loopTile u1.ring (u1.head * 4096) cnt ks int attn mask av bv
      ⟨closed cls { u1 with ring := t.t }, recTensor rb.r, t.ev, none⟩
  | _ => ⟨u.ringAfter j.op, 0, Ev.zero, none⟩

/-- Non-jobs that stand first act at once (R304). -/
def CascUnit.settle (u : CascUnit) : Nat → CascUnit
  | 0 => u
  | n + 1 =>
    match u.jobs with
    | j :: r => if j.op.isJob then u else CascUnit.settle { u.ringAfter j.op with jobs := r } n
    | [] => u

/-- Fields of the epilogue configuration (R299). -/
def epRows (v : Nat) : Nat := bits v 31 26 + 1
def epCols (v : Nat) : Nat := bits v 25 20 + 1
def epPitch (v : Nat) : Nat := if bits v 95 80 = 0 then epCols v else bits v 95 80
def epOrigin (v : Nat) : Nat := bits v 127 96
def epDsp (v : Nat) : Bool := v.testBit 11
def epScl (v : Nat) : Nat := bits v 8 7
def epBias (v : Nat) : Nat := bits v 10 9
def epAct (v : Nat) : Nat := bits v 1 0
def epDrec (v : Nat) : Nat := bits v 79 72

/-- The activations (R300). -/
def actVal (act y : Nat) : Nat × Ev :=
  if act = 0 then (y, Ev.zero)
  else if fp32.isNan y then fp32.nanOf FEnv.unit y
  else if act = 1 then (if fp32.neg y then 0 else y, Ev.zero)
  else if act = 2 then silu y
  else gelu y

/-- An FP32 value converted to a destination format by its value (R242, R300). -/
def epStore (enc : Enc) (y : Nat) : Nat × Ev :=
  let int := fun (lo hi : Int) (w : Nat) =>
    let r := cvtFI fp32 FEnv.unit lo hi y
    (wrapInt w r.1, r.2)
  match encFloat enc with
  | some _ => elemStore enc (BitVec.ofNat 32 y)
  | none =>
    match enc with
    | .s8 => int (-128) 127 8
    | .s4 => int (-8) 7 4
    | .n32 => int 0 4294967295 32
    | .n6 => int 0 63 6
    | _ => int (-2147483648) 2147483647 32

/-- One element of an `eprun` (R300): the code to store, with its events. -/
def epElem (v : Nat) (enc : Enc) (int32 : Bool) (a : Word) (scale bias : Nat) : Nat × Ev :=
  let pass := int32 && epScl v == 0 && epBias v == 0 && epAct v == 0
    && (enc == .s8 || enc == .s4 || enc == .s32 || enc == .n32)
  if pass then
    let r := elemStore enc a
    (r.1, r.2.once)
  else
    let y0 := if int32 then cvtIF fp32 FEnv.unit a.toInt else (a.toNat, Ev.zero)
    let y1 := if epScl v = 0 then (y0.1, Ev.zero) else fp32.mul FEnv.unit y0.1 scale
    let y2 := if epBias v = 0 then (y1.1, Ev.zero) else fp32.add FEnv.unit y1.1 bias
    let y3 := actVal (epAct v) y2.1
    let y4 := epStore enc y3.1
    (y4.1, ((((y0.2.plus y1.2).plus y2.2).plus y3.2).plus y4.2).once)

/-- Write the code of element number `n` of an `eprun` at its destination (R300, R301). An index past 2^32 - 1 ends the writing
with cause 0x11 (the manual gives it for operands only, R306: the model's choice, log entry 60). -/
def State.epPut (s : State) (c : Crew) (ctx : Nat) (j : CascJob) (v : Nat) (q : RecRef) (n code : Nat) : Met :=
  let k := n / epCols v * epPitch v + n % epCols v
  let w := recWidth q.r
  if epDsp v then
    let off := 8 * epOrigin v + k * w
    let sp := bitSpan off w
    .ok (s.scrWrite c.id j.gid sp.1 (bitPut (s.scrRead c.id j.gid sp.1 sp.2) (off % 8) w code) false)
  else if 2 ^ 32 ≤ epOrigin v + k then .bad 0x11#8 (epOrigin v + k)
  else s.engElemPut c.die ctx q.r q.ix (epOrigin v + k) code

/-- Consumers of ring tiles before position `k` of a window. -/
def consumersBefore (js : List CascJob) (k : Nat) : Nat :=
  ((js.take k).filter (fun j => match j.op with
    | .eprun _ _ _ _ _ => true
    | .pop => true
    | _ => false)).length

/-- `epilogueWrite` (R301): element number `n` of the `eprun` at position `k`, once its operands are read and its tile
is done. -/
def execEpilogueWrite (crew k n : Nat) (s : State) : Out :=
  match s.crew? crew with
  | none => .next s
  | some c =>
    match c.unit.jobs[k]?, s.launch? c.handle with
    | some j, some l =>
      (match j.op with
       | .eprun _ _ _ cfg q =>
         let v := cfg.toNat
         let before := consumersBefore c.unit.jobs k
         let slot := (c.unit.tail + before) % 8
         let ready := !j.paused && j.fault.isNone && j.op.regions.all (fun r => (j.codes r).isSome)
           && decide (n < epRows v * epCols v) && !j.wrote.contains n && decide (before < 8) && (c.unit.slot slot).st == 2
         if !ready then .next s
         else
           let r := n / epCols v
           let cl := n % epCols v
           let sc := (((j.codes 0).getD [])[if epScl v = 2 then r else cl]?).getD 0
           let bi := (((j.codes 1).getD [])[cl]?).getD 0
           let enc := (encOf (recEnc q.r)).getD .f32
           let e := epElem v enc (c.unit.slot slot).int32 (c.unit.ring.get (slot * 4096 + 64 * r + cl)) sc bi
           (match s.epPut c l.ctx j v q n e.1 with
            | .hold => .next s
            | .ok s1 => .next ((s1.count c.die l.ctx (recTensor q.r) e.2).setCasc crew k { j with wrote := n :: j.wrote })
            | .bad cause info =>
              if cause = 0x10#8 then
                .next ((s.jobPause crew j.gid (j.record c cause info k)).setCasc crew k { j with paused := true, failAt := info })
              else
                .next ((s.jobRecord crew j.gid (j.record c cause info k)).setCasc crew k { j with fault := some cause, failAt := info }))
       | _ => .next s)
    | _, _ => .next s

/-- Whether a job may complete in its turn (R205, R285, R301). -/
def CascJob.done (j : CascJob) : Bool :=
  !j.paused && (j.fault.isSome || (j.op.regions.all (fun r => (j.codes r).isSome) && (match j.op with
    | .eprun _ _ _ cfg _ => j.wrote.length == epRows cfg.toNat * epCols cfg.toNat
    | _ => true)))

/-- The elements an `eprun` wrote are undefined when its scale or bias vector was stored to (R223). -/
def State.epTorn (s : State) (c : Crew) (ctx : Nat) (j : CascJob) (seed : Nat) : State :=
  match j.op with
  | .eprun _ _ _ cfg q =>
    if j.op.regions.any (s.torn c j ctx) then
      j.wrote.foldl (fun s n => match s.epPut c ctx j cfg.toNat q n (Config.free (recWidth q.r) (seed * 2 ^ 40 + n)).toNat with
        | .ok s1 => s1
        | .hold => s.hold
        | .bad _ _ => s) s
    else s
  | _ => s

/-- The arrival action of an `eprun` (R314). -/
def State.epArrive (s : State) (crew : Nat) (op : CascOp) : State :=
  match op with
  | .eprun arv aw val cfg q =>
    s.arrival crew arv aw val (ceilDiv (epRows cfg.toNat * epCols cfg.toNat * recWidth q.r) 8)
  | _ => s

/-- `cascadeCompletion` (R222, R285, R301): the oldest job of a crew's window acts on the unit and leaves it; a cause it
met reaches its group. -/
def execCascadeCompletion (crew : Nat) (s0 : State) : Out :=
  match s0.crew? crew with
  | none => .next s0
  | some c =>
    match c.unit.jobs, s0.launch? c.handle with
    | j :: r, some l =>
      if !j.done then .next s0
      else
        let (s, seed) := s0.draw
        let f := s.cascEffect c l.ctx j seed
        let u := CascUnit.settle { f.u with jobs := r } r.length
        let s1 := s.epTorn c l.ctx j seed
        let s2 := match s1.crew? crew with
          | some c1 => s1.setCrew { c1 with unit := u }
          | none => s1
        let s3 := (s2.count c.die l.ctx f.tensor f.ev).epArrive crew j.op
        (match j.fault, f.fault with
         | some cause, _ => .next (s3.jobStop crew j.gid (j.record c cause j.failAt 0))
         | none, some cause =>
           .next (s3.jobFault crew j.gid (j.record c cause (match j.op with
             | .mcb _ a => a
             | _ => 0) 0))
         | none, none => .next s3)
    | _, _ => .next s0

end Sys2Proof.Machine
end

