-- ==== Sys2Proof/Machine/Control.lean ====
section
/-!
DEFINITION. Control flow (R173 to R179), the trailer that performs it (R70, R278), the division of a fragment (R37 to
R39), words that are no instruction (R81, R82) and the yield watchdog's overrun (R45).
-/

namespace Sys2Proof.Machine

/-- The end of a control transfer's own word: its trailer will perform `t` (R173). -/
def State.transfer (s : State) (x : Site) (dst : List Opd) (t : Xfer) : State :=
  s.finish { x with f := { x.f with xfer := some t } } dst

/-- The address that a signed count of instructions from a word names (R54). -/
def branchTarget (pc : Nat) (off : BitVec 16) : Nat := wrapInt 64 ((pc : Int) + 12 * off.toInt)

/-- `br` (R174): the guard is the condition of each thread of the fragment. -/
def execBr (h : Hdr) (off : BitVec 16) (rec : Option (BitVec 16)) (s : State) : Out :=
  s.atSite (fun x =>
    let taken := maskOf (fun i => x.f.mask.getLsbD i && x.g.guard h i)
    let ta := branchTarget x.f.pc off
    .next (s.transfer x [] (
      if taken = x.f.mask then .goto ta
      else if taken = 0#32 then .goto (x.f.pc + 24)
      else .split taken ta (x.f.pc + 24) (branchTarget x.f.pc (rec.getD 0#16)))))

/-- Whether a register-indirect transfer may go to an address (R54, R176). -/
def Site.mayGo (x : Site) (a : Nat) : Bool := decide (a < 2 ^ 56) && instrAddr x.l.desc.entry a

/-- A transfer to the address held in a pair (R176). -/
def State.indirect (s : State) (h : Hdr) (a : Opd) : Out :=
  s.uni h (fun x e =>
    let ta := (x.read64 s (lowest e) a).toNat
    if x.mayGo ta then .next (s.transfer x [] (.goto ta)) else .next (s.trap x (Trap.one 0x13#8 ta))) []

/-- `call` (R175): the target is read, and checked, before the link is written. -/
def execCall (h : Hdr) (d a : Opd) (s : State) : Out :=
  s.uni h (fun x e =>
    let ta := match a with
      | .si off => branchTarget x.f.pc off
      | o => (x.read64 s (lowest e) o).toNat
    let ok := match a with
      | .si _ => true
      | _ => x.mayGo ta
    if ok then
      let s1 := s.modGroup x.g.key (fun g => g.write64 true e d (fun _ => BitVec.ofNat 64 (x.f.pc + 24)))
      .next (s1.transfer x [d, opdNext d] (.goto ta))
    else .next (s.trap x (Trap.one 0x13#8 ta))) []

/-- `ret` (R175). -/
def execRet (h : Hdr) (a : Opd) (s : State) : Out := s.indirect h a

/-- `jmp` (R175). -/
def execJmp (h : Hdr) (a : Opd) (s : State) : Out := s.indirect h a

/-- `exit` (R177), which its trailer performs. -/
def execExit (h : Hdr) (s : State) : Out := s.uni h (fun x _ => .next (s.transfer x [] .exit)) []

/-- The fragments that the trailer of `f` leaves in its place (R37, R174); none after `exit`. -/
def Frag.leave (f : Frag) (splitNo : Nat) : List Frag :=
  let g := { f with pos := 0, tw := 0#8, xfer := none }
  match f.xfer with
  | none => [{ g with pc := f.pc + 12 }]
  | some (.goto a) => [{ g with pc := a }]
  | some (.split taken ta fa x) =>
    [{ g with mask := f.mask &&& taken, pc := ta, stack := (x, splitNo) :: f.stack },
     { g with mask := f.mask &&& ~~~ taken, pc := fa, stack := (x, splitNo) :: f.stack }]
  | some .exit => []

/-- The group after the trailer of the fragment whose lowest thread is `low`. -/
def Group.turn (g : Group) (low : Nat) (f : Frag) : Group :=
  let no := (g.splitNo + 1) % 2 ^ 16
  let g1 := { g with frags := g.frags.flatMap (fun y => if lowest y.mask == low then f.leave no else [y]) }
  match f.xfer with
  | some (.split _ _ _ _) => { g1 with splitNo := no }.spill (fun y => y.mask &&& f.mask != 0#32)
  | _ => g1

/-- Whether an outstanding write keeps a trailer waiting: it is of the fragment's run, and some register of it is not
named (R70). -/
def Pend.holds (p : Pend) (mask : Word) (named : List Opd) : Bool :=
  p.inRun && (p.frag &&& mask != 0#32) && !p.regs.all (fun r => named.contains r)

/-- `trail` (R70, R278): whatever its guard reads, it waits for its run's register writes, then closes the run and
performs the run's control transfer. -/
def execTrail (_h : Hdr) (regs : List Opd) (s : State) : Out :=
  s.atSite (fun x =>
    if x.g.out.any (fun p => p.holds x.f.mask regs) then .next s
    else
      let out := x.g.out.map (fun p => if p.frag &&& x.f.mask = 0#32 then p else { p with inRun := false })
      let g := { x.g with out := out }.turn (lowest x.f.mask) { x.counted with replay := none, due := false, owes := [], early := false }
      let s1 := s.setGroup g
      if g.all.isEmpty then .next (s1.endGroup g.key)
      else .next (s1.settle { x with g := g }))

/-- `illegalWord` (R81, R82): the word in `State.word` takes a decode trap, has no effect and does not count. -/
def execIllegalWord (cause : BitVec 8) (role : Bool) (s : State) : Out :=
  s.atSite (fun x => .next (s.stop x ⟨cause, 0#64, 0#64, 0#64, role⟩ 0#32 false x.f.pc))

/-- Whether the word that a site is about to issue would overrun the watchdog (R45). -/
def Site.overruns (x : Site) : Bool := decide (x.g.wdog < x.counted.count)

/-- `watchdogOverrun` (R45, R391): the word does not execute, and the group is killed. -/
def execWatchdogOverrun (s : State) : Out :=
  s.atSite (fun x => if x.overruns then .next (s.overrun x 0 0) else .next s)

/-- `fragmentReturn` (R39): the oldest fragment of the overflow store takes a free entry of the split table. -/
def execFragmentReturn (gk : Nat) (s : State) : Out :=
  match s.group? gk with
  | none => .next s
  | some g =>
    match g.spilled with
    | [] => .next s
    | f :: r =>
      if g.frags.length < 8 then .next (s.setGroup { g with frags := g.frags ++ [f], spilled := r }) else .next s

end Sys2Proof.Machine
end

