-- ==== Sys2Proof/Machine/Flags.lean ====
section
/-!
DEFINITION. Predicate results: the relations of `cmp`, `wait` and `fcmp` (R163, R271, R186), predicate logic (R164),
votes (R171). The machine has no arithmetic flags; the statistics events of R151 are in Num.lean.
-/

namespace Sys2Proof.Machine

/-- A relation between integers (R163); `un` and `ord` do not occur there. -/
def relInt (r : Rel) (x y : Int) : Bool :=
  match r with
  | .eq => x == y
  | .ne => x != y
  | .lt => decide (x < y)
  | .le => decide (x ≤ y)
  | .gt => decide (y < x)
  | .ge => decide (y ≤ x)
  | .un => false
  | .ord => false

/-- A relation between floating elements from their comparison (R186). -/
def relFloat (r : Rel) (c : Option Int) : Bool :=
  match c with
  | none => r == .ne || r == .un
  | some z => if r = .un then false else if r = .ord then true else relInt r z 0

/-- The value of a 32-bit word under `s32` or `n32` (R158). -/
def ityVal (ty : ITy) (w : Word) : Int :=
  match ty with
  | .s32 => w.toInt
  | .n32 => w.toNat

/-- `plog` (R164). -/
def plogVal (op : PlogOp) (a b : Bool) : Bool :=
  match op with
  | .and => a && b
  | .or => a || b
  | .xor => a != b
  | .not => !a

/-- `vote` over a voting set (R171). -/
def voteVal (op : VoteOp) (l : List Bool) : Bool :=
  match op with
  | .all => l.all id
  | .any => l.any id
  | .uni => l.all id || !l.any id

/-- A truth value as a register word. -/
def wordOf (b : Bool) : Word := if b then 1#32 else 0#32

end Sys2Proof.Machine
end

