-- ==== Sys2Proof/Machine/Cross.lean ====
section
/-!
DEFINITION. Instructions across the threads of a group (R168 to R172): moves, reductions, scans, votes, compression.
-/

namespace Sys2Proof.Machine

/-- The shift of a width-relative immediate, an immediate, or a register (R169). -/
def xmovShift (x : Site) (s : State) (i : Nat) (b : Opd) : Nat :=
  match b with
  | .ui v => if v.getLsbD 15 then Config.W >>> (v.toNat % 16) else v.toNat
  | o => (x.read s i o).toNat

/-- The source thread of `xmov` for thread `i` (R169). -/
def xmovSource (op : XmovOp) (i sh : Nat) : Nat :=
  match op with
  | .idx => sh % Config.W
  | .up => if sh ≤ i then i - sh else i
  | .down => if i + sh < Config.W then i + sh else i
  | .xor => if i ^^^ sh < Config.W then i ^^^ sh else i

/-- `xmov` (R168, R169); `xmov.idx` may write a group register once, if the mask is not empty. -/
def execXmov (h : Hdr) (op : XmovOp) (d a b : Opd) (s : State) : Out :=
  s.atSite (fun x =>
    let e := x.vmask h
    let f := fun i => x.read s (xmovSource op i (xmovShift x s i b)) a
    match d with
    | .g n => .next (s.commit x e [d] [a, b] (fun g =>
        if e = 0#32 then g else g.writeAll (.g n) (f (lowest e))))
    | _ => .next (s.commit x e [d] [a, b] (fun g => g.write false e d f)))

/-- One combination of `lsred` and `lscan`, with its events (R170). -/
def scanOp (op : ScanOp) (v : FEnv) (a b : Word) : Word × Ev :=
  let int := fun (lo : Bool) (ty : ITy) =>
    if lo then (if ityVal ty a ≤ ityVal ty b then a else b) else (if ityVal ty a ≤ ityVal ty b then b else a)
  let flt := fun (r : Nat × Ev) => (BitVec.ofNat 32 r.1, r.2)
  match op with
  | .iadd => (a + b, Ev.zero)
  | .fadd => flt (fp32.add v a.toNat b.toNat)
  | .smin => (int true .s32, Ev.zero)
  | .smax => (int false .s32, Ev.zero)
  | .nmin => (int true .n32, Ev.zero)
  | .nmax => (int false .n32, Ev.zero)
  | .fmin => flt (fp32.pick v true a.toNat b.toNat)
  | .fmax => flt (fp32.pick v false a.toNat b.toNat)
  | .and => (a &&& b, Ev.zero)
  | .or => (a ||| b, Ev.zero)
  | .xor => (a ^^^ b, Ev.zero)

/-- The empty result (R170). -/
def scanEmpty (op : ScanOp) : Word :=
  match op with
  | .iadd => 0#32
  | .fadd => 0#32
  | .smin => 0x7FFFFFFF#32
  | .smax => 0x80000000#32
  | .nmin => 0xFFFFFFFF#32
  | .nmax => 0#32
  | .fmin => 0x7FC00000#32
  | .fmax => 0x7FC00000#32
  | .and => 0xFFFFFFFF#32
  | .or => 0#32
  | .xor => 0#32

/-- Whether a combination is on floating values. -/
def scanFloat (op : ScanOp) : Bool := op == .fadd || op == .fmin || op == .fmax

/-- A thread's value in a reduction or scan, and whether it has been combined with another. -/
structure Part where
  w    : Word
  done : Bool
  deriving DecidableEq, Repr

/-- `comb` of R170, with the events of the operation. -/
def comb (op : ScanOp) (v : FEnv) (a b : Option Part) : Option Part × Ev :=
  match a, b with
  | none, y => (y, Ev.zero)
  | x, none => (x, Ev.zero)
  | some x, some y =>
    let r := scanOp op v x.w y.w
    (some ⟨r.1, true⟩, r.2)

/-- One level of the reduction tree: neighbours combine (R170). -/
def redLevel (op : ScanOp) (v : FEnv) : List (Option Part) → List (Option Part) × Ev
  | a :: b :: r =>
    let c := comb op v a b
    let t := redLevel op v r
    (c.1 :: t.1, c.2.plus t.2)
  | l => (l, Ev.zero)

/-- The tree of `lsred` (R170): five levels for 32 threads. Every combination counts its events (log entry 51). -/
def redTree (op : ScanOp) (v : FEnv) : Nat → List (Option Part) → Option Part × Ev
  | 0, l => (l.headD none, Ev.zero)
  | k + 1, l =>
    let c := redLevel op v l
    let t := redTree op v k c.1
    (t.1, c.2.plus t.2)

/-- The steps of `lscan` (R170) with shifts s, 2s, …. Every combination counts its events, also at the position of a thread that
takes no part (log entry 51). -/
def scanSteps (op : ScanOp) (v : FEnv) : Nat → Nat → List (Option Part) → List (Option Part) × Ev
  | 0, _, l => (l, Ev.zero)
  | k + 1, sh, l =>
    let c := l.zipIdx.map (fun e => if e.2 < sh then (e.1, Ev.zero) else comb op v ((l[e.2 - sh]?).getD none) e.1)
    let t := scanSteps op v k (2 * sh) (c.map (·.1))
    (t.1, (Ev.sum (c.map (·.2))).plus t.2)

/-- A result that was never combined passes as an operand would, under a floating minor (R170). -/
def partResult (op : ScanOp) (v : FEnv) (p : Part) : Word × Ev :=
  if scanFloat op && !p.done then
    let r := fp32.pass v p.w.toNat
    (BitVec.ofNat 32 r.1, r.2)
  else (p.w, Ev.zero)

/-- The mode of a reduction: MOD for `fadd`, sr.fpmode for `fmin` and `fmax` (R170). -/
def scanEnv (x : Site) (op : ScanOp) (m : FMod) : FEnv :=
  if op = .fadd then FEnv.resolve x.g.fpmode m false else FEnv.ofMode x.g.fpmode

/-- The values of the threads of a mask, none elsewhere. -/
def partsOf (x : Site) (s : State) (e : Word) (a : Opd) : List (Option Part) :=
  (List.range Config.W).map (fun i => if e.getLsbD i then some ⟨x.read s i a, false⟩ else none)

/-- Whether a guard is the never guard (R63). -/
def neverGuard (h : Hdr) : Bool := h.neg && h.prd == 0#3

/-- `lsred` (R170): a group register D is written also when the mask is empty, but not under the never guard (R155). -/
def execLsred (h : Hdr) (op : ScanOp) (m : FMod) (d a : Opd) (s : State) : Out :=
  s.atSite (fun x =>
    let e := x.vmask h
    let v := scanEnv x op m
    let t := redTree op v 5 (partsOf x s e a)
    let r := match t.1 with
      | some p => partResult op v p
      | none => (scanEmpty op, Ev.zero)
    let s1 := s.count x.c.die x.ctx 0 (if e = 0#32 then Ev.zero else t.2.plus r.2)
    .next (s1.commit x e [d] [a] (fun g =>
      match d with
      | .g n => if neverGuard h then g else g.writeAll (.g n) r.1
      | _ => g.write false e d (fun _ => r.1))))

/-- `lscan` (R170). -/
def execLscan (h : Hdr) (op : ScanOp) (m : FMod) (d a : Opd) (s : State) : Out :=
  s.atSite (fun x =>
    let e := x.vmask h
    let v := scanEnv x op m
    let t := scanSteps op v 5 1 (partsOf x s e a)
    let r := fun i => match (t.1[i]?).getD none with
      | some p => partResult op v p
      | none => (0#32, Ev.zero)
    let s1 := s.count x.c.die x.ctx 0 (t.2.plus (Ev.sum ((lanes e).map (fun i => (r i).2))))
    .next (s1.commit x e [d] [a] (fun g => g.write false e d (fun i => (r i).1))))

/-- `vote` (R171), over the issuing fragment's mask. -/
def execVote (h : Hdr) (op : VoteOp) (d a : Opd) (s : State) : Out :=
  s.alu h d [a] (fun x _ => wordOf (voteVal op ((lanes x.f.mask).map (fun i => x.read s i a != 0#32))))

/-- `ballot` (R171). -/
def execBallot (h : Hdr) (d a : Opd) (b : Option Opd) (s : State) : Out :=
  s.alu h d [a] (fun x _ =>
    let k := match b with
      | some (.ui v) => v.toNat
      | _ => 0
    maskOf (fun i => x.f.mask.getLsbD (32 * k + i) && (x.read s (32 * k + i) a != 0#32)))

/-- `cmprs` (R172). -/
def execCmprs (h : Hdr) (d a b : Opd) (s : State) : Out :=
  s.atSite (fun x =>
    let e := x.vmask h
    let sel := (lanes e).filter (fun i => x.read s i b != 0#32)
    .next (s.commit x e [d] [a, b] (fun g =>
      ((lanes e).zip sel).foldl (fun g y => g.writeAt y.1 d (x.read s y.2 a)) g)))

/-- `expnd` (R172). -/
def execExpnd (h : Hdr) (d a b : Opd) (s : State) : Out :=
  s.atSite (fun x =>
    let e := x.vmask h
    let sel := (lanes e).filter (fun i => x.read s i b != 0#32)
    .next (s.commit x e [d] [a, b] (fun g =>
      (sel.zip (lanes e)).foldl (fun g y => g.writeAt y.1 d (x.read s y.2 a)) g)))

end Sys2Proof.Machine
end

