-- ==== Sys2Proof/Machine/Decv.lean ====
section
/-!
DEFINITION. Stream decode: `decv` (R195 to R198).
-/

namespace Sys2Proof.Machine

/-- Whether a byte of a crew's space lies in the destination of an `eprun` that is not complete (R301). -/
def CascJob.writes (j : CascJob) (a : Nat) : Bool :=
  match j.op with
  | .eprun _ _ _ cfg q =>
    let v := cfg.toNat
    let w := recWidth q.r
    epDsp v && (List.range (epRows v * epCols v)).any (fun n =>
      let sp := bitSpan (8 * epOrigin v + (n / epCols v * epPitch v + n % epCols v) * w) w
      decide (sp.1 ≤ a) && decide (a < sp.1 + sp.2))
  | _ => false

/-- Bytes as they stand for a die's engines, whether or not their page may be reached now: a migration changes no value
(R202, R403). -/
def State.beneath (s : State) (die ctx va n : Nat) : Option (List Byte) :=
  (List.range n).mapM (fun i => match s.line? (.die die) ctx ((va + i) / 128) with
    | some x => some (lineByte x.value ((va + i) % 128))
    | none => (keyOf s ctx (va + i)).map (memGet s.mem))

/-- The bytes that a stream job whose index entry is still to be read will write, as the entry now stands (R263): none where
it would stop the job; 4,096, the most, where it has no translation. -/
def State.streamSpan (s : State) (e : Nat) (j : Job) (r : Rec) (idx chunk : Nat) : Nat :=
  match s.streamStep (dieOfEngine e) j r idx chunk with
  | .ok j1 => j1.len
  | .error (.hold, _) =>
    (match s.beneath (dieOfEngine e) j.ctx (recSidx r + 8 * chunk) 8 with
     | none => 4096
     | some xs =>
       match s.streamTake j r idx (leNat xs) with
       | .ok j1 => j1.len
       | .error _ => 0)
  | .error _ => 0

/-- Whether a byte of a crew's space lies in the destination of a copy job or an `eprun` that is not complete (R198). -/
def State.scrOpen (s : State) (crew a : Nat) : Bool :=
  (match s.crew? crew with
   | some c => c.unit.jobs.any (fun j => j.writes a)
   | none => false) || s.engines.any (fun e => e.jobs.any (fun j => j.crew == crew && (match j.kind, j.dst with
    | .gather x, _ => (decide (x.koff ≤ a) && decide (a < x.koff + j.len)) || (decide (x.voff ≤ a) && decide (a < x.voff + j.len))
    | .stream r idx chunk, .scr b => decide (b ≤ a) && decide (a < b + s.streamSpan e.id j r idx chunk)
    | _, .scr b => decide (b ≤ a) && decide (a < b + j.len)
    | _, .packed r b => decide (b ≤ a) && decide (a < b + packedBytes j.len r)
    | _, _ => false)))

/-- A byte as `decv` reads it (R198): one that a job is still writing is undefined. -/
def State.decvByte (s : State) (x : Site) (seed a : Nat) : Byte :=
  if s.scrOpen x.c.id a then Config.free 8 (seed * 2 ^ 40 + a) else (s.scrRead x.c.id x.g.gid a 1).headD 0#8

/-- Zig-zag decoding (R195). -/
def unzig (z : Nat) : Int := if z % 2 = 0 then (z / 2 : Nat) else -((z / 2 : Nat) : Int) - 1

/-- The running values after each of the W deltas (R196). -/
def decvRun (payload k : Nat) (run : Word) : Nat → List Word
  | 0 => []
  | n + 1 =>
    let j := Config.W - (n + 1)
    let v := run + BitVec.ofInt 32 (unzig (payload >>> (k * j) % 2 ^ k))
    v :: decvRun payload k v n

/-- `decv` (R196, R197). -/
def execDecv (h : Hdr) (d a : Opd) (s : State) : Out :=
  s.atSite (fun x =>
    let e := x.vmask h
    if e = 0#32 then .next (s.finish x [d])
    else
      let p := (x.g.greg (opdGno a)).toNat
      if !x.inWindow p 1 then .next (s.trap x (Trap.one 0x12#8 p))
      else if s.scrPoison x.c.id p 1 then .next (s.trap x (Trap.one 0x14#8 p))
      else
        let (s1, seed) := s.draw
        let k := (s1.decvByte x seed p).toNat
        if 16 < k then
          .next (((s1.modGroup x.g.key (fun g => g.writeAll a 0xFFFFFFFF#32)).count x.c.die x.ctx 0 Ev.ofInv).finish x [d])
        else
          let n := Config.W * k / 8
          match (List.range n).find? (fun i => !x.inWindow (p + 1 + i) 1) with
          | some i => .next (s.trap x (Trap.one 0x12#8 (p + 1 + i)))
          | none =>
            if s.scrPoison x.c.id (p + 1) n then .next (s.trap x (Trap.one 0x14#8 (p + 1))) else
            let payload := leNat ((List.range n).map (fun i => s1.decvByte x seed (p + 1 + i)))
            let run := x.g.greg (opdGno a + 1)
            let vs := decvRun payload k run Config.W
            .next ((s1.modGroup x.g.key (fun g =>
              ((g.write false e d (fun i => (vs[i]?).getD run)).writeAll a (BitVec.ofNat 32 (p + 1 + n))).writeAll (opdNext a)
                (vs.getLastD run))).finish x [d]))

end Sys2Proof.Machine
end

