-- ==== Sys2Proof/Machine/Kv.lean ====
section
/-!
DEFINITION. KV frames, context maps and sharing (R317 to R334): `kvapp`, `pgshare`, `pgrel`, `extset`, `qclear`, and the
clone jobs. Each instruction is one function from the state to a new state or a reason to stop; on a stop nothing has
changed (R327).
-/

namespace Sys2Proof.Machine

/-- Why a group step of these instructions does not complete: a hold, a faulting access, or a trap. -/
inductive Halt where
  | hold
  | acc (cause : BitVec 8) (va : Nat)
  | trap (t : Trap)
  deriving DecidableEq, Repr

/-- A computation within one group step. -/
abbrev Try (α : Type) := Except Halt α

/-- Trap with one value. -/
def tryTrap {α : Type} (cause : BitVec 8) (i0 : Nat) : Try α := .error (.trap (Trap.one cause i0))

/-- Trap 0x11 with one value unless a condition holds. -/
def need (ok : Bool) (i0 : Nat) : Try Unit := if ok then .ok () else tryTrap 0x11#8 i0

/-- A COH load within a group step (R320). -/
def State.rd (s : State) (ctx va n : Nat) : Try Nat :=
  match s.cohRead ctx va n with
  | .ok xs => .ok (leNat xs)
  | .error (some c) => .error (.acc c va)
  | .error none => .error .hold

/-- A COH store within a group step (R320). -/
def State.wr (s : State) (ctx va n val : Nat) : Try State :=
  match s.cohKeys ctx va n with
  | .ok keys => .ok ((s.logOwn ctx va n).memWrite keys (leBytes n val))
  | .error (some c) => .error (.acc c va)
  | .error none => .error .hold

/-- A field of a number replaced. -/
def setBits (x hi lo val : Nat) : Nat := x - bits x hi lo * 2 ^ lo + (val % 2 ^ (hi + 1 - lo)) * 2 ^ lo

/-- A uniform instruction of R327: all of its reads, checks and writes in one step, or none of its effects. -/
def State.grpStep (s : State) (h : Hdr) (dst : List Opd) (k : Site → Word → Try Out) : Out :=
  s.uni h (fun x e =>
    match k x e with
    | .ok o => o
    | .error .hold => .next s
    | .error (.acc c va) => .next (s.conclude x [(lowest e, c, va)] dst)
    | .error (.trap t) => .next (s.trap x t)) dst

/-- A KV context record (R317), with its address. -/
structure KvCtx where
  at_    : Nat
  rot    : Nat
  mapv   : Nat
  ftab   : Nat
  fcnt   : Nat
  etab   : Nat
  ecnt   : Nat
  spare  : Nat
  spcnt  : Nat
  spcap  : Nat
  layers : Nat
  heads  : Nat
  hd     : Nat
  fmt    : Nat
  kexp   : Nat
  vexp   : Nat
  deriving DecidableEq, Repr

/-- The fields of a KV context record (R317). -/
def kvFields (at_ w : Nat) : KvCtx :=
  { at_ := at_, rot := bits w 511 456, mapv := bits w 447 392, ftab := bits w 383 328, fcnt := bits w 319 288,
    etab := bits w 287 232, ecnt := bits w 223 192, spare := bits w 191 136, spcnt := bits w 127 112,
    spcap := bits w 111 96, layers := bits w 95 80, heads := bits w 79 72, hd := bits w 71 64, fmt := bits w 63 62,
    kexp := bits w 55 48, vexp := bits w 47 40 }

/-- The checks of R318; the rotation table's alignment is that of R337. -/
def kvOk (w : Nat) : Bool :=
  let c := kvFields 0 w
  bits w 455 448 == 0 && bits w 391 384 == 0 && bits w 327 320 == 0 && bits w 231 224 == 0 && bits w 135 128 == 0
    && bits w 61 56 == 0 && bits w 39 0 == 0 && c.fmt != 3
    && c.rot % 16 == 0 && c.mapv % 16 == 0 && c.ftab % 16 == 0 && c.etab % 4 == 0 && c.spare % 4 == 0
    && decide (1 ≤ c.layers) && decide (c.layers ≤ 1024) && decide (1 ≤ c.heads) && decide (c.heads ≤ 128)
    && decide (2 ≤ c.hd) && decide (c.hd ≤ 128) && c.hd % 2 == 0 && decide (c.spcnt ≤ c.spcap)
    && (c.fmt == 2 || (c.kexp == 0 && c.vexp == 0))

/-- Read and check the record at an address taken from registers (R318, R327). -/
def State.kvCtx (s : State) (ctx a : Nat) : Try KvCtx := do
  if a % 64 ≠ 0 then .error (.acc 0x13#8 a)
  let w ← s.rd ctx a 64
  need (kvOk w) a
  .ok (kvFields a w)

/-- A frame entry (R319). -/
structure Frame where
  seg  : Nat
  refc : Nat
  fill : Nat
  q    : Bool
  fmt  : Nat
  kexp : Nat
  vexp : Nat
  data : Nat
  deriving DecidableEq, Repr

/-- The fields of a frame entry (R319). -/
def frameFields (w : Nat) : Frame :=
  { seg := bits w 127 96, refc := bits w 95 80, fill := bits w 79 75, q := w.testBit 74, fmt := bits w 73 72,
    kexp := bits w 71 64, vexp := bits w 63 56, data := bits w 55 0 }

/-- A frame entry as 16 bytes (R319). -/
def Frame.toNat (f : Frame) : Nat :=
  f.data + 2 ^ 56 * (f.vexp % 256) + 2 ^ 64 * (f.kexp % 256) + 2 ^ 72 * (f.fmt % 4) + (if f.q then 2 ^ 74 else 0)
    + 2 ^ 75 * (f.fill % 32) + 2 ^ 80 * (f.refc % 2 ^ 16) + 2 ^ 96 * (f.seg % 2 ^ 32)

/-- The checks of R319 on a frame entry. -/
def frameOk (f : Frame) : Bool :=
  decide (f.fill ≤ 16) && f.fmt != 3 && f.data % 8192 == 0 && (f.fmt == 2 || (f.kexp == 0 && f.vexp == 0))

/-- Read and check frame `f` of a frame table (R319). -/
def State.frame (s : State) (ctx : Nat) (c : KvCtx) (f : Nat) : Try Frame := do
  need (decide (f < c.fcnt)) f
  let w ← s.rd ctx (c.ftab + 16 * f) 16
  need (frameOk (frameFields w)) f
  .ok (frameFields w)

/-- The tables that an instruction uses: from then on a store by anything else to a page entry counts (R324, log entry 41). -/
def State.noteTab (s : State) (ctx : Nat) (c : KvCtx) : State :=
  let t : KvTab := ⟨ctx, c.etab, c.ecnt, c.ftab, c.fcnt⟩
  if s.kvTabs.contains t then s else { s with kvTabs := t :: s.kvTabs }

/-- Write frame `f` of a frame table. -/
def State.putFrame (s : State) (ctx : Nat) (c : KvCtx) (f : Nat) (x : Frame) : Try State :=
  (s.noteTab ctx c).wr ctx (c.ftab + 16 * f) 16 x.toNat

/-- Element bytes of a frame format (R320). -/
def fmtBytes (fmt : Nat) : Nat := if fmt = 2 then 1 else 2

/-- A page entry (R321). -/
structure PageEnt where
  valid : Bool
  cow   : Bool
  cln   : Bool
  frame : Nat
  deriving DecidableEq, Repr

/-- A page entry as a word (R321). -/
def PageEnt.toNat (e : PageEnt) : Nat :=
  e.frame % 2 ^ 29 + (if e.cln then 2 ^ 29 else 0) + (if e.cow then 2 ^ 30 else 0) + (if e.valid then 2 ^ 31 else 0)

/-- Read and check page entry `e` (R321). -/
def State.entry (s : State) (ctx : Nat) (c : KvCtx) (e : Nat) : Try PageEnt := do
  let w ← s.rd ctx (c.etab + 4 * e) 4
  let x : PageEnt := ⟨w.testBit 31, w.testBit 30, w.testBit 29, bits w 28 0⟩
  need (if x.valid then decide (x.frame < c.fcnt) else w == 0) e
  .ok x

/-- Write page entry `e`. -/
def State.putEntry (s : State) (ctx : Nat) (c : KvCtx) (e : Nat) (x : PageEnt) : Try State :=
  (s.noteTab ctx c).wr ctx (c.etab + 4 * e) 4 x.toNat

/-- An extent of a context map (R322). -/
structure Extent where
  seg    : Nat
  stride : Nat
  len    : Nat
  base   : Nat
  start  : Nat
  deriving DecidableEq, Repr

/-- An extent from its 16 bytes. -/
def extentOf (w : Nat) : Extent := ⟨bits w 127 96, bits w 95 80, bits w 79 64, bits w 63 32, bits w 31 0⟩

/-- An extent as 16 bytes. -/
def Extent.toNat (x : Extent) : Nat :=
  x.start % 2 ^ 32 + 2 ^ 32 * (x.base % 2 ^ 32) + 2 ^ 64 * (x.len % 2 ^ 16) + 2 ^ 80 * (x.stride % 2 ^ 16)
    + 2 ^ 96 * (x.seg % 2 ^ 32)

/-- A well-formed context map: its address, version, extents in use, and the 16-byte slots above them. -/
structure KvMap where
  at_  : Nat
  ver  : Nat
  ext  : List Extent
  rest : List Nat
  deriving DecidableEq, Repr

/-- Whether the extents in use keep R322. -/
def extentsOk : List Extent → Bool
  | [] => true
  | [x] => decide (1 ≤ x.len) && decide (x.start + 16 * x.len ≤ 2 ^ 32)
  | x :: y :: r => decide (1 ≤ x.len) && decide (x.start + 16 * x.len ≤ 2 ^ 32) && decide (x.start < y.start) && extentsOk (y :: r)

/-- Read a map, which must be well formed (R322, R327). -/
def State.kvMap (s : State) (ctx a : Nat) : Try KvMap := do
  if a % 16 ≠ 0 then .error (.acc 0x13#8 a)
  let w ← s.rd ctx a 528
  let n := bits w 39 32
  let slots := (List.range 32).map (fun k => bits w (128 * (k + 1) + 127) (128 * (k + 1)))
  let ext := (slots.take n).map extentOf
  need (decide (n ≤ 32) && bits w 127 40 == 0 && extentsOk ext) a
  .ok ⟨a, bits w 31 0, ext, slots.drop n⟩

/-- The 528 bytes of a map: 32 slots, the unused ones as `rest` holds them. -/
def KvMap.toNat (m : KvMap) : Nat :=
  (((m.ext.map Extent.toNat) ++ m.rest).take 32).zipIdx.foldl (fun w e => w + 2 ^ (128 * (e.2 + 1)) * e.1)
    (m.ver % 2 ^ 32 + 2 ^ 32 * m.ext.length)

/-- The slots that a change of a map writes (R333): from the place of its START on, to the last slot in use where the number
of extents changes; all of them where there is no START (`clr`). -/
def changedSlots (m n : KvMap) : Option Nat → Nat × Nat
  | none => (0, 32)
  | some st =>
    let k := (m.ext.filter (fun y => decide (y.start < st))).length
    (k, if n.ext.length = m.ext.length then k + 1 else Nat.max m.ext.length n.ext.length)

/-- Write what a change from `m` to `n` stores: the slots it writes, and NEXT where it sets it (R333). -/
def State.putMap (s : State) (ctx : Nat) (m n : KvMap) (start : Option Nat) : Try State := do
  let r := changedSlots m n start
  let s1 ← s.wr ctx (m.at_ + 16 + 16 * r.1) (16 * (r.2 - r.1)) (n.toNat >>> (128 * (r.1 + 1)))
  if start.isSome && n.ext.length == m.ext.length then .ok s1 else s1.wr ctx (m.at_ + 4) 1 n.ext.length

/-- Insert an extent in ascending order, replacing one of equal START (R333). -/
def insertExtent (x : Extent) : List Extent → List Extent
  | [] => [x]
  | y :: r => if x.start < y.start then x :: y :: r else if x.start = y.start then x :: r else y :: insertExtent x r

/-- A map with an extent inserted or replaced (R333), one unused slot fewer when it is new. -/
def KvMap.insert (m : KvMap) (x : Extent) : Try KvMap := do
  need (decide (1 ≤ x.len) && decide (x.start + 16 * x.len ≤ 2 ^ 32)) x.start
  let e := insertExtent x m.ext
  if 32 < e.length then tryTrap 0x29#8 m.at_
  .ok { m with ext := e, rest := if e.length = m.ext.length then m.rest else m.rest.drop 1 }

/-- A map with the extent of a START removed, and the freed slot zero (R333). -/
def KvMap.remove (m : KvMap) (start : Nat) : KvMap :=
  if m.ext.any (fun x => x.start == start) then
    { m with ext := m.ext.filter (fun x => x.start != start), rest := 0 :: m.rest }
  else m

/-- A resolved position: entry number and slot (R323). -/
structure Loc where
  entry : Nat
  slot  : Nat
  deriving DecidableEq, Repr

/-- R323. -/
def resolve (c : KvCtx) (m : KvMap) (p l h : Nat) : Try Loc := do
  match (m.ext.filter (fun x => decide (x.start ≤ p))).getLast? with
  | none => tryTrap 0x11#8 p
  | some x =>
    need (decide (p - x.start < 16 * x.len)) p
    need (decide (l < c.layers) && decide (h < c.heads)) p
    let e := x.base + (p - x.start) / 16 * x.stride + l * c.heads + h
    need (decide (e < c.ecnt)) e
    .ok ⟨e, (p - x.start) % 16⟩

/-- What `kvapp` found for one head. -/
structure Head where
  h     : Nat
  e     : Nat
  slot  : Nat
  ent   : PageEnt
  frame : Frame
  deriving DecidableEq, Repr

/-- Trap 0x28 of an instruction that reaches a quarantined frame (R391). -/
def quarantine {α : Type} (c : KvCtx) (l h frame p : Nat) : Try α :=
  .error (.trap ⟨0x28#8, BitVec.ofNat 64 c.at_, BitVec.ofNat 64 (l % 2 ^ 16 + 2 ^ 16 * h + 2 ^ 32 * frame),
    BitVec.ofNat 64 (p + 2 ^ 32 * p), false⟩)

/-- The checks of `kvapp` for one head (R328). -/
def State.appHead (s : State) (ctx : Nat) (c : KvCtx) (m : KvMap) (p l h : Nat) : Try Head := do
  let r ← resolve c m p l h
  let pe ← s.entry ctx c r.entry
  need pe.valid r.entry
  if pe.cln then .error .hold
  let f ← s.frame ctx c pe.frame
  if f.q then quarantine c l h pe.frame p
  need (r.slot == f.fill) p
  need (!(decide (1 < f.refc) && !pe.cow)) r.entry
  .ok ⟨h, r.entry, r.slot, pe, f⟩

/-- Whether an append must clone the frame first. -/
def Head.clones (q : Head) : Bool := q.ent.cow && decide (1 < q.frame.refc)

/-- Whether a list of frame indices has a repetition. -/
def repeated : List Nat → Bool
  | [] => false
  | x :: r => r.contains x || repeated r

/-- Whether a store reached the spare-frame list or SPCNT of a record while a clone of it is under way (R325). -/
def State.spareTorn (s : State) (ctx : Nat) (c : KvCtx) : Bool :=
  s.djobs.any (fun x => match x.kind with
    | .clone _ _ _ e _ => x.ctx == ctx && decide (c.etab ≤ e) && decide (e < c.etab + 4 * c.ecnt)
        && (s.foreignSince ctx c.spare (4 * c.spcap) x.issued || s.foreignSince ctx (c.at_ + 14) 2 x.issued)
    | _ => false)

/-- The place on the list from which a clone takes its frame: the last, or any while the choice is undefined (R325). -/
def State.sparePos (s : State) (ctx : Nat) (c : KvCtx) : Nat :=
  if s.spareTorn ctx c then Config.pick (s.free * 2 ^ 40 + c.spcnt) % c.spcnt else c.spcnt - 1

/-- The decision part of a clone (R325, R326): the spare frame is taken and the job starts. -/
def State.cloneOne (s0 : State) (x : Site) (at_ : Nat) (q : Head) : Try State := do
  let c ← s0.kvCtx x.ctx at_
  let n ← s0.rd x.ctx (c.spare + 4 * s0.sparePos x.ctx c) 4
  let s := s0.draw.1
  let t ← s.frame x.ctx c n
  need (t.refc == 0 && !t.q) n
  let s1 ← s.putFrame x.ctx c n { q.frame with seg := 0, refc := 1, q := false, data := t.data }
  let s2 ← s1.putFrame x.ctx c q.ent.frame { q.frame with refc := q.frame.refc - 1 }
  let s3 ← s2.putEntry x.ctx c q.e ⟨true, false, true, n⟩
  let s4 ← s3.wr x.ctx (c.at_ + 14) 2 (c.spcnt - 1)
  let name := frameName q.ent.frame
  let len := q.frame.fill * c.hd * fmtBytes q.frame.fmt
  .ok { s4 with
    pins := s4.pins ++ [⟨x.ctx, .clone x.g.key, name⟩],
    djobs := s4.djobs ++ [
      { die := x.c.die, kind := .clone q.frame.data t.data len (c.etab + 4 * q.e) name, crew := x.c.id, gid := x.g.gid,
        ctx := x.ctx, pc := x.f.pc, word := s.word, moved := [], left := 2 * len, paused := false, pauseAt := 0, issued := s.stamp }] }

/-- The append reads its source like an `lds` (R328, R421): a poisoned granule is met, at the first element that reads it. -/
def State.appPoison (s : State) (x : Site) (o n : Nat) : Try Unit :=
  match (List.range n).find? (fun k => s.scrPoison x.c.id (o + 4 * k) 4) with
  | some k => .error (.acc 0x14#8 (o + 4 * k))
  | none => .ok ()

/-- The FP32 source elements of `kvapp` from a scratchpad offset, in its range (R328). -/
def State.appSource (s : State) (x : Site) (o n : Nat) : Try (List Nat) := do
  if o % 4 ≠ 0 then tryTrap 0x13#8 o
  if !x.inWindow o (4 * n) then tryTrap 0x12#8 o
  .ok ((List.range n).map (fun k => leNat (s.scrRead x.c.id x.g.gid (o + 4 * k) 4)))

/-- An element converted to a frame's format (R329); `ex` is the exponent code of the row. -/
def toFrame (fmt ex w : Nat) : Nat × Ev :=
  if fmt = 0 then cvtFF fp32 bf16 FEnv.unit w
  else if fmt = 1 then cvtFF fp32 fp16 FEnv.unit w
  else
    match fp32.val w with
    | .fin n m e => e4m3.round FEnv.unit n m (e - sextNat ex 8) false
    | _ => cvtFF fp32 e4m3 FEnv.unit w

/-- One row of a frame written (R320, R329). -/
def State.putRow (s : State) (ctx : Nat) (f : Frame) (at_ ex : Nat) (xs : List Nat) : Try (State × Ev) := do
  let r := xs.map (toFrame f.fmt ex)
  let s1 ← s.wr ctx at_ (xs.length * fmtBytes f.fmt) (leNat (r.flatMap (fun e => leBytes (fmtBytes f.fmt) e.1)))
  .ok (s1, Ev.sum (r.map (·.2)))

/-- The writing part of `kvapp` for one head (R328). -/
def State.appWrite (x : Site) (c : KvCtx) (src : List Nat) (a : State × Ev) (q : Head) : Try (State × Ev) := do
  let s1 ← if q.ent.cow then a.1.putEntry x.ctx c q.e { q.ent with cow := false } else .ok a.1
  let es := fmtBytes q.frame.fmt
  let row := q.frame.data + q.slot * c.hd * es
  let k ← s1.putRow x.ctx q.frame row q.frame.kexp ((src.drop (q.h * c.hd)).take c.hd)
  let v ← k.1.putRow x.ctx q.frame (row + 4096) q.frame.vexp ((src.drop ((c.heads + q.h) * c.hd)).take c.hd)
  let s2 ← v.1.putFrame x.ctx c q.ent.frame { q.frame with fill := q.slot + 1 }
  .ok (s2, (a.2.plus k.2).plus v.2)

/-- The park of an append that clones (R328): the record marks the clone, and the word will be replayed. -/
def State.parkClone (s : State) (x : Site) (e : Word) (va : Nat) : State :=
  (s.park x va 0#32 true true).modGroup x.g.key (fun g =>
    match g.all.find? (fun f => lowest f.mask == lowest x.f.mask) with
    | some f => g.setFrag (lowest x.f.mask) { f with replay := some e }
    | none => g)

/-- `kvapp` (R328, R329). -/
def execKvapp (h : Hdr) (a b : Opd) (s : State) : Out :=
  s.grpStep h [] (fun x e => do
    let r := opdGno a
    let c ← s.kvCtx x.ctx (x.gpair r)
    let m ← s.kvMap x.ctx c.mapv
    let p := (x.g.greg (r + 2)).toNat
    let l := (x.g.greg (r + 3)).toNat
    let hs ← (List.range c.heads).mapM (s.appHead x.ctx c m p l)
    need (!repeated (hs.map (·.ent.frame))) p
    let src ← s.appSource x (x.read s (lowest e) b).toNat (2 * c.heads * c.hd)
    let cl := hs.filter Head.clones
    match cl with
    | q :: _ =>
      if c.spcnt < cl.length then
        .error (.trap ⟨0x2A#8, BitVec.ofNat 64 c.at_, BitVec.ofNat 64 q.e, 0#64, false⟩)
      let s1 ← cl.foldlM (fun s q => s.cloneOne x c.at_ q) s
      .ok (.next (s1.parkClone x e c.at_))
    | [] =>
      s.appPoison x (x.read s (lowest e) b).toNat (2 * c.heads * c.hd)
      let w ← hs.foldlM (State.appWrite x c src) (s, Ev.zero)
      .ok (.next ((w.1.count x.c.die x.ctx 0 w.2).finish x [])))

/-- The checks of `pgshare` for one pair of entries, giving the frame (R330). -/
def State.shareCheck (s : State) (ctx : Nat) (cs cd : KvCtx) (i j : Nat) : Try Nat := do
  let a ← s.entry ctx cs i
  let b ← s.entry ctx cd j
  need (a.valid && !b.valid) i
  if a.cln then .error .hold
  let f ← s.frame ctx cs a.frame
  if f.q then quarantine cs 0 0 a.frame 0
  .ok a.frame

/-- One frame shared by one more entry (R330). -/
def State.shareOne (ctx : Nat) (cs cd : KvCtx) (s : State) (t : Nat × Nat × Nat) : Try State := do
  let f ← s.frame ctx cs t.2.2
  need (decide (f.refc < 65535)) t.2.2
  let s1 ← s.putFrame ctx cs t.2.2 { f with refc := f.refc + 1 }
  let s2 ← s1.putEntry ctx cd t.2.1 ⟨true, true, false, t.2.2⟩
  let a ← s2.entry ctx cs t.1
  s2.putEntry ctx cs t.1 { a with cow := true }

/-- `pgshare` (R330). -/
def execPgshare (h : Hdr) (a : Opd) (s : State) : Out :=
  s.grpStep h [] (fun x _ => do
    let r := opdGno a
    let cs ← s.kvCtx x.ctx (x.gpair r)
    let cd ← s.kvCtx x.ctx (x.gpair (r + 2))
    let i := (x.g.greg (r + 4)).toNat
    let j := (x.g.greg (r + 5)).toNat
    let n := (x.g.greg (r + 6)).toNat
    need (cs.ftab == cd.ftab && x.g.greg (r + 7) == 0#32 && decide (1 ≤ n) && decide (n ≤ 65536)) n
    need (decide (i + n ≤ cs.ecnt) && decide (j + n ≤ cd.ecnt)) i
    need (!(cs.at_ == cd.at_ && overlaps i n j n)) i
    let fs ← (List.range n).mapM (fun k => (s.shareCheck x.ctx cs cd (i + k) (j + k)).map (fun f => (i + k, j + k, f)))
    let s1 ← fs.foldlM (State.shareOne x.ctx cs cd) s
    .ok (.next (s1.finish x [])))

/-- The frame a valid entry of a range names; a clone in progress holds (R331). -/
def State.relCheck (s : State) (ctx : Nat) (c : KvCtx) (e : Nat) : Try (Option Nat) := do
  let a ← s.entry ctx c e
  if a.valid then
    if a.cln then .error .hold
    .ok (some a.frame)
  else .ok none

/-- A reference count lowered by one. Below 0 it is one that another store has left undefined (R324). -/
def lowerRefc (seed f refc : Nat) : Nat :=
  if refc = 0 then (Config.free 16 (seed * 2 ^ 40 + f)).toNat else refc - 1

/-- One entry released (R331). -/
def State.relOne (ctx : Nat) (c : KvCtx) (seed : Nat) (s : State) (t : Nat × Nat) : Try State := do
  let f ← s.frame ctx c t.2
  let s1 ← s.putFrame ctx c t.2 { f with refc := lowerRefc seed t.2 f.refc }
  s1.putEntry ctx c t.1 ⟨false, false, false, 0⟩

/-- A reference count lowered `n` times. -/
def lowerBy (seed f : Nat) : Nat → Nat → Nat
  | 0, refc => refc
  | n + 1, refc => lowerBy seed f n (lowerRefc seed f refc)

/-- The frames of a list, ascending and without repetition, whose count falls to 0 when each naming lowers it (R331). -/
def State.unused (s : State) (ctx : Nat) (c : KvCtx) (seed : Nat) (fs : List Nat) : Try (List Nat) := do
  let l ← (sortBy (fun a b => a ≤ b) fs.eraseDups).mapM (fun f =>
    (s.frame ctx c f).map (fun x => (f, lowerBy seed f (fs.count f) x.refc)))
  .ok ((l.filter (fun e => e.2 == 0)).map (·.1))

/-- `pgrel` (R331, R332). -/
def execPgrel (h : Hdr) (a : Opd) (s0 : State) : Out :=
  s0.grpStep h [] (fun x _ => do
    let (s, seed) := s0.draw
    let r := opdGno a
    let c ← s.kvCtx x.ctx (x.gpair r)
    let i := (x.g.greg (r + 2)).toNat
    let n := (x.g.greg (r + 3)).toNat
    need (decide (1 ≤ n) && decide (n ≤ 65536) && decide (i + n ≤ c.ecnt)) n
    let all ← (List.range n).mapM (fun k => (s.relCheck x.ctx c (i + k)).map (fun f => f.map (fun f => (i + k, f))))
    let es := all.filterMap id
    let z := (← s.unused x.ctx c seed (es.map (·.2))).map frameName
    let wait := z.filter (fun f => s.pinned x.ctx f && !s.deferred.contains ⟨x.c.die, x.ctx, f⟩)
    if Config.deferredCap < (s.deferredOn x.c.die).length + wait.length then tryTrap 0x19#8 ((wait.headD 0#64).toNat)
    let s1 ← es.foldlM (State.relOne x.ctx c seed) s
    .ok (.next ((z.foldl (fun s f => (s.reclaimName x.c.die x.ctx f).1) s1).finish x [])))

/-- A change of the map at the pair A, at a START if it has one (R333); where there is no new map it has no effect. -/
def State.extChange (s : State) (h : Hdr) (a : Opd) (start : Site → Option Nat) (f : Site → KvMap → Try (Option KvMap)) : Out :=
  s.grpStep h [] (fun x _ => do
    let m ← s.kvMap x.ctx (x.gpair (opdGno a))
    let n ← f x m
    let s1 ← match n with
      | none => .ok s
      | some n => s.putMap x.ctx m n (start x)
    .ok (.next (s1.finish x [])))

/-- The extent that the block at register `b` describes (R333). -/
def Site.extentAt (x : Site) (b : Nat) : Extent :=
  let w := (x.g.greg (b + 2)).toNat
  ⟨(x.g.greg (b + 3)).toNat, bits w 31 16, bits w 15 0, (x.g.greg (b + 1)).toNat, (x.g.greg b).toNat⟩

/-- `extset` (R333): insert or replace. -/
def execExtset (h : Hdr) (a b : Opd) (s : State) : Out :=
  s.extChange h a (fun x => some (x.extentAt (opdGno b)).start) (fun x m => (m.insert (x.extentAt (opdGno b))).map some)

/-- `extset.rm` (R333): without a match it has no effect. -/
def execExtsetRm (h : Hdr) (a b : Opd) (s : State) : Out :=
  s.extChange h a (fun x => some (x.g.greg (opdGno b)).toNat) (fun x m =>
    let st := (x.g.greg (opdGno b)).toNat
    .ok (if m.ext.any (fun y => y.start == st) then some (m.remove st) else none))

/-- `extset.clr` (R333): no extents, and every slot zero. -/
def execExtsetClr (h : Hdr) (a : Opd) (s : State) : Out :=
  s.extChange h a (fun _ => none) (fun _ m => .ok (some { m with ext := [], rest := List.replicate 32 0 }))

/-- `qclear` (R334). -/
def execQclear (h : Hdr) (a b : Opd) (s : State) : Out :=
  s.grpStep h [] (fun x e => do
    let c ← s.kvCtx x.ctx (x.gpair (opdGno a))
    let n := (x.read s (lowest e) b).toNat
    let f ← s.frame x.ctx c n
    let s1 ← s.putFrame x.ctx c n { f with q := false }
    .ok (.next (s1.finish x [])))

/-- A device job by its die and its position in the list. -/
def State.djob? (s : State) (d j : Nat) : Option DevJob := (s.djobs[j]?).bind (fun x => if x.die == d then some x else none)

/-- Replace the device job at a position. -/
def State.setDjob (s : State) (j : Nat) (x : DevJob) : State := { s with djobs := s.djobs.set j x }

/-- The record of a cause that a device job met (R387, R388); which engine of the die works for it is open. -/
def DevJob.fault (x : DevJob) (s : State) (j : Nat) (cause : BitVec 8) (info : Nat) : JobFault :=
  let eng := Config.pick s.free % Config.enginesPerDie
  { cause := cause, pc := x.pc, word := x.word, src := BitVec.ofNat 16 (srcNo 3 x.die eng 0),
    info0 := BitVec.ofNat 64 info, info1 := 0#64, info2 := BitVec.ofNat 64 (eng + 256 * (j % 256)), silent := false }

/-- What follows a step of a device job: progress, a pause with its record (R326, R345), or the cause for its group. `flags`
are those of that cause's record (R387). -/
def State.devMet (s : State) (j : Nat) (x x1 : DevJob) (m : Met) (flags : Nat := flagJob) : State :=
  match m with
  | .ok s1 => s1.setDjob j x1
  | .hold => s
  | .bad c info =>
    let s1 := s.draw.1
    if c = 0x10#8 then (s1.jobPause x.crew x.gid (x.fault s j c info)).setDjob j { x with paused := true, pauseAt := info }
    else
      let s2 := match x.kind with
        | .compare _ _ _ _ _ =>
          { s1 with djobs := s1.djobs.eraseIdx j }.modGroup (x.crew * 32 + x.gid) (fun g =>
            match g.block with
            | some (.vfy _ _ _ _ _ _) => { g with block := none }
            | _ => g)
        | _ => s1.setDjob j { x with left := 0, paused := false }
      s2.jobFault x.crew x.gid (x.fault s j c info) flags

/-- A COH read by a device job. -/
def State.devRead (s : State) (ctx va n : Nat) : Except Met (List Byte) :=
  match s.cohRead ctx va n with
  | .ok xs => .ok xs
  | .error (some c) => .error (.bad c (s.badAt (.die 0) ⟨ctx, va, n, false, false, false, none⟩ c))
  | .error none => .error .hold

/-- The bytes of the clone chunk at an offset into the frame: a line or what is left of its rows (R217, R326). -/
def cloneChunk (keyLen off : Nat) : Nat :=
  let p := off % 4096
  if off % 128 = 0 ∧ off < 8192 ∧ p < keyLen then Nat.min 128 (keyLen - p) else 0

/-- One chunk of a clone (R326): COH to COH. -/
def State.cloneStep (s : State) (x : DevJob) (src dst n off : Nat) : Met :=
  match s.devRead x.ctx (src + off) n with
  | .error m => m
  | .ok xs =>
    match s.cohKeys x.ctx (dst + off) n with
    | .ok keys => .ok ((s.logOwn x.ctx (dst + off) n false).memWrite keys xs)
    | .error (some c) => .bad c (dst + off)
    | .error none => .hold

/-- The bytes of the migration chunk at an offset of its page (R403). -/
def migrateChunk (size off : Nat) : Nat := if off % 128 = 0 ∧ off < size then Nat.min 128 (size - off) else 0

/-- The package of a key above this package's own memory (R402); the host's keys stand above all of them. -/
def keyPkg (k : Nat) : Nat := k / 2 ^ 51 - 1

/-- What a device job meets at a physical key (R404, R415). -/
def State.keyMet (s : State) (k : Nat) : Option Met :=
  if k < 2 ^ 51 then (if stackFailed s k then some (.bad 0x14#8 k) else none)
  else if hostKey 0 ≤ k then (if s.sys.hostLost then some (.bad 0x14#8 k) else none)
  else if !s.sys.ready.getLsbD 29 then some .hold
  else if s.sys.lost.contains (keyPkg k) then some (.bad 0x14#8 k)
  else none

/-- Move a chunk of a page being migrated, by physical key (R403). A memory that cannot be reached, or a poisoned granule,
is met like in any copy (R404, R421). -/
def State.migrateStep (s : State) (src dst n off : Nat) : Met :=
  match (s.keyMet (src + off)).or (s.keyMet (dst + off)) with
  | some m => m
  | none =>
    match (List.range n).find? (fun i => s.poison.contains ((src + off + i) / 32)) with
    | some i => .bad 0x14#8 (src + off + i)
    | none => .ok (s.memWrite ((List.range n).map (fun i => dst + off + i)) (memBytes s.mem (src + off) n))

/-- A migration's copy that fails serves no group: its record is written with JOB, and the job ends (R262; log entry 31). -/
def State.migrateFails (s : State) (j : Nat) (x : DevJob) (cause : BitVec 8) (info : Nat) : State :=
  let f := x.fault s j cause info
  State.writeRecord { s.draw.1 with djobs := s.djobs.eraseIdx j } x.die (f.record s 0 0 0 flagJob)

/-- The bytes of the comparison chunk at an offset: up to the next line of either array (R217, R345). -/
def compareChunk (a b len off : Nat) : Nat :=
  if off < len ∧ (off = 0 ∨ (a + off) % 128 = 0 ∨ (b + off) % 128 = 0) then
    Nat.min (Nat.min (128 - (a + off) % 128) (128 - (b + off) % 128)) (len - off)
  else 0

/-- Whether a chunk of the two token arrays differs (R345). -/
def State.compareStep (s : State) (x : DevJob) (a b off n : Nat) : Except Met Bool :=
  match s.devRead x.ctx (a + off) n, s.devRead x.ctx (b + off) n with
  | .ok u, .ok w => .ok (u != w)
  | .error m, _ => .error m
  | _, .error m => .error m

/-- `deviceJobStep` (R217, R326, R345, R403): the chunk at an offset of a device job. -/
def execDeviceJobStep (d j off : Nat) (s : State) : Out :=
  match s.djob? d j with
  | none => .next s
  | some x =>
    if x.paused || x.left == 0 || x.moved.contains off then .next s
    else
      match x.kind with
      | .clone src dst len _ _ =>
        let n := cloneChunk len off
        if n = 0 then .next s
        else .next (s.devMet j x { x with moved := off :: x.moved, left := x.left - n } (s.cloneStep x src dst n off))
      | .migrate src dst size =>
        let n := migrateChunk size off
        if n = 0 then .next s
        else
          match s.migrateStep src dst n off with
          | .ok s1 => .next (s1.setDjob j { x with moved := off :: x.moved, left := x.left - n })
          | .hold => .next s
          | .bad c info => .next (s.migrateFails j x c info)
      | .compare rcd a b len bad =>
        let n := compareChunk a b len off
        if n = 0 then .next s
        else
          match s.compareStep x a b off n with
          | .error m => .next (s.devMet j x x m)
          | .ok differ =>
            .next (s.setDjob j { x with kind := .compare rcd a b len (bad || differ), moved := off :: x.moved, left := x.left - n })

/-- A group whose park waits for clones runs again once none of them is left (R328). -/
def State.endClonePark (s : State) (gk : Nat) : State :=
  s.modGroup gk (fun g =>
    match g.stat with
    | .parked _ true _ _ => if s.pins.any (fun p => p.by_ == .clone gk) then g else { g with stat := .run }
    | _ => g)

/-- CLN of a clone's page entry cleared (R326). -/
def State.cloneClear (s : State) (x : DevJob) (at_ : Nat) : Met :=
  match s.devRead x.ctx at_ 4, s.cohKeys x.ctx at_ 4 with
  | .error m, _ => m
  | .ok xs, .ok keys => .ok ((s.logOwn x.ctx at_ 4 false).memWrite keys (leBytes 4 (setBits (leNat xs) 29 29 0)))
  | .ok _, .error (some c) => .bad c at_
  | .ok _, .error none => .hold

/-- The end of a clone's job (R326, R328, R229): its pin goes, and its group's park may end. -/
def State.cloneEnd (s : State) (j : Nat) (x : DevJob) (name : DWord) : State :=
  (State.removePin { s with djobs := s.djobs.eraseIdx j } ⟨x.ctx, .clone (x.crew * 32 + x.gid), name⟩).endClonePark
    (x.crew * 32 + x.gid)

/-- `cloneCompletion` (R326, R328, R229). A translation fault of its store pauses it; any other cause ends it. -/
def execCloneCompletion (d j : Nat) (s : State) : Out :=
  match s.djob? d j with
  | none => .next s
  | some x =>
    match x.kind with
    | .clone _ _ _ at_ name =>
      if x.paused || x.left != 0 then .next s
      else
        match s.cloneClear x at_ with
        | .ok s1 => .next (s1.cloneEnd j x name)
        | .hold => .next s
        | .bad c info =>
          if c = 0x10#8 then .next (s.devMet j x x (.bad c info))
          else .next ((s.cloneEnd j x name).jobFault x.crew x.gid (x.fault s j c info))
    | _ => .next s

end Sys2Proof.Machine
end

