-- ==== Sys2Proof/Machine/Placement.lean ====
section
/-!
DEFINITION. What stopping and placing share: live-mask entries (R120, R129), queue bytes (R369), the conditions under
which a crew finds its place on a core (R32, R33, R283), and the crews that may be offered (R376 to R378, R383).
-/

namespace Sys2Proof.Machine

/-- A live-mask entry (R120). -/
structure LiveEnt where
  vmask : Word
  sbase : Nat
  slen  : Nat
  perm  : Bool
  ws    : Bool
  ring  : Bool
  deriving DecidableEq, Repr

/-- The entry that stands for a stopping instruction with none (R120): everything, and no Cascade state. -/
def LiveEnt.whole (l : Launch) : LiveEnt := ⟨allThreads, 0, l.desc.scratch, false, false, false⟩

/-- One entry of a launch's live-mask table; none where it cannot be read. What a store left undefined is free (R129). -/
def State.liveAt (s : State) (l : Launch) (k : Nat) : Option (Nat × LiveEnt) :=
  let a := l.image.lives + 24 * (l.desc.live0 + k)
  (s.cohNat? l.ctx a 24).map (fun e0 =>
    let e := if s.tableTorn l.handle a 24 then (Config.free 192 (s.free * 2 ^ 40 + k)).toNat else e0
    (bits e 63 0, ⟨BitVec.ofNat 32 (bits e 95 64), bits e 127 96, bits e 159 128, e.testBit 160, e.testBit 161, e.testBit 162⟩))

/-- A launch's live-mask table on the move holds the turn that reads it (R403). -/
def State.touchLives (s : State) (l : Launch) : State :=
  s.touchAll l.ctx ((List.range l.desc.liveCnt).map (fun k => (l.image.lives + 24 * (l.desc.live0 + k), 24)))

/-- The live-mask entry of a stopping instruction, as memory holds it now (R120, R129). -/
def State.liveEntry (s : State) (l : Launch) (pc : Nat) : LiveEnt :=
  match ((List.range l.desc.liveCnt).filterMap (s.liveAt l)).find? (fun e => e.1 == pc) with
  | some e => e.2
  | none => LiveEnt.whole l

/-- The byte of a launch's queue (R369); a byte that cannot be read, or has a reserved bit, is priority 0 with HOLD, and so
no crew of the launch is offered while the byte's page is on the move (R403). -/
def State.queueByte (s : State) (l : Launch) : Nat :=
  match s.ctx? l.ctx with
  | none => 0x80
  | some c =>
    match s.cohNat? l.ctx (c.qtab + l.queue) 1 with
    | none => 0x80
    | some b => if bits b 6 3 = 0 then b else 0x80

/-- A queue byte on the move holds the turn that reads it (R403). -/
def State.touchQueue (s : State) (l : Launch) : State :=
  match s.ctx? l.ctx with
  | none => s
  | some c => s.touch l.ctx (c.qtab + l.queue) 1

/-- A launch's queue priority (R369). -/
def State.queuePrio (s : State) (l : Launch) : Nat := s.queueByte l % 8

/-- Whether a launch's queue has HOLD (R369). -/
def State.queueHold (s : State) (l : Launch) : Bool := (s.queueByte l).testBit 7

/-- Areas of a split in KiB (R31, R116). -/
def splitR (w : Nat) : Nat := bits w 14 10
def splitS (w : Nat) : Nat := bits w 9 5
def splitL (w : Nat) : Nat := bits w 4 0

/-- Whether a split keeps the rules of R31. -/
def splitOk (w : Nat) : Bool := splitR w + splitS w + splitL w == 32 && decide (2 ≤ splitL w)

/-- A crew's scratchpad allocation in bytes (R32). -/
def scratchAlloc (scratch : Nat) : Nat := roundUp (scratch + 1024) 4096

/-- Whether a kernel's groups and crew fit the areas of a split at all (R27, R32). -/
def splitFits (w vregs scratch : Nat) : Bool :=
  decide (vregs * Config.W * 4 ≤ splitR w * 1024) && decide (scratchAlloc scratch ≤ splitS w * 32 * 1024)

/-- The role of a gid (R24). -/
def Launch.roleOf (l : Launch) (gid : Nat) : Nat :=
  ((l.roles.find? (fun r => decide (r.first ≤ gid) && decide (gid < r.first + r.count))).map (·.role)).getD 2

/-- The entry address of a gid's role (R24). -/
def Launch.entryOf (l : Launch) (gid : Nat) : Nat :=
  ((l.roles.find? (fun r => decide (r.first ≤ gid) && decide (gid < r.first + r.count))).map (·.entry)).getD l.desc.entry

/-- Whether a kernel's role table includes the matrix role (R283). -/
def Launch.matrix (l : Launch) : Bool := l.roles.any (fun r => r.role == 1)

/-- Crews resident on a core, one left out. -/
def State.resident (s : State) (core : Nat) (less : Option Nat) : List Crew :=
  s.crews.filter (fun c => c.stat == .resident && c.core == core && less != some c.id)

/-- A place on a lane (R33): lane, slot, first register block. -/
structure Seat where
  lane  : Nat
  slot  : Nat
  vbase : Nat
  deriving DecidableEq, Repr

/-- The first start at which `n` units fit between taken ranges (start, length), below `size`. R33 asks for a free run and
does not say which of several a crew takes: that it is the lowest is the model's choice (log entry 55). -/
def freeRun (size n : Nat) (taken : List (Nat × Nat)) : Option Nat :=
  (List.range (size + 1 - n)).find? (fun a => taken.all (fun t => decide (a + n ≤ t.1) || decide (t.1 + t.2 ≤ a)))

/-- What a lane holds: seats with their block counts. -/
abbrev Lane := List (Seat × Nat)

/-- The seat a group of `blocks` register blocks takes on a core (R33 condition 5). -/
def seatOn (taken : Lane) (rkib blocks : Nat) : Option Seat :=
  let cand := (List.range 32).filterMap (fun lane =>
    let here := taken.filter (fun t => t.1.lane == lane)
    if 8 ≤ here.length then none
    else
      match freeRun rkib blocks (here.map (fun t => (t.1.vbase, t.2))),
            (List.range 8).find? (fun k => !here.any (fun t => t.1.slot == k)) with
      | some b, some k => some (here.length, (⟨lane, k, b⟩ : Seat))
      | _, _ => none)
  match cand with
  | [] => none
  | c :: r => some (r.foldl (fun m y => if y.1 < m.1 then y else m) c).2

/-- Seats for `n` more groups, in ascending gid order. -/
def seatAll (rkib blocks : Nat) : Nat → Lane → Option (List Seat)
  | 0, _ => some []
  | n + 1, taken =>
    match seatOn taken rkib blocks with
    | none => none
    | some st => (seatAll rkib blocks n (taken ++ [(st, blocks)])).map (st :: ·)

/-- Where a crew stands on a core: its scratchpad base in bytes and its groups' seats by gid. -/
structure Spot where
  base  : Nat
  seats : List (Nat × Seat)
  deriving DecidableEq, Repr

/-- The split of a core for R33: that in force, or the kernel's on an empty core. -/
def State.splitAt (s : State) (core : Nat) (l : Launch) (less : Option Nat) : Nat :=
  if (s.resident core less).isEmpty then l.split else (s.core core).split

/-- R33, R283: the place of a crew with the given live gids on a core; none when a condition fails. -/
def State.spot? (s : State) (core : Nat) (l : Launch) (gids : List Nat) (less : Option Nat) : Option Spot :=
  let here := s.resident core less
  let split := s.splitAt core l less
  let k := s.core core
  if split ≠ l.split ∨ ((k.drain || k.splitDrain) && !here.isEmpty) ∨ 16 ≤ here.length ∨ (l.matrix && here.any (·.hasUnit)) then none
  else
    let taken := here.filterMap (fun c => (s.launch? c.handle).map (fun q => (c.base / 4096, scratchAlloc q.desc.scratch / 4096)))
    match freeRun (splitS split * 32 * 1024 / 4096) (scratchAlloc l.desc.scratch / 4096) taken with
    | none => none
    | some b =>
      let lanes := (s.groups.filter (fun g => g.live && here.any (fun c => c.id == g.crew))).filterMap (fun g =>
        ((s.crew? g.crew).bind (fun c => s.launch? c.handle)).map (fun q => ((⟨g.lane, g.slot, g.vbase⟩ : Seat), q.desc.vregs / 8)))
      (seatAll (splitR split) (l.desc.vregs / 8) gids.length lanes).map (fun st => ⟨b * 4096, gids.zip st⟩)

/-- Whether a die takes crews (R415, R418): die 0 after S0, another once its bit is set. -/
def State.dieReady (s : State) (d : Nat) : Bool := s.sys.ready.getLsbD (if d = 0 then 30 else 16 + d)

/-- The dies a launch's crews may take: context 0 lies on die 0 (R367). -/
def State.diesOf (s : State) (l : Launch) : List Nat := (if l.ctx = 0 then [0] else List.range 8).filter s.dieReady

/-- The cores a launch's crews may take. -/
def State.coresOf (s : State) (l : Launch) : List Nat :=
  (s.diesOf l).flatMap (fun d => (List.range Config.coresPerDie).map (fun c => d * Config.coresPerDie + c))

/-- The core a crew is offered (R377): on the die with the most cores that satisfy R33, its lowest; ties go to the
lowest die. The answer names the die, and the core where there is one. -/
def State.offer (s : State) (l : Launch) (gids : List Nat) : Nat × Option (Nat × Spot) :=
  let ok := (s.coresOf l).filterMap (fun c => (s.spot? c l gids none).map (fun p => (c, p)))
  let count := fun (d : Nat) => (ok.filter (fun e => e.1 / Config.coresPerDie == d)).length
  let die := (s.diesOf l).foldl (fun m d => if count m < count d then d else m) (((s.diesOf l).head?).getD 0)
  (die, ok.find? (fun e => e.1 / Config.coresPerDie == die))

/-- Live gids of a crew that is to be placed: all for a new crew, those not ended for a saved one. -/
def State.liveGids (s : State) (crew : Nat) : List Nat := ((s.groupsOf crew).filter Group.live).map (·.gid)

/-- Whether a launch meets every prerequisite and wait that names it (R374, R376, R384): it has ended, and its DONE word holds 1
or held 1 at its end; what the done area is used for later changes nothing. -/
def State.launchDone (s : State) (l : Launch) : Bool := l.met || (l.ended && s.cohNat? l.ctx l.done 4 == some 1)

/-- Whether a launch's prerequisites are met (R374, R376). -/
def State.prereqs (s : State) (l : Launch) : Bool := l.pre.all (fun h => ((s.launch? h).map s.launchDone).getD false)

/-- Whether a context's crews may be offered (R368, R377, R381): a valid entry with RUN; RUN of context 0 is ignored. -/
def State.mayOffer (s : State) (l : Launch) : Bool :=
  match s.ctx? l.ctx with
  | some c => (c.valid && c.run) || l.ctx == 0
  | none => false

/-- Whether the reason for a saved crew's departure has ended (R383). -/
def State.mayReturn (s : State) (c : Crew) : Bool :=
  match c.stat with
  | .saved .join => c.children == 0
  | .saved .switch => ((s.launch? c.handle).map s.mayOffer).getD false
  | .saved .prio => true
  | _ => false

/-- A crew that may be offered: a new one of its launch, or a saved one. `pos` is the order of acceptance. -/
structure Cand where
  handle : Nat
  lin    : Nat
  crew   : Option Nat
  prio   : Nat
  pos    : Nat
  deriving DecidableEq, Repr

/-- Crews of a launch. -/
def Launch.total (l : Launch) : Nat := l.cx * l.cy * l.cz

/-- The cores of a gang's unit: the narrowest level above `core`, `pod` counting as `pkg` (R378). -/
def gangCores (bars : List BarDecl) : Option Nat :=
  let l := (bars.filter (fun b => b.level != 0)).map (fun b => b.level)
  if l.contains 1 then some 4
  else if l.contains 2 then some 64
  else if l.isEmpty then none
  else some 512

/-- The cores of a launch's gang unit, if its crews are placed together (R378). -/
def Launch.gang (l : Launch) : Option Nat := gangCores l.bars

/-- Crews of `crew` groups that find lanes on an empty core one after another, at most `n`, beside what it holds (R33
condition 5). -/
def seatCrews (rkib blocks crew : Nat) : Nat → Lane → Nat
  | 0, _ => 0
  | n + 1, taken =>
    match seatAll rkib blocks crew taken with
    | none => 0
    | some st => 1 + seatCrews rkib blocks crew n (taken ++ st.map (fun t => (t, blocks)))

/-- The crews of a kernel that an empty core holds under a split (R33, R283). -/
def coreHolds (split : Nat) (d : Desc) (matrix : Bool) : Nat :=
  Nat.min (splitS split * 32 * 1024 / scratchAlloc d.scratch)
    (seatCrews (splitR split) (d.vregs / 8) d.crew (if matrix then 1 else 16) [])

/-- The crews of a launch that may be offered now (R376, R377, R383); a gang's saved crews only when all may return. -/
def State.launchCands (s : State) (l : Launch) (pos : Nat) : List Cand :=
  let p := s.queuePrio l
  let saved := s.crews.filter (fun c => c.handle == l.handle && (match c.stat with
    | .saved _ => true
    | _ => false))
  let back := if l.gang.isSome && !saved.all s.mayReturn then [] else saved.filter s.mayReturn
  if l.ended || !s.mayOffer l || s.queueHold l || !s.prereqs l then []
  else back.map (fun c => ⟨l.handle, c.lin, some c.id, p, pos⟩)
    ++ (if l.next < l.total then [⟨l.handle, l.next, none, p, pos⟩] else [])

/-- Every crew that may be offered now. -/
def State.cands (s : State) : List Cand := s.launches.zipIdx.flatMap (fun e => s.launchCands e.1 e.2)

/-- The live gids of an offered crew. -/
def State.candGids (s : State) (l : Launch) (q : Cand) : List Nat :=
  match q.crew with
  | some c => s.liveGids c
  | none => List.range l.desc.crew

end Sys2Proof.Machine
end

