-- ==== Sys2Proof/Machine/SyncInstr.lean ====
section
/-!
DEFINITION. Synchronisation: barriers (R265 to R270), waits (R44, R271 to R273), arrival words and stage rings (R274 to
R277), yield (R45, R73, R279), regroup (R42, R43, R280) and join (R49, R282).
-/

namespace Sys2Proof.Machine

/-- A whole-group point with a guard (R41, R264): the fragments gather whatever the guard reads; the guard is read at
the lowest thread of the fragment they fuse into. -/
def State.meet (s : State) (h : Hdr) (dst : List Opd) (k : State → Site → Word → Out) : Out :=
  s.atSite (fun x0 => s.atPoint x0 (fun s1 x =>
    let e := x.umask h
    if e = 0#32 then .next (s1.finish x dst) else k s1 x e))

/-- The number of a barrier level (R265). -/
def levelNo : BarLvl → Nat
  | .core => 0
  | .quad => 1
  | .die => 2
  | .pkg => 3
  | .pod => 4

/-- The instance of a barrier that the issuing group may use; otherwise trap 0x21 (R266). -/
def State.withBar (s : State) (x : Site) (l : BarLvl) (idx : BitVec 4) (k : BarInst → Out) : Out :=
  let no := barNo (levelNo l) idx.toNat
  match (if x.l.member x.g.gid (levelNo l) idx.toNat then s.inst? x.c x.l (levelNo l) idx.toNat else none) with
  | none => .next (s.trap x (Trap.one 0x21#8 no))
  | some b => k b

/-- Write an optional uniform destination (R268). -/
def State.writeOpt (s : State) (x : Site) (d : Option Opd) (w : Word) : State :=
  match d with
  | none => s
  | some o => s.modGroup x.g.key (fun g => g.writeAll o w)

/-- The phase at which a group arrived at a barrier, if it has since its start (R268). -/
def Group.myPhase (g : Group) (no : Nat) : Option Word := lookup g.barPh no

/-- `bar.arrive` (R268). -/
def execBarArrive (h : Hdr) (d : Option Opd) (l : BarLvl) (idx : BitVec 4) (s : State) : Out :=
  s.uni h (fun x _ => s.withBar x l idx (fun b =>
    match s.barArrive x.c x.l x.g.key b with
    | none => .next (s.trap x (Trap.one 0x20#8 (barNo b.level b.index)))
    | some (s1, ph) => .next ((s1.writeOpt x d ph).finish x d.toList))) []

/-- `bar.drop` (R268): D receives the phase at which the group arrived, now or before. -/
def execBarDrop (h : Hdr) (d : Option Opd) (l : BarLvl) (idx : BitVec 4) (s : State) : Out :=
  s.uni h (fun x _ => s.withBar x l idx (fun b =>
    let r := s.barDrop x.c x.l x.g.key b
    if r.bad then .next (r.s.trap x (Trap.one 0x20#8 (barNo b.level b.index)))
    else
      let ph := r.phase.getD ((x.g.myPhase (barNo b.level b.index)).getD b.phase)
      .next ((r.s.writeOpt x d ph).finish x d.toList))) []

/-- The wait half of `bar.wait` and `bar.sync` (R268). -/
def State.barHalf (s : State) (x : Site) (b : BarInst) (my : Option Word) (dst : List Opd) : Out :=
  let now := ((s.inst? ((s.crew? x.c.id).getD x.c) ((s.launch? x.l.handle).getD x.l) b.level b.index).getD b).phase
  if my = some now then .next (s.blockOn x (.bar (barNo b.level b.index))) else .next (s.finish x dst)

/-- `bar.wait` (R268). -/
def execBarWait (h : Hdr) (l : BarLvl) (idx : BitVec 4) (s : State) : Out :=
  s.meet h [] (fun s x _ => s.withBar x l idx (fun b =>
    s.barHalf x b (x.g.myPhase (barNo b.level b.index)) []))

/-- `bar.sync` (R268): a group that has arrived in this execution only waits. -/
def execBarSync (h : Hdr) (d : Option Opd) (l : BarLvl) (idx : BitVec 4) (s : State) : Out :=
  s.meet h d.toList (fun s x _ => s.withBar x l idx (fun b =>
    let no := barNo b.level b.index
    if x.g.block = some (.bar no) then s.barHalf x b (x.g.myPhase no) d.toList
    else
      match s.barArrive x.c x.l x.g.key b with
      | none => .next (s.trap x (Trap.one 0x20#8 no))
      | some (s1, ph) => (s1.writeOpt x d ph).barHalf x b (some ph) d.toList))

/-- A condition of a wait block (R271). -/
structure Cond where
  no  : Nat
  ctl : Nat
  val : Nat
  opr : Nat
  deriving DecidableEq, Repr

def Cond.kind (c : Cond) : Nat := bits c.ctl 31 28
def Cond.rel (c : Cond) : Nat := bits c.ctl 27 24
def Cond.aux (c : Cond) : Nat := bits c.ctl 23 0

/-- The four conditions of a block (R271). -/
def condBlock (g : Group) (a : Nat) : List Cond :=
  (List.range 4).map (fun k =>
    ⟨k, (g.greg (a + 3 * k)).toNat, (g.greg (a + 3 * k + 1)).toNat, (g.greg (a + 3 * k + 2)).toNat⟩)

/-- The launch that a handle names for a context (R373). -/
def State.named? (s : State) (ctx h : Nat) : Option Launch :=
  if h = 0 then none else s.launches.find? (fun l => l.handle == h && (l.ctx == ctx || l.issuer == ctx))

/-- AUX bits that a kind uses (R271). -/
def condAux : Nat → Nat
  | 1 => 0x7FF
  | 3 => 0xFFFFFF
  | 4 => 7
  | _ => 0

/-- The check of one condition (R272). -/
def condCheck (s : State) (x : Site) (c : Cond) : Option Trap :=
  let k := c.kind
  if 7 ≤ k then some (Trap.one 0x11#8 c.ctl)
  else if (if k = 2 ∨ k = 3 then decide (5 < c.rel) else c.rel != 0) || c.aux &&& condAux k != c.aux then some (Trap.one 0x11#8 c.ctl)
  else if k = 1 then
    let lv := bits c.aux 10 8
    let ix := bits c.aux 7 0
    if x.l.member x.g.gid lv ix && (s.inst? x.c x.l lv ix).isSome then none else some (Trap.one 0x21#8 (barNo lv ix))
  else if k = 2 then
    (if 0x3FF < c.opr then some (Trap.one 0x12#8 (0x30000000 + c.opr))
     else if c.opr % 4 ≠ 0 then some (Trap.one 0x13#8 (0x30000000 + c.opr)) else none)
  else if k = 3 then
    (if c.opr % 4 ≠ 0 then some (Trap.one 0x13#8 (c.aux * 2 ^ 32 + c.opr)) else none)
  else if k = 4 then (if 5 < c.aux then some (Trap.one 0x11#8 c.aux) else none)
  else if k = 5 then (if (s.named? x.ctx c.opr).isSome then none else some (Trap.one 0x11#8 c.opr))
  else none

/-- A relation code of `cmp` (R163). -/
def relOf : Nat → Rel
  | 0 => .eq
  | 1 => .ne
  | 2 => .lt
  | 3 => .le
  | 4 => .gt
  | _ => .ge

/-- Whether a condition holds now (R271); a COH read may fault. -/
def condHolds (s : State) (x : Site) (c : Cond) : Except (Option (BitVec 8) × Nat) Bool :=
  match c.kind with
  | 1 => .ok (match s.inst? x.c x.l (bits c.aux 10 8) (bits c.aux 7 0) with
      | some b => decide ((b.phase.toNat + 2 ^ 32 - c.val) % 2 ^ 32 < 2 ^ 31)
      | none => false)
  | 2 => .ok (relInt (relOf c.rel) (x.c.awGet c.opr).toNat c.val)
  | 3 =>
    let a := c.aux * 2 ^ 32 + c.opr
    match s.cohRead x.ctx a 4 with
    | .ok xs => .ok (relInt (relOf c.rel) (leNat xs) c.val)
    | .error e => .error (e, a)
  | 4 => .ok ((s.queue (x.c.die * Config.enginesPerDie + c.aux)).all (fun j => j.crew != x.c.id))
  | 5 => .ok (((s.named? x.ctx c.opr).map s.launchDone).getD false)
  | 6 => .ok (decide (c.opr * 2 ^ 32 + c.val ≤ s.tsc.toNat))
  | _ => .ok false

/-- Whether the done word that a condition reads lies in a page on the move (R403). -/
def condMoving (s : State) (x : Site) (c : Cond) : Bool :=
  c.kind == 5 && (match s.named? x.ctx c.opr with
    | some l => l.ended && !l.met && (match s.cohRead l.ctx l.done 4 with
      | .error none => true
      | _ => false)
    | none => false)

/-- All used conditions in one evaluation (R273): the fired mask, or the fault of the lowest condition that has one (R272 gives
no order: the model's choice, log entry 60), or a hold. -/
def condFired (s : State) (x : Site) : List Cond → Except (Option (BitVec 8) × Nat) Nat
  | [] => .ok 0
  | c :: r =>
    match (if condMoving s x c then .error (none, 0) else condHolds s x c) with
    | .error e => .error e
    | .ok b =>
      match condFired s x r with
      | .error e => .error e
      | .ok m => .ok ((if b then 2 ^ c.no else 0) + m)

/-- One evaluation of a wait (R44, R273). -/
def State.waitStep (s : State) (x : Site) (all : Bool) (d a : Nat) (deadline : Option Nat) (expire : Bool) : Out :=
  let used := (condBlock x.g a).filter (fun c => c.kind != 0)
  match condFired s x used with
  | .error (none, _) => .next s
  | .error (some c, va) => .next (s.conclude x [(lowest x.f.mask, c, va)] [])
  | .ok fired =>
    let want := used.foldl (fun m c => m + 2 ^ c.no) 0
    let held := if all then fired == want else fired != 0
    if held || expire then
      let s1 := s.modGroup x.g.key (fun g =>
        (g.writeAll (.p (BitVec.ofNat 3 d)) (wordOf held)).writeAll (.g (BitVec.ofNat 6 (a + 12))) (BitVec.ofNat 32 fired))
      .next (s1.finish x [])
    else .next (s.blockOn x (.wait deadline all d a s.word))

/-- The predicate an operand names. -/
def opdPno : Opd → Nat
  | .p n => n.toNat
  | _ => 0

/-- The checks of a wait's block (R272). R272 gives no order among conditions that fail different checks: the lowest decides
(the model's choice, log entry 60). -/
def waitCheck (s : State) (x : Site) (a : Nat) : Option Trap := (condBlock x.g a).findSome? (condCheck s x)

/-- A wait (R271 to R273): the block is checked, the deadline of a wait that is blocked already stays, and the
conditions are evaluated. The time of R44 runs from the first issue, also where the wait re-executes after its group resumed
from a stop (R46 does not say: the model's choice, log entry 60). A wait whose first evaluation parked its group has not
blocked, and its time starts anew when it re-executes (R272 does not say: the same entry). -/
def State.wait (s : State) (h : Hdr) (all : Bool) (d a b : Opd) : Out :=
  s.meet h [] (fun s x e =>
    match waitCheck s x (opdGno a) with
    | some t => .next (s.trap x t)
    | none =>
      let ticks := (x.read s (lowest e) b).toNat
      let dl := match x.g.block with
        | some (.wait dl _ _ _ _) => dl
        | _ => if ticks = 0xFFFFFFFF then none else some (s.nanos + 10 * ticks)
      s.waitStep x all (opdPno d) (opdGno a) dl (ticks == 0 && x.g.block.isNone))

/-- `wait.any` (R271). -/
def execWaitAny (h : Hdr) (d a b : Opd) (s : State) : Out := s.wait h false d a b

/-- `wait.all` (R271). -/
def execWaitAll (h : Hdr) (d a b : Opd) (s : State) : Out := s.wait h true d a b

/-- The site of a group that is blocked, runs, and has its crew on a core. One that resumed from a stop is to issue its
instruction again first (R45, R46). -/
def State.blocked? (s : State) (gk : Nat) : Option Site :=
  match s.group? gk with
  | none => none
  | some g =>
    match g.frags with
    | [f] =>
      (match s.siteAt gk (lowest f.mask) with
       | some x => if g.stat = .run ∧ x.c.stat = .resident ∧ g.block.isSome ∧ !g.recount then some x else none
       | none => none)
    | _ => none

/-- `waitEvaluation` (R273): an evaluation of a blocked wait. -/
def execWaitEvaluation (gk : Nat) (s : State) : Out :=
  match s.blocked? gk with
  | none => .next s
  | some x =>
    match x.g.block with
    | some (.wait dl all d a w) => { s with word := w }.waitStep x all d a dl false
    | _ => .next s

/-- `waitTimeout` (R44, R273): a blocked wait whose time has passed completes with its result false, unless its
conditions complete it in that evaluation. -/
def execWaitTimeout (gk : Nat) (s : State) : Out :=
  match s.blocked? gk with
  | none => .next s
  | some x =>
    match x.g.block with
    | some (.wait (some t) all d a w) =>
      if t ≤ s.nanos then { s with word := w }.waitStep x all d a (some t) true else .next s
    | _ => .next s

/-- Change one arrival word of the issuing crew. -/
def State.awAct (s : State) (x : Site) (off : Nat) (f : Word → Word) : State :=
  s.setCrew (x.c.awSet off (f (x.c.awGet off)))

/-- `arrv.set` (R275). -/
def execArrvSet (h : Hdr) (d a : Opd) (s : State) : Out :=
  s.uni h (fun x e => .next ((s.awAct x (opdAw d) (fun _ => x.read s (lowest e) a)).finish x [])) []

/-- `arrv.add` and `arrv.expect` (R275): an amount above 2^30 − 1 takes trap 0x11. -/
def State.arrvStep (s : State) (h : Hdr) (d a : Opd) (sign : Int) : Out :=
  s.uni h (fun x e =>
    let n := (x.read s (lowest e) a).toNat
    if 2 ^ 30 ≤ n then .next (s.trap x (Trap.one 0x11#8 n))
    else .next ((s.awAct x (opdAw d) (fun w => arrivalStep w (sign * n))).finish x [])) []

/-- `arrv.add` (R275). -/
def execArrvAdd (h : Hdr) (d a : Opd) (s : State) : Out := s.arrvStep h d a 1

/-- `arrv.expect` (R275). -/
def execArrvExpect (h : Hdr) (d a : Opd) (s : State) : Out := s.arrvStep h d a (-1)

/-- The FULL word of a ring-slot operand, or trap 0x12 (R276). -/
def State.withSlot (s : State) (x : Site) (a : Opd) (k : Nat → Out) : Out :=
  match a with
  | .ring r slot =>
    (match x.c.ringSlot? r.toNat slot.toNat with
     | some off => k off
     | none => .next (s.trap x (Trap.one 0x12#8 (r.toNat * 4096 + slot.toNat))))
  | _ => .next (s.finish x [])

/-- `ring.take` (R277). -/
def execRingTake (h : Hdr) (d a : Opd) (prod lap : Bool) (s : State) : Out :=
  s.uni h (fun x _ => s.withSlot x a (fun off =>
    let ph := (x.c.awGet (if prod then off + 4 else off)).getLsbD 31
    let v := if prod then ph == lap else ph != lap
    .next ((s.modGroup x.g.key (fun g => g.writeAll d (wordOf v))).finish x []))) []

/-- `ring.give` (R277): the phase toggles and the count is cleared. -/
def execRingGive (h : Hdr) (a : Opd) (prod _lap : Bool) (s : State) : Out :=
  s.uni h (fun x _ => s.withSlot x a (fun off =>
    .next ((s.awAct x (if prod then off else off + 4) (fun w => ~~~ w &&& 0x80000000#32)).finish x []))) []

/-- Make undefined what a stopping point's entry does not name (R45): vector blocks of the group, and the scratchpad
window outside the named range. -/
def State.forget (s0 : State) (gk crew vregs scratch : Nat) (e : LiveEnt) : State :=
  let (s, n) := s0.draw
  let gone := (List.range (vregs / 8)).filter (fun b => !e.vmask.getLsbD b)
  let s1 := s.modGroup gk (fun g => { g with v := gone.foldl (fun v b => v.havoc (b * 256) (b * 256 + 256) n) g.v })
  match s1.crew? crew with
  | none => s1
  | some c =>
    let lo := if 0 < e.sbase ∧ 0 < scratch then c.scr.havoc 0 (Nat.min e.sbase scratch) n else c.scr
    let scr := if e.sbase + e.slen < scratch then lo.havoc (e.sbase + e.slen) scratch n else lo
    s1.setCrew { c with scr := scr }

/-- Whether a crew of higher priority waits for the lane of a yielding group (R279 step 3). A crew of context 0 leaves its core
for no other context (R367). -/
def State.outranked (s : State) (x : Site) (prio : Nat) : Bool :=
  s.cands.any (fun q => decide (prio < q.prio) &&
    (match s.launch? q.handle with
     | none => false
     | some l =>
       (x.ctx != 0 || l.ctx == 0) && (match s.offer l (s.candGids l q) with
        | (die, none) => die == x.c.die &&
           (match s.spot? x.c.core l (s.candGids l q) (some x.c.id) with
            | some p => p.seats.any (fun t => t.2.lane == x.g.lane)
            | none => false)
        | _ => false)))

/-- The yield bound of a context (R45). -/
def State.ybound (s : State) (ctx : Nat) : Nat := ((s.ctx? ctx).map (·.ybound)).getD 4096

/-- `yield` (R45, R73, R279): a group that stops resumes at the word after the yield's `trail`, which counts one in
the new window either way. Once one group of a crew has stopped for a higher priority, each other group of the crew stops at
its next yield, so that the crew leaves its core; step 3 of R279 speaks of the group's own lane (the model's choice, log entry
22). -/
def execYield (h : Hdr) (dl : BitVec 16) (s : State) : Out :=
  s.meet h [] (fun s x _ =>
    let prio := s.queuePrio x.l
    let low := lowest x.f.mask
    let s1 := (s.finish x []).modGroup x.g.key (fun g =>
      { g with wdog := Nat.min (dl.toNat + 1) (s.ybound x.ctx), prio := prio,
               frags := g.frags.map (fun f => { f with count := 0 }) })
    let s2 := s1.forget x.g.key x.c.id x.vregs x.l.desc.scratch (s.liveEntry x.l x.f.pc)
    if x.c.pending.isSome || s.outranked x prio then
      let why := x.c.pending.getD .prio
      let s3 := s2.modGroup x.g.key (fun g => { g.setFrag low { x.f with
        pc := x.f.pc + 24, count := 1, pos := 0, tw := 0#8, replay := none, due := false, atPoint := false } with
          stat := .held, out := g.out.map (fun p => { p with inRun := false }) })
      let s4 := match s3.crew? x.c.id with
        | none => s3
        | some c => s3.setCrew { c with pending := some why }
      .next ((s4.touchQueue x.l).touchLives x.l)
    else .next ((s2.touchQueue x.l).touchLives x.l))

/-- Whether a group is blocked at a regroup, and where (R42). One that resumed from a stop is to issue it again first (R46). -/
def Group.atRegroup (g : Group) : Option (Nat × Word × Word × IWord) :=
  if g.stat = .run ∧ !g.recount then
    match g.block with
    | some (.regroup pc m v w) => some (pc, m, v, w)
    | _ => none
  else none

/-- Trap 0x21 of a group that waits at a regroup, with both addresses (R42, R391). -/
def State.regroupTrap (s : State) (gk lo hi : Nat) : State :=
  match s.group? gk with
  | none => s
  | some g =>
    match g.atRegroup, g.frags with
    | some (_, _, _, w), [f] =>
      (match s.siteAt gk (lowest f.mask) with
       | some x =>
         { { s with word := w }.stop x ⟨0x21#8, 0#64, BitVec.ofNat 64 lo, BitVec.ofNat 64 hi, false⟩ 0#32 false x.f.pc with
           word := s.word }
       | none => s)
    | _, _ => s

/-- The threads of the participants in order (R43): group and thread. -/
def meetList (ps : List Group) : List (Group × Nat) :=
  ps.flatMap (fun g => (lanes (g.all.foldl (fun m f => m ||| f.mask) 0#32)).map (fun i => (g, i)))

/-- A surviving group after a meeting (R43): its threads come from `ts`; whatever is not moved is undefined. -/
def regroupInto (d : Group) (ts : List (Group × Nat)) (live : Word) (vregs n : Nat) : Group :=
  let blocks := (List.range (vregs / 8)).filter (fun b => live.getLsbD b)
  let v0 := d.v.havoc 0 (vregs * 32) n
  let v := blocks.foldl (fun v b => (List.range 8).foldl (fun v j =>
    ts.zipIdx.foldl (fun v e => v.set ((8 * b + j) * 32 + e.2) (e.1.1.v.get ((8 * b + j) * 32 + e.1.2))) v) v) v0
  let p := (List.range 7).foldl (fun p j =>
    let m := j + 1
    let moved := ts.zipIdx.foldl (fun w e =>
      if (e.1.1.p.get m).getLsbD e.1.2 then w ||| (1#32 <<< e.2) else w) 0#32
    let mask := maskOf (fun i => decide (i < ts.length))
    p.set m (moved ||| (Config.free 32 (n * 2 ^ 40 + 2 ^ 39 + m) &&& ~~~ mask))) d.p
  { d with v := v, p := p }

/-- The vector registers of an allocation, as operands. -/
def allV (vregs : Nat) : List Opd := (List.range vregs).map (fun n => Opd.v (BitVec.ofNat 8 n))

/-- The completion of a meeting of the participants, in ascending gid order (R43). -/
def State.regroupDone (s0 : State) (ps : List Group) (live : Word) (vregs : Nat) : State :=
  let ts := meetList ps
  let keep := ceilDiv ts.length Config.W
  ps.zipIdx.foldl (fun s e =>
    if e.2 < keep then
      let mine := (ts.drop (e.2 * Config.W)).take Config.W
      let (s1, n) := s.draw
      match e.1.frags with
      | [f] =>
        (match s1.siteAt e.1.key (lowest f.mask) with
         | some x =>
           let s2 := s1.setGroup (regroupInto x.g mine live vregs n)
           let s3 := s2.finish x (allV vregs)
           s3.modGroup e.1.key (fun g => { g with frags := g.frags.map (fun f =>
             { f with mask := maskOf (fun i => decide (i < mine.length)) }) })
         | none => s1)
      | _ => s1
    else s.endGroup e.1.key) s0

/-- Whether two groups are at the same regroup: its address and both masks agree (R42). -/
def sameMeeting (k m : Nat × Word × Word × IWord) : Bool := k.1 == m.1 && k.2.1 == m.2.1 && k.2.2.1 == m.2.2.1

/-- The other regroups at which groups of a crew are, that name the arriving group or that it names (R42). -/
def clashes (members live : Word) (pc : Nat) (g : Group) (crew : List Group) : List (Nat × Word × Word × IWord) :=
  crew.filterMap (fun q => match q.atRegroup with
    | some k =>
      if q.key != g.key && !sameMeeting k (pc, members, live, k.2.2.2) && (members.getLsbD q.gid || k.2.1.getLsbD g.gid)
      then some k else none
    | none => none)

/-- `regroup` (R42, R43, R280). A group that meets several other regroups names the one of the lowest gid beside its own (log
entry 56). One that names a block beyond VREGS / 8 and not itself takes 0x12, not 0x21 (R280 gives no order: log entry 60). -/
def execRegroup (h : Hdr) (a b : Opd) (s : State) : Out :=
  s.meet h [] (fun s x e =>
    let members := x.read s (lowest e) a
    let live := x.read s (lowest e) b
    let pc := x.f.pc
    match (List.range 32).find? (fun k => live.getLsbD k && decide (x.vregs / 8 ≤ k)) with
    | some k => .next (s.trap x (Trap.one 0x12#8 (8 * k)))
    | none =>
      if !members.getLsbD x.g.gid then .next (s.trap x ⟨0x21#8, 0#64, 0#64, 0#64, false⟩)
      else
        let key := (pc, members, live, s.word)
        let s1 := s.blockOn x (.regroup pc members live s.word)
        let crew := sortBy (fun p q => p.gid ≤ q.gid) (s1.groupsOf x.c.id)
        let named := crew.filter (fun q => q.live && members.getLsbD q.gid)
        let off := fun (w : Nat) => x.offset w
        match clashes members live pc x.g crew with
        | k :: ks =>
          .next (crew.foldl (fun s q => match q.atRegroup with
            | none => s
            | some m =>
              if sameMeeting m key then
                s.regroupTrap q.key (Nat.min (off pc) (off k.1)) (Nat.max (off pc) (off k.1))
              else if (k :: ks).any (sameMeeting m) then
                s.regroupTrap q.key (Nat.min (off pc) (off m.1)) (Nat.max (off pc) (off m.1))
              else s) s1)
        | [] =>
          if named.all (fun q => q.atRegroup.any (sameMeeting key)) then
            if named.all (fun q => x.l.roleNow q == x.l.roleNow x.g) then .next (s1.regroupDone named live x.vregs)
            else .next (named.foldl (fun s q => s.regroupTrap q.key (off pc) (off pc)) s1)
          else .next s1)

/-- Whether a group is blocked in `join`. One that resumed from a stop is to issue it again first (R46). -/
def Group.atJoin (g : Group) : Bool := g.stat == .run && g.block == some .join && !g.recount

/-- The instruction of a group that is one fragment ends, without a destination. -/
def State.finishGroup (s : State) (gk : Nat) : State :=
  match s.group? gk with
  | none => s
  | some g =>
    match g.frags with
    | [f] =>
      (match s.siteAt gk (lowest f.mask) with
       | some y => s.finish y []
       | none => s)
    | _ => s

/-- `join` (R49, R282): when every live group has come and children are outstanding, the crew is to leave its core for them,
whatever other reason was pending: all of its window is saved, and it returns after its last child. -/
def execJoin (h : Hdr) (s : State) : Out :=
  s.meet h [] (fun s x _ =>
    let s1 := s.blockOn x .join
    let live := (s1.groupsOf x.c.id).filter Group.live
    if live.all Group.atJoin then
      if x.c.children = 0 ∧ x.c.pending ≠ some .join then
        .next (live.foldl (fun s q => s.finishGroup q.key) s1)
      else .next (s1.setCrew { x.c with pending := some .join })
    else .next s1)

end Sys2Proof.Machine
end

