-- ==== Sys2Proof/Machine/Accept.lean ====
section
/-!
DEFINITION. Observing context entries (R368, R381), and the acceptance of launches: records, the checks of R128 and
R374, handles, done areas, replay entries (R371 to R375, R413, R422 to R424).
-/

namespace Sys2Proof.Machine

/-- The entry of a context in the context table (R368). -/
def State.ctxEntry (s : State) (ctx : Nat) : Option Nat := s.sys.boot.bind (fun b => s.cohNat? 0 (b.ctxt + 64 * ctx) 64)

/-- The entry's page on the move holds the turn that observes it (R403). -/
def State.touchEntry (s : State) (ctx : Nat) : State :=
  match s.sys.boot with
  | none => s
  | some b => s.touch 0 (b.ctxt + 64 * ctx) 64

/-- Whether an entry is valid (R368). -/
def ctxEntryOk (w : Nat) : Bool :=
  let y := bits w 287 256
  w.testBit 0 && bits w 455 448 == 0 && bits w 359 352 == 0 && bits w 295 288 == 0 && bits w 255 2 == 0
    && bits w 511 456 % 65536 == 0 && bits w 415 360 % 16 == 0 && bits w 351 296 % 64 == 0
    && (y == 0 || (decide (1024 ≤ y) && decide (y ≤ 65536)))

/-- A context as a valid entry creates it (R368, R361). -/
def Context.create (ctx w : Nat) : Context :=
  { id := ctx, valid := true, run := w.testBit 1, ybound := if bits w 287 256 = 0 then 4096 else bits w 287 256,
    depth := 0#32, freeq := bits w 415 360, qtab := bits w 351 296, save := bits w 511 456, savecap := bits w 447 416 }

/-- A group stopped at a yield runs again (R381). -/
def Group.unhold (g : Group) : Group := if g.stat = .held then { g with stat := .run } else g

/-- What the RUN that the device observed does to the context's resident crews (R368, R381): a switch becomes pending, or
is cancelled and the groups stopped for it run on. Context 0 has none. -/
def State.switches (s : State) (ctx : Nat) (run : Bool) : State :=
  let mine := fun (c : Crew) => c.stat == .resident && ((s.launch? c.handle).map (·.ctx)) == some ctx
  if ctx = 0 then s
  else if run then
    let freed := (s.crews.filter (fun c => mine c && c.pending == some .switch)).map (·.id)
    { s with crews := s.crews.map (fun c => if freed.contains c.id then { c with pending := none } else c),
             groups := s.groups.map (fun g => if freed.contains g.crew then g.unhold else g) }
  else
    { s with crews := s.crews.map (fun c =>
        if mine c && c.pending.isNone then { c with pending := some .switch } else c) }

/-- The device observes a context's entry (R368). -/
def State.observe (s0 : State) (ctx : Nat) : State :=
  let s := s0.touchEntry ctx
  match s0.ctxEntry ctx with
  | some w =>
    if ctxEntryOk w then
      let n := Context.create ctx w
      let c := match s.ctx? ctx with
        | some c => { n with ybound := c.ybound, depth := c.depth }
        | none => n
      (s.setCtx c).switches ctx c.run
    else
      match s.ctx? ctx with
      | some c => (s.setCtx { c with valid := false, run := false }).switches ctx false
      | none => s
  | none =>
    match s.ctx? ctx with
    | some c => (s.setCtx { c with valid := false, run := false }).switches ctx false
    | none => s

/-- A launch record (R371). -/
structure LRec where
  raw   : BitVec 512
  pre   : List Nat
  cx    : Nat
  cy    : Nat
  cz    : Nat
  ctx   : Nat
  split : Nat
  done  : Nat
  stats : Nat
  args  : Nat
  queue : Nat
  desc  : Nat
  clean : Bool
  deriving DecidableEq, Repr

/-- The fields of a launch record; `clean` says that the reserved ones are zero. -/
def lrecOf (w : Nat) : LRec :=
  { raw := BitVec.ofNat 512 w, pre := [bits w 415 384, bits w 447 416, bits w 479 448, bits w 511 480],
    cx := bits w 319 288, cy := bits w 351 320, cz := bits w 383 352, ctx := bits w 287 272, split := bits w 271 256,
    done := bits w 247 192, stats := bits w 183 128, args := bits w 119 64, queue := bits w 61 56, desc := bits w 55 0,
    clean := bits w 255 248 == 0 && bits w 191 184 == 0 && bits w 127 120 == 0 && bits w 63 62 == 0 }

/-- The fields of a kernel descriptor (R116). -/
def descOf (a w : Nat) : Desc :=
  { addr := a, entry := bits w 63 0, crew := bits w 111 104, split := bits w 127 112, vregs := bits w 143 128,
    deadline := bits w 159 144, arglen := bits w 175 160, scratch := bits w 207 176,
    fpmode := BitVec.ofNat 32 (bits w 239 208), rec0 := bits w 255 240, recCnt := bits w 271 256,
    bar0 := bits w 287 272, barCnt := bits w 303 288, role0 := bits w 319 304, roleCnt := bits w 335 320,
    live0 := bits w 351 336, liveCnt := bits w 367 352, cb0 := bits w 383 368, cbCnt := bits w 399 384 }

/-- A role entry (R119). -/
def roleDeclOf (w : Nat) : RoleDecl := ⟨bits w 87 80, bits w 79 72, bits w 71 64, bits w 63 0⟩

/-- A barrier entry (R118). -/
def barDeclOf (w : Nat) : BarDecl := ⟨bits w 74 72, bits w 71 64, bits w 55 32, BitVec.ofNat 32 (bits w 31 0)⟩

/-- What an acceptance read, in order; after a read that faults, none of the later ones is made (R374). -/
structure Reads where
  desc  : Option Nat
  image : Option Image
  roles : Option (List Nat)
  bars  : Option (List Nat)
  lives : Option (List Nat)
  args  : Option (List (Nat × Word))
  bad   : Bool
  deriving DecidableEq, Repr

/-- Table entries of `w` bytes; none when one cannot be read. -/
def State.table (s : State) (ctx base n w : Nat) : Option (List Nat) :=
  (List.range n).mapM (fun k => s.cohNat? ctx (base + w * k) w)

/-- The argument block as words (R30, R375). -/
def State.argBlock (s : State) (ctx a n : Nat) : Option (List (Nat × Word)) :=
  if a % 4 ≠ 0 then none
  else (List.range (ceilDiv n 4)).mapM (fun k =>
    (s.cohNat? ctx (a + 4 * k) (Nat.min 4 (n - 4 * k))).map (fun x => (k, BitVec.ofNat 32 x)))

/-- The image whose descriptors hold an address (log entry 5). -/
def State.imageOf (s : State) (ctx a : Nat) : Option Image :=
  s.images.find? (fun m => m.ctx == ctx && decide (m.desc ≤ a) && decide (a < m.descEnd))

/-- The reads of an acceptance in the launched context (R374, R375). A descriptor that lies in no reported image has no
tables to read, only its argument block (the model's choice: log entry 5). -/
def State.launchReads (s : State) (ctx : Nat) (r : LRec) : Reads :=
  let none7 : Reads := ⟨none, none, none, none, none, none, true⟩
  match (if r.desc % 64 = 0 then s.cohNat? ctx r.desc 64 else none) with
  | none => none7
  | some w =>
    let d := descOf r.desc w
    let args := if d.arglen = 0 then some [] else s.argBlock ctx r.args d.arglen
    match s.imageOf ctx r.desc with
    | none => { none7 with desc := some w, args := args, bad := args.isNone }
    | some m =>
      match s.table ctx (m.roles + 16 * d.role0) d.roleCnt 16 with
      | none => { none7 with desc := some w, image := some m }
      | some ro =>
        match s.table ctx (m.bars + 16 * d.bar0) d.barCnt 16 with
        | none => { none7 with desc := some w, image := some m, roles := some ro }
        | some ba =>
          match s.table ctx (m.lives + 24 * d.live0) d.liveCnt 24 with
          | none => { none7 with desc := some w, image := some m, roles := some ro, bars := some ba }
          | some li => ⟨some w, some m, some ro, some ba, some li, args, args.isNone⟩

/-- The reads that an acceptance made, as address and length. -/
def launchRanges (r : LRec) (q : Reads) : List (Nat × Nat) :=
  let rows := fun (a n w : Nat) => (List.range n).map (fun k => (a + w * k, w))
  let args := fun (d : Desc) => (List.range (ceilDiv d.arglen 4)).map (fun k => (r.args + 4 * k, Nat.min 4 (d.arglen - 4 * k)))
  (r.desc, 64) :: (match q.desc.map (descOf r.desc), q.image with
    | some d, some m =>
      rows (m.roles + 16 * d.role0) d.roleCnt 16
        ++ (if q.roles.isSome then rows (m.bars + 16 * d.bar0) d.barCnt 16 else [])
        ++ (if q.bars.isSome then rows (m.lives + 24 * d.live0) d.liveCnt 24 else [])
        ++ (if q.lives.isSome then args d else [])
    | some d, none => args d
    | none, _ => [])

/-- R128 on the descriptor itself. -/
def descBad (split w : Nat) : Bool :=
  let d := descOf 0 w
  bits w 511 464 != 0 || bits w 103 96 != 0 || d.crew == 0 || decide (32 < d.crew) || decide (d.vregs < 8)
    || decide (256 < d.vregs) || d.vregs % 8 != 0 || decide (256 < d.arglen) || !splitOk d.split
    || (split == 0 && !splitFits d.split d.vregs d.scratch) || !fpmodeOk d.fpmode || d.entry % 64 != 0

/-- R119, R128 on the role entries of a kernel whose code lies from `lo` to before `hi`, from a first gid on. A descriptor gives no
bounds of its kernel's code: the image's code section stands for them (the model's choice, log entry 62). -/
def rolesBad (lo hi crew : Nat) : Nat → List Nat → Bool
  | f, [] => f != crew
  | f, w :: r =>
    let d := roleDeclOf w
    bits w 127 88 != 0 || d.first != f || d.count == 0 || decide (32 < d.count) || decide (2 < d.role) || d.entry % 64 != 0
      || decide (d.entry < lo) || decide (hi ≤ d.entry) || rolesBad lo hi crew (f + d.count) r

/-- The number of barriers of a level (R103). -/
def barLimit (lvl : Nat) : Nat := ([16, 8, 8, 4, 2][lvl]?).getD 0

/-- R118, R128 on the barrier entries. -/
def barsBad : List Nat → Bool
  | [] => false
  | w :: r =>
    let d := barDeclOf w
    bits w 95 75 != 0 || bits w 63 56 != 0 || decide (barLimit d.level ≤ d.index) || d.count == 0
      || (d.level == 0 && d.count != popcount d.members)
      || r.any (fun v => (barDeclOf v).level == d.level && (barDeclOf v).index == d.index) || barsBad r

/-- R120, R128 on the live-mask entries. An SBASE or SLEN that is no multiple of 128 is no refusal of R128: the range counts as it
stands (the model's choice, log entry 62). -/
def livesBad (d : Desc) : List Nat → Bool
  | [] => false
  | w :: r =>
    bits w 191 163 != 0 || bits w 95 64 / 2 ^ (d.vregs / 8) != 0 || decide (d.scratch < bits w 127 96 + bits w 159 128)
      || (match r with
          | v :: _ => decide (bits v 63 0 ≤ bits w 63 0)
          | [] => false) || livesBad d r

/-- The first failing check among those that could be made (R374); 0 for none. -/
def firstCode : List (Nat × Option Bool) → Nat
  | [] => 0
  | (c, some true) :: _ => c
  | _ :: r => firstCode r

/-- Whether a done area can be written (R374). -/
def State.doneOk (s : State) (ctx done : Nat) : Bool :=
  match s.cohKeys ctx done 32 with
  | .ok _ => true
  | .error _ => false

/-- Whether the crews of a gang fit in an empty unit of `k` cores, of which context 0 may take those of die 0 (R33, R367,
R374, R378). -/
def gangFits (ctx split : Nat) (d : Desc) (matrix : Bool) (k n : Nat) : Bool :=
  decide (n ≤ (if ctx = 0 then Nat.min k Config.coresPerDie else k) * coreHolds split d matrix)

/-- The checks of R374 in the order of its table. `child` is the forking crew. A descriptor that lies in no reported image
and counts entries of tables is refused with code 0x01: there is nowhere to read them (the model's choice: log entry 5). A
ROLECNT above 3, a RECCNT above 256 or a CBCNT above 1,024 is no refusal of R128: the counts stand (R116 does not say: log entry
62). -/
def State.launchCode (s : State) (ctx : Nat) (child : Option Crew) (r : LRec) (q : Reads) : Nat :=
  let d := q.desc.map (descOf r.desc)
  let n := r.cx * r.cy * r.cz
  let on := fun {α : Type} (o : Option α) (f : α → Bool) => o.map f
  let tabled := (q.desc.map (fun w => q.image.isNone &&
    (bits w 335 320 != 0 || bits w 303 288 != 0 || bits w 367 352 != 0 || bits w 271 256 != 0 || bits w 399 384 != 0)))
  firstCode [
    (1, on q.desc (descBad r.split)),
    (1, tabled),
    (1, d.bind (fun d => q.image.bind (fun m => on q.roles (fun l => !l.isEmpty && rolesBad m.code m.codeEnd d.crew 0 l)))),
    (1, on q.bars barsBad),
    (1, d.bind (fun d => on q.lives (livesBad d))),
    (1, on d (fun d => d.arglen != 0 && r.args == 0)),
    (2, some (!r.clean || n == 0 || decide (2 ^ 32 < n) || r.desc % 64 != 0 || r.done % 32 != 0 || r.stats % 16 != 0
        || (r.split != 0 && !splitOk r.split) || (child.isSome && r.ctx != 0))),
    (2, on d (fun d => (d.arglen != 0 && r.args % 4 != 0) || (r.split != 0 && !splitFits r.split d.vregs d.scratch))),
    (3, some (r.pre.any (fun h => h != 0 && (s.named? ctx h).isNone))),
    (4, some (decide (256 ≤ (s.launches.filter (fun l => l.ctx == ctx && !l.ended)).length)
        || decide (4096 ≤ (s.launches.filter (fun l => !l.ended)).length))),
    (5, child.map (fun c => decide (16 ≤ c.children))),
    (6, some (child.isNone && !((s.ctx? ctx).map (·.valid)).getD false)),
    (8, d.bind (fun d => q.bars.bind (fun b => q.roles.map (fun ro =>
        let matrix := ro.any (fun w => (roleDeclOf w).role == 1)
        match gangCores (b.map barDeclOf) with
        | none => false
        | some k => decide (16 * k < n) || (matrix && decide (k < n)) || !gangFits ctx (if r.split = 0 then d.split else r.split) d matrix k n)))),
    (9, some (!s.doneOk ctx r.done)),
    (7, some q.bad)]

/-- The next handle (R373). -/
def nextHandle (h : Nat) : Nat := if h + 1 = 2 ^ 32 then 1 else h + 1

/-- The MODE that the device reads at an acceptance, with CAP and PUT of the log (R422). R422 names no fault for a nonzero
reserved bit: the device takes no notice of it (the model's choice, log entry 62). -/
def State.replayHeader (s : State) : Option (Nat × Nat × Nat) :=
  s.sys.boot.bind (fun b =>
    if b.replay = 0 then none
    else (s.cohNat? 0 b.replay 16).map (fun w => (bits w 1 0, bits w 63 32, bits w 95 64)))

/-- The bytes of a log entry in the replay area, which are not architectural (R422): free values of its seed. -/
def LogEnt.byte (e : LogEnt) (i : Nat) : Byte := Config.free 8 (e.seed * 2 ^ 40 + i)

/-- Whether the area holds the bytes of an entry where it was written (R422). -/
def State.logHolds (s : State) (b : Boot) (e : LogEnt) : Bool :=
  (List.range e.size).all (fun i => s.cohNat? 0 (b.replay + 64 + e.at_ + i) 1 == some (e.byte i).toNat)

/-- The entries that the area holds below PUT, one after another from an offset on (R422, R424): what the bytes say is what
the device recorded when it wrote them (log entry 12). -/
def State.logChain (s : State) (b : Boot) (put : Nat) : Nat → Nat → List LogEnt
  | 0, _ => []
  | k + 1, off =>
    match (s.sys.rplLog ++ s.sys.rplSaved).find? (fun e => e.at_ == off && decide (off + e.size ≤ put) && s.logHolds b e) with
    | none => []
    | some e => e :: s.logChain b put k (off + e.size)

/-- The entries of the log that the area holds (R422). -/
def State.logArea (s : State) (b : Boot) (put : Nat) : List LogEnt :=
  s.logChain b put (s.sys.rplLog.length + s.sys.rplSaved.length) 0

/-- The bytes of an entry written to the area, and PUT behind them (R422). -/
def State.writeEntry (s : State) (b : Boot) (e : LogEnt) : State :=
  ((List.range e.size).foldl (fun s i => s.cohStore 0 (b.replay + 64 + e.at_ + i) 1 (e.byte i).toNat) s).cohStore
    0 (b.replay + 8) 4 (e.at_ + e.size)

/-- Recording at an acceptance (R423): an entry, or STOP where it would pass CAP. How many bytes an entry takes is open. -/
def State.recordLaunch (s0 : State) (b : Boot) (l : Launch) (raw : BitVec 512) (cap put : Nat) : State :=
  if s0.sys.rplStop then s0
  else
    let (s, n) := s0.draw
    let e : LogEnt := ⟨put, 64 + 4 * l.args.length + Config.pick (n * 2 ^ 40 + 2 ^ 39), n, l.handle, raw, l.args, [], []⟩
    if cap < put + e.size then { s.cohStore 0 (b.replay + 12) 4 1 with sys := { s.sys with rplStop := true } }
    else { s.writeEntry b e with sys := { s.sys with rplLog := s.sys.rplLog ++ [e] } }

/-- Replay at an acceptance (R424): the n-th launch accepted takes entry n, if that is the entry of such a launch; the later
entries are still to be taken. -/
def Sys.replayLaunch (y : Sys) (l : Launch) (raw : BitVec 512) (log : List LogEnt) : Sys :=
  let taken := y.rplPlay.filter (fun e => e.handle != 0)
  let mine := (log[y.rplNo]?).filter (fun e => e.record == raw)
  { y with
    rplNo := y.rplNo + 1,
    rplPlay := taken ++ (mine.map (fun e => { e with handle := l.handle })).toList
      ++ (log.drop (y.rplNo + 1)).map (fun e => { e with handle := 0 }) }

/-- What recording and replay do at an acceptance (R422 to R424). The reserved MODE 3 neither records nor replays (R422 does not
say: the model's choice, log entry 62). -/
def State.replayAccept (s : State) (l : Launch) (raw : BitVec 512) : State :=
  match s.replayHeader, s.sys.boot with
  | some (mode, cap, put), some b =>
    let y : Sys := { s.sys with rplMode := mode, rplPlay := s.sys.rplPlay.filter (fun e => mode == 2 || e.handle != 0) }
    let s1 : State := { s with sys := y }
    if mode = 1 then s1.recordLaunch b l raw cap put
    else if mode = 2 then
      { s1.touchAll 0 ((List.range put).map (fun i => (b.replay + 64 + i, 1))) with
        sys := y.replayLaunch l raw (s1.logArea b put) }
    else s1
  | _, some b => if b.replay = 0 then s else s.touch 0 b.replay 16
  | _, none => s

/-- A launch as it is accepted (R371, R374). -/
def launchOf (h ctx issuer : Nat) (parent : Option Nat) (r : LRec) (w : Nat) (q : Reads) : Launch :=
  let d := descOf r.desc w
  let bars := ((q.bars.getD []).map barDeclOf)
  { handle := h, ctx := ctx, issuer := issuer, parent := parent, desc := d,
    image := q.image.getD ⟨ctx, 0, 0, r.desc, r.desc + 64, 0, 0, 0, 0, 0⟩, queue := r.queue, pre := r.pre.filter (· != 0),
    cx := r.cx, cy := r.cy, cz := r.cz, split := if r.split = 0 then d.split else r.split,
    ownSplit := r.split != 0, args := q.args.getD [],
    met := false, done := r.done, stats := r.stats, roles := (q.roles.getD []).map roleDeclOf,
    roleTorn := none, bars := bars,
    insts := (bars.filter (fun b => b.level != 0 && b.level != 4)).map BarInst.start, next := 0, retired := 0, traps := 0,
    killed := 0, ended := false }

/-- A launch joins its set: the pod instances that the set still lacks are created (R413). -/
def State.podJoin (s : State) (l : Launch) : State :=
  { s with podBars := s.podBars ++ s.podMissing l.ctx l.desc.addr l.bars }

/-- The done area of a refused launch, DONE last (R372, R374). -/
def State.refuse (s : State) (ctx done code : Nat) : State :=
  if s.doneOk ctx done then (s.cohStore ctx (done + 4) 28 (code * 2 ^ 32)).cohStore ctx done 4 2 else s

/-- A page on the move under what an acceptance reads, or under its done area, holds the turn (R403). -/
def State.touchLaunch (s : State) (ctx : Nat) (r : LRec) (q : Reads) : State :=
  (s.touchAll ctx (launchRanges r q)).touch ctx r.done 32

/-- ACCEPTANCE (R374, R396, R397): the handle, or 0 for a refused launch. -/
def State.accept (s0 : State) (ctx issuer : Nat) (child : Option Crew) (r : LRec) : State × Nat :=
  let q := s0.launchReads ctx r
  let code := s0.launchCode ctx child r q
  let s := s0.touchLaunch ctx r q
  if code ≠ 0 then (s.refuse ctx r.done code, 0)
  else
    let h := s.nextHandle
    let l := launchOf h ctx issuer (child.map (·.id)) r (q.desc.getD 0) q
    let s1 : State := { s with nextHandle := Machine.nextHandle h, launches := s.launches ++ [l] }
    let s2 := match child with
      | some c => s1.setCrew { c with children := c.children + 1 }
      | none => s1
    (((s2.podJoin l).cohStore ctx (r.done + 4) 4 h).replayAccept l r.raw, h)

end Sys2Proof.Machine
end

