-- ==== Sys2Proof/Machine/Segments.lean ====
section
/-!
DEFINITION. Segments, linking, rotation, gathering and repair (R335 to R354).
-/

namespace Sys2Proof.Machine

/-- A segment record (R335), with its address. -/
structure Segment where
  at_    : Nat
  digest : Nat
  sens   : Nat
  toka   : Nat
  sctx   : Nat
  ebase  : Nat
  stride : Nat
  len    : Nat
  ntok   : Nat
  id     : Nat
  state  : Nat
  clean  : Bool
  deriving DecidableEq, Repr

/-- The fields of a segment record; `clean` says that its reserved fields are zero (R335). -/
def segFields (a w : Nat) : Segment :=
  { at_ := a, digest := bits w 511 448, sens := bits w 447 392, toka := bits w 383 328, sctx := bits w 319 264,
    ebase := bits w 255 224, stride := bits w 223 208, len := bits w 207 192, ntok := bits w 191 160,
    id := bits w 159 128, state := bits w 1 0,
    clean := bits w 391 384 == 0 && bits w 327 320 == 0 && bits w 263 256 == 0 && bits w 127 2 == 0 }

/-- A segment record as 64 bytes. -/
def Segment.toNat (r : Segment) : Nat :=
  r.state % 4 + 2 ^ 128 * (r.id % 2 ^ 32) + 2 ^ 160 * (r.ntok % 2 ^ 32) + 2 ^ 192 * (r.len % 2 ^ 16)
    + 2 ^ 208 * (r.stride % 2 ^ 16) + 2 ^ 224 * (r.ebase % 2 ^ 32) + 2 ^ 264 * (r.sctx % 2 ^ 56)
    + 2 ^ 328 * (r.toka % 2 ^ 56) + 2 ^ 392 * (r.sens % 2 ^ 56) + 2 ^ 448 * (r.digest % 2 ^ 64)

/-- Read a segment record at an address taken from registers (R327, R335). -/
def State.segment (s : State) (ctx a : Nat) : Try Segment := do
  if a % 64 ≠ 0 then .error (.acc 0x13#8 a)
  let w ← s.rd ctx a 64
  .ok (segFields a w)

/-- Whether the address fields of a segment record that lead to other objects are aligned: one that is not is a bad field
(R327, R335). -/
def Segment.aligned (r : Segment) : Bool := r.toka % 4 == 0 && r.sctx % 64 == 0

/-- Read the context record that a field of a record names: a misaligned one is a bad field (R318, R327). -/
def State.kvWord (s : State) (ctx a : Nat) : Try Nat := do
  need (a % 64 == 0) a
  s.rd ctx a 64

/-- Read and check the context record that a field of a record names (R318, R327). -/
def State.kvField (s : State) (ctx a : Nat) : Try KvCtx := do
  let w ← s.kvWord ctx a
  need (kvOk w) a
  .ok (kvFields a w)

/-- The offsets of a segment's used entries, block by block (R335). -/
def usedOffsets (r : Segment) (c : KvCtx) : List (Nat × Nat) :=
  (List.range r.len).flatMap (fun b => (List.range (c.layers * c.heads)).map (fun u => (b, b * r.stride + u)))

/-- The span of a segment in entries (R335). -/
def Segment.span (r : Segment) (c : KvCtx) : Nat := (r.len - 1) * r.stride + c.layers * c.heads

/-- `segbegin` (R342). -/
def execSegbegin (h : Hdr) (a b : Opd) (s : State) : Out :=
  s.grpStep h [] (fun x _ => do
    let r ← s.segment x.ctx (x.gpair (opdGno a))
    let c ← s.kvCtx x.ctx (x.gpair (opdGno a + 2))
    let w := (x.g.greg (opdGno b + 1)).toNat
    let n : Segment := { r with
      sctx := c.at_, ebase := (x.g.greg (opdGno b)).toNat, len := bits w 15 0, stride := bits w 31 16, ntok := 0,
      toka := 0, sens := 0, digest := 0, state := 1 }
    need (r.clean && r.aligned && r.state == 0 && r.id != 0 && n.len != 0 && decide (c.layers * c.heads ≤ n.stride)
      && decide (n.ebase + n.span c ≤ c.ecnt)) r.at_
    let s1 ← s.wr x.ctx r.at_ 64 n.toNat
    .ok (.next (s1.finish x [])))

/-- The checks of `segseal` on one used entry, giving its frame (R343). -/
def State.sealCheck (s : State) (ctx : Nat) (c : KvCtx) (r : Segment) (ntok : Nat) (u : Nat × Nat) : Try Nat := do
  let e ← s.entry ctx c (r.ebase + u.2)
  need e.valid (r.ebase + u.2)
  if e.cln then .error .hold
  let f ← s.frame ctx c e.frame
  if f.q then quarantine c 0 0 e.frame 0
  need (f.fill == (if u.1 + 1 < r.len then 16 else ntok - 16 * (r.len - 1))) e.frame
  need (f.seg == 0 || f.seg == r.id) e.frame
  .ok e.frame

/-- One used frame marked with its segment (R343). -/
def State.sealFrame (ctx : Nat) (c : KvCtx) (id : Nat) (s : State) (f : Nat) : Try State := do
  let x ← s.frame ctx c f
  s.putFrame ctx c f { x with seg := id }

/-- The arrays of a segment just sealed: a store to them from now on counts (R343), and what its record sealed before does not.
Seals of other segments stay, whatever arrays they share. -/
def State.sealed (s : State) (ctx rcd toka sens ntok : Nat) : State :=
  let l : List Seal :=
    ⟨ctx, rcd, toka, 4 * ntok, false⟩ :: (if sens = 0 then [] else [⟨ctx, rcd, sens, ceilDiv ntok 8, false⟩])
  { s with seals := l ++ s.seals.filter (fun x => !(s.sealsOf ctx rcd).contains x) }

/-- A segment record with what `segseal` writes (R335, R343); its other fields keep their values. -/
def sealWord (w ntok toka sens digest : Nat) : Nat :=
  setBits (setBits (setBits (setBits (setBits w 511 448 digest) 447 392 sens) 383 328 toka) 191 160 ntok) 1 0 2

/-- `segseal` (R343). A TOKA of the record that is no multiple of 4 is a bad field before it is written, too (R327). -/
def execSegseal (h : Hdr) (a b : Opd) (s : State) : Out :=
  s.grpStep h [] (fun x _ => do
    let k := opdGno a
    let r ← s.segment x.ctx (x.gpair k)
    let ntok := (x.g.greg (k + 2)).toNat
    let toka := x.gpair (k + 4)
    let sens := x.gpair (k + 6)
    need (r.aligned && r.state == 1 && x.g.greg (k + 3) == 0#32 && decide (16 * (r.len - 1) < ntok) && decide (ntok ≤ 16 * r.len)
      && toka != 0 && toka % 4 == 0 && decide (toka < 2 ^ 56) && decide (sens < 2 ^ 56)) r.at_
    let c ← s.kvField x.ctx r.sctx
    let fs ← (usedOffsets r c).mapM (s.sealCheck x.ctx c r ntok)
    let s1 ← fs.foldlM (State.sealFrame x.ctx c r.id) s
    let w ← s1.rd x.ctx r.at_ 64
    let s2 ← s1.wr x.ctx r.at_ 64 (sealWord w ntok toka sens (x.gpair (opdGno b)))
    .ok (.next ((s2.sealed x.ctx r.at_ toka sens ntok).finish x [])))

/-- What the decision step of `link` found (R344). -/
structure Linking where
  d    : KvCtx
  r    : Segment
  src  : KvCtx
  m    : KvMap
  pos  : Nat
  j    : Nat
  arr  : Nat
  maps : List (Nat × Nat × Nat)
  deriving DecidableEq, Repr

/-- The checks of `link` on one used entry, giving the source entry, the destination entry and the frame (R344). -/
def State.linkCheck (s : State) (ctx : Nat) (c d : KvCtx) (eb j u : Nat) : Try (Nat × Nat × Nat) := do
  let se ← s.entry ctx c (eb + u)
  let de ← s.entry ctx d (j + u)
  need (se.valid && !de.valid) (j + u)
  if se.cln then .error .hold
  let f ← s.frame ctx c se.frame
  if f.q then quarantine c 0 0 se.frame 0
  .ok (eb + u, j + u, se.frame)

/-- Whether a frame has room for its increments (R344). -/
def State.refcRoom (s : State) (ctx : Nat) (c : KvCtx) (fs : List Nat) (f : Nat) : Try Unit := do
  let x ← s.frame ctx c f
  need (decide (x.refc + fs.count f ≤ 65535)) f

/-- Every check of `link` that comes before the outcome of a comparison (R344): the record at r.SCTX is read first, then it
and d are checked. -/
def State.linkChecks (s : State) (x : Site) (vfy : Bool) (a b : Opd) : Try Linking := do
  let k := opdGno a
  let r ← s.segment x.ctx (x.gpair (k + 2))
  let w ← s.kvWord x.ctx r.sctx
  let d ← s.kvCtx x.ctx (x.gpair k)
  need (kvOk w) r.sctx
  let c := kvFields r.sctx w
  need (r.clean && r.state == 2 && r.aligned) r.at_
  need (c.ftab == d.ftab && c.layers == d.layers && c.heads == d.heads && c.hd == d.hd && c.fmt == d.fmt
    && c.kexp == d.kexp && c.vexp == d.vexp) r.sctx
  let pos := (x.g.greg (k + 4)).toNat
  let j := (x.g.greg (k + 5)).toNat
  let arr := x.gpair (k + 6)
  need (vfy || arr == 0) arr
  if arr % 4 ≠ 0 then tryTrap 0x13#8 arr
  need (decide (j + r.span c ≤ d.ecnt) && decide (pos + 16 * r.len ≤ 2 ^ 32)) j
  need (!(c.at_ == d.at_ && overlaps r.ebase (r.span c) j (r.span c))) j
  let m ← s.kvMap x.ctx (x.gpair (opdGno b))
  need (!m.ext.any (fun y => y.start == pos)) pos
  let maps ← (usedOffsets r c).mapM (fun u => s.linkCheck x.ctx c d r.ebase j u.2)
  let fs := maps.map (fun t => t.2.2)
  let _ ← fs.eraseDups.mapM (s.refcRoom x.ctx c fs)
  .ok ⟨d, r, c, m, pos, j, arr, maps⟩

/-- The answer of `link` in its predicate (R344). -/
def State.linkAnswer (s : State) (x : Site) (d : Opd) (v : Bool) : Out :=
  .next ((s.modGroup x.g.key (fun g => g.writeAll d (wordOf v))).finish x [])

/-- The decision step of `link`, after a comparison with its outcome (R344). -/
def State.linkDecide (s : State) (x : Site) (same : Option Bool) (d a b : Opd) : Try Out := do
  let k ← s.linkChecks x same.isSome a b
  if same = some false then .ok (s.linkAnswer x d false)
  else
    let m ← k.m.insert ⟨k.r.id, k.r.stride, k.r.len, k.j, k.pos⟩
    let s1 ← k.maps.foldlM (State.shareOne x.ctx k.src k.d) s
    let s2 ← s1.putMap x.ctx k.m m (some k.pos)
    .ok (s2.linkAnswer x d true)

/-- `link` (R344). -/
def execLink (h : Hdr) (d a b : Opd) (s : State) : Out := s.grpStep h [] (fun x _ => s.linkDecide x none d a b)

/-- The end of a decision: a stop or a park gives up the comparison, and a hold waits with its result (R327, R345). -/
def State.decided (s : State) (x : Site) (r : Try Out) : Out :=
  let s1 := s.modGroup x.g.key (fun g => { g with block := none })
  match r with
  | .ok o => o
  | .error .hold => .next s
  | .error (.acc c va) => .next (s1.conclude x [(lowest x.f.mask, c, va)] [])
  | .error (.trap t) => .next (s1.trap x t)

/-- `link.vfy` (R344, R345): its first issue makes the checks and starts the comparison. -/
def execLinkVfy (h : Hdr) (d a b : Opd) (s : State) : Out :=
  s.grpStep h [] (fun x _ => do
    match x.g.block with
    | some (.vfy _ none _ _ _ _) => .error .hold
    | some (.vfy _ (some v) _ _ _ _) => .ok (s.decided x (s.linkDecide x (some v) d a b))
    | _ =>
      let k ← s.linkChecks x true a b
      let job : DevJob :=
        { die := x.c.die, kind := .compare k.r.at_ k.r.toka k.arr (4 * k.r.ntok) false, crew := x.c.id, gid := x.g.gid,
          ctx := x.ctx, pc := x.f.pc, word := s.word, moved := [], left := 4 * k.r.ntok, paused := false, pauseAt := 0, issued := s.stamp }
      .ok (.next ({ s with djobs := s.djobs ++ [job] }.blockOn x (.vfy (lowest x.f.mask) none d a b s.word))))

/-- `tokenComparisonCompletion` (R345): a store to an array meanwhile makes the outcome either one; so does one to the
segment's tokens since its seal (R343). -/
def execTokenComparisonCompletion (d j : Nat) (s0 : State) : Out :=
  match s0.djob? d j with
  | none => .next s0
  | some x =>
    match x.kind with
    | .compare rcd a b len bad =>
      if x.paused || x.left != 0 then .next s0
      else
        let (s, n) := s0.draw
        let torn := s.storedSince x.ctx a len x.issued || s.storedSince x.ctx b len x.issued || s.sealTorn x.ctx rcd a len
        let same := if torn then Config.pick n % 2 == 0 else !bad
        .next ({ s with djobs := s.djobs.eraseIdx j }.modGroup (x.crew * 32 + x.gid) (fun g =>
          match g.block with
          | some (.vfy low none d a b w) => { g with block := some (.vfy low (some same) d a b w) }
          | _ => g))
    | _ => .next s0

/-- `linkVfyDecision` (R344, R345): the decision of a group whose comparison is complete. -/
def execLinkVfyDecision (gk : Nat) (s : State) : Out :=
  match s.group? gk with
  | none => .next s
  | some g =>
    match g.block with
    | some (.vfy low (some v) d a b w) =>
      match s.siteAt gk low with
      | some x =>
        if g.stat = .run ∧ x.c.stat = .resident then
          let s1 : State := { s with word := w }
          s1.decided x (s1.linkDecide x (some v) d a b)
        else .next s
      | none => .next s
    | _ => .next s

/-- `unlink` (R346). -/
def execUnlink (h : Hdr) (d a b : Opd) (s : State) : Out :=
  s.grpStep h [d] (fun x e => do
    let m ← s.kvMap x.ctx (x.gpair (opdGno a))
    let pos := (x.read s (lowest e) b).toNat
    match m.ext.find? (fun y => y.start == pos && y.seg != 0) with
    | none => .ok (.next ((s.modGroup x.g.key (fun g => g.writeAll d 0xFFFFFFFF#32)).finish x [d]))
    | some y =>
      let s1 ← s.putMap x.ctx m (m.remove pos) (some pos)
      .ok (.next ((s1.modGroup x.g.key (fun g => g.writeAll d (BitVec.ofNat 32 y.base))).finish x [d])))

/-- The header of a rotation table: NPAIR and NPOS (R337). -/
def State.rotHeader (s : State) (ctx : Nat) (c : KvCtx) : Try (Nat × Nat) := do
  let w ← s.rd ctx c.rot 16
  need (bits w 127 48 == 0 && bits w 47 32 == c.hd / 2 && bits w 31 0 != 0) c.rot
  .ok (bits w 47 32, bits w 31 0)

/-- One token of a gather: where it lies (R347). -/
def State.gatherTok (s : State) (ctx : Nat) (c : KvCtx) (m : KvMap) (npos : Option Nat) (p l h : Nat) : Try GatherTok := do
  need (decide (p < 2 ^ 32)) p
  let r ← resolve c m p l h
  let pe ← s.entry ctx c r.entry
  need pe.valid r.entry
  if pe.cln then .error .hold
  let f ← s.frame ctx c pe.frame
  if f.q then quarantine c l h pe.frame p
  need (decide (r.slot < f.fill)) p
  match npos with
  | some n => if n ≤ p then tryTrap 0x2B#8 p
  | none => .ok ()
  .ok { frame := pe.frame, slot := r.slot, data := f.data, pos := p, entryAddr := c.ftab + 16 * pe.frame, fmt := f.fmt,
        kexp := sextNat f.kexp 8, vexp := sextNat f.vexp 8, freed := false }

/-- The number of an arrival action (R341). -/
def arvOf : Arv → Nat
  | .none => 0
  | .set => 1
  | .add => 2

/-- The checks of a gather's two tiles (R347). -/
def gatherTileChecks (x : Site) (ko vo n : Nat) : Try Unit := do
  if ko % 4 ≠ 0 then tryTrap 0x13#8 ko
  if vo % 4 ≠ 0 then tryTrap 0x13#8 vo
  if !x.inWindow ko n then tryTrap 0x12#8 ko
  if !x.inWindow vo n then tryTrap 0x12#8 vo
  need (!overlaps ko n vo n) ko

/-- `kvgath` (R347). A full queue holds it, and waiting groups go oldest first (R262; log entry 52). -/
def execKvgath (h : Hdr) (arv : Arv) (d : Option Opd) (a : Opd) (b : Option Opd) (s : State) : Out :=
  s.grpStep h [] (fun x e => do
    let k := opdGno a
    let g := fun i => (x.g.greg (k + i)).toNat
    let c ← s.kvCtx x.ctx (x.gpair k)
    let m ← s.kvMap x.ctx c.mapv
    let rot ← if c.rot = 0 then .ok none else (s.rotHeader x.ctx c).map some
    need (decide (1 ≤ g 3) && decide (g 3 ≤ 64)) (g 3)
    need (bits (g 4) 31 24 == 0) (g 4)
    need (bits (g 7) 31 19 == 0 && bits (g 7) 15 12 == 0 && decide (bits (g 7) 18 16 ≤ 5)) (g 7)
    let l := bits (g 4) 15 0
    let hh := bits (g 4) 23 16
    let toks ← (List.range (g 3)).mapM (fun t => s.gatherTok x.ctx c m (rot.map (·.2)) (g 2 + t) l hh)
    gatherTileChecks x (g 5) (g 6) (4 * g 3 * c.hd)
    let q := x.c.die * Config.enginesPerDie + bits (g 7) 18 16
    let name := mapName c.mapv
    if Config.engineCap ≤ (s.queue q).length ∨ s.ahead (.engine q) x then .ok (.next (s.waitFor (.engine q) x)) else
    let job : Job :=
      { kind := .gather { rcd := c.at_, layer := l, head := hh, toks := toks, koff := g 5, voff := g 6, hd := c.hd,
                          rot := c.rot, tensor := bits (g 7) 11 0, name := name },
        crew := x.c.id, gid := x.g.gid, ctx := x.ctx, handle := x.l.handle, pc := x.f.pc, word := s.word,
        src := .mem 0, dst := .scr (g 5), len := 4 * g 3 * c.hd, arv := arvOf arv, awOff := (d.map opdAw).getD 0,
        awVal := (b.map (x.read s (lowest e))).getD 0#32, bytes := 8 * g 3 * c.hd, moved := [], left := g 3,
        paused := false, pauseAt := 0, failed := false, issued := s.stamp }
    let s1 := (s.unwait x).setQueue q (s.queue q ++ [job])
    let s2 : State := { s1 with pins := s1.pins ++ [⟨x.ctx, .gather x.g.key, name⟩] }
    .ok (.next (s2.finish x [])))

/-- An element of a frame decoded to FP32 (R348). -/
def fromFrame (fmt : Nat) (ex : Int) (code : Nat) : Nat × Ev :=
  if fmt = 0 then cvtFF bf16 fp32 FEnv.unit code
  else if fmt = 1 then cvtFF fp16 fp32 FEnv.unit code
  else
    match e4m3.val code with
    | .fin n m e => fp32.round FEnv.unit n m (e + ex) false
    | _ => cvtFF e4m3 fp32 FEnv.unit code

/-- The rotation of a pair (R338), each element with its events. -/
def rotPair (c s x y : Nat) : (Nat × Ev) × (Nat × Ev) :=
  let mul := fp32.mul FEnv.unit
  let neg := fun (v : Nat) => if fp32.isNan v then v else fp32.negate v
  let a := mul c x
  let b := mul s y
  let p := fp32.add FEnv.unit a.1 (neg b.1)
  let u := mul s x
  let w := mul c y
  let q := fp32.add FEnv.unit u.1 w.1
  ((p.1, ((a.2.plus b.2).plus p.2).once), (q.1, ((u.2.plus w.2).plus q.2).once))

/-- Split bytes into elements of `es` bytes. -/
def elemsOf (es : Nat) (xs : List Byte) : List Nat := (List.range (xs.length / es)).map (fun k => leNat ((xs.drop (es * k)).take es))

/-- A row of a token as a gather reads it: the bytes, or free ones when they were stored to, or their frame freed, meanwhile
(R349). -/
def State.rowBytes (s : State) (j : Job) (freed : Bool) (seed va n : Nat) : Except Met (List Byte) :=
  match s.cohRead j.ctx va n with
  | .error (some c) => .error (.bad c (s.badAt (.die 0) ⟨j.ctx, va, n, false, false, false, none⟩ c))
  | .error none => .error .hold
  | .ok xs =>
    if freed || s.storedSince j.ctx va n j.issued then
      .ok ((List.range n).map (fun i => Config.free 8 (seed * 2 ^ 40 + i)))
    else .ok xs

/-- Rotate the key elements of a token by the entries of its position (R338, R348). -/
def rotKeys (table : List Nat) (keys : List (Nat × Ev)) : List (Nat × Ev) :=
  (List.range (keys.length / 2)).flatMap (fun j =>
    let x := (keys[2 * j]?).getD (0, Ev.zero)
    let y := (keys[2 * j + 1]?).getD (0, Ev.zero)
    let r := rotPair ((table[2 * j]?).getD 0) ((table[2 * j + 1]?).getD 0) x.1 y.1
    [(r.1.1, (x.2.plus r.1.2).once), (r.2.1, (y.2.plus r.2.2).once)])

/-- Whether an FP32 element is a NaN or an infinity. -/
def nonFinite (x : Nat) : Bool := bits x 30 23 == 255

/-- The rotation entries of a position, `8 × HD / 2` bytes; none without a table. -/
def State.rotEntries (s : State) (j : Job) (x : Gather) (p : Nat) : Except Met (List Nat) :=
  if x.rot = 0 then .ok []
  else
    let va := x.rot + 16 + 8 * (p * (x.hd / 2))
    match s.cohRead j.ctx va (4 * x.hd) with
    | .ok xs => .ok (elemsOf 4 xs)
    | .error (some c) => .error (.bad c (s.badAt (.die 0) ⟨j.ctx, va, 4 * x.hd, false, false, false, none⟩ c))
    | .error none => .error .hold

/-- Elements written as FP32 from a crew-relative address. -/
def State.putElems (s : State) (j : Job) (a : Nat) (xs : List Nat) : State :=
  s.scrWrite j.crew j.gid a (xs.flatMap (leBytes 4)) false

/-- Q of a frame's entry set, a COH store (R348). -/
def State.quarantineSet (s : State) (j : Job) (at_ : Nat) : Met :=
  match s.cohRead j.ctx at_ 16, s.cohKeys j.ctx at_ 16 with
  | .ok xs, .ok keys => .ok ((s.logOwn j.ctx at_ 16 false).memWrite keys (leBytes 16 (setBits (leNat xs) 74 74 1)))
  | .error (some c), _ => .bad c at_
  | _, .error (some c) => .bad c at_
  | _, _ => .hold

/-- Quarantine (R348): Q is set in the frame, the job ends at once, and its group takes trap 0x28. `s1` has Q set. -/
def State.quarantineJob (s1 : State) (e k : Nat) (j : Job) (x : Gather) (t : GatherTok) (done : State → State) : State :=
  let ps := (x.toks.filter (fun y => y.frame == t.frame)).map (·.pos)
  let lo := ps.foldl Nat.min t.pos
  let hi := ps.foldl Nat.max t.pos
  (done s1).jobFault j.crew j.gid
    { j.fault e k 0x28#8 x.rcd with
      info1 := BitVec.ofNat 64 (x.layer + 2 ^ 16 * x.head + 2 ^ 24 * (k % 256) + 2 ^ 32 * t.frame),
      info2 := BitVec.ofNat 64 (lo + 2 ^ 32 * hi) }

/-- The bytes of a gather's tiles that a group stored to since the job's issue are undefined at its completion (R219). -/
def State.taintTiles (s0 : State) (j : Job) (x : Gather) : State :=
  let (s, n) := s0.draw
  let inTile := fun (a : Nat) => overlaps a 1 x.koff j.len || overlaps a 1 x.voff j.len
  (s.storedBytes j).foldl (fun s a =>
    if inTile a then s.scrWrite j.crew j.gid a [Config.free 8 (n * 2 ^ 40 + a)] false else s) s

/-- The completion of a gather: bytes left undefined, the arrival word, then its pin-set entry goes (R348, R229). -/
def State.completeGather (s0 : State) (e k : Nat) (j : Job) (x : Gather) : State :=
  let s := s0.taintTiles j x
  ((s.setQueue e ((s.queue e).eraseIdx k)).arrival j.crew j.arv j.awOff j.awVal j.bytes).removePin
    ⟨j.ctx, .gather (j.crew * 32 + j.gid), x.name⟩

/-- What a fault of a gather's step does (R262): a pause, or the end of the job with its cause. -/
def State.gatherMet (s : State) (e k : Nat) (j : Job) (x : Gather) (m : Met) : State :=
  match m with
  | .ok s1 => s1
  | .hold => s
  | .bad c info =>
    if c = 0x10#8 then (s.jobPause j.crew j.gid (j.fault e k c info)).setJob e k { j with paused := true, pauseAt := info }
    else (s.completeGather e k j x).jobFault j.crew j.gid (j.fault e k c info)

/-- The step of one token (R348, R349). -/
def State.tokenStep (s0 : State) (e k tok : Nat) (j : Job) (x : Gather) (t : GatherTok) : State :=
  let (s, seed) := s0.draw
  let die := dieOfEngine e
  let n := x.hd * fmtBytes t.fmt
  let row := t.data + t.slot * n
  match s.rowBytes j t.freed (2 * seed) row n, s.rowBytes j t.freed (2 * seed + 1) (row + 4096) n, s.rotEntries j x t.pos with
  | .error m, _, _ => s0.gatherMet e k j x m
  | _, .error m, _ => s0.gatherMet e k j x m
  | .ok kb, .ok vb, rt =>
    let keys := (elemsOf (fmtBytes t.fmt) kb).map (fromFrame t.fmt t.kexp)
    let vals := (elemsOf (fmtBytes t.fmt) vb).map (fromFrame t.fmt t.vexp)
    if keys.any (fun q => nonFinite q.1) || vals.any (fun q => nonFinite q.1) then
      match s.quarantineSet j t.entryAddr with
      | .ok s1 =>
        (s1.count die j.ctx x.tensor (Ev.sum ((keys ++ vals).map (·.2)))).quarantineJob e k j x t
          (fun s => s.completeGather e k j x)
      | m => s0.gatherMet e k j x m
    else
      match rt with
      | .error m => s0.gatherMet e k j x m
      | .ok table =>
        let ks := if x.rot = 0 then keys else rotKeys table keys
        let torn := t.freed || s.storedSince j.ctx row n j.issued || s.storedSince j.ctx (row + 4096) n j.issued
          || (x.rot != 0 && s.storedSince j.ctx (x.rot + 16 + 8 * (t.pos * (x.hd / 2))) (4 * x.hd) j.issued)
        let out := fun (base : Nat) (l : List (Nat × Ev)) =>
          l.zipIdx.map (fun q => if torn then (Config.free 32 (seed * 2 ^ 40 + base + q.2)).toNat else q.1.1)
        let s1 := (s.putElems j (x.koff + 4 * tok * x.hd) (out 0 ks)).putElems j (x.voff + 4 * tok * x.hd) (out 1024 vals)
        (s1.count die j.ctx x.tensor (Ev.sum ((ks ++ vals).map (·.2)))).setJob e k
          { j with moved := tok :: j.moved, left := j.left - 1 }

/-- `gatherTokenStep` (R348): engine `e` serves token `tok` of the gather at position `k` of its queue. -/
def execGatherTokenStep (e k tok : Nat) (s : State) : Out :=
  match (s.queue e)[k]? with
  | none => .next s
  | some j =>
    match j.kind with
    | .gather x =>
      match x.toks[tok]? with
      | none => .next s
      | some t => if j.paused || j.moved.contains tok then .next s else .next (s.tokenStep e k tok j x t)
    | _ => .next s

/-- `gatherCompletion` (R348): the oldest job of a queue, once every token has its step. -/
def execGatherCompletion (e : Nat) (s : State) : Out :=
  match s.queue e with
  | [] => .next s
  | j :: _ =>
    match j.kind with
    | .gather x => if j.left = 0 ∧ !j.paused then .next (s.completeGather e 0 j x) else .next s
    | _ => .next s

/-- One thread's rotation (R350). -/
def Site.ropeAt (x : Site) (c : KvCtx) (hdr : Nat × Nat) (d b : Opd) (s : State) (i : Nat) : Acc :=
  let p := (x.read s i b).toNat
  let j := (x.read s i (opdNext b)).toNat
  if hdr.2 ≤ p then .bad 0x2B#8 p
  else if hdr.1 ≤ j then .bad 0x11#8 j
  else
    let va := c.rot + 16 + 8 * (p * hdr.1 + j)
    match s.rd x.ctx va 8 with
    | .error .hold => .hold
    | .error (.acc k a) => .bad k a
    | .error (.trap t) => .bad t.cause va
    | .ok w =>
      let r := rotPair (bits w 31 0) (bits w 63 32) (x.read s i d).toNat (x.read s i (opdNext d)).toNat
      .ok s (BitVec.ofNat 64 (r.1.1 + 2 ^ 32 * r.2.1)) (r.1.2.plus r.2.2)

/-- `ropeq` (R350). -/
def execRopeq (h : Hdr) (d a b : Opd) (s : State) : Out :=
  s.atSite (fun x =>
    let e := x.emask h [d, b]
    if e = 0#32 then .next (s.finish x [d, opdNext d])
    else
      let hdr : Try (KvCtx × Nat × Nat) := do
        let c ← s.kvCtx x.ctx (x.gpair (opdGno a))
        need (c.rot != 0) c.at_
        let r ← s.rotHeader x.ctx c
        .ok (c, r)
      match hdr with
      | .error .hold => .next s
      | .error (.acc k va) => .next (s.conclude x ((lanes e).map (fun i => (i, k, va))) [])
      | .error (.trap t) => .next (s.trap x t)
      | .ok (c, r) => s.memOp h [d, b] (.now d true) (fun _ => 0) (fun x s1 i => x.ropeAt c r d b s1 i))

/-- The sensitivity bits of the tokens below `n` of a segment, as the positions to repair beyond the window (R335,
R351); a mask stored to since the seal reads as a free value (R343). -/
def State.repairOf (s : State) (ctx : Nat) (r : Segment) (w n : Nat) : Try (List Nat) := do
  let l ← (List.range n).mapM (fun i =>
    if i < w then .ok [i]
    else if r.sens = 0 then .ok []
    else (s.rd ctx (r.sens + i / 8) 1).map (fun x0 =>
      let x := if s.sealTorn ctx r.at_ (r.sens + i / 8) 1 then (Config.free 8 (s.free * 2 ^ 40 + r.sens + i / 8)).toNat else x0
      if x.testBit (i % 8) then [i] else []))
  .ok l.flatten

/-- The positions of one extent that need repair (R351). -/
def State.extentRepair (s : State) (ctx t w : Nat) (x : Extent) (next : Option Extent) : Try (List Nat) := do
  if x.seg = 0 then .ok []
  else
    let r ← s.segment ctx (t + 64 * x.seg)
    need (r.aligned && r.id == x.seg && decide (2 ≤ r.state)) r.at_
    let n := Nat.min r.ntok (16 * x.len)
    let n1 := match next with
      | some y => Nat.min n (y.start - x.start)
      | none => n
    let l ← s.repairOf ctx r w n1
    .ok (l.map (fun i => x.start + i))

/-- The repair set of the extents after the first (R351). -/
def State.repairSet (s : State) (ctx t w : Nat) : List Extent → Try (List Nat)
  | [] => .ok []
  | x :: r => do
    let a ← s.extentRepair ctx t w x r.head?
    let b ← s.repairSet ctx t w r
    .ok (a ++ b)

/-- `repset` (R351). -/
def execRepset (h : Hdr) (d a : Opd) (s : State) : Out :=
  s.grpStep h [d] (fun x _ => do
    let k := opdGno a
    let g := fun i => (x.g.greg (k + i)).toNat
    let c ← s.kvCtx x.ctx (x.gpair k)
    let m ← s.kvMap x.ctx c.mapv
    need (decide (g 6 ≤ 65536)) (g 6)
    need (g 7 == 0) (g 7)
    if g 5 % 4 ≠ 0 then tryTrap 0x13#8 (g 5)
    if !x.inWindow (g 5) (4 * g 6) then tryTrap 0x12#8 (g 5)
    let ps ← s.repairSet x.ctx (x.gpair (k + 2)) (g 4) m.ext.tail
    let s1 := s.draw.1.scrWrite x.c.id x.g.gid (g 5) ((ps.take (g 6)).flatMap (leBytes 4))
    .ok (.next ((s1.modGroup x.g.key (fun g => g.writeAll d (BitVec.ofNat 32 ps.length))).finish x [d])))

/-- An overlay set (R352). -/
structure Overlay where
  flist : Nat
  nmap  : Nat
  bver  : Nat
  nent  : Nat
  tgt   : Nat
  state : Nat
  clean : Bool
  deriving DecidableEq, Repr

/-- The fields of an overlay set. -/
def ovlFields (w : Nat) : Overlay :=
  ⟨bits w 255 200, bits w 191 136, bits w 127 96, bits w 95 64, bits w 63 32, bits w 1 0,
   bits w 199 192 == 0 && bits w 135 128 == 0 && bits w 31 2 == 0⟩

/-- The frame words of an overlay set that install an entry: entry and frame (R352, R353). -/
def State.ovlWords (s : State) (ctx : Nat) (c : KvCtx) (o : Overlay) : Try (List (Nat × Nat)) := do
  let l ← (List.range o.nent).mapM (fun k => do
    let w ← s.rd ctx (o.flist + 4 * k) 4
    if !w.testBit 31 then .ok none
    else
      need (bits w 30 29 == 0 && decide (bits w 28 0 < c.fcnt)) w
      let e ← s.entry ctx c (o.tgt + k)
      let f ← s.frame ctx c (bits w 28 0)
      need (!e.valid && f.refc == 0) (o.tgt + k)
      .ok (some (o.tgt + k, bits w 28 0)))
  .ok (l.filterMap id)

/-- One overlay entry installed (R353). -/
def State.ovlInstall (ctx : Nat) (c : KvCtx) (s : State) (t : Nat × Nat) : Try State := do
  let s1 ← s.putEntry ctx c t.1 ⟨true, false, false, t.2⟩
  let f ← s1.frame ctx c t.2
  s1.putFrame ctx c t.2 { f with refc := 1 }

/-- `ovlcommit` (R353). -/
def execOvlcommit (h : Hdr) (d a b : Opd) (s : State) : Out :=
  s.grpStep h [] (fun x _ => do
    let c ← s.kvCtx x.ctx (x.gpair (opdGno a))
    let oa := x.gpair (opdGno b)
    if oa % 32 ≠ 0 then .error (.acc 0x13#8 oa)
    let w ← s.rd x.ctx oa 32
    let o := ovlFields w
    need (o.clean && o.state == 0 && decide (o.nent ≤ 65536) && decide (o.tgt + o.nent ≤ c.ecnt)
      && o.flist % 4 == 0 && o.nmap % 16 == 0) oa
    let _ ← s.kvMap x.ctx o.nmap
    need (o.nmap != c.mapv) o.nmap
    let ver ← s.rd x.ctx c.mapv 4
    let answer := fun (s : State) (v : Bool) =>
      Host.Outcome.next ((s.modGroup x.g.key (fun g => g.writeAll d (wordOf v))).finish x [])
    if ver ≠ o.bver then
      let s1 ← s.wr x.ctx oa 4 2
      .ok (answer s1 false)
    else
      let l ← s.ovlWords x.ctx c o
      need (!repeated (l.map (·.2))) oa
      let s1 ← l.foldlM (State.ovlInstall x.ctx c) s
      let s2 ← s1.wr x.ctx o.nmap 4 ((o.bver + 1) % 2 ^ 32)
      let s3 ← s2.wr x.ctx (c.at_ + 49) 7 o.nmap
      let s4 ← s3.wr x.ctx oa 4 1
      .ok (answer s4 true))

end Sys2Proof.Machine
end

