-- ==== Sys2Proof/Machine/System.lean ====
section
/-!
DEFINITION. System instructions (R395 to R400), the speculation depth (R361), and what the control core and the buffers
do: park service, the debug window, fills, cleans and drops, the delivery of job causes (R205, R262, R386, R392 to R394).
-/

namespace Sys2Proof.Machine

/-- The number of a group register result written at once. -/
def State.answer (s : State) (x : Site) (d : Opd) (n : Nat) : Out :=
  .next ((s.modGroup x.g.key (fun g => g.writeAll d (BitVec.ofNat 32 n))).finish x [d])

/-- Read the launch record at a pair (R371). -/
def State.launchRec (s : State) (ctx a : Nat) : Try LRec := do
  if a % 64 ≠ 0 then .error (.acc 0x13#8 a)
  let w ← s.rd ctx a 64
  .ok (lrecOf w)

/-- `launch` (R396). -/
def execLaunch (h : Hdr) (d a : Opd) (s : State) : Out :=
  s.grpStep h [d] (fun x _ => do
    need (x.ctx == 0) x.ctx
    let r ← s.launchRec x.ctx (x.gpair (opdGno a))
    let n := (s.observe r.ctx).accept r.ctx x.ctx none r
    .ok (n.1.answer x d n.2))

/-- `fork` (R48, R281, R397). -/
def execFork (h : Hdr) (d a : Opd) (s : State) : Out :=
  s.grpStep h [d] (fun x _ => do
    let r ← s.launchRec x.ctx (x.gpair (opdGno a))
    let n := s.accept x.ctx x.ctx (some x.c) r
    .ok (n.1.answer x d n.2))

/-- `trap` (R398): the resume address is the word after the trap's `trail` (R393). -/
def execTrap (h : Hdr) (code : BitVec 16) (s : State) : Out :=
  s.uni h (fun x _ => .next (s.stop x (Trap.one 0x40#8 code.toNat) 0#32 true (x.f.pc + 24))) []

/-- The special register an operand names. -/
def opdSr : Opd → SReg
  | .sr r => r
  | _ => .gwidth

/-- Whether a number is even. -/
def evenReg (d : Opd) : Bool := opdGno d % 2 == 0

/-- The context that B names (R395, R399) and the state in which the device has observed its entry as it stands now (R368);
no context stands for trap 0x11. `other` says that the register may be another context's. -/
def Site.ctxArg (x : Site) (s : State) (i : Nat) (b : Option Opd) (other : Bool) : State × Option Nat :=
  match b with
  | none => (s, some x.ctx)
  | some o =>
    let c := (x.read s i o).toNat
    if x.ctx ≠ 0 ∨ (c ≠ x.ctx ∧ !other) then (s, none)
    else
      let n := s.observe c
      (n, if ((n.ctx? c).map (·.valid)).getD false then some c else none)

/-- Whether a special register belongs to a context and may be read of another one (R399). -/
def srOther (r : SReg) : Bool := r == .ybound || r == .specdepth

/-- A special register of a context (R399). -/
def Site.srOf (x : Site) (s : State) (i c : Nat) (r : SReg) : Word :=
  match r with
  | .ybound => BitVec.ofNat 32 (s.ybound c)
  | .specdepth => ((s.ctx? c).map (·.depth)).getD 0#32
  | r => x.sreg s i r

/-- A whole counter, for the registers that name one (R399). -/
def counterOf (s : State) (r : SReg) : Option DWord :=
  match r with
  | .tsclo => some s.tsc
  | .refclklo => some (BitVec.ofNat 64 (s.nanos / 10))
  | _ => none

/-- `srd` (R399). -/
def execSrd (h : Hdr) (d a : Opd) (b : Option Opd) (s : State) : Out :=
  s.uni h (fun x e =>
    let r := opdSr a
    match x.ctxArg s (lowest e) b (srOther r) with
    | (s, none) => .next (s.trap x (Trap.one 0x11#8 ((b.map (x.read s (lowest e))).getD 0#32).toNat))
    | (s, some c) =>
      match counterOf s r with
      | some v =>
        if evenReg d then
          .next ((s.modGroup x.g.key (fun g => g.write64 true e d (fun _ => v))).finish x [d, opdNext d])
        else .next (s.trap x (Trap.one 0x11#8 (opdGno d)))
      | none => .next ((s.modGroup x.g.key (fun g => g.writeAll d (x.srOf s (lowest e) c r))).finish x [d])) [d]

/-- The register after a write of sr.specdepth (R361); none when the writer is refused. -/
def depthWrite (old v : Word) : Option Word :=
  let pv := v.getLsbD 31
  let imm := v.getLsbD 30
  let lvl := bits v.toNat 26 24
  let pend := bits v.toNat 15 8
  if bits v.toNat 29 27 != 0 || (pv && imm) || decide (4 < lvl) || decide (barLimit lvl ≤ bits v.toNat 23 16)
      || decide (63 < pend) then none
  else if pv then some ((v &&& 0x87FFFF00#32) ||| (old &&& 0xFF#32))
  else if imm then some (BitVec.ofNat 32 pend)
  else some (old &&& 0xFF#32)

/-- Write a context's sr.specdepth (R361). -/
def State.writeDepth (s : State) (ctx : Nat) (v : Word) : Option State :=
  (s.ctx? ctx).bind (fun c => (depthWrite c.depth v).map (fun w => s.setCtx { c with depth := w }))

/-- What `swr` writes; none is trap 0x11 (R400). -/
def State.swrDo (s : State) (x : Site) (r : SReg) (c : Nat) (own : Bool) (v : Word) : Option State :=
  match r with
  | .fpmode => if own && fpmodeOk v then some (s.modGroup x.g.key (fun g => { g with fpmode := v })) else none
  | .ybound =>
    if x.ctx = 0 ∧ 1024 ≤ v.toNat ∧ v.toNat ≤ 65536 then (s.ctx? c).map (fun k => s.setCtx { k with ybound := v.toNat })
    else none
  | .specdepth => if x.ctx = 0 then s.writeDepth c v else none
  | _ => none

/-- `swr` (R400). -/
def execSwr (h : Hdr) (d a : Opd) (b : Option Opd) (s : State) : Out :=
  s.uni h (fun x e =>
    let r := opdSr d
    let v := x.read s (lowest e) a
    let n := x.ctxArg s (lowest e) b (srOther r)
    match n.2.bind (fun c => n.1.swrDo x r c b.isNone v) with
    | some s1 => .next (s1.finish x [])
    | none => .next (n.1.trap x (Trap.one 0x11#8 v.toNat))) []

/-- A write of a context's sr.specdepth by the control core of a die (R361); a refused one changes nothing. -/
def State.depthEvent (s : State) (ctx : Nat) (v : Word) (kind : Bool) : Out :=
  if kind then .next ((s.writeDepth ctx v).getD s) else .next s

/-- A write of a context's sr.ybound by the control core of a die (R45); one out of range changes nothing. -/
def State.yboundWrite (s : State) (ctx v : Nat) : State :=
  if 1024 ≤ v ∧ v ≤ 65536 then
    match s.ctx? ctx with
    | some c => s.setCtx { c with ybound := v }
    | none => s
  else s

/-- `specdepthSetPending` (R361): PV set. -/
def execSpecdepthSetPending (ctx : Nat) (value : Word) (s : State) : Out :=
  s.depthEvent ctx value (value.getLsbD 31 && !value.getLsbD 30)

/-- `specdepthApplyImmediate` (R361): IMM set. -/
def execSpecdepthApplyImmediate (ctx : Nat) (value : Word) (s : State) : Out :=
  s.depthEvent ctx value (!value.getLsbD 31 && value.getLsbD 30)

/-- `specdepthCancel` (R361): PV and IMM clear. -/
def execSpecdepthCancel (ctx : Nat) (value : Word) (s : State) : Out :=
  s.depthEvent ctx value (!value.getLsbD 31 && !value.getLsbD 30)

/-- Whether a line is one of streamed pages now (R200). -/
def State.strLine (s : State) (ctx line : Nat) : Bool :=
  match translate s ctx (line * 128) with
  | .page p => p.cls == 1 && p.rd
  | _ => false

/-- `bufferFill` (R205): an absent line of a STR page comes into a buffer, clean. -/
def execBufferFill (b : BufId) (ctx line : Nat) (s : State) : Out :=
  if s.strLine ctx line then .next (s.fillLine b (dieOfBuf b) ctx line) else .next s

/-- `bufferClean` (R205). -/
def execBufferClean (b : BufId) (ctx line : Nat) (s : State) : Out := .next (s.cleanLine b (dieOfBuf b) ctx line)

/-- `bufferDrop` (R205): a line with no dirty bytes. -/
def execBufferDrop (b : BufId) (ctx line : Nat) (s : State) : Out :=
  match s.line? b ctx line with
  | some x => if x.dirty = 0#128 then .next (s.dropLine b ctx line) else .next s
  | none => .next s

/-- Whether a group is between instructions and may be stopped by a job's cause (R262, R386): it runs, its replay is over,
the word at whose fetch it parked has issued, and its crew is on a core. -/
def State.deliverable (s : State) (g : Group) : Bool :=
  g.stat == .run && !g.jobFaults.isEmpty && g.all.all (fun f => f.replay.isNone && !f.due)
    && ((s.crew? g.crew).map (fun c => c.stat)) == some CrewStat.resident

/-- `jobFaultDelivery` (R262, R386). -/
def execJobFaultDelivery (gk : Nat) (s : State) : Out :=
  match s.group? gk with
  | some g => if s.deliverable g then .next (s.deliver gk) else .next s
  | none => .next s

/-- The run-time installs a leaf (R392, R401): a COH store of its eight bytes at its physical key. -/
def State.install (s : State) (l : Leaf) : State :=
  s.memWrite ((List.range 8).map (fun i => l.key + i)) (leBytes 8 l.value.toNat)

/-- A parked group whose service found no mapping (R392): a second record with cause 0x11, and it stops. -/
def State.parkFails (s : State) (g : Group) (low va : Nat) (w : IWord) : State :=
  match g.all.find? (fun f => lowest f.mask == low), s.crew? g.crew with
  | some f, some c =>
    match s.launch? c.handle with
    | some l =>
      let x : Site := ⟨{ g with stat := .run }, f, c, l⟩
      let m := f.replay.getD 0#32
      (State.setGroup { s with word := w } { g with stat := .run }).stopWith x (Trap.one 0x11#8 va) flagSecond m false f.pc
    | none => s
  | _, _ => s

/-- The service of a group's park (R236, R392). A clone's park ends with its clones (R328); one whose crew is away is
serviced when it is placed again (R47). -/
def State.serveGroup (s : State) (gk : Nat) (leaf : Option Leaf) : State :=
  match s.group? gk with
  | none => s
  | some g =>
    match g.stat, (s.crew? g.crew).map Crew.stat with
    | .parked low false va w, some .resident =>
      (match leaf with
       | some l => (s.install l).setGroup { g with stat := .run }
       | none => s.parkFails g low va w)
    | _, _ => s

/-- The failed service of a copy job's pause (R262, R392). -/
def State.failJob (s : State) (e k : Nat) (j : Job) : State :=
  let f := j.fault e k 0x11#8 j.pauseAt
  match j.kind with
  | .gather x => (s.completeGather e k { j with failed := true } x).jobFault j.crew j.gid f (flagJob + flagSecond)
  | _ => (s.completeJob e k { j with failed := true }).jobFault j.crew j.gid f (flagJob + flagSecond)

/-- The service of a copy job's pause (R262, R392). -/
def State.serveEngine (s : State) (e k : Nat) (leaf : Option Leaf) : State :=
  match (s.queue e)[k]? with
  | none => s
  | some j =>
    if !j.paused then s
    else
      match leaf with
      | some l => (s.install l).setJob e k { j with paused := false }
      | none => s.failJob e k j

/-- The failed service of a device job's pause (R326, R345, R392). A clone that only had to end ends. -/
def State.failDevice (s : State) (j : Nat) (x : DevJob) : State :=
  match x.kind with
  | .clone _ _ _ _ name =>
    if x.left = 0 then (s.draw.1.cloneEnd j x name).jobFault x.crew x.gid (x.fault s j 0x11#8 x.pauseAt) (flagJob + flagSecond)
    else s.devMet j x x (.bad 0x11#8 x.pauseAt) (flagJob + flagSecond)
  | _ => s.devMet j x x (.bad 0x11#8 x.pauseAt) (flagJob + flagSecond)

/-- The service of a device job's pause (R326, R345, R392). -/
def State.serveDevice (s : State) (d j : Nat) (leaf : Option Leaf) : State :=
  match s.djob? d j with
  | none => s
  | some x =>
    if !x.paused then s
    else
      match leaf with
      | some l => (s.install l).setDjob j { x with paused := false }
      | none => s.failDevice j x

/-- The second record of a Cascade job's pause whose service failed (R392). -/
def State.failCasc (s : State) (crew k : Nat) (j : CascJob) : State :=
  match s.crew? crew with
  | none => s
  | some c => s.jobRecord crew j.gid (j.record c 0x11#8 j.failAt k) (flagJob + flagSecond)

/-- The service of a Cascade job's pause (R285, R301, R392). -/
def State.serveCascade (s : State) (crew k : Nat) (leaf : Option Leaf) : State :=
  match (s.crew? crew).bind (fun c => c.unit.jobs[k]?) with
  | none => s
  | some j =>
    if !j.paused then s
    else
      match leaf with
      | some l => (s.install l).setCasc crew k { j with paused := false }
      | none => (s.failCasc crew k j).setCasc crew k { j with paused := false, fault := some 0x11#8 }

/-- `parkService` (R236, R392): the control core installs the missing mapping, or learns that there is none. -/
def execParkService (w : Parked) (leaf : Option Leaf) (s : State) : Out :=
  match w with
  | .group gk => .next (s.serveGroup gk leaf)
  | .engine e k => .next (s.serveEngine e k leaf)
  | .device d k => .next (s.serveDevice d k leaf)
  | .cascade c k => .next (s.serveCascade c k leaf)

/-- `debugResume` (R394). -/
def execDebugResume (gk : Nat) (s : State) : Out := .next (s.resume gk)

/-- `debugKill` (R394): of a stopped group. -/
def execDebugKill (gk : Nat) (s : State) : Out :=
  match s.group? gk with
  | none => .next s
  | some g =>
    match g.stat, s.crew? g.crew with
    | .stopped _ _ _, some c => .next (s.kill gk c.handle)
    | _, _ => .next s

/-- A stopped group patched through its debug window (R393). -/
def Group.patch (g : Group) (vregs low resume : Nat) (w : IWord) (off : Nat) (v : Word) : Group :=
  let n := off / 4
  if off < 0x8000 then
    (if n < vregs * 32 then { g with v := g.v.set n v } else g)
  else if off < 0x8100 then { g with g := g.g.set ((off - 0x8000) / 4) v }
  else if off < 0x8120 then
    (if off = 0x8100 then g else { g with p := g.p.set ((off - 0x8100) / 4) v })
  else if 0x8400 ≤ off ∧ off < 0x8800 then
    let k := (off - 0x8400) / 4
    { g with t := g.t.set (k % 32 * 8 + k / 32) v }
  else if off = 0x8800 then { g with stat := .stopped low (resume / 2 ^ 32 * 2 ^ 32 + v.toNat) w }
  else if off = 0x8804 then { g with stat := .stopped low (resume % 2 ^ 32 + 2 ^ 32 * v.toNat) w }
  else if off = 0x8808 then (if fpmodeOk v then { g with fpmode := v } else g)
  else g

/-- What a read of a stopped group's debug window returns (R393). -/
def Group.window (g : Group) (vregs low resume off : Nat) : Word :=
  let n := off / 4
  let f := (g.all.find? (fun f => lowest f.mask == low)).getD (Frag.start 0#32 0)
  if off < 0x8000 then (if n < vregs * 32 then g.v.get n else 0#32)
  else if off < 0x8100 then g.g.get ((off - 0x8000) / 4)
  else if off < 0x8120 then (if off = 0x8100 then allThreads else g.p.get ((off - 0x8100) / 4))
  else if 0x8200 ≤ off ∧ off < 0x8220 then (g.pinOf ((off - 0x8200) / 8)).extractLsb' (32 * (n % 2)) 32
  else if 0x8400 ≤ off ∧ off < 0x8800 then
    let k := (off - 0x8400) / 4
    g.t.get (k % 32 * 8 + k / 32)
  else if off = 0x8800 then BitVec.ofNat 32 resume
  else if off = 0x8804 then BitVec.ofNat 32 (resume / 2 ^ 32)
  else if off = 0x8808 then g.fpmode
  else if off = 0x880C then g.faultmask
  else if off = 0x8810 then BitVec.ofNat 32 (g.wdog - f.count)
  else if 0x8820 ≤ off ∧ off < 0x88A0 then
    let k := (off - 0x8820) / 16
    match g.frags[k]? with
    | none => 0#32
    | some q =>
      if n % 4 = 0 then q.mask
      else if n % 4 = 2 then BitVec.ofNat 32 q.pc
      else if n % 4 = 3 then BitVec.ofNat 32 (q.pc / 2 ^ 32)
      else 0#32
  else 0#32

/-- The resident group whose debug window holds an address of a die's control core, and the offset in the window (R393). -/
def State.windowGroup (s : State) (die addr : Nat) : Option (Group × Nat) :=
  let a := addr - 0x00F000000000
  if addr < 0x00F000000000 ∨ Config.coresPerDie * 0x2000000 ≤ a then none
  else
    let core := die * Config.coresPerDie + a / 0x2000000
    (s.groups.find? (fun g => g.live && g.lane == a / 0x100000 % 32 && g.slot == a / 0x20000 % 8
      && (match s.crew? g.crew with
          | some c => c.stat == .resident && c.core == core
          | none => false))).map (fun g => (g, a % 0x20000))

/-- What a read of a word of a debug window returns (R393): undefined where no group is stopped there, a free value (log
entry 4). -/
def State.windowRead (s : State) (die addr : Nat) : Word :=
  let open_ := Config.free 32 (s.free * 2 ^ 40 + 2 ^ 39 + addr % 2 ^ 39)
  match s.windowGroup die addr with
  | none => open_
  | some (g, off) =>
    match g.stat, (s.crew? g.crew).bind (fun c => s.launch? c.handle) with
    | .stopped low resume _, some l => g.window l.desc.vregs low resume off
    | _, _ => open_

/-- `debugWindowWrite` (R393): an aligned word; ignored while the group is not stopped. The control word acts as R394 says. -/
def execDebugWindowWrite (gk off : Nat) (value : Word) (s : State) : Out :=
  match s.group? gk with
  | none => .next s
  | some g =>
    match g.stat, s.crew? g.crew with
    | .stopped low resume w, some c =>
      match s.launch? c.handle with
      | some l =>
        if off % 4 ≠ 0 then .next s
        else if off = 0x8814 then
          (if value = 1#32 then .next (s.resume gk) else if value = 2#32 then .next (s.kill gk c.handle) else .next s)
        else .next (s.setGroup (g.patch l.desc.vregs low resume w off value))
      | none => .next s
    | _, _ => .next s

end Sys2Proof.Machine
end

