-- ==== Sys2Proof/Machine/Sched.lean ====
section
/-!
DEFINITION. The schedulers: offers and placement (R23, R30, R33, R34, R376 to R378), replayed placement (R423, R424),
retirement and the end of a launch (R178, R213, R250, R384), context switches (R47, R214, R302, R368, R381 to R383).
-/

namespace Sys2Proof.Machine

/-- Whether one crew is offered before another (R377). -/
def Cand.before (a b : Cand) : Bool :=
  if a.prio ≠ b.prio then decide (b.prio < a.prio)
  else if a.crew.isSome ≠ b.crew.isSome then a.crew.isSome
  else if a.pos ≠ b.pos then decide (a.pos < b.pos)
  else decide (a.lin < b.lin)

/-- A kernel's buffer records on the move hold the placement that reads them (R403). -/
def State.touchRecs (s : State) (l : Launch) : State :=
  s.touchAll l.ctx ((List.range l.desc.recCnt).map (fun k => (l.image.recs + 40 * (l.desc.rec0 + k), 40)))

/-- The record of a kernel's table as a placement reads it (R129). What a crew has of one that cannot be read then is open: the
placement goes on, and the record is a free value (the model's choice: log entry 21). -/
def State.recordAt (s : State) (l : Launch) (k : Nat) : Rec :=
  let a := l.image.recs + 40 * (l.desc.rec0 + k)
  match (if s.tableTorn l.handle a 40 then none else s.cohNat? l.ctx a 40) with
  | some w => BitVec.ofNat 320 w
  | none => Config.free 320 (s.free * 2 ^ 40 + k)

/-- The core that takes a crew: its split on an empty core, and its marks cleared then (R33, R34). -/
def State.takeCore (s : State) (core : Nat) (l : Launch) : State :=
  if (s.resident core none).isEmpty then s.setCore ⟨core, l.split, false, false⟩ else s

/-- A group before its first instruction (R24, R27, R30, R45, R379). -/
def groupStart (l : Launch) (crew gid prio ybound n : Nat) (st : Seat) : Group :=
  { crew := crew, gid := gid, role := l.roleOf gid, lane := st.lane, slot := st.slot, vbase := st.vbase,
    v := Bank.zero 32, g := ⟨l.args, []⟩, p := Bank.zero 32, t := ⟨[], [⟨0, 256, n⟩]⟩, pins := [],
    fpmode := l.desc.fpmode, faultmask := 0#32, tscHi := none, refHi := none,
    frags := [Frag.start allThreads (l.entryOf gid)], spilled := [], splitNo := 0,
    wdog := Nat.min (l.desc.deadline + 1) ybound, prio := prio, stat := .run, block := none, recount := false, out := [],
    jobFaults := [], opening := 0, barPh := [] }

/-- A new crew placed (R22, R30, R267, R274, R283). What its scratchpad window holds is open: free (log entry 4). -/
def State.placeNew (s0 : State) (l : Launch) (core : Nat) (p : Spot) : State :=
  let (s, n) := s0.draw
  let c : Crew :=
    { id := s.crewNo, handle := l.handle, lin := l.next, core := core, base := p.base, stat := .resident,
      scr := ⟨[], [⟨0, l.desc.scratch, n⟩]⟩, poison := [], aw := Bank.zero 8, recs := (List.range l.desc.recCnt).map (s.recordAt l),
      insts := (l.bars.filter (fun b => b.level == 0)).map BarInst.start, hasUnit := l.matrix, unit := CascUnit.zero,
      children := 0, pending := none, past := [], strLines := [], slots := 0, slot0 := 0, savedAt := 0 }
  let gs := p.seats.map (fun e => groupStart l c.id e.1 (s.queuePrio l) (s.ybound l.ctx) (n + 2 ^ 20 * (e.1 + 1)) e.2)
  let s1 := (s.takeCore core l).setLaunch { l with next := l.next + 1 }
  { s1 with crews := s1.crews ++ [c], groups := s1.groups ++ gs, crewNo := s1.crewNo + 1 }

/-- Whether a store reached the slots of a saved image (R382). -/
def State.imageTorn (s : State) (ctx : Nat) (c : Crew) : Bool :=
  s.storedSince ctx (c.slot0 * 2 ^ 16) (c.slots * 2 ^ 16) c.savedAt

/-- A free number below `m`, of a seed (log entry 4). -/
def someBelow (n k m : Nat) : Nat := Config.pick (n * 2 ^ 40 + 2 ^ 39 + k) % m

/-- A free word of a seed. -/
def someWord (n k : Nat) : Word := Config.free 32 (n * 2 ^ 40 + 2 ^ 39 + k)

/-- The fragments of a group whose saved image was stored to (R382): at most eight, of which nothing is known but that they
divide some of its threads. -/
def freeFrags (n : Nat) : List Frag :=
  let mask := fun (j : Nat) => maskOf (fun i => someBelow n i 9 == j)
  let frag := fun (j : Nat) (m : Word) =>
    { Frag.start m (someBelow n (100 + j) (2 ^ 56)) with
      stack := (List.range (someBelow n (110 + j) 32)).map (fun k =>
        (someBelow n (1000 + 64 * j + k) (2 ^ 56), someBelow n (2000 + 64 * j + k) (2 ^ 16))),
      count := someBelow n (120 + j) 65537 }
  let l := ((List.range 8).filter (fun j => mask j != 0#32)).map (fun j => frag j (mask j))
  if l.isEmpty then [frag 0 allThreads] else l

/-- The stop of a group with other fragments: a park goes on at one of them. -/
def GroupStat.refit (st : GroupStat) (fs : List Frag) : GroupStat :=
  match st with
  | .parked _ c va w => .parked (((fs.head?).map (fun f => lowest f.mask)).getD 0) c va w
  | st => st

/-- The state of a group whose saved image was stored to is undefined (R382): registers, addresses, masks, the split table,
the floating mode, the watchdog and its count, the priority, the latches and the phases of its arrivals. -/
def Group.havocAll (g : Group) (n : Nat) : Group :=
  let fs := freeFrags n
  { g with
    v := g.v.havoc 0 8192 n, g := g.g.havoc 0 64 n, p := g.p.havoc 1 8 n, t := g.t.havoc 0 256 n,
    fpmode := someWord n 130 &&& 0x77#32, faultmask := someWord n 131, tscHi := some (someWord n 132),
    refHi := some (someWord n 133), frags := fs, spilled := [], splitNo := someBelow n 134 (2 ^ 16),
    wdog := 1 + someBelow n 135 65536, prio := someBelow n 136 8, stat := g.stat.refit fs, block := none, recount := false,
    barPh := g.barPh.map (fun e => (e.1, someWord n (3000 + e.1))) }

/-- The unit of a crew that leaves its core: parts that no entry names are undefined (R302). -/
def CascUnit.leave (u : CascUnit) (es : List LiveEnt) (n : Nat) : CascUnit :=
  let u1 : CascUnit := if es.any (·.perm) then u
    else { u with perm := u.perm.havoc 0 64 n, cbs := u.cbs.havoc 0 16 (n + 2 ^ 20),
                  permT := (List.range 64).map (fun k => (k, Config.pick (n * 2 ^ 40 + k) % 4096)) }
  let u2 : CascUnit := if es.any (·.ws) then u1 else { u1 with ws := u1.ws.havoc 0 64 (n + 2 ^ 21) }
  if es.any (·.ring) then u2
  else
    let p := fun k m => Config.pick (n * 2 ^ 40 + 2 ^ 39 + k) % m
    { u2 with slots := (List.range 8).map (fun k => ⟨p k 3, p (k + 8) 2 == 1⟩), ring := u2.ring.havoc 0 32768 (n + 2 ^ 22),
              head := p 16 8, tail := p 17 8, epc := Config.free 128 (n * 2 ^ 40 + 2 ^ 39 + 18) }

/-- A `core` barrier instance of a crew whose saved image was stored to (R267, R382). -/
def BarInst.havoc (b : BarInst) (gks : List Nat) (n : Nat) : BarInst :=
  let k := 16 * b.index
  { b with phase := someWord n (140 + k), expect := someBelow n (141 + k) (2 ^ 24), count := someBelow n (142 + k) (2 ^ 24),
           drops := someBelow n (143 + k) (2 ^ 24), arrived := gks.filter (fun g => (someWord n (144 + k)).getLsbD (g % 32)),
           dropped := gks.filter (fun g => (someWord n (145 + k)).getLsbD (g % 32)) }

/-- Whether a group is blocked in its instruction, and not parked by it (R46, R47). -/
def Group.blocked (g : Group) : Bool :=
  g.block.isSome && (match g.stat with
    | .parked _ _ _ _ => false
    | _ => true)

/-- A group of a saved crew on its new seat: one stopped at a yield runs, a blocked one executes its instruction again,
which starts a run (R46, R47, R67, R383). -/
def Group.reseat (g : Group) (st : Seat) : Group :=
  let anew := fun (f : Frag) => if g.blocked then { f with pos := 0, tw := 0#8 } else f
  { g.unhold with lane := st.lane, slot := st.slot, vbase := st.vbase, recount := g.block.isSome,
                  frags := g.frags.map anew, spilled := g.spilled.map anew }

/-- A line of a buffer as the next level holds it, but for its own dirty bytes, which stay (R210). Where the next level
cannot be read now, the turn is held (log entry 59). -/
def State.refreshLine (s : State) (b : BufId) (die : Nat) (x : BufLine) : State :=
  let s1 := (s.dropLine b x.ctx x.line).fillLine b die x.ctx x.line
  match s1.line? b x.ctx x.line with
  | some y => s1.putLine (mergeLine y x true)
  | none => (s1.putLine x).hold

/-- The copies in one buffer of lines that a crew wrote before it left (R214): the clean ones go, and the others take anew the
bytes that are not dirty. -/
def State.freshenBuf (s : State) (b : BufId) (die ctx : Nat) (lines : List Nat) : State :=
  let mine := fun (x : BufLine) => x.ctx == ctx && lines.contains x.line
  let s1 := s.dropWhere b (fun x => mine x && x.dirty == 0#128)
  (s1.bufs.filter (fun x => x.buf == b && mine x)).foldl (fun s x => s.refreshLine b die x) s1

/-- The same for every buffer of a crew's new placement (R214). -/
def State.freshen (s : State) (l : Launch) (c : Crew) : State :=
  let die := c.core / Config.coresPerDie
  ((s.groupsOf c.id).filter Group.live).foldl (fun s g => s.freshenBuf (s.l1Of c.core g.lane) die l.ctx c.strLines)
    (s.freshenBuf (.die die) die l.ctx c.strLines)

/-- A saved crew placed again (R47, R49, R383). -/
def State.placeBack (s0 : State) (l : Launch) (c0 : Crew) (core : Nat) (p : Spot) : State :=
  let (s, n) := s0.draw
  let bad := s.imageTorn l.ctx c0
  let c1 : Crew := { c0 with core := core, base := p.base, stat := .resident, pending := none, slots := 0,
                             recs := (List.range l.desc.recCnt).map (s.recordAt l) }
  let c : Crew := if bad then
      { c1 with scr := c1.scr.havoc 0 l.desc.scratch n, aw := c1.aw.havoc 0 1024 n,
                insts := c1.insts.map (fun b => b.havoc ((s.groupsOf c1.id).map Group.key) n),
                unit := c1.unit.leave [] n }
    else c1
  let s1 := (s.takeCore core l).setCrew c
  let s2 := p.seats.foldl (fun s e => s.modGroup (c.id * 32 + e.1) (fun g =>
    let g1 := g.reseat e.2
    if bad then g1.havocAll (n + 2 ^ 20 * (e.1 + 1)) else g1)) s1
  s2.freshen l c

/-- Place a crew on a core. -/
def State.placeOn (s : State) (q : Cand) (l : Launch) (core : Nat) (p : Spot) : State :=
  State.touchRecs (match q.crew.bind s.crew? with
    | some c => s.placeBack l c core p
    | none => s.placeNew l core p) l

/-- The place of a crew in a recorded placement: the core, with the lane and slot of each of its groups folded in (R423). -/
def placeCode (core : Nat) (p : Spot) : Nat := core + 512 * p.seats.foldl (fun n e => n * 256 + (e.2.lane * 8 + e.2.slot)) 1

/-- Log a placement of a recorded launch (R423), or take it from the log of a replayed one (R424). -/
def State.notePlace (s : State) (h lin code : Nat) : State :=
  let log := s.sys.rplLog.map (fun e => if e.handle == h then { e with places := e.places ++ [(lin, code)] } else e)
  let play := s.sys.rplPlay.map (fun e => if e.handle == h then { e with places := e.places.erase (lin, code) } else e)
  { s with sys := { s.sys with rplLog := log, rplPlay := play } }

/-- The recorded place that a crew of a replayed launch waits for; none where nothing constrains it (R424). -/
def State.recorded (s : State) (h lin : Nat) : Option Nat :=
  (s.sys.rplPlay.find? (fun e => e.handle == h)).bind (fun e => lookup e.places lin)

/-- A recorded core with the seats of a code, for the gids of a crew (R424). -/
def seatsOf (code : Nat) (gids : List Nat) : List (Nat × Nat) :=
  let n := gids.length
  gids.zipIdx.map (fun e => (e.1, code / 512 / 256 ^ (n - 1 - e.2) % 256))

/-- A core takes a crew under replay when its recorded lanes and slots are free (R424): its die takes the launch's crews
(R367, R415), the other conditions of R33 hold, and each recorded seat has a run of free blocks. -/
def State.replaySpot (s : State) (l : Launch) (gids : List Nat) (code : Nat) : Option (Nat × Spot) :=
  let core := code % 512
  match (if (s.coresOf l).contains core then s.spot? core l gids none else none) with
  | none => none
  | some p =>
    let here := s.resident core none
    let taken := (s.groups.filter (fun g => g.live && here.any (fun c => c.id == g.crew))).filterMap (fun g =>
      ((s.crew? g.crew).bind (fun c => s.launch? c.handle)).map (fun q => ((⟨g.lane, g.slot, g.vbase⟩ : Seat), q.desc.vregs / 8)))
    let blocks := l.desc.vregs / 8
    let put1 := fun (a : Option (Lane × List (Nat × Seat))) (e : Nat × Nat) => a.bind (fun a =>
      let here := a.1.filter (fun t => t.1.lane == e.2 / 8)
      if here.any (fun t => t.1.slot == e.2 % 8) then none
      else (freeRun (splitR (s.splitAt core l none)) blocks (here.map (fun t => (t.1.vbase, t.2)))).map (fun b =>
        let st : Seat := ⟨e.2 / 8, e.2 % 8, b⟩
        (a.1 ++ [(st, blocks)], a.2 ++ [(e.1, st)])))
    ((seatsOf code gids).foldl put1 (some (taken, []))).map (fun a => (core, { p with seats := a.2 }))

/-- The place an offered crew takes now, if any (R377, R424). -/
def State.spotFor (s : State) (l : Launch) (q : Cand) : Option (Nat × Spot) :=
  match s.recorded q.handle q.lin with
  | some code => s.replaySpot l (s.candGids l q) code
  | none => (s.offer l (s.candGids l q)).2

/-- Place crews one after another, each on the lowest of some cores that takes it once those before it are placed; none
when one finds no place (R378). -/
def State.placeAll (s : State) (h : Nat) (cores : List Nat) : List Cand → Option State
  | [] => some s
  | q :: r =>
    match s.launch? h with
    | none => none
    | some l =>
      let gids := s.candGids l q
      let at_ := match s.recorded h q.lin with
        | some code => if cores.contains (code % 512) then s.replaySpot l gids code else none
        | none => cores.findSome? (fun c => (s.spot? c l gids none).map (fun p => (c, p)))
      match at_ with
      | none => none
      | some (core, p) => State.placeAll ((s.placeOn q l core p).notePlace h q.lin (placeCode core p)) h cores r

/-- The crews that are placed together with an offered one: all of a gang's, new or saved (R378). -/
def State.party (s : State) (l : Launch) (q : Cand) : List Cand :=
  match l.gang with
  | none => [q]
  | some _ =>
    match q.crew with
    | some _ => (s.launchCands l q.pos).filter (fun y => y.crew.isSome)
    | none => (List.range (l.total - l.next)).map (fun k => { q with lin := l.next + k })

/-- The units that may hold a gang: those that hold every crew of the launch that is resident (R378). -/
def State.gangUnits (s : State) (l : Launch) (k : Nat) : List (List Nat) :=
  let all := s.coresOf l
  let mine := (s.crews.filter (fun c => c.handle == l.handle && c.stat == .resident)).map (·.core)
  ((List.range (512 / k)).map (fun u => all.filter (fun c => c / k == u))).filter (fun u =>
    !u.isEmpty && mine.all u.contains)

/-- The state after an offered crew, or its gang, is placed; none when no place is found (R377, R378). -/
def State.placed? (s : State) (q : Cand) : Option State :=
  (s.launch? q.handle).bind (fun l =>
    match l.gang with
    | some k =>
      (s.gangUnits l k).findSome? (fun u =>
        s.placeAll l.handle u (sortBy (fun a b => a.lin ≤ b.lin) (s.party l q)))
    | none =>
      (s.spotFor l q).map (fun e => (s.placeOn q l e.1 e.2).notePlace l.handle q.lin (placeCode e.1 e.2)))

/-- Live groups resident on a core. -/
def State.crowd (s : State) (core : Nat) : Nat :=
  (s.groups.filter (fun g => g.live && (s.resident core none).any (fun c => c.id == g.crew))).length

/-- The mark for a split change (R34): one core, when no core that may take the crew has its split or is empty and no
such mark is outstanding. -/
def State.markSplit (s : State) (l : Launch) : State :=
  let cs := s.coresOf l
  let fits := cs.any (fun c => (s.resident c none).isEmpty || (s.core c).split == l.split)
  if fits || cs.any (fun c => (s.core c).splitDrain) then s
  else
    match s.diesOf l with
    | [] => s
    | d :: _ =>
      let mine := cs.filter (fun c => c / Config.coresPerDie == d)
      match mine with
      | [] => s
      | c :: r =>
        let k := r.foldl (fun m y => if s.crowd y < s.crowd m then y else m) c
        s.setCore { s.core k with splitDrain := true }

/-- Whether the free space of a core would hold a crew in total (R34): scratchpad, register blocks and slots. -/
def State.roomInTotal (s : State) (core : Nat) (l : Launch) (n : Nat) : Bool :=
  let here := s.resident core none
  let sum := fun (f : Launch → Nat) => (here.filterMap (fun c => s.launch? c.handle)).foldl (fun a q => a + f q) 0
  let used := (s.groups.filter (fun g => g.live && here.any (fun c => c.id == g.crew))).filterMap (fun g =>
    ((s.crew? g.crew).bind (fun c => s.launch? c.handle)).map (fun q => q.desc.vregs / 8))
  let split := (s.core core).split
  decide (sum (fun q => scratchAlloc q.desc.scratch) + scratchAlloc l.desc.scratch ≤ splitS split * 32 * 1024)
    && decide (used.foldl (· + ·) 0 + n * (l.desc.vregs / 8) ≤ 32 * splitR split) && decide (used.length + n ≤ 256)

/-- Whether an offered crew fails only condition 4 or 5 of R33 on a core whose free space would hold it in total (R34). -/
def State.fragmented (s : State) (core : Nat) (l : Launch) (q : Cand) : Bool :=
  let here := s.resident core none
  let k := s.core core
  let gids := s.candGids l q
  (s.coresOf l).contains core && !here.isEmpty && k.split == l.split && !k.drain && !k.splitDrain
    && decide (here.length < 16) && !(l.matrix && here.any (·.hasUnit)) && (s.spot? core l gids none).isNone
    && s.roomInTotal core l gids.length

/-- An offer that found no place notes the cores on which the crew begins to fail so (R34). -/
def State.noteFails (s : State) (l : Launch) (q : Cand) : State :=
  let news := (s.coresOf l).filter (fun c => s.fragmented c l q
    && !s.fails.any (fun e => e.handle == q.handle && e.lin == q.lin && e.core == c))
  { s with fails := s.fails ++ news.map (fun c => ⟨q.handle, q.lin, c, s.nanos⟩) }

/-- Whether a crew that failed so still does. -/
def State.stillFails (s : State) (e : Failing) : Bool :=
  match s.cands.find? (fun q => q.handle == e.handle && q.lin == e.lin), s.launch? e.handle with
  | some q, some l => s.fragmented e.core l q
  | _, _ => false

/-- What a step leaves of those failures: each one as long as it lasts (R34). -/
def State.keepFails (s : State) : State := { s with fails := s.fails.filter s.stillFails }

/-- A die's placement wait in nanoseconds (R34): 1 ms, unless the Wellhead program set another. -/
def State.placeWait (s : State) (die : Nat) : Nat := (lookup s.pwait die).getD 1000000

/-- The Wellhead program sets a die's placement wait, from 0.1 ms to 100 ms (R34). A value out of that range changes nothing
(log entry 45). -/
def State.setWait (s : State) (die ns : Nat) : State :=
  if 100000 ≤ ns ∧ ns ≤ 100000000 then { s with pwait := put s.pwait die ns } else s

/-- `crewOffer` (R377, R378): the crew is offered if every crew before it in the order finds no place now. -/
def execCrewOffer (handle lin : Nat) (s : State) : Out :=
  let cs := s.cands
  match cs.find? (fun q => q.handle == handle && q.lin == lin), s.launch? handle with
  | some q, some l =>
    if cs.any (fun y => y.before q && (s.placed? y).isSome) then .next s
    else .next ((s.placed? q).getD ((s.markSplit l).noteFails l q))
  | _, _ => .next s

/-- `placementWaitExpiry` (R34): a core on which an offered crew has failed so for its die's placement wait is marked. -/
def execPlacementWaitExpiry (handle lin core : Nat) (s : State) : Out :=
  if s.fails.any (fun e => e.handle == handle && e.lin == lin && e.core == core && s.stillFails e
      && decide (e.since + s.placeWait (core / Config.coresPerDie) ≤ s.nanos)) then
    .next (s.setCore { s.core core with drain := true })
  else .next s

/-- Whether a device job serves a crew (R326, R345); a migration serves none. -/
def DevJob.serves (x : DevJob) (crew : Nat) : Bool :=
  match x.kind with
  | .migrate _ _ _ => false
  | _ => x.crew == crew

/-- Whether a crew has no job of a copy engine or a Cascade unit, and no device job serves it (R47, R178, R326). -/
def State.crewQuiet (s : State) (c : Crew) : Bool :=
  c.unit.jobs.isEmpty && !s.engines.any (fun e => e.jobs.any (fun j => j.crew == c.id)) && !s.djobs.any (·.serves c.id)

/-- `crewRetire` (R178, R302, R384). -/
def execCrewRetire (crew : Nat) (s : State) : Out :=
  match s.crew? crew with
  | none => .next s
  | some c =>
    match s.launch? c.handle with
    | none => .next s
    | some l =>
      if c.stat = .resident ∧ (s.groupsOf crew).all (fun g => !g.live) ∧ s.crewQuiet c then
        .next ((s.setCrew { c with stat := .retired, hasUnit := false, unit := CascUnit.zero, pending := none, past := [] }).setLaunch
          { l with retired := l.retired + 1 })
      else .next s

/-- Clean every dirty line of a context to M: first the L1 buffers, then the die buffers (R213). -/
def State.cleanCtx (s : State) (ctx : Nat) : State :=
  let l1 := (s.bufs.filter (fun x => x.ctx == ctx && x.buf != .die (dieOfBuf x.buf))).foldl
    (fun s x => s.cleanLine x.buf (dieOfBuf x.buf) ctx x.line) s
  (l1.bufs.filter (fun x => x.ctx == ctx && x.buf == .die (dieOfBuf x.buf))).foldl
    (fun s x => s.cleanLine x.buf (dieOfBuf x.buf) ctx x.line) l1

/-- A counter summed over the dies (R153). -/
def State.statSum (s : State) (ctx tensor kind : Nat) : Nat :=
  Nat.min 0xFFFFFFFF ((List.range 8).foldl (fun n d => n + ((lookup s.stats (statKey d ctx tensor kind)).getD 0#32).toNat) 0)

/-- The statistics area (R153): 4,096 entries of 16 bytes. -/
def State.writeStats (s : State) (ctx a : Nat) : State :=
  (List.range 4096).foldl (fun s k => s.cohStore ctx (a + 16 * k) 16
    (s.statSum ctx k 0 + 2 ^ 32 * s.statSum ctx k 1 + 2 ^ 64 * s.statSum ctx k 2 + 2 ^ 96 * s.statSum ctx k 3)) s

/-- The tiles that a launch's end drops, in the order of their fills (R250). -/
def State.tilesOf (s : State) (l : Launch) : List Tile :=
  sortBy (fun a b => a.order ≤ b.order) (s.tiles.filter (fun t => t.ctx == l.ctx && t.handle == l.handle))

/-- A launch that has ended, as others see it: whether its DONE word holds 1 (R376), its join set without it (R413), and the
replay log without atomics that it will never apply (R424; log entry 12). -/
def State.settleLaunch (s0 : State) (l : Launch) : State :=
  let s := s0.setLaunch { l with ended := true, met := s0.cohNat? l.ctx l.done 4 == some 1 }
  State.podSweep { s with sys := { s.sys with rplPlay := s.sys.rplPlay.filter (fun e => e.handle != l.handle) } } l.ctx l.desc.addr

/-- The end of a child for the crew that forked it (R384). -/
def State.childEnds (s : State) (parent : Option Nat) : State :=
  match parent.bind s.crew? with
  | some c => s.setCrew { c with children := c.children - 1 }
  | none => s

/-- `launchEnd` (R384): its four steps, in order. -/
def execLaunchEnd (handle : Nat) (s : State) : Out :=
  match s.launch? handle with
  | none => .next s
  | some l =>
    if l.ended ∨ l.retired ≠ l.total then .next s
    else
      let s1 := s.cleanCtx l.ctx
      let s2 := if l.stats = 0 then s1 else s1.writeStats l.ctx l.stats
      let ts := s2.tilesOf l
      let s3 := ts.foldl State.dropTile s2
      let first := (ts.head?.map (·.handleNo)).getD 0
      let body := l.handle + 2 ^ 64 * l.traps + 2 ^ 96 * l.killed + 2 ^ 128 * ts.length + 2 ^ 160 * first
      let s4 := (s3.cohStore l.ctx (l.done + 4) 28 body).cohStore l.ctx l.done 4 1
      .next ((s4.settleLaunch l).childEnds l.parent)

/-- Whether a group is stopped where pre-emption may take it, or parked (R46, R47). -/
def Group.away (g : Group) : Bool :=
  match g.stat, g.block with
  | .held, _ => true
  | .parked _ _ _ _, _ => true
  | .run, some (.vfy _ _ _ _ _ _) => false
  | .run, some _ => true
  | _, _ => false

/-- The entry that says what is saved of a group (R45 to R47, R49, R120): of its yield, of its blocking instruction; all of a
parked group; the whole window too when the crew leaves for its `join`. -/
def State.keepOf (s : State) (l : Launch) (g : Group) (why : Away) : LiveEnt :=
  match g.stat, g.block, g.frags with
  | .held, _, [f] => s.liveEntry l (f.pc - 24)
  | .parked _ _ _ _, _, _ => LiveEnt.whole l
  | .run, _, [f] => if why = .join then { s.liveEntry l f.pc with sbase := 0, slen := l.desc.scratch } else s.liveEntry l f.pc
  | _, _, _ => LiveEnt.whole l

/-- Make the parts of a bank undefined that lie in none of some ranges, from `lo` on; the ranges come by rising base. -/
def havocGaps (n size : Nat) : Nat → List (Nat × Nat) → Bank 8 → Bank 8
  | lo, [], b => if lo < size then b.havoc lo size n else b
  | lo, (a, k) :: r, b => havocGaps n size (Nat.max lo (a + k)) r (if lo < a ∧ 0 < k ∧ lo < size then b.havoc lo (Nat.min a size) n else b)

/-- Vector blocks that an entry does not name are undefined, and so are the run temporaries of a group that is not parked
(R45, R72). -/
def Group.lose (g : Group) (vregs n : Nat) (e : LiveEnt) : Group :=
  match g.stat with
  | .parked _ _ _ _ => g
  | _ =>
    let gone := (List.range (vregs / 8)).filter (fun b => !e.vmask.getLsbD b)
    { g with v := gone.foldl (fun v b => v.havoc (b * 256) (b * 256 + 256) n) g.v, t := g.t.havoc 0 256 n }

/-- The slots that a crew's image takes (R382). The image layout is not architectural: the model counts the state of every
group and the whole window (log entry 13). -/
def imageSlots (l : Launch) : Nat := ceilDiv (l.desc.crew * (l.desc.vregs * 128 + 2048) + l.desc.scratch + 65536) 65536

/-- Where a crew's image finds room in its context's save arena, as a 64 KiB page number (R382). -/
def State.arenaRoom (s : State) (l : Launch) : Option Nat :=
  (s.ctx? l.ctx).bind (fun k =>
    let base := k.save / 2 ^ 16
    let held := s.crews.filterMap (fun c => match c.stat, s.launch? c.handle with
      | .saved _, some q => if q.ctx = l.ctx ∧ base ≤ c.slot0 + c.slots then some (c.slot0 - base, c.slots) else none
      | _, _ => none)
    (freeRun k.savecap (imageSlots l) held).map (fun a => base + a))

/-- Pins of crews that were swapped out from a die (R259). -/
def State.shadowed (s : State) (die : Nat) : Nat :=
  (s.pins.filter (fun p => match p.by_ with
    | .reg gk _ => (match s.crew? (gk / 32) with
        | some c => c.die == die && (match c.stat with
          | .saved _ => true
          | _ => false)
        | none => false)
    | _ => false)).length

/-- Pins of a crew. -/
def State.crewPins (s : State) (crew : Nat) : Nat :=
  (s.pins.filter (fun p => match p.by_ with
    | .reg gk _ => gk / 32 == crew
    | _ => false)).length

/-- A resident crew that may leave its core, with the reason (R47, R49, R259, R279). Outstanding register writes
complete first (log entry 13). -/
def State.leaving (s : State) (c : Crew) : Option Away :=
  match c.pending with
  | none => none
  | some why =>
    let gs := (s.groupsOf c.id).filter Group.live
    if c.stat = .resident ∧ !gs.isEmpty ∧ gs.all Group.away ∧ gs.all (fun g => g.out.isEmpty) ∧ s.crewQuiet c
        ∧ s.shadowed c.die + s.crewPins c.id ≤ Config.pinShadowCap then some why
    else none

/-- The crew leaves: the buffers that its groups used, ended ones too, are cleaned to M, and what no entry names is undefined
(R45, R47, R214, R302, R382). What a byte of the window held before the swap, since a window opening, is forgotten: that no
read after the resume returns it, where R221 would still allow it, is the model's choice (log entry 57). -/
def State.swapOut (s0 : State) (l : Launch) (c : Crew) (why : Away) (slot0 : Nat) : State :=
  let gs := (s0.groupsOf c.id).filter Group.live
  let bufs := ((s0.groupsOf c.id).map (fun g => s0.l1Of c.core g.lane)).eraseDups
  let s1 := (bufs.foldl (fun s b => s.cleanWhere b c.die (fun _ => true)) s0).cleanWhere (.die c.die) c.die (fun _ => true)
  let (s, n) := s1.draw
  let es := gs.map (fun g => (g, s.keepOf l g why))
  let named := (es.map (·.2)).filter (fun e => e.vmask != 0#32 || e.slen != 0 || e.perm || e.ws || e.ring)
  let ranges := sortBy (fun a b => a.1 ≤ b.1) ((named.filter (fun e => e.slen != 0)).map (fun e => (e.sbase, e.slen)))
  let scr := havocGaps n l.desc.scratch 0 ranges c.scr
  let unit := if c.hasUnit then c.unit.leave (es.map (·.2)) n else c.unit
  let c1 : Crew := { c with stat := .saved why, pending := none, scr := scr, unit := unit, past := [], slots := imageSlots l,
                            slot0 := slot0, savedAt := s.stamp }
  es.foldl (fun s e => s.modGroup e.1.key (fun g => g.lose l.desc.vregs (n + 2 ^ 24 * (g.gid + 1)) e.2)) (s.setCrew c1)

/-- `contextSwitchComplete` (R47, R49, R279, R382): a crew leaves its core for the reason that is pending. -/
def execContextSwitchComplete (crew : Nat) (s : State) : Out :=
  match s.crew? crew with
  | none => .next s
  | some c =>
    match s.launch? c.handle, s.leaving c with
    | some l, some why =>
      (match s.arenaRoom l with
       | some a => .next ((s.swapOut l c why a).touchLives l)
       | none => .next s)
    | _, _ => .next s

/-- The entry of a context as the device would observe it: none when it is not valid (R368). -/
def State.validEntry (s : State) (ctx : Nat) : Option Nat :=
  match s.ctxEntry ctx with
  | some w => if ctxEntryOk w then some w else none
  | none => none

/-- `contextSwitchOut` (R368, R381): a die scheduler observes RUN clear, or the entry no longer valid. -/
def execContextSwitchOut (ctx : Nat) (s : State) : Out :=
  match s.validEntry ctx with
  | some w => if w.testBit 1 then .next s else .next (s.observe ctx)
  | none => .next (s.observe ctx)

/-- `contextValidObserved` (R368): the device first observes a valid entry. -/
def execContextValidObserved (ctx : Nat) (s : State) : Out :=
  match s.validEntry ctx, s.ctx? ctx with
  | some _, none => .next (s.observe ctx)
  | some _, some c => if c.valid then .next s else .next (s.observe ctx)
  | none, _ => .next s

/-- `contextSwitchIn` (R381): a die scheduler observes RUN set again. -/
def execContextSwitchIn (ctx : Nat) (s : State) : Out :=
  match s.validEntry ctx, s.ctx? ctx with
  | some w, some _ => if w.testBit 1 then .next (s.observe ctx) else .next s
  | _, _ => .next s

end Sys2Proof.Machine
end

