-- ==== Sys2Proof/Machine/Device.lean ====
section
/-!
DEFINITION. The device in its system: host accesses (R209, R407), reset, start-up and boot (R408, R409, R414 to R419),
links (R410 to R412), migration (R403), errors (R404, R420, R421).
-/

namespace Sys2Proof.Machine

/-- The keys of device memory begin below this one; other packages' memory and host memory lie above (R402). -/
def farKeys : Nat := 2 ^ 51

/-- Whether a host access to device memory can be served: after S0, inside the memory, at stacks that have not failed
their training (R402, R415, R419). -/
def State.hostReach (s : State) (addr n : Nat) : Bool :=
  s.sys.ready.getLsbD 30 && decide (addr + n ≤ deviceBytes) && !stackFailed s addr && !stackFailed s (addr + n - 1)

/-- The host writes bytes at a physical key; a whole granule loses its poison (R209, R421). -/
def State.hostWrite (s : State) (key : Nat) (xs : List Byte) : State :=
  (s.logStore hostCtx key xs.length false).memWrite ((List.range xs.length).map (fun i => key + i)) xs

/-- `hostAccess` (R209, R407): a write by the host; a read changes nothing. -/
def execHostAccess (sp : HostSpace) (addr : Nat) (data : Option (List Byte)) (s : State) : Out :=
  match data with
  | none => .next s
  | some xs =>
    match sp with
    | .host => .next (s.hostWrite (hostKey addr) xs)
    | .device => if s.hostReach addr xs.length then .next (s.hostWrite addr xs) else .next s

/-- Whether an agent outside the package can write at a physical key now: the host this package's memory and its own (R209,
R415); another package, once the links are ready, this package's memory and that of the pod (R402, R410, R415). -/
def State.outsideReach (s : State) (far : Bool) (key n : Nat) : Bool :=
  (!far || s.sys.ready.getLsbD 29) &&
    (if key < farKeys then s.hostReach key n else if far then decide (key + n ≤ hostKey 0) else decide (hostKey 0 ≤ key))

/-- A write from outside the package whose data carries poison on some granules (R410, R421). -/
def State.outsideWrite (s : State) (far : Bool) (key : Nat) (xs : List Byte) (poison : List Nat) : State :=
  if s.outsideReach far key xs.length then
    let s1 := s.hostWrite key xs
    { s1 with poison := poison.filter (fun g => overlaps (32 * g) 32 key xs.length && !s1.poison.contains g) ++ s1.poison }
  else s

/-- `reset` (R414): reset release. This package's memory becomes undefined (log entry 3); other packages' memory, the
host's, and the pod's timestamp stay. -/
def execReset (s : State) : Out :=
  .next { State.reset with
    tsc := s.tsc, pkg := s.pkg, agenda := s.agenda, free := s.free,
    mem := s.mem.filter (fun e => decide (farKeys ≤ e.1)), poison := s.poison.filter (fun g => decide (farKeys / 32 ≤ g)),
    sys := { Sys.reset with rplSaved := s.sys.rplLog ++ s.sys.rplSaved, rplSeq := s.sys.rplSeq } }

/-- The fields of a boot record (R417). -/
def bootOf (w : Nat) : Boot :=
  { replay := bits w 511 456, fq := bits w 447 392, ptt := bits w 383 328, ctxt := bits w 319 264, wlr := bits w 255 200,
    root0 := bits w 191 128 }

/-- Whether a boot record at an address passes the checks of R417 that it can be read for. -/
def bootOk (addr w : Nat) : Bool :=
  let b := bootOf w
  addr % 64 == 0 && bits w 63 32 == 0x4C4C4557 && bits w 31 16 == 1 && bits w 15 0 == 0 && bits w 455 448 == 0
    && bits w 391 384 == 0 && bits w 327 320 == 0 && bits w 263 256 == 0 && bits w 199 192 == 0 && bits w 127 64 == 0
    && b.replay % 64 == 0 && b.fq % 64 == 0 && b.ptt % 8 == 0 && b.ctxt % 64 == 0 && b.wlr % 64 == 0 && b.root0 % 4096 == 0

/-- The boot record in device memory; none where it cannot be read. -/
def State.bootRead (s : State) (addr : Nat) : Option Nat :=
  if deviceBytes < addr + 64 ∨ stackFailed s addr ∨ s.poison.contains (addr / 32) ∨ s.poison.contains (addr / 32 + 1) then none
  else some (leNat (memBytes s.mem addr 64))

/-- Context 0 as the boot creates it, with RUN set (R416). Fields other than RUN come from its entry if that is valid
(log entry 14). -/
def State.bootCtx (s : State) : State :=
  let w := (s.validEntry 0).getD 0
  s.setCtx { Context.create 0 w with valid := true, run := true }

/-- A refused boot: FAIL bit 31, and nothing starts (R416). -/
def State.bootFails (s : State) : State :=
  { s with sys := { s.sys with fail := s.sys.fail ||| 0x80000000#32, boot := none, bootReq := false }, ctxs := [] }

/-- The Wellhead launch record; none where it cannot be read or names another context (R417). -/
def State.wellRec (s : State) (a : Nat) : Option LRec :=
  match s.cohNat? 0 a 64 with
  | some w => if (lrecOf w).ctx = 0 then some (lrecOf w) else none
  | none => none

/-- The boot, after S0 (R416): the record, context 0, the Wellhead launch, WELL. A page on the move under what it reads holds
it (R403). -/
def State.boot (s : State) : State :=
  let addr := s.sys.bootHi.toNat * 2 ^ 32 + s.sys.bootLo.toNat
  match s.bootRead addr with
  | none => s.bootFails
  | some w =>
    if bootOk addr w then
      let s0 : State := { s with sys := { s.sys with boot := some (bootOf w), bootReq := false } }
      let s1 := ((s0.touchEntry 0).touch 0 (bootOf w).wlr 64).bootCtx
      match s1.wellRec (bootOf w).wlr with
      | none => s1.bootFails
      | some r =>
        let n := s1.accept 0 0 none r
        if n.2 = 0 then n.1.bootFails
        else { n.1 with sys := { n.1.sys with started := true, ready := n.1.sys.ready ||| 0x80000000#32 } }
    else s.bootFails

/-- A boot that was asked for starts once S0 is ready, unless a boot has failed or the Wellhead program has started
(R408, R416). -/
def State.tryBoot (s : State) : State :=
  if s.sys.bootReq && s.sys.ready.getLsbD 30 && !s.sys.started && !s.sys.fail.getLsbD 31 then s.boot else s

/-- A write to BOOTHI (R408). -/
def State.writeBootHi (s : State) (hi : Word) : State :=
  if s.sys.started then s else State.tryBoot { s with sys := { s.sys with bootHi := hi, bootReq := true } }

/-- `bootStart` (R408, R416): a write to BOOTHI in configuration space. -/
def execBootStart (hi : Word) (s : State) : Out := .next (s.writeBootHi hi)

/-- `managementRegisterWrite` (R409): BOOTLO is stored, BOOTHI acts as in configuration space, all others are ignored. -/
def execManagementRegisterWrite (off : Nat) (value : Word) (s : State) : Out :=
  if off = 0x10 then (if s.sys.started then .next s else .next { s with sys := { s.sys with bootLo := value } })
  else if off = 0x14 then .next (s.writeBootHi value)
  else .next s

/-- The vendor and device ID of configuration space, and the vendor and the ID of its DVSEC (R408). -/
def vendorId : Nat := 0xBDB1
def deviceId : Nat := 0xD900
def dvsecVendor : Nat := 0xBDB1
def dvsecId : Nat := 1

/-- What a read of the DVSEC returns at an offset that R408 gives. -/
def Sys.dvsec (y : Sys) (off : Nat) : Word :=
  if off = 0x0C then y.bootLo else if off = 0x10 then y.bootHi else 0#32

/-- A write to the DVSEC (R408): BOOTLO is stored, BOOTHI starts the device, nothing else is there to write. -/
def State.dvsecWrite (s : State) (off : Nat) (v : Word) : State :=
  if off = 0x0C then (if s.sys.started then s else { s with sys := { s.sys with bootLo := v } })
  else if off = 0x10 then s.writeBootHi v
  else s

/-- What a read of the management window returns (R409). -/
def Sys.window (y : Sys) (off : Nat) : Word :=
  if off = 0 then 0xD9000001#32
  else if off = 4 then y.ready
  else if off = 8 then y.fail
  else if off = 0xC then y.links
  else if off = 0x10 then y.bootLo
  else if off = 0x14 then y.bootHi
  else if off = 0x18 then y.cec
  else if off = 0x1C then y.uec
  else if off = 0x20 then BitVec.ofNat 32 (y.rplMode + (if y.rplStop then 4 else 0))
  else 0#32

/-- The bit of a function in READY and FAIL (R418); a port has none. -/
def funcBit : Func → Option Nat
  | .s0 => some 30
  | .die d => if d < 8 then some (16 + d) else none
  | .hbm k => if k < 16 then some k else none
  | .cis => some 28
  | .port _ => none

/-- A bit of a register set. -/
def withBit (w : Word) (k : Nat) : Word := w ||| (1#32 <<< k)

/-- The end of a Tordel port's training; LNK once training has ended on all eighteen (R409, R411, R418). -/
def Sys.portDone (y : Sys) (p : Nat) (ok : Bool) : Sys :=
  if 18 ≤ p ∨ (lookup y.lanes p).isSome then y
  else
    let l := put y.lanes p (if ok then 8 else 0)
    { y with lanes := l, links := if ok then withBit y.links p else y.links,
             ready := if l.length = 18 then withBit y.ready 29 else y.ready }

/-- `functionTrainingEnd` (R414, R418, R419): the function's READY or FAIL bit; a boot that waited for S0 then starts. -/
def execFunctionTrainingEnd (f : Func) (ok : Bool) (s : State) : Out :=
  match f, funcBit f with
  | .port p, _ => .next { s with sys := s.sys.portDone p ok }
  | _, none => .next s
  | _, some k =>
    if s.sys.ready.getLsbD k || s.sys.fail.getLsbD k then .next s
    else if ok then .next (State.tryBoot { s with sys := { s.sys with ready := withBit s.sys.ready k } })
    else if k = 30 then .next s
    else .next { s with sys := { s.sys with fail := withBit s.sys.fail k } }

/-- `flitCrcRetry` (R411): a retry changes no value and no allowed outcome. -/
def execFlitCrcRetry (_port : Nat) (s : State) : Out := .next s

/-- `portDegrade` (R411): a trained port narrows to 4, 2 or 1 lanes, or fails and drops out of LINKS. -/
def execPortDegrade (port lanes : Nat) (s : State) : Out :=
  match lookup s.sys.lanes port with
  | some n =>
    if lanes < n ∧ (lanes = 4 ∨ lanes = 2 ∨ lanes = 1 ∨ lanes = 0) then
      .next { s with sys := { s.sys with lanes := put s.sys.lanes port lanes,
                                         links := if lanes = 0 then s.sys.links &&& ~~~ (1#32 <<< port) else s.sys.links } }
    else .next s
  | none => .next s

/-- `packageUnreachable` (R404, R412). -/
def execPackageUnreachable (pkg : Nat) (s : State) : Out :=
  if pkg = s.pkg ∨ s.sys.lost.contains pkg then .next s
  else .next { s with sys := { s.sys with lost := pkg :: s.sys.lost } }

/-- `hostUnreachable` (R404). -/
def execHostUnreachable (s : State) : Out := .next { s with sys := { s.sys with hostLost := true } }

/-- The run-time starts the copy of a page that it moves (R403, step 2). -/
def State.startMigrate (s : State) (die src dst size : Nat) : State :=
  let j : DevJob := { die := die, kind := .migrate src dst size, crew := 0, gid := 0, ctx := 0, pc := 0, word := 0#96,
                      moved := [], left := size, paused := false, pauseAt := 0, issued := s.stamp }
  { s with djobs := s.djobs ++ [j], stamp := s.stamp + 1 }

/-- `migrationInstallComplete` (R403, steps 3 and 4): the copy is complete, and the new leaf is installed. -/
def execMigrationInstallComplete (d j : Nat) (leaf : Leaf) (s : State) : Out :=
  match s.djob? d j with
  | none => .next s
  | some x =>
    match x.kind with
    | .migrate _ _ _ =>
      if x.left = 0 then .next (State.install { s with djobs := s.djobs.eraseIdx j } leaf) else .next s
    | _ => .next s

/-- One more in an error counter, which holds at its maximum (R409). -/
def countUp (w : Word) : Word := if w = 0xFFFFFFFF#32 then w else w + 1#32

/-- Whether memory lies at a physical key (R402): device memory of this package or of another, or host memory. -/
def keyExists (k : Nat) : Bool :=
  decide (k < deviceBytes) || (decide (farKeys ≤ k ∧ k < hostKey 0) && decide (k % farKeys < deviceBytes))
    || decide (hostKey 0 ≤ k ∧ k < hostKey farKeys)

/-- Whether an error can lie there: in a granule of memory, of another package or the host too, whose COH lines the L2 holds copies
of (R202, R402; log entry 61); in a line that a buffer holds; in the core store of a crew on a core (its scratchpad, its arrival
words, the register area of a group by way of its window); in a counted tile. -/
def State.eccHere (s : State) : EccAt → Bool
  | .mem g => keyExists (32 * g)
  | .line b ctx line i => (s.line? b ctx line).isSome && decide (i < 4)
  | .scr crew g => (match s.crew? crew with
      | some c =>
        let d := (s.launch? c.handle).map (·.desc)
        let gid := (32 * g - windowBase 0) / 0x40000
        c.stat == .resident &&
          (if 32 * g < windowBase 0 then
             decide (32 * g < (d.map (·.scratch)).getD 0 ∨ (0x30000000 ≤ 32 * g ∧ 32 * g < 0x30000400))
           else
             decide (gid < 32) && decide (32 * g - windowBase gid < 128 * (d.map (·.vregs)).getD 0)
               && ((s.group? (crew * 32 + gid)).map Group.live).getD false)
      | none => false)
  | .tile die slot g => s.tiles.any (fun t => t.die == die && t.slot == slot && decide (g < 4 * t.lines))

/-- The granule of an uncorrectable error becomes poisoned (R420). -/
def State.poisonHere (s : State) : EccAt → State
  | .mem g => { s with poison := if s.poison.contains g then s.poison else g :: s.poison }
  | .line b ctx line i =>
    (match s.line? b ctx line with
     | some x => s.putLine { x with poison := x.poison ||| (1#4 <<< i) }
     | none => s)
  | .scr crew g =>
    (match s.crew? crew with
     | some c => s.setCrew { c with poison := g :: c.poison }
     | none => s)
  | .tile die slot g =>
    { s with tiles := s.tiles.map (fun t => if t.die == die && t.slot == slot then { t with poison := g :: t.poison } else t) }

/-- An error that an access or a scrub meets (R420): counted, and corrected in place or its granule poisoned. -/
def State.eccError (s : State) (at_ : EccAt) (uncorrectable : Bool) : State :=
  if !s.eccHere at_ then s
  else if uncorrectable then State.poisonHere { s with sys := { s.sys with uec := countUp s.sys.uec } } at_
  else { s with sys := { s.sys with cec := countUp s.sys.cec } }

/-- `patrolScrub` (R420): a granule of device memory. -/
def execPatrolScrub (granule : Nat) (r : Scrubbed) (s : State) : Out :=
  if deviceBytes ≤ 32 * granule then .next s
  else
    match r with
    | .clean => .next s
    | .corrected => .next { s with sys := { s.sys with cec := countUp s.sys.cec } }
    | .uncorrectable =>
      .next { s with sys := { s.sys with uec := countUp s.sys.uec },
                     poison := if s.poison.contains granule then s.poison else granule :: s.poison }

end Sys2Proof.Machine
end

