-- ==== Sys2Proof/Machine/Float.lean ====
section
/-!
DEFINITION. Floating-point instructions (R180 to R191).
-/

namespace Sys2Proof.Machine

/-- The element format of a type and how many elements a register holds (R181). -/
def ftyFmt : FTy → FFmt
  | .f32 => fp32
  | .f16x2 => fp16
  | .bf16x2 => bf16

/-- Element `k` of a register (R181). -/
def ftyElem (ty : FTy) (w : Word) (k : Nat) : Nat :=
  match ty with
  | .f32 => w.toNat
  | _ => bits w.toNat (16 * k + 15) (16 * k)

/-- Compute each element on its own and pack the results (R181, R183). -/
def perElem (ty : FTy) (f : Nat → Nat × Ev) : Word × Ev :=
  match ty with
  | .f32 =>
    let r := f 0
    (BitVec.ofNat 32 r.1, r.2)
  | _ =>
    let r0 := f 0
    let r1 := f 1
    (BitVec.ofNat 32 (r0.1 + 65536 * r1.1), r0.2.plus r1.2)

/-- A floating source, which may be a 16-bit immediate (R181). -/
def Site.readF (x : Site) (s : State) (ty : FTy) (i : Nat) (o : Opd) : Word :=
  match o with
  | .ui w =>
    match ty with
    | .f32 => w.setWidth 32 <<< 16
    | _ => w ++ w
  | o => x.read s i o

/-- A two-source floating instruction, element by element (R182). -/
def State.flt2 (s : State) (h : Hdr) (ty : FTy) (m : FMod) (d a b : Opd) (f : FFmt → FEnv → Nat → Nat → Nat × Ev) : Out :=
  s.aluEv h d [a, b] (fun x i =>
    let v := FEnv.resolve x.g.fpmode m false
    let wa := x.readF s ty i a
    let wb := x.readF s ty i b
    perElem ty (fun k => f (ftyFmt ty) v (ftyElem ty wa k) (ftyElem ty wb k)))

/-- `fadd` (R183). -/
def execFadd (h : Hdr) (ty : FTy) (m : FMod) (d a b : Opd) (s : State) : Out := s.flt2 h ty m d a b FFmt.add

/-- `fsub` (R183). -/
def execFsub (h : Hdr) (ty : FTy) (m : FMod) (d a b : Opd) (s : State) : Out := s.flt2 h ty m d a b FFmt.sub

/-- `fmul` (R183). -/
def execFmul (h : Hdr) (ty : FTy) (m : FMod) (d a b : Opd) (s : State) : Out := s.flt2 h ty m d a b FFmt.mul

/-- `fma` (R183, R61): D is the third source. -/
def execFma (h : Hdr) (ty : FTy) (m : FMod) (d a b : Opd) (s : State) : Out :=
  s.aluEv h d [a, b, d] (fun x i =>
    let v := FEnv.resolve x.g.fpmode m false
    let wa := x.readF s ty i a
    let wb := x.readF s ty i b
    let wd := x.read s i d
    perElem ty (fun k => (ftyFmt ty).fma v (ftyElem ty wa k) (ftyElem ty wb k) (ftyElem ty wd k)))

/-- `fmin` (R184). -/
def execFmin (h : Hdr) (ty : FTy) (m : FMod) (d a b : Opd) (s : State) : Out :=
  s.flt2 h ty m d a b (fun F v => F.pick v true)

/-- `fmax` (R184). -/
def execFmax (h : Hdr) (ty : FTy) (m : FMod) (d a b : Opd) (s : State) : Out :=
  s.flt2 h ty m d a b (fun F v => F.pick v false)

/-- How many elements a type has. -/
def ftyCount : FTy → Nat
  | .f32 => 1
  | _ => 2

/-- `fcmp` (R186): every element's relation holds. -/
def execFcmp (h : Hdr) (ty : FTy) (rel : Rel) (d a b : Opd) (s : State) : Out :=
  s.alu h d [a, b] (fun x i =>
    let v := FEnv.ofMode x.g.fpmode
    let wa := x.readF s ty i a
    let wb := x.readF s ty i b
    wordOf ((List.range (ftyCount ty)).all (fun k =>
      relFloat rel ((ftyFmt ty).cmp? v (ftyElem ty wa k) (ftyElem ty wb k)))))

/-- `fcls` (R187). -/
def execFcls (h : Hdr) (d a b : Opd) (s : State) : Out :=
  s.alu h d [a, b] (fun x i => wordOf ((x.read s i b).getLsbD (fclass (x.read s i a).toNat)))

/-- A change of the sign bit only; a NaN becomes quiet (R185). -/
def signOp (F : FFmt) (neg : Bool) (x : Nat) : Nat :=
  let y := if F.isNan x then F.quiet x else x
  if neg then F.negate y else y % 2 ^ (F.w - 1)

/-- `fabs` (R185). -/
def execFabs (h : Hdr) (ty : FTy) (d a : Opd) (s : State) : Out :=
  s.alu h d [a] (fun x i =>
    let wa := x.read s i a
    (perElem ty (fun k => (signOp (ftyFmt ty) false (ftyElem ty wa k), Ev.zero))).1)

/-- `fneg` (R185). -/
def execFneg (h : Hdr) (ty : FTy) (d a : Opd) (s : State) : Out :=
  s.alu h d [a] (fun x i =>
    let wa := x.read s i a
    (perElem ty (fun k => (signOp (ftyFmt ty) true (ftyElem ty wa k), Ev.zero))).1)

/-- A one-source FP32 instruction (R188, R189). -/
def State.flt1 (s : State) (h : Hdr) (m : FMod) (d a : Opd) (f : FEnv → Nat → Nat × Ev) : Out :=
  s.aluEv h d [a] (fun x i =>
    let r := f (FEnv.resolve x.g.fpmode m false) (x.read s i a).toNat
    (BitVec.ofNat 32 r.1, r.2))

/-- `fdiv` (R188). -/
def execFdiv (h : Hdr) (m : FMod) (d a b : Opd) (s : State) : Out := s.flt2 h .f32 m d a b (fun _ => fdiv32)

/-- `sqrt` (R188). -/
def execSqrt (h : Hdr) (m : FMod) (d a : Opd) (s : State) : Out := s.flt1 h m d a fsqrt32

/-- `rcp` (R188). -/
def execRcp (h : Hdr) (m : FMod) (d a : Opd) (s : State) : Out := s.flt1 h m d a frcp32

/-- `rsqrt` (R189): nearest-even in every mode. -/
def execRsqrt (h : Hdr) (m : FMod) (d a : Opd) (s : State) : Out := s.flt1 h m d a (fun v => frsqrt32 { v with rnd := 0 })

/-- `exp2` (R189). -/
def execExp2 (h : Hdr) (m : FMod) (d a : Opd) (s : State) : Out := s.flt1 h m d a fexp2

/-- `log2` (R189). -/
def execLog2 (h : Hdr) (m : FMod) (d a : Opd) (s : State) : Out := s.flt1 h m d a flog2

/-- `sin` (R189). -/
def execSin (h : Hdr) (m : FMod) (d a : Opd) (s : State) : Out := s.flt1 h m d a fsin

/-- `cos` (R189). -/
def execCos (h : Hdr) (m : FMod) (d a : Opd) (s : State) : Out := s.flt1 h m d a fcos

/-- `tanh` (R189). -/
def execTanh (h : Hdr) (m : FMod) (d a : Opd) (s : State) : Out := s.flt1 h m d a ftanh

/-- `frnd` (R190). -/
def execFrnd (h : Hdr) (m : FMod) (d a : Opd) (s : State) : Out := s.flt1 h m d a frnd32

/-- `scl` (R191). -/
def execScl (h : Hdr) (m : FMod) (d a b : Opd) (s : State) : Out :=
  s.aluEv h d [a, b] (fun x i =>
    let r := fscl32 (FEnv.resolve x.g.fpmode m false) (x.read s i a).toNat (x.read s i b).toInt
    (BitVec.ofNat 32 r.1, r.2))

/-- `cvt` (R193). -/
def execCvt (h : Hdr) (dst src : Fmt) (m : FMod) (ovn : Bool) (d a : Opd) (s : State) : Out :=
  s.aluEv h d [a] (fun x i => convert dst src (FEnv.resolve x.g.fpmode m ovn) (x.read s i a))

/-- `cvt2` (R194): OVN has no effect. -/
def execCvt2 (h : Hdr) (bf : Bool) (m : FMod) (_ovn : Bool) (d a b : Opd) (s : State) : Out :=
  s.aluEv h d [a, b] (fun x i =>
    let v := FEnv.resolve x.g.fpmode m false
    let dst : Fmt := if bf then .bf16 else .f16
    let lo := convert dst .f32 v (x.read s i a)
    let hi := convert dst .f32 v (x.read s i b)
    (lo.1 ||| (hi.1 <<< 16), lo.2.plus hi.2))

end Sys2Proof.Machine
end

