-- ==== Sys2Proof/Machine/IntOps.lean ====
section
/-!
DEFINITION. Integer arithmetic, logic, shifts, bit fields, comparison, selection and moves (R158 to R167).
-/

namespace Sys2Proof.Machine

/-- The range of a type (R158). -/
def ityRange (ty : ITy) : Int × Int :=
  match ty with
  | .s32 => (-2147483648, 2147483647)
  | .n32 => (0, 4294967295)

/-- The exact result narrowed: clamped under SAT, else wrapped (R158). -/
def narrow (ty : ITy) (sat : Bool) (z : Int) : Word :=
  if sat then
    let r := ityRange ty
    BitVec.ofInt 32 (if z < r.1 then r.1 else if r.2 < z then r.2 else z)
  else BitVec.ofInt 32 z

/-- Quotient truncated toward zero; by zero, the end of the range on the dividend's side (R158). -/
def divExact (ty : ITy) (x y : Int) : Int :=
  if y = 0 then (if 0 ≤ x then (ityRange ty).2 else (ityRange ty).1) else x.tdiv y

/-- Remainder with the sign of the dividend; by zero, the dividend (R158). -/
def remExact (x y : Int) : Int := if y = 0 then x else x.tmod y

/-- A two-source integer instruction from its exact result (R158). -/
def State.arith (s : State) (h : Hdr) (ty : ITy) (sat : Bool) (d a b : Opd) (f : Int → Int → Int) : Out :=
  s.alu h d [a, b] (fun x i => narrow ty sat (f (ityVal ty (x.read s i a)) (ityVal ty (x.read s i b))))

/-- `add` (R158). -/
def execAdd (h : Hdr) (ty : ITy) (sat : Bool) (d a b : Opd) (s : State) : Out := s.arith h ty sat d a b (· + ·)

/-- `sub` (R158). -/
def execSub (h : Hdr) (ty : ITy) (sat : Bool) (d a b : Opd) (s : State) : Out := s.arith h ty sat d a b (· - ·)

/-- `mul` (R158). -/
def execMul (h : Hdr) (ty : ITy) (sat : Bool) (d a b : Opd) (s : State) : Out := s.arith h ty sat d a b (· * ·)

/-- `mulhi` (R158): the product divided by 2^32, rounded down. -/
def execMulhi (h : Hdr) (ty : ITy) (d a b : Opd) (s : State) : Out :=
  s.arith h ty false d a b (fun x y => (x * y) / 4294967296)

/-- `mad` (R158, R61): D is the third source. -/
def execMad (h : Hdr) (ty : ITy) (sat : Bool) (d a b : Opd) (s : State) : Out :=
  s.alu h d [a, b, d] (fun x i =>
    narrow ty sat (ityVal ty (x.read s i a) * ityVal ty (x.read s i b) + ityVal ty (x.read s i d)))

/-- `div` (R158). -/
def execDiv (h : Hdr) (ty : ITy) (d a b : Opd) (s : State) : Out := s.arith h ty false d a b (divExact ty)

/-- `rem` (R158). -/
def execRem (h : Hdr) (ty : ITy) (d a b : Opd) (s : State) : Out := s.arith h ty false d a b remExact

/-- `min` (R158). -/
def execMin (h : Hdr) (ty : ITy) (d a b : Opd) (s : State) : Out :=
  s.arith h ty false d a b (fun x y => if x ≤ y then x else y)

/-- `max` (R158). -/
def execMax (h : Hdr) (ty : ITy) (d a b : Opd) (s : State) : Out :=
  s.arith h ty false d a b (fun x y => if x ≤ y then y else x)

/-- `abs` (R158). -/
def execAbs (h : Hdr) (sat : Bool) (d a : Opd) (s : State) : Out :=
  s.alu h d [a] (fun x i => narrow .s32 sat (x.read s i a).toInt.natAbs)

/-- The factor of a scale (R159). -/
def scaleOf : Scale → Nat
  | .x1 => 1
  | .x2 => 2
  | .x4 => 4
  | .x8 => 8

/-- `lea` (R159): the 64-bit sum wraps. -/
def execLea (h : Hdr) (sc : Scale) (d a b : Opd) (s : State) : Out :=
  s.alu64 h d [a, b] (fun x i => x.read64 s i a + (x.read s i b).signExtend 64 * BitVec.ofNat 64 (scaleOf sc))

/-- A two-source instruction on bit patterns (R160). -/
def State.logic (s : State) (h : Hdr) (d a b : Opd) (f : Word → Word → Word) : Out :=
  s.alu h d [a, b] (fun x i => f (x.read s i a) (x.read s i b))

/-- `and` (R160). -/
def execAnd (h : Hdr) (d a b : Opd) (s : State) : Out := s.logic h d a b (· &&& ·)

/-- `or` (R160). -/
def execOr (h : Hdr) (d a b : Opd) (s : State) : Out := s.logic h d a b (· ||| ·)

/-- `xor` (R160). -/
def execXor (h : Hdr) (d a b : Opd) (s : State) : Out := s.logic h d a b (· ^^^ ·)

/-- `not` (R160). -/
def execNot (h : Hdr) (d a : Opd) (s : State) : Out := s.alu h d [a] (fun x i => ~~~ (x.read s i a))

/-- A shift count: bits 5:0 (R160). -/
def shiftCount (w : Word) : Nat := w.toNat % 64

/-- `shl` (R160). -/
def execShl (h : Hdr) (d a b : Opd) (s : State) : Out := s.logic h d a b (fun x c => x <<< shiftCount c)

/-- `shr` (R160): arithmetic under s32, logical under n32. -/
def execShr (h : Hdr) (ty : ITy) (d a b : Opd) (s : State) : Out :=
  s.logic h d a b (fun x c => match ty with
    | .s32 => x.sshiftRight (shiftCount c)
    | .n32 => x >>> shiftCount c)

/-- `rot` (R160): left by bits 4:0. -/
def execRot (h : Hdr) (d a b : Opd) (s : State) : Out := s.logic h d a b (fun x c => x.rotateLeft (c.toNat % 32))

/-- Position and length of a bit field (R161). -/
def fieldPos (b : Word) : Nat := b.toNat % 32
def fieldLen (b : Word) : Nat := Nat.min (bits b.toNat 13 8) (32 - fieldPos b)

/-- `bfx` on words (R161). -/
def bfxVal (ty : ITy) (a b : Word) : Word :=
  let len := fieldLen b
  let f := a.toNat >>> fieldPos b % 2 ^ len
  if len = 0 then 0#32
  else
    match ty with
    | .s32 => BitVec.ofInt 32 (sextNat f len)
    | .n32 => BitVec.ofNat 32 f

/-- `bfx` (R161). -/
def execBfx (h : Hdr) (ty : ITy) (d a b : Opd) (s : State) : Out := s.logic h d a b (bfxVal ty)

/-- `bfi` on words (R161). -/
def bfiVal (d a b : Word) : Word :=
  let m : Word := BitVec.ofNat 32 ((2 ^ fieldLen b - 1) <<< fieldPos b)
  (d &&& ~~~ m) ||| ((a <<< fieldPos b) &&& m)

/-- `bfi` (R161, R61): D is the third source. -/
def execBfi (h : Hdr) (d a b : Opd) (s : State) : Out :=
  s.alu h d [a, b, d] (fun x i => bfiVal (x.read s i d) (x.read s i a) (x.read s i b))

/-- `bit.pop` (R162). -/
def execBitPop (h : Hdr) (d a : Opd) (s : State) : Out :=
  s.alu h d [a] (fun x i => BitVec.ofNat 32 (popcount (x.read s i a)))

/-- Leading zero bits (R162). -/
def clzVal (w : Word) : Nat := if w = 0#32 then 32 else 31 - w.toNat.log2

/-- `bit.clz` (R162). -/
def execBitClz (h : Hdr) (d a : Opd) (s : State) : Out :=
  s.alu h d [a] (fun x i => BitVec.ofNat 32 (clzVal (x.read s i a)))

/-- `bit.rev` (R162). -/
def execBitRev (h : Hdr) (d a : Opd) (s : State) : Out :=
  s.alu h d [a] (fun x i => let w := x.read s i a
    maskOf (fun k => w.getLsbD (31 - k)))

/-- `cmp` (R163). -/
def execCmp (h : Hdr) (ty : ITy) (rel : Rel) (d a b : Opd) (s : State) : Out :=
  s.alu h d [a, b] (fun x i => wordOf (relInt rel (ityVal ty (x.read s i a)) (ityVal ty (x.read s i b))))

/-- `plog` (R164): per thread, whatever its operands. -/
def execPlog (h : Hdr) (op : PlogOp) (d a : Opd) (b : Option Opd) (s : State) : Out :=
  s.atSite (fun x =>
    let e := x.vmask h
    let f := fun i => wordOf (plogVal op (x.read s i a != 0#32) (match b with
      | some o => x.read s i o != 0#32
      | none => false))
    .next (s.commit x e [d] [] (fun g => g.write false e d f)))

/-- `sel` (R165): the predicate is named in MOD. -/
def execSel (h : Hdr) (neg : Bool) (prd : BitVec 3) (d a b : Opd) (s : State) : Out :=
  s.alu h d [a, b] (fun x i => if x.g.pred prd i != neg then x.read s i a else x.read s i b)

/-- `mov` (R166). -/
def execMov (h : Hdr) (w : MovW) (d a : Opd) (s : State) : Out :=
  match w with
  | .b32 => s.alu h d [a] (fun x i => x.read s i a)
  | .b64 => s.alu64 h d [a] (fun x i => x.read64 s i a)

/-- `nop` (R167). -/
def execNop (_h : Hdr) (s : State) : Out := s.atSite (fun x => .next (s.finish x []))

end Sys2Proof.Machine
end

