-- ==== Sys2Proof/Machine/Matrix.lean ====
section
/-!
DEFINITION. Matrix instructions (R303 to R316): the checks of R316 in their order, and the issue of a job or an ordered
non-job.
-/

namespace Sys2Proof.Machine

/-- A group register of the block that an operand names. -/
def Site.blk (x : Site) (a : Opd) (k : Nat) : Nat := (x.g.greg (opdGno a + k)).toNat

/-- Issue a job into the window, or put a non-job in its place in the order (R284, R304). A full window holds the group, and
waiting groups go oldest first (log entry 52). -/
def State.cascIssue (s : State) (x : Site) (op : CascOp) : Out :=
  let u := x.c.unit
  if op.isJob && (decide (Config.windowCap ≤ u.pending) || s.ahead (.window x.c.id) x) then .next (s.waitFor (.window x.c.id) x)
  else
    let j : CascJob := { op := op, gid := x.g.gid, pc := x.f.pc, word := s.word, opened := x.g.opening, issued := s.stamp,
                         got := [], gotAt := [], wrote := [], fault := none, failAt := 0, paused := false }
    let u1 := CascUnit.settle { u with jobs := u.jobs ++ [j] } (u.jobs.length + 1)
    .next (((s.unwait x).setCrew { x.c with unit := u1 }).finish x [])

/-- A matrix instruction: guarded, then its checks in order, then its issue. -/
def State.cascInstr (s : State) (h : Hdr) (k : Site → Word → Except Trap CascOp) : Out :=
  s.uni h (fun x e =>
    match k x e with
    | .error t => .next (s.trap x t)
    | .ok op => s.cascIssue x op) []

/-- The first trap of a list of checks. -/
def firstTrap : List (Bool × Trap) → Option Trap
  | [] => none
  | (b, t) :: r => if b then some t else firstTrap r

/-- A job, unless a check fails. -/
def orTrap (l : List (Bool × Trap)) (op : CascOp) : Except Trap CascOp :=
  match firstTrap l with
  | some t => .error t
  | none => .ok op

/-- Trap 0x11 of a failed ring check names the slot that fails it: the head slot of a producer, or the tail slot of a
consumer, as the jobs in the window will leave them (R391 leaves the value open: log entry 11). -/
def headTrap (u : CascUnit) : Trap := Trap.one 0x11#8 u.project.head
def tailTrap (u : CascUnit) : Trap := Trap.one 0x11#8 u.project.tail

/-- The ring check of a job that uses the head slot (R289, R297, R309). -/
def headFails (u : CascUnit) (opn int32 : Bool) : Bool :=
  let v := u.project
  let sl := v.slot v.head
  if opn then sl.st != 0 else sl.st != 1 || sl.int32 != int32

/-- The ring check of a consumer (R297). -/
def tailFails (u : CascUnit) : Bool :=
  let v := u.project
  (v.slot v.tail).st != 2

/-- A record named by index, with whether it is there. -/
def Site.recRef (x : Site) (n : Nat) : RecRef := ⟨(x.record? n).getD 0#320, n⟩

/-- Whether a record fails as an operand of the given formats and scale modes (R240, R286). -/
def operandBad (q : RecRef) (has : Bool) (encs : List Enc) (exp8 : Bool) : Bool :=
  !has || !recOk q.r false false || !(match encOf (recEnc q.r) with
    | some e => encs.contains e
    | none => false) || !(recSmode q.r == 0 || (exp8 && recSmode q.r == 1))

/-- `mcb` (R307). -/
def execMcb (h : Hdr) (a b : Opd) (s : State) : Out :=
  s.cascInstr h (fun x e =>
    let i := lowest e
    let slot := (x.read s i b).toNat
    let byIndex := match a with
      | .ui _ => true
      | _ => false
    let n := (x.read s i a).toNat
    let addr := if byIndex then x.l.image.cbs + 32 * (x.l.desc.cb0 + n) else (x.read64 s i a).toNat
    orTrap [(byIndex && decide (x.l.desc.cbCnt ≤ n), Trap.one 0x30#8 n),
            (decide (15 < slot), Trap.one 0x11#8 slot),
            (!byIndex && addr % 32 != 0, Trap.one 0x13#8 addr)] (.mcb slot addr))

/-- The check of a counted operand at issue (R288): the handle, then the tile's end. -/
def tileChecks (s : State) (x : Site) (hd : Option Nat) (off endBits : Nat) : List (Bool × Trap) :=
  match hd with
  | none => []
  | some n =>
    match s.tile? x.ctx x.l.handle n with
    | none => [(true, Trap.one 0x18#8 n)]
    | some t => [(decide (t.lines * 1024 < endBits), Trap.one 0x11#8 off)]

/-- `msort` (R308). -/
def execMsort (h : Hdr) (ctd : Bool) (a b : Opd) (s : State) : Out :=
  s.cascInstr h (fun x _ =>
    let q := x.recRef (opdRec b)
    let tern := encOf (recEnc q.r) == some .tern
    let bad := operandBad q (x.record? q.ix).isSome [.k4, .k3, .k2, .tern] tern
      || (recSmode q.r == 1 && recGsize q.r != 6)
    let ctl := x.blk a 2
    let n := bits ctl 21 16 + 1
    let cb := bits ctl 11 8
    let e := bits ctl 5 0
    let off := x.blk a 3
    let hd := if ctd then some (x.blk a 1) else none
    orTrap ([(bad, Trap.one 0x30#8 q.ix),
             (bits ctl 31 22 != 0 || bits ctl 15 12 != 0 || bits ctl 7 6 != 0 || decide (64 < e + n) || (tern && cb != 0),
              Trap.one 0x11#8 ctl),
             (!ctd && x.blk a 1 != 0, Trap.one 0x11#8 (x.blk a 1)),
             (!ctd && off != 0, Trap.one 0x11#8 off)]
            ++ tileChecks s x hd off (8 * off + n * 64 * recWidth q.r))
      (.msort (x.blk a 0) n cb e hd (if ctd then off else 0) q))

/-- Whether some field of `w` bits at a bit offset leaves the crew window (R306, R425). -/
def outside (x : Site) (off w : Nat) : Bool := !x.inWindow (bitSpan off w).1 (bitSpan off w).2

/-- The first element run that leaves the crew window, as a trap 0x12 check (R306). -/
def windowChecks (x : Site) (sp : Bool) (starts : List Nat) (n w : Nat) : List (Bool × Trap) :=
  if sp then
    match starts.find? (fun e => outside x (e * w) (n * w)) with
    | some e => [(true, Trap.one 0x12#8 (e * w / 8))]
    | none => []
  else []

/-- `mparts` (R309). -/
def execMparts (h : Hdr) (opn cls sp : Bool) (a b : Opd) (s : State) : Out :=
  s.cascInstr h (fun x _ =>
    let q := x.recRef (opdRec b)
    let bad := operandBad q (x.record? q.ix).isSome [.f16, .bf16, .e4m3, .e5m2, .s8] false
    let ctl := x.blk a 2
    let n := bits ctl 21 16 + 1
    let e0 := x.blk a 0
    let pitch := x.blk a 1
    orTrap ([(bad, Trap.one 0x30#8 q.ix),
             (bits ctl 31 30 != 0 || bits ctl 23 22 != 0 || bits ctl 15 6 != 0, Trap.one 0x11#8 ctl),
             (x.blk a 3 != 0, Trap.one 0x11#8 (x.blk a 3))]
            ++ windowChecks x sp ((List.range n).map (fun r => e0 + r * pitch)) 64 (recWidth q.r)
            ++ [(headFails x.c.unit opn false, headTrap x.c.unit)])
      (.mparts opn cls sp e0 pitch (bits ctl 29 24) n (bits ctl 5 0) q))

/-- Whether a record fails as a mask of `mloop.attn` (R339). -/
def maskBad (q : RecRef) : Bool :=
  !recOk q.r false false || recEnc q.r != 0 || recSmode q.r != 0 || recIlv q.r != 0 || recGsize q.r != 0
    || recScale q.r != 0 || recSidx q.r != 0 || recCols q.r == 0 || recStride q.r % 4 != 0
    || decide (recStride q.r < (recCols q.r + 7) / 8)

/-- The formats of dense operands (R286). -/
def denseEncs : List Enc := [.f16, .bf16, .e4m3, .e5m2, .s8, .s4]

/-- What the two forms of `mloop` share (R310, R316). -/
def loopJob (s : State) (x : Site) (attn opn cls spa spb ctb : Bool) (d a b : Opd) : Except Trap CascOp :=
  let ra := x.recRef (opdRec d)
  let rb := x.recRef (opdRec b)
  let opBad := fun (q : RecRef) => operandBad q (x.record? q.ix).isSome denseEncs true || recCols q.r == 0
  let c := x.blk a 4
  let g5 := x.blk a 5
  let g6 := x.blk a 6
  let g7 := x.blk a 7
  let m := x.recRef (bits g5 15 8)
  let int := intPair ra.r rb.r
  let ks := kStep ra.r rb.r
  let a0 := x.blk a 0
  let ai := x.blk a 1
  let b0 := x.blk a 2
  let bi := x.blk a 3
  let value := g5.testBit 0
  let steps := List.range c
  let rowsA := steps.flatMap (fun k => (List.range 64).map (fun i => a0 + k * ai + i * recCols ra.r))
  let rowsB := steps.flatMap (fun k => (List.range ks).map (fun i => b0 + k * bi + i * recCols rb.r))
  let hd := if ctb then some g6 else none
  let last := b0 + (c - 1) * bi + (ks - 1) * recCols rb.r + 64
  let recs := [(opBad ra, Trap.one 0x30#8 ra.ix), (opBad rb, Trap.one 0x30#8 rb.ix),
               (attn && ((x.record? m.ix).isNone || maskBad m), Trap.one 0x30#8 m.ix)]
  let nums := [(c == 0 || decide (65536 < c), Trap.one 0x11#8 c),
               (if attn then bits g5 31 16 != 0 || bits g5 7 1 != 0 else g5 != 0, Trap.one 0x11#8 g5),
               (if attn then g6 % 16 != 0 else !ctb && g6 != 0, Trap.one 0x11#8 g6),
               (if attn then g7 % 16 != 0 else !ctb && g7 != 0, Trap.one 0x11#8 g7),
               (ctb && (attn || spb), Trap.one 0x11#8 g6),
               (attn && !value && int, Trap.one 0x11#8 g5)]
  match firstTrap (recs ++ nums) with
  | some t => .error t
  | none =>
    orTrap (windowChecks x spa rowsA ks (recWidth ra.r) ++ windowChecks x spb rowsB 64 (recWidth rb.r)
            ++ tileChecks s x hd g7 (8 * g7 + last * recWidth rb.r)
            ++ [(headFails x.c.unit opn int, headTrap x.c.unit)])
      (.mloop opn cls spa spb hd a0 ai b0 bi c (if ctb then g7 else 0) ra rb
        (if attn then some ⟨m, value, g6, g7⟩ else none))

/-- `mloop.dense` (R289, R310). -/
def execMloopDense (h : Hdr) (opn cls spa spb ctb : Bool) (d a b : Opd) (s : State) : Out :=
  s.cascInstr h (fun x _ => loopJob s x false opn cls spa spb ctb d a b)

/-- `mloop.attn` (R290, R310): with `ctb` it takes trap 0x11. -/
def execMloopAttn (h : Hdr) (opn cls spa : Bool) (side : LoopSide) (d a b : Opd) (s : State) : Out :=
  s.cascInstr h (fun x _ => loopJob s x true opn cls spa side.spb side.ctb d a b)

/-- `mfence` (R311): the group's window opening for every later job. -/
def execMfence (h : Hdr) (s : State) : Out :=
  s.uni h (fun x _ => .next ((s.modGroup x.g.key (fun g => { g with opening := s.stamp })).finish x [])) []

/-- `mring.pop` (R312). -/
def execMringPop (h : Hdr) (s : State) : Out :=
  s.cascInstr h (fun x _ => orTrap [(tailFails x.c.unit, tailTrap x.c.unit)] .pop)

/-- The ring status word (R298). -/
def ringStatus (u : CascUnit) : Nat :=
  let hd := u.slot u.head
  let opn := hd.st == 1
  u.head + 8 * u.tail + (if opn && hd.int32 then 64 else 0) + (if opn then 128 else 0)
    + 256 * (u.slots.filter (fun t => t.st == 2)).length + 4096 * u.pending

/-- `mring.stat` (R312). -/
def execMringStat (h : Hdr) (d : Opd) (s : State) : Out :=
  s.uni h (fun x _ => .next ((s.modGroup x.g.key (fun g => g.writeAll d (BitVec.ofNat 32 (ringStatus x.c.unit)))).finish x [])) []

/-- `epcfg` (R313). -/
def execEpcfg (h : Hdr) (a : Opd) (s : State) : Out :=
  s.cascInstr h (fun x _ => .ok (.epcfg (x.g.greg (opdGno a + 3) ++ x.g.greg (opdGno a + 2) ++ x.g.greg (opdGno a + 1)
    ++ x.g.greg (opdGno a))))

/-- The arrival action's code (R305). -/
def arvNo : Arv → Nat
  | .none => 0
  | .set => 1
  | .add => 2

/-- `eprun` (R299, R314), against the configuration in issue order. -/
def execEprun (h : Hdr) (arv : Arv) (d a : Option Opd) (s : State) : Out :=
  s.cascInstr h (fun x e =>
    let cfg := x.c.unit.project.epc
    let v := cfg.toNat
    let q := x.recRef (epDrec v)
    let w := recWidth q.r
    let n := epRows v * epCols v
    let at_ := fun (k : Nat) => 8 * epOrigin v + (k / epCols v * epPitch v + k % epCols v) * w
    let dest := if epDsp v then (List.range n).find? (fun k => outside x (at_ k) w) else none
    let scl := if epScl v = 0 then 0 else if epScl v = 1 then 4 * epCols v else 4 * epRows v
    let bia := if epBias v = 0 then 0 else 4 * epCols v
    orTrap [((x.record? q.ix).isNone || !recOk q.r true false, Trap.one 0x30#8 q.ix),
            (bits v 19 12 != 0 || bits v 6 2 != 0 || decide (1 < epBias v) || decide (2 < epScl v), Trap.one 0x11#8 (v % 2 ^ 32)),
            (bits v 71 52 % 4 != 0, Trap.one 0x11#8 (bits v 71 52)),
            (bits v 51 32 % 4 != 0, Trap.one 0x11#8 (bits v 51 32)),
            (dest.isSome, Trap.one 0x12#8 (at_ (dest.getD 0) / 8)),
            (!x.inWindow (bits v 51 32) scl, Trap.one 0x12#8 (bits v 51 32)),
            (!x.inWindow (bits v 71 52) bia, Trap.one 0x12#8 (bits v 71 52)),
            (tailFails x.c.unit, tailTrap x.c.unit)]
      (.eprun (arvNo arv) ((d.map opdAw).getD 0) ((a.map (x.read s (lowest e))).getD 0#32) cfg q))

/-- A debug read (R315): it issues, guarded off or not, once every job issued before it has completed; an index above 63
takes trap 0x11. -/
def State.mread (s : State) (h : Hdr) (d a : Opd) (dst : List Opd) (k : Site → Nat → Word → Group → Group) : Out :=
  s.atSite (fun x =>
    let e := x.vmask h
    if x.c.unit.pending ≠ 0 then .next s
    else if e = 0#32 then .next (s.finish x dst)
    else
      let n := (x.read s (lowest e) a).toNat
      if 63 < n then .next (s.trap x (Trap.one 0x11#8 n))
      else .next ((s.modGroup x.g.key (k x n e)).finish x (d :: dst)))

/-- `mread.perm` (R315). -/
def execMreadPerm (h : Hdr) (d a : Opd) (s : State) : Out :=
  s.mread h d a [] (fun x n e g =>
    g.write false e d (fun i => if i < 16 then (x.c.unit.perm.get n).extractLsb' (32 * i) 32 else 0#32))

/-- `mread.ws` (R315). -/
def execMreadWs (h : Hdr) (d a : Opd) (s : State) : Out :=
  s.mread h d a [opdNext d] (fun x n e g =>
    g.write64 false e d (fun i => if n + i < 64 then (x.c.unit.ws.get (n + i)).signExtend 64 else 0#64))

end Sys2Proof.Machine
end

