-- ==== Sys2Proof/Machine/Sampling.lean ====
section
/-!
DEFINITION. Sampling and speculation (R355 to R365): `rngc`, `gumbel`, `latexp`, `accept`.
-/

namespace Sys2Proof.Machine

/-- One round of R356 on 64 bits. -/
def rngRound (x m sh : Nat) : Nat :=
  let y := x * m % 2 ^ 64
  y ^^^ (y >>> sh)

/-- The random word of a seed and a counter (R356). -/
def rngWord (seed c : Nat) : Nat :=
  let x := (seed + c * 0x9E3779B97F4A7C15) % 2 ^ 64
  let x := rngRound x 0xD6E8FEB86659FD93 31
  let x := rngRound x 0xA5CB3F1D2C8E46B7 29
  let x := rngRound x 0xC3A5C85C97CB3127 30
  let x := rngRound x 0x8CB92BA72F3D8DD7 33
  x / 2 ^ 32

/-- `rngc` (R356). -/
def execRngc (h : Hdr) (d a b : Opd) (s : State) : Out :=
  s.alu h d [a, b] (fun x i => BitVec.ofNat 32 (rngWord (x.read64 s i a).toNat (x.read s i b).toNat))

/-- `gumbel` (R357). -/
def execGumbel (h : Hdr) (d a b : Opd) (s : State) : Out :=
  s.aluEv h d [a, b] (fun x i =>
    let r := gumbelVal (x.read s i a).toNat (x.read s i b).toNat
    (BitVec.ofNat 32 r.1, r.2))

/-- A node of a lattice (R358). -/
structure LNode where
  gst   : Nat
  sp    : Nat
  tok   : Nat
  depth : Nat
  par1  : Nat
  par0  : Nat
  npar  : Nat
  rsv   : Nat
  st    : Nat
  deriving DecidableEq, Repr

/-- The fields of a node. -/
def nodeOf (w : Nat) : LNode :=
  ⟨bits w 127 96, bits w 95 64, bits w 63 32, bits w 31 26, bits w 25 20, bits w 19 14, bits w 13 12, bits w 11 2, bits w 1 0⟩

/-- The parents of a node. -/
def LNode.parents (n : LNode) : List Nat := [n.par0, n.par1].take n.npar

/-- A lattice (R358). -/
structure Lattice where
  at_   : Nat
  bgst  : Nat
  bsp   : Nat
  last  : Nat
  nodes : List LNode
  deriving DecidableEq, Repr

/-- Node `j` of a lattice. -/
def Lattice.node (q : Lattice) (j : Nat) : LNode := (q.nodes[j]?).getD (nodeOf 0)

/-- The checks of R359 on node `k`, against the nodes before it. -/
def nodeOk (ns : List LNode) (k : Nat) (n : LNode) : Bool :=
  let deep := fun (p : Nat) => n.depth == ((ns[p]?).map (·.depth)).getD 0 + 1
  n.rsv == 0 && n.npar != 3 && n.st != 3 && n.parents.all (fun p => decide (p < k))
    && !(n.npar == 2 && n.par0 == n.par1) && (n.npar != 0 || n.depth == 1) && n.parents.all deep

/-- Trap 0x38 (R359, R391). -/
def badLattice {α : Type} (off node : Nat) : Try α :=
  .error (.trap ⟨0x38#8, BitVec.ofNat 64 off, BitVec.ofNat 64 node, 0#64, false⟩)

/-- Bytes of the crew's space as a number. -/
def State.scrNat (s : State) (x : Site) (a n : Nat) : Nat := leNat (s.scrRead x.c.id x.g.gid a n)

/-- A range of the crew's space is read: a poisoned granule of it takes 0x14, as it does for `lds` (R421). -/
def State.scrSound (s : State) (x : Site) (a n : Nat) : Try Unit :=
  if s.scrPoison x.c.id a n then .error (.acc 0x14#8 a) else .ok ()

/-- Read and check a lattice, in the order of R359. The header's poison counts before its fields are checked, that of the nodes
before any node is (R359 and R421 give no order: log entry 60). -/
def State.lattice (s : State) (x : Site) (off : Nat) : Try Lattice := do
  if off % 16 ≠ 0 then tryTrap 0x13#8 off
  if !x.inWindow off 32 then tryTrap 0x12#8 off
  s.scrSound x off 32
  let hd := s.scrNat x off 32
  let n := bits hd 7 0
  if bits hd 127 16 ≠ 0 ∨ n = 0 ∨ 64 < n then badLattice off 0xFF
  if !x.inWindow (off + 32) (16 * n) then tryTrap 0x12#8 (off + 32)
  let _ ← (List.range n).mapM (fun k => s.scrSound x (off + 32 + 16 * k) 16)
  let nodes := (List.range n).map (fun k => nodeOf (s.scrNat x (off + 32 + 16 * k) 16))
  match nodes.zipIdx.find? (fun e => !nodeOk nodes e.2 e.1) with
  | some e => badLattice off e.2
  | none =>
    let last := bits hd 15 8
    if last ≠ 0xFF ∧ ((nodes[last]?).map (·.st)) ≠ some 1 then badLattice off 0xFF
    .ok ⟨off, bits hd 255 224, bits hd 223 192, last, nodes⟩

/-- What a path expansion has so far: rows (as numbers), paths, and whether it has too many rows. -/
structure Walk where
  rows  : List Nat
  paths : Nat
  full  : Bool
  deriving DecidableEq, Repr

/-- The rows of one path (R360): its nodes in order, the first row's index and the path's index. -/
def pathRows (q : Lattice) (first path : Nat) (anc : List Nat) : List Nat :=
  (List.range anc.length).map (fun i =>
    let j := (anc[i]?).getD 0
    let mask := (anc.take (i + 1)).foldl (fun m k => m ||| 2 ^ k) 0
    mask * 2 ^ 64 + (q.node j).tok * 2 ^ 32 + (first % 256) * 2 ^ 24 + (q.node j).depth * 2 ^ 16 + (path % 256) * 2 ^ 8 + j)

/-- The walk of R360 from node `j`; the first argument bounds its depth. -/
def walkFrom (q : Lattice) (dmax : Nat) : Nat → Nat → List Nat → Walk → Walk
  | 0, _, _, w => w
  | f + 1, j, anc, w =>
    if w.full then w
    else
      let path := anc ++ [j]
      let kids := (List.range q.nodes.length).filter (fun c =>
        decide ((q.node c).depth ≤ dmax) && (q.node c).parents.contains j)
      if kids.isEmpty then
        { rows := w.rows ++ pathRows q w.rows.length w.paths path, paths := w.paths + 1,
          full := decide (256 < w.rows.length + path.length) }
      else kids.foldl (fun w c => walkFrom q dmax f c path w) w

/-- The rows of a lattice within a depth (R360). -/
def latticeRows (q : Lattice) (dmax : Nat) : Walk :=
  if dmax = 0 then ⟨[], 0, false⟩
  else
    ((List.range q.nodes.length).filter (fun j => (q.node j).npar == 0)).foldl
      (fun w j => walkFrom q dmax 64 j [] w) ⟨[], 0, false⟩

/-- The effective depth of a context (R361, R362). -/
def State.depth (s : State) (ctx : Nat) : Nat := depthOf (((s.ctx? ctx).map (·.depth)).getD 0#32)

/-- `latexp` (R360). -/
def execLatexp (h : Hdr) (d a : Opd) (s : State) : Out :=
  s.grpStep h [d] (fun x _ => do
    let g := fun i => (x.g.greg (opdGno a + i)).toNat
    let q ← s.lattice x (g 0)
    need (decide (g 2 ≤ 256)) (g 2)
    need (g 3 == 0) (g 3)
    if g 1 % 4 ≠ 0 then tryTrap 0x13#8 (g 1)
    if !x.inWindow (g 1) (16 * g 2) then tryTrap 0x12#8 (g 1)
    let w := latticeRows q (s.depth x.ctx)
    if w.full then badLattice (g 0) 0xFF
    let s1 := s.scrWrite x.c.id x.g.gid (g 1) ((w.rows.take (g 2)).flatMap (leBytes 16))
    .ok (.next ((s1.modGroup x.g.key (fun g => g.writeAll d (BitVec.ofNat 32 w.rows.length))).finish x [d])))

/-- Whether a node is a candidate (R364). -/
def Lattice.cand (q : Lattice) (j : Nat) : Bool :=
  let n := q.node j
  n.st == 0 && ((q.last == 0xFF && n.npar == 0) || n.parents.contains q.last)

/-- An access as a step of a `Try`. -/
def Acc.toTry (a : Acc) : Try (State × DWord) :=
  match a with
  | .ok s w _ => .ok (s, w)
  | .bad c info => .error (.acc c info)
  | .hold => .error .hold
  | .early => .error .hold

/-- A probability as a multiple of 2^−149, with whether it counts INV (R364). -/
def probOf (w : Nat) : Nat × Bool :=
  match fp32.val w with
  | .fin n m e => if n && m != 0 then (0, true) else (m <<< (e + 149).toNat, false)
  | _ => (0, true)

/-- What the reads of `accept` gave: P and Q by element, and the INV counts of each. -/
structure Probs where
  s  : State
  p  : List Nat
  q  : List Nat
  ip : Nat
  iq : Nat
  deriving DecidableEq, Repr

/-- One element of P and of Q (R364, R365). -/
def Site.probAt (x : Site) (rp rq : Rec) (ixp ixq ep eq : Nat) (a : Probs) (i : Nat) : Try Probs := do
  let u ← (x.elemLoadAt a.s rp ixp (ep + i)).toTry
  let w ← (x.elemLoadAt u.1 rq ixq (eq + i)).toTry
  let p := probOf u.2.toNat
  let q := probOf w.2.toNat
  .ok ⟨w.1, p.1 :: a.p, q.1 :: a.q, a.ip + (if p.2 then 1 else 0), a.iq + (if q.2 then 1 else 0)⟩

/-- A write check of one element (R363). -/
def Site.mayPut (x : Site) (s : State) (r : Rec) (idx e : Nat) : Try Unit :=
  match recOff r e with
  | none => .error (.acc 0x11#8 (recBase r + e * recWidth r / 8))
  | some off =>
    match x.elemBytes s r idx off true with
    | .ok _ => .ok ()
    | .error a => (a.toTry).map (fun _ => ())

/-- A record of `accept`: it keeps R240, has no scales, and has one of the formats (R363). -/
def Site.probRec (x : Site) (idx : Nat) (fs : List Enc) : Try Rec :=
  match x.record? idx with
  | none => tryTrap 0x30#8 idx
  | some r =>
    if recOk r false false && recSmode r == 0 && ((encOf (recEnc r)).map fs.contains).getD false then .ok r
    else tryTrap 0x30#8 idx

/-- rne(P − Q, FP32), at least 0, as a multiple of 2^−149 (R364). -/
def residual (p q : Nat) : Nat := if p ≤ q then 0 else (probOf (fp32.round FEnv.unit false (p - q) (-149) false).1).1

/-- rne(d / Z, FP32) (R364). -/
def shareOf (d z : Nat) : Nat := (fp32.round FEnv.unit false (d <<< 200 / z) (-200) (d <<< 200 % z != 0)).1

/-- A 32-bit word of the crew's space written. -/
def State.scrPut (s : State) (x : Site) (a n val : Nat) : State := s.scrWrite x.c.id x.g.gid a (leBytes n val)

/-- The change of the lattice by `accept` (R364). -/
def State.mark (s : State) (x : Site) (q : Lattice) (k : Nat) (ok : Bool) : State :=
  let n := q.node k
  let from_ := if ok then (n.gst, n.sp) else if q.last = 0xFF then (q.bgst, q.bsp) else ((q.node q.last).gst, (q.node q.last).sp)
  let a := q.at_ + 32 + 16 * k
  let s1 := s.scrPut x a 1 (setBits (s.scrNat x a 1) 1 0 (if ok then 1 else 2))
  let s2 := if ok then s1.scrPut x (q.at_ + 1) 1 k else s1
  (s2.scrPut x (q.at_ + 16) 4 from_.2).scrPut x (q.at_ + 20) 4 from_.1

/-- The residual written over P (R242, R364, R365). -/
def Site.putResidual (x : Site) (rp : Rec) (idx ep z : Nat) (s : State) (e : Nat × Nat) : Try State := do
  let r ← (x.codeStoreAt s rp idx (ep + e.2) (shareOf e.1 z) Ev.zero).toTry
  .ok r.1

/-- The test and its outcome, once the elements are read (R364): the code of D and the state. -/
def State.acceptTest (s : State) (x : Site) (q : Lattice) (k r v : Nat) (rp rq : Rec) (ixp ep : Nat) (pr : Probs) :
    Try (State × Nat) := do
  let p := pr.p.reverse
  let qq := pr.q.reverse
  let t := (q.node k).tok
  let s0 := (pr.s.count x.c.die x.ctx (recTensor rp) { Ev.zero with inv := pr.ip }).count x.c.die x.ctx (recTensor rq)
    { Ev.zero with inv := pr.iq }
  if (2 * (r / 256) + 1) * (qq[t]?).getD 0 < (p[t]?).getD 0 * 2 ^ 25 then .ok (s0.mark x q k true, 1)
  else
    let d := (p.zip qq).map (fun e => residual e.1 e.2)
    let z := d.foldl (· + ·) 0
    if z = 0 then .ok (s0.mark x q k false, 2)
    else
      let _ ← (List.range v).mapM (fun i => x.mayPut s rp ixp (ep + i))
      let s1 ← d.zipIdx.foldlM (x.putResidual rp ixp ep z) (s0.mark x q k false)
      .ok (s1, 0)

/-- `accept` (R363 to R365). -/
def execAccept (h : Hdr) (d a : Opd) (s : State) : Out :=
  s.grpStep h [d] (fun x _ => do
    let g := fun i => (x.g.greg (opdGno a + i)).toNat
    let q ← s.lattice x (g 0)
    let k := g 1
    let v := g 3
    need (decide (k < 2 ^ 8)) k
    need (decide (g 4 < 2 ^ 16)) (g 4)
    need (g 7 == 0) (g 7)
    need (decide (1 ≤ v) && decide (v ≤ 2 ^ 24)) v
    need (decide (k < q.nodes.length)) k
    let ixp := bits (g 4) 7 0
    let ixq := bits (g 4) 15 8
    let rp ← x.probRec ixp [.f32]
    let rq ← x.probRec ixq [.f32, .f16, .bf16]
    let answer := fun (s : State) (c : Nat) =>
      Host.Outcome.next ((s.modGroup x.g.key (fun g => g.writeAll d (BitVec.ofNat 32 c))).finish x [d])
    if s.depth x.ctx < (q.node k).depth then .ok (answer s 3)
    else if !q.cand k then .ok (answer s 4)
    else if (List.range k).any q.cand then .ok (answer s 5)
    else
      need (decide ((q.node k).tok < v)) (q.node k).tok
      let pr ← (List.range v).foldlM (x.probAt rp rq ixp ixq (g 5) (g 6)) ⟨s, [], [], 0, 0⟩
      let r ← s.acceptTest x q k (g 2) v rp rq ixp (g 5) pr
      .ok (answer r.1 r.2))

end Sys2Proof.Machine
end

