-- ==== Sys2Proof/Machine/Dispatch.lean ====
section
/-!
DEFINITION. The meaning of every constructor of `Instr`: one direct call each.
-/

namespace Sys2Proof.Machine

def exec (i : Instr) (s : State) : Host.Outcome State Fault Refusal :=
  match i with
  | .add h ty sat d a b => Sys2Proof.Machine.execAdd h ty sat d a b s
  | .sub h ty sat d a b => Sys2Proof.Machine.execSub h ty sat d a b s
  | .mul h ty sat d a b => Sys2Proof.Machine.execMul h ty sat d a b s
  | .mulhi h ty d a b => Sys2Proof.Machine.execMulhi h ty d a b s
  | .mad h ty sat d a b => Sys2Proof.Machine.execMad h ty sat d a b s
  | .div h ty d a b => Sys2Proof.Machine.execDiv h ty d a b s
  | .rem h ty d a b => Sys2Proof.Machine.execRem h ty d a b s
  | .min h ty d a b => Sys2Proof.Machine.execMin h ty d a b s
  | .max h ty d a b => Sys2Proof.Machine.execMax h ty d a b s
  | .abs h sat d a => Sys2Proof.Machine.execAbs h sat d a s
  | .lea h sc d a b => Sys2Proof.Machine.execLea h sc d a b s
  | .and h d a b => Sys2Proof.Machine.execAnd h d a b s
  | .or h d a b => Sys2Proof.Machine.execOr h d a b s
  | .xor h d a b => Sys2Proof.Machine.execXor h d a b s
  | .not h d a => Sys2Proof.Machine.execNot h d a s
  | .shl h d a b => Sys2Proof.Machine.execShl h d a b s
  | .shr h ty d a b => Sys2Proof.Machine.execShr h ty d a b s
  | .rot h d a b => Sys2Proof.Machine.execRot h d a b s
  | .bfx h ty d a b => Sys2Proof.Machine.execBfx h ty d a b s
  | .bfi h d a b => Sys2Proof.Machine.execBfi h d a b s
  | .bitPop h d a => Sys2Proof.Machine.execBitPop h d a s
  | .bitClz h d a => Sys2Proof.Machine.execBitClz h d a s
  | .bitRev h d a => Sys2Proof.Machine.execBitRev h d a s
  | .cmp h ty rel d a b => Sys2Proof.Machine.execCmp h ty rel d a b s
  | .plog h op d a b => Sys2Proof.Machine.execPlog h op d a b s
  | .sel h neg prd d a b => Sys2Proof.Machine.execSel h neg prd d a b s
  | .mov h w d a => Sys2Proof.Machine.execMov h w d a s
  | .xmov h op d a b => Sys2Proof.Machine.execXmov h op d a b s
  | .lsred h op m d a => Sys2Proof.Machine.execLsred h op m d a s
  | .lscan h op m d a => Sys2Proof.Machine.execLscan h op m d a s
  | .vote h op d a => Sys2Proof.Machine.execVote h op d a s
  | .ballot h d a b => Sys2Proof.Machine.execBallot h d a b s
  | .cmprs h d a b => Sys2Proof.Machine.execCmprs h d a b s
  | .expnd h d a b => Sys2Proof.Machine.execExpnd h d a b s
  | .fadd h ty m d a b => Sys2Proof.Machine.execFadd h ty m d a b s
  | .fsub h ty m d a b => Sys2Proof.Machine.execFsub h ty m d a b s
  | .fmul h ty m d a b => Sys2Proof.Machine.execFmul h ty m d a b s
  | .fma h ty m d a b => Sys2Proof.Machine.execFma h ty m d a b s
  | .fmin h ty m d a b => Sys2Proof.Machine.execFmin h ty m d a b s
  | .fmax h ty m d a b => Sys2Proof.Machine.execFmax h ty m d a b s
  | .fcmp h ty rel d a b => Sys2Proof.Machine.execFcmp h ty rel d a b s
  | .fcls h d a b => Sys2Proof.Machine.execFcls h d a b s
  | .fabs h ty d a => Sys2Proof.Machine.execFabs h ty d a s
  | .fneg h ty d a => Sys2Proof.Machine.execFneg h ty d a s
  | .fdiv h m d a b => Sys2Proof.Machine.execFdiv h m d a b s
  | .sqrt h m d a => Sys2Proof.Machine.execSqrt h m d a s
  | .rcp h m d a => Sys2Proof.Machine.execRcp h m d a s
  | .rsqrt h m d a => Sys2Proof.Machine.execRsqrt h m d a s
  | .exp2 h m d a => Sys2Proof.Machine.execExp2 h m d a s
  | .log2 h m d a => Sys2Proof.Machine.execLog2 h m d a s
  | .sin h m d a => Sys2Proof.Machine.execSin h m d a s
  | .cos h m d a => Sys2Proof.Machine.execCos h m d a s
  | .tanh h m d a => Sys2Proof.Machine.execTanh h m d a s
  | .frnd h m d a => Sys2Proof.Machine.execFrnd h m d a s
  | .scl h m d a b => Sys2Proof.Machine.execScl h m d a b s
  | .cvt h dst src m ovn d a => Sys2Proof.Machine.execCvt h dst src m ovn d a s
  | .cvt2 h bf m ovn d a b => Sys2Proof.Machine.execCvt2 h bf m ovn d a b s
  | .decv h d a => Sys2Proof.Machine.execDecv h d a s
  | .ld h w d a b => Sys2Proof.Machine.execLd h w d a b s
  | .st h w d a b => Sys2Proof.Machine.execSt h w d a b s
  | .lds h w d a b => Sys2Proof.Machine.execLds h w d a b s
  | .sts h w d a b => Sys2Proof.Machine.execSts h w d a b s
  | .ldr h d a b => Sys2Proof.Machine.execLdr h d a b s
  | .str h d a b => Sys2Proof.Machine.execStr h d a b s
  | .fillc h d a b => Sys2Proof.Machine.execFillc h d a b s
  | .ldc h w last d a b => Sys2Proof.Machine.execLdc h w last d a b s
  | .stc h w d a b => Sys2Proof.Machine.execStc h w d a b s
  | .atom h op d a b => Sys2Proof.Machine.execAtom h op d a b s
  | .atoms h op d a b => Sys2Proof.Machine.execAtoms h op d a b s
  | .red h op rnd ftz a b => Sys2Proof.Machine.execRed h op rnd ftz a b s
  | .cmoClean h l a b => Sys2Proof.Machine.execCmoClean h l a b s
  | .cmoInval h l a b => Sys2Proof.Machine.execCmoInval h l a b s
  | .cmoCleaninval h l a b => Sys2Proof.Machine.execCmoCleaninval h l a b s
  | .fence h sc => Sys2Proof.Machine.execFence h sc s
  | .pf h l a b => Sys2Proof.Machine.execPf h l a b s
  | .pin h d a => Sys2Proof.Machine.execPin h d a s
  | .unpin h d => Sys2Proof.Machine.execUnpin h d s
  | .reclaim h d a => Sys2Proof.Machine.execReclaim h d a s
  | .cpy h d a b => Sys2Proof.Machine.execCpy h d a b s
  | .cpyCvt h d a b => Sys2Proof.Machine.execCpyCvt h d a b s
  | .cpyFill h d a b => Sys2Proof.Machine.execCpyFill h d a b s
  | .barArrive h d l idx => Sys2Proof.Machine.execBarArrive h d l idx s
  | .barWait h l idx => Sys2Proof.Machine.execBarWait h l idx s
  | .barSync h d l idx => Sys2Proof.Machine.execBarSync h d l idx s
  | .barDrop h d l idx => Sys2Proof.Machine.execBarDrop h d l idx s
  | .waitAny h d a b => Sys2Proof.Machine.execWaitAny h d a b s
  | .waitAll h d a b => Sys2Proof.Machine.execWaitAll h d a b s
  | .arrvSet h d a => Sys2Proof.Machine.execArrvSet h d a s
  | .arrvAdd h d a => Sys2Proof.Machine.execArrvAdd h d a s
  | .arrvExpect h d a => Sys2Proof.Machine.execArrvExpect h d a s
  | .ringTake h d a prod lap => Sys2Proof.Machine.execRingTake h d a prod lap s
  | .ringGive h a prod lap => Sys2Proof.Machine.execRingGive h a prod lap s
  | .yield h dl => Sys2Proof.Machine.execYield h dl s
  | .trail h regs => Sys2Proof.Machine.execTrail h regs s
  | .regroup h a b => Sys2Proof.Machine.execRegroup h a b s
  | .join h => Sys2Proof.Machine.execJoin h s
  | .fork h d a => Sys2Proof.Machine.execFork h d a s
  | .br h off rec => Sys2Proof.Machine.execBr h off rec s
  | .call h d a => Sys2Proof.Machine.execCall h d a s
  | .ret h a => Sys2Proof.Machine.execRet h a s
  | .jmp h a => Sys2Proof.Machine.execJmp h a s
  | .exit h => Sys2Proof.Machine.execExit h s
  | .mcb h a b => Sys2Proof.Machine.execMcb h a b s
  | .msort h ctd a b => Sys2Proof.Machine.execMsort h ctd a b s
  | .mparts h opn cls sp a b => Sys2Proof.Machine.execMparts h opn cls sp a b s
  | .mloopDense h opn cls spa spb ctb d a b => Sys2Proof.Machine.execMloopDense h opn cls spa spb ctb d a b s
  | .mloopAttn h opn cls spa side d a b => Sys2Proof.Machine.execMloopAttn h opn cls spa side d a b s
  | .mfence h => Sys2Proof.Machine.execMfence h s
  | .mringPop h => Sys2Proof.Machine.execMringPop h s
  | .mringStat h d => Sys2Proof.Machine.execMringStat h d s
  | .epcfg h a => Sys2Proof.Machine.execEpcfg h a s
  | .eprun h arv d a => Sys2Proof.Machine.execEprun h arv d a s
  | .mreadPerm h d a => Sys2Proof.Machine.execMreadPerm h d a s
  | .mreadWs h d a => Sys2Proof.Machine.execMreadWs h d a s
  | .kvapp h a b => Sys2Proof.Machine.execKvapp h a b s
  | .pgshare h a => Sys2Proof.Machine.execPgshare h a s
  | .pgrel h a => Sys2Proof.Machine.execPgrel h a s
  | .extset h a b => Sys2Proof.Machine.execExtset h a b s
  | .extsetRm h a b => Sys2Proof.Machine.execExtsetRm h a b s
  | .extsetClr h a => Sys2Proof.Machine.execExtsetClr h a s
  | .qclear h a b => Sys2Proof.Machine.execQclear h a b s
  | .segbegin h a b => Sys2Proof.Machine.execSegbegin h a b s
  | .segseal h a b => Sys2Proof.Machine.execSegseal h a b s
  | .link h d a b => Sys2Proof.Machine.execLink h d a b s
  | .linkVfy h d a b => Sys2Proof.Machine.execLinkVfy h d a b s
  | .unlink h d a b => Sys2Proof.Machine.execUnlink h d a b s
  | .kvgath h arv d a b => Sys2Proof.Machine.execKvgath h arv d a b s
  | .ropeq h d a b => Sys2Proof.Machine.execRopeq h d a b s
  | .repset h d a => Sys2Proof.Machine.execRepset h d a s
  | .ovlcommit h d a b => Sys2Proof.Machine.execOvlcommit h d a b s
  | .rngc h d a b => Sys2Proof.Machine.execRngc h d a b s
  | .gumbel h d a b => Sys2Proof.Machine.execGumbel h d a b s
  | .latexp h d a => Sys2Proof.Machine.execLatexp h d a s
  | .accept h d a => Sys2Proof.Machine.execAccept h d a s
  | .launch h d a => Sys2Proof.Machine.execLaunch h d a s
  | .trap h code => Sys2Proof.Machine.execTrap h code s
  | .srd h d a b => Sys2Proof.Machine.execSrd h d a b s
  | .swr h d a b => Sys2Proof.Machine.execSwr h d a b s
  | .specdepthSetPending ctx value => Sys2Proof.Machine.execSpecdepthSetPending ctx value s
  | .specdepthApplyImmediate ctx value => Sys2Proof.Machine.execSpecdepthApplyImmediate ctx value s
  | .specdepthCancel ctx value => Sys2Proof.Machine.execSpecdepthCancel ctx value s
  | .nop h => Sys2Proof.Machine.execNop h s
  | .illegalWord cause role => Sys2Proof.Machine.execIllegalWord cause role s
  | .longLatencyWriteback gk => Sys2Proof.Machine.execLongLatencyWriteback gk s
  | .fragmentReturn gk => Sys2Proof.Machine.execFragmentReturn gk s
  | .watchdogOverrun => Sys2Proof.Machine.execWatchdogOverrun s
  | .waitEvaluation gk => Sys2Proof.Machine.execWaitEvaluation gk s
  | .waitTimeout gk => Sys2Proof.Machine.execWaitTimeout gk s
  | .bufferFill b ctx line => Sys2Proof.Machine.execBufferFill b ctx line s
  | .bufferClean b ctx line => Sys2Proof.Machine.execBufferClean b ctx line s
  | .bufferDrop b ctx line => Sys2Proof.Machine.execBufferDrop b ctx line s
  | .engineStep e j off => Sys2Proof.Machine.execEngineStep e j off s
  | .gatherTokenStep e j tok => Sys2Proof.Machine.execGatherTokenStep e j tok s
  | .deviceJobStep d j off => Sys2Proof.Machine.execDeviceJobStep d j off s
  | .copyJobCompletion e => Sys2Proof.Machine.execCopyJobCompletion e s
  | .gatherCompletion e => Sys2Proof.Machine.execGatherCompletion e s
  | .cloneCompletion d j => Sys2Proof.Machine.execCloneCompletion d j s
  | .tokenComparisonCompletion d j => Sys2Proof.Machine.execTokenComparisonCompletion d j s
  | .linkVfyDecision gk => Sys2Proof.Machine.execLinkVfyDecision gk s
  | .jobFaultDelivery gk => Sys2Proof.Machine.execJobFaultDelivery gk s
  | .cascadeRead crew j region => Sys2Proof.Machine.execCascadeRead crew j region s
  | .epilogueWrite crew j elem => Sys2Proof.Machine.execEpilogueWrite crew j elem s
  | .cascadeCompletion crew => Sys2Proof.Machine.execCascadeCompletion crew s
  | .parkService w leaf => Sys2Proof.Machine.execParkService w leaf s
  | .debugResume gk => Sys2Proof.Machine.execDebugResume gk s
  | .debugKill gk => Sys2Proof.Machine.execDebugKill gk s
  | .debugWindowWrite gk off value => Sys2Proof.Machine.execDebugWindowWrite gk off value s
  | .crewOffer handle lin => Sys2Proof.Machine.execCrewOffer handle lin s
  | .placementWaitExpiry handle lin core => Sys2Proof.Machine.execPlacementWaitExpiry handle lin core s
  | .crewRetire crew => Sys2Proof.Machine.execCrewRetire crew s
  | .launchEnd handle => Sys2Proof.Machine.execLaunchEnd handle s
  | .contextSwitchOut ctx => Sys2Proof.Machine.execContextSwitchOut ctx s
  | .contextValidObserved ctx => Sys2Proof.Machine.execContextValidObserved ctx s
  | .contextSwitchComplete crew => Sys2Proof.Machine.execContextSwitchComplete crew s
  | .hostAccess sp addr data => Sys2Proof.Machine.execHostAccess sp addr data s
  | .reset => Sys2Proof.Machine.execReset s
  | .functionTrainingEnd f ok => Sys2Proof.Machine.execFunctionTrainingEnd f ok s
  | .bootStart hi => Sys2Proof.Machine.execBootStart hi s
  | .managementRegisterWrite off value => Sys2Proof.Machine.execManagementRegisterWrite off value s
  | .flitCrcRetry port => Sys2Proof.Machine.execFlitCrcRetry port s
  | .portDegrade port lanes => Sys2Proof.Machine.execPortDegrade port lanes s
  | .packageUnreachable pkg => Sys2Proof.Machine.execPackageUnreachable pkg s
  | .migrationInstallComplete d j leaf => Sys2Proof.Machine.execMigrationInstallComplete d j leaf s
  | .patrolScrub granule r => Sys2Proof.Machine.execPatrolScrub granule r s
  | .contextSwitchIn ctx => Sys2Proof.Machine.execContextSwitchIn ctx s
  | .hostUnreachable => Sys2Proof.Machine.execHostUnreachable s

end Sys2Proof.Machine
end

