-- ==== Sys2Proof/WellFormed.lean ====
section
/-!
DEFINITION. Well-formed instructions: the operand classes that each description accepts (R56 to R62, R154, R180, R233,
R264, R305, R327, R341, R355, R395) and the modifier values that it accepts (R65, R234). An event has no word, and nothing
here limits it.
-/

namespace Sys2Proof

def Opd.isV : Opd → Bool
  | .v _ => true
  | _ => false

def Opd.isG : Opd → Bool
  | .g _ => true
  | _ => false

def Opd.isP : Opd → Bool
  | .p _ => true
  | _ => false

def Opd.isT : Opd → Bool
  | .t _ => true
  | _ => false

def Opd.isSi : Opd → Bool
  | .si _ => true
  | _ => false

def Opd.isUi : Opd → Bool
  | .ui _ => true
  | _ => false

def Opd.isSr : Opd → Bool
  | .sr _ => true
  | _ => false

def Opd.isPin : Opd → Bool
  | .pin _ => true
  | _ => false

def Opd.isRc : Opd → Bool
  | .rc _ => true
  | _ => false

def Opd.isLi : Opd → Bool
  | .li _ => true
  | _ => false

def Opd.isAw : Opd → Bool
  | .aw _ => true
  | _ => false

def Opd.isRing : Opd → Bool
  | .ring _ _ => true
  | _ => false

/-- An even register number, as a pair needs (R58); other classes have no such limit. -/
def Opd.even : Opd → Bool
  | .v n => n.toNat % 2 == 0
  | .g n => n.toNat % 2 == 0
  | .t n => n.toNat % 2 == 0
  | _ => true

/-- Classes 0x0, 0x1 and 0x3: the ordinary and the floating destination (R154, R180). -/
def Opd.vgt (o : Opd) : Bool := o.isV || o.isG || o.isT

/-- Classes 0x0 and 0x1. -/
def Opd.vg (o : Opd) : Bool := o.isV || o.isG

/-- Classes 0x1 and 0x5. -/
def Opd.gu (o : Opd) : Bool := o.isG || o.isUi

/-- An ordinary source (R154). -/
def Opd.src (o : Opd) : Bool := o.vgt || o.isSi || o.isUi || o.isSr

/-- A floating source (R180). -/
def Opd.fsrc (o : Opd) : Bool := o.vgt || o.isSr

/-- A floating source with immediate (R180). -/
def Opd.fsrcI (o : Opd) : Bool := o.fsrc || o.isUi

/-- An address pair (R233). -/
def Opd.apair (o : Opd) : Bool := o.vg && o.even

/-- A pair of group registers. -/
def Opd.gpair (o : Opd) : Bool := o.isG && o.even

/-- A block of group registers: a multiple of `k`, at most `m` (R58, R260, R271, R327). -/
def Opd.block (k m : Nat) : Opd → Bool
  | .g n => n.toNat % k == 0 && decide (n.toNat ≤ m)
  | _ => false

/-- Class 0x1 in a written D together with a class 0x0 operand is illegal (R155). -/
def noMix (d : Opd) (l : List Opd) : Bool := !(d.isG && l.any Opd.isV)

/-- The second source of a move between threads: a register, or an immediate that is plain or width-relative (R168, R169). -/
def Opd.dist : Opd → Bool
  | .g _ => true
  | .ui x => !(x.getLsbD 15 && x.extractLsb' 4 11 != 0#11)
  | _ => false

/-- An optional operand that, where present, is of some class. -/
def optAll (f : Opd → Bool) : Option Opd → Bool
  | none => true
  | some o => f o

/-- No modifier of layout F. -/
def FMod.plain (m : FMod) : Bool := m == ⟨.mode, .mode, false, false⟩

/-- Only NANC and FTZ of layout F (R184, R189). -/
def FMod.nf (m : FMod) : Bool := m.rnd == .mode && !m.sat

/-- The barriers of a level (R265). -/
def BarLvl.limit : BarLvl → Nat
  | .core => 16
  | .quad => 8
  | .die => 8
  | .pkg => 4
  | .pod => 2

/-- A data source of a store (R243). That a `b64` store takes an immediate, too, is the model's reading: R243 lists the classes
"and a pair for `b64`" (log entry 60). -/
def Opd.data (o : Opd) (wide : Bool) : Bool := (o.vgt && (!wide || o.even)) || o.isSi || o.isUi

/-- A destination of a load (R243). -/
def Opd.ldDst (o : Opd) (wide : Bool) : Bool := o.vg && (!wide || o.even)

/-- A signed offset (R243). -/
def Opd.off (o : Opd) : Bool := o.vgt || o.isSi

/-- The second operand of an atomic (R251). -/
def Opd.atomB (o : Opd) (op : AtomOp) : Bool :=
  if op == .cas || op == .pmax then o.apair else o.vg || o.isSi || o.isUi

/-- The engine operand of a copy: an unsigned immediate or a register (R260). A number above 5 is no illegal encoding in
either (R56 and R81 name none): it traps at issue (R261; log entry 53). -/
def wfEngine (o : Opd) : Bool := o.gu

/-- Two sources and a written destination (R158, R160, R161). -/
def wfBin (d a b : Opd) : Bool := d.vgt && a.src && b.src && noMix d [a, b]

/-- One source and a written destination. -/
def wfUn (d a : Opd) : Bool := d.vgt && a.src && noMix d [a]

/-- Two floating sources and a written destination (R183). -/
def wfFBin (d a b : Opd) : Bool := d.vgt && a.fsrc && b.fsrcI && noMix d [a, b]

/-- One floating source and a written destination. -/
def wfFUn (d a : Opd) : Bool := d.vgt && a.fsrc && noMix d [a]

/-- Whether an instruction is well-formed: it has an encoding, and its encoding passes checks 1, 3 and 4 of R81. -/
def Instr.wf : Instr → Bool
  | .add _ _ _ d a b => wfBin d a b
  | .sub _ _ _ d a b => wfBin d a b
  | .mul _ _ _ d a b => wfBin d a b
  | .mulhi _ _ d a b => wfBin d a b
  | .mad _ _ _ d a b => wfBin d a b
  | .div _ _ d a b => wfBin d a b
  | .rem _ _ d a b => wfBin d a b
  | .min _ _ d a b => wfBin d a b
  | .max _ _ d a b => wfBin d a b
  | .abs _ _ d a => wfUn d a
  | .lea _ _ d a b => d.vgt && d.even && a.vgt && a.even && b.src && noMix d [a, b]
  | .and _ d a b => wfBin d a b
  | .or _ d a b => wfBin d a b
  | .xor _ d a b => wfBin d a b
  | .not _ d a => d.vgt && (a.src || a.isLi) && noMix d [a]
  | .shl _ d a b => wfBin d a b
  | .shr _ _ d a b => wfBin d a b
  | .rot _ d a b => wfBin d a b
  | .bfx _ _ d a b => wfBin d a b
  | .bfi _ d a b => wfBin d a b
  | .bitPop _ d a => wfUn d a
  | .bitClz _ d a => wfUn d a
  | .bitRev _ d a => wfUn d a
  | .cmp _ _ rel d a b => d.isP && a.src && b.src && rel != .un && rel != .ord
  | .plog _ op d a b => d.isP && a.isP && (match b with
      | none => op == .not
      | some o => op != .not && o.isP)
  | .sel _ neg prd d a b => wfBin d a b && !(neg && prd == 0#3)
  | .mov _ w d a =>
    (match w with
     | .b32 => d.vgt && (a.src || a.isLi)
     | .b64 => d.vgt && d.even && ((a.vgt && a.even) || a.isSi || a.isUi || a.isLi)) && noMix d [a]
  | .xmov _ op d a b => a.isV && (match op with
      | .idx => (d.isV && (b.dist || b.isV || b.isT)) || (d.isG && b.dist)
      | .up => d.isV && b.dist
      | .down => d.isV && b.dist
      | .xor => d.isV && b.dist)
  | .lsred _ op m d a => d.vg && a.isV && (op == .fadd || m.plain)
  | .lscan _ op m d a => d.isV && a.isV && (op == .fadd || m.plain)
  | .vote _ _ d a => (d.isG || d.isP) && a.isP
  | .ballot _ d a b => d.isG && a.isP && optAll Opd.isUi b
  | .cmprs _ d a b => d.isV && a.isV && b.isP
  | .expnd _ d a b => d.isV && a.isV && b.isP
  | .fadd _ _ _ d a b => wfFBin d a b
  | .fsub _ _ _ d a b => wfFBin d a b
  | .fmul _ _ _ d a b => wfFBin d a b
  | .fma _ _ _ d a b => wfFBin d a b
  | .fmin _ _ m d a b => wfFBin d a b && m.nf
  | .fmax _ _ m d a b => wfFBin d a b && m.nf
  | .fcmp _ _ _ d a b => d.isP && a.fsrc && b.fsrcI
  | .fcls _ d a b => d.isP && a.fsrc && (match b with
      | .g _ => true
      | .ui x => x.extractLsb' 10 6 == 0#6
      | _ => false)
  | .fabs _ _ d a => wfFUn d a
  | .fneg _ _ d a => wfFUn d a
  | .fdiv _ _ d a b => wfFBin d a b
  | .sqrt _ _ d a => wfFUn d a
  | .rcp _ _ d a => wfFUn d a
  | .rsqrt _ m d a => wfFUn d a && m.nf
  | .exp2 _ m d a => wfFUn d a && m.nf
  | .log2 _ m d a => wfFUn d a && m.nf
  | .sin _ m d a => wfFUn d a && m.nf
  | .cos _ m d a => wfFUn d a && m.nf
  | .tanh _ m d a => wfFUn d a && m.nf
  | .frnd _ m d a => wfFUn d a && !m.sat
  | .scl _ _ d a b => d.vgt && a.fsrc && b.off && noMix d [a, b]
  | .cvt _ dst src _ _ d a => dst != src && wfFUn d a
  | .cvt2 _ _ _ _ d a b => d.vgt && a.fsrc && b.fsrc && noMix d [a, b]
  | .decv _ d a => d.isV && a.gpair
  | .ld _ w d a b => d.ldDst (w == .b64) && a.apair && b.off && noMix d [a, b]
  | .st _ w d a b => d.data (w == .b64) && a.apair && b.off
  | .lds _ w d a b => d.vgt && (w != .b64 || d.even) && a.vgt && b.off && noMix d [a, b]
  | .sts _ w d a b => d.data (w == .b64) && a.vgt && b.off
  | .ldr _ d a b => d.vg && a.isRc && (b.vgt || b.isUi) && noMix d [b]
  | .str _ d a b => d.data false && a.isRc && (b.vgt || b.isUi)
  | .fillc _ d a b => d.isG && a.gpair && b.gu
  | .ldc _ w _ d a b => d.ldDst (w == .b64) && a.isG && (b.vg || b.isSi || b.isUi) && noMix d [b]
  | .stc _ w d a b => d.data (w == .b64) && a.isG && (b.vg || b.isSi || b.isUi)
  | .atom _ op d a b => d.ldDst (op == .pmax) && a.apair && b.atomB op && noMix d [a, b]
  | .atoms _ op d a b => d.vgt && (op != .pmax || d.even) && a.vgt && b.atomB op && noMix d [a, b]
  | .red _ op rnd ftz a b => op != .xchg && op != .cas && a.apair && b.atomB op && (op == .fadd || (rnd == .mode && !ftz))
  | .cmoClean _ _ a b => a.gpair && b.gu
  | .cmoInval _ _ a b => a.gpair && b.gu
  | .cmoCleaninval _ _ a b => a.gpair && b.gu
  | .fence _ _ => true
  | .pf _ l a b => l != .mem && a.apair && b.gu
  | .pin _ d a => d.isPin && a.gpair
  | .unpin _ d => d.isPin
  | .reclaim _ d a => d.isG && a.gpair
  | .cpy _ d a b => d.isAw && a.block 8 56 && wfEngine b
  | .cpyCvt _ d a b => d.isAw && a.block 8 56 && wfEngine b
  | .cpyFill _ d a b => d.isAw && a.block 8 56 && wfEngine b
  | .barArrive _ d l idx => optAll Opd.isG d && decide (idx.toNat < l.limit)
  | .barWait _ l idx => decide (idx.toNat < l.limit)
  | .barSync _ d l idx => optAll Opd.isG d && decide (idx.toNat < l.limit)
  | .barDrop _ d l idx => optAll Opd.isG d && decide (idx.toNat < l.limit)
  | .waitAny _ d a b => d.isP && a.block 4 48 && b.gu
  | .waitAll _ d a b => d.isP && a.block 4 48 && b.gu
  | .arrvSet _ d a => d.isAw && a.gu
  | .arrvAdd _ d a => d.isAw && a.gu
  | .arrvExpect _ d a => d.isAw && a.gu
  | .ringTake _ d a _ _ => d.isP && a.isRing
  | .ringGive _ a _ _ => a.isRing
  | .yield _ _ => true
  | .trail _ regs => decide (regs.length ≤ 3) && regs.all (fun o => o.isV || o.isG || o.isP)
  | .regroup _ a b => a.gu && b.gu
  | .join _ => true
  | .fork _ d a => d.isG && a.gpair
  | .br h _ rec => rec.isSome == (h.neg || h.prd != 0#3)
  | .call _ d a => d.gpair && (a.isSi || a.gpair)
  | .ret _ a => a.gpair
  | .jmp _ a => a.gpair
  | .exit _ => true
  | .mcb _ a b => (a.isUi || a.gpair) && b.gu
  | .msort _ _ a b => a.block 4 60 && b.isRc
  | .mparts _ _ _ _ a b => a.block 4 60 && b.isRc
  | .mloopDense _ _ _ _ _ _ d a b => d.isRc && a.block 8 56 && b.isRc
  | .mloopAttn _ _ _ _ _ d a b => d.isRc && a.block 8 56 && b.isRc
  | .mfence _ => true
  | .mringPop _ => true
  | .mringStat _ d => d.isG
  | .epcfg _ a => a.block 4 60
  | .eprun _ arv d a =>
    (match arv with
     | .none => d.isNone && a.isNone
     | .set => d.isSome && optAll Opd.isAw d && a.isSome && optAll Opd.gu a
     | .add => d.isSome && optAll Opd.isAw d && a.isNone)
  | .mreadPerm _ d a => d.isV && a.gu
  | .mreadWs _ d a => d.isV && d.even && a.gu
  | .kvapp _ a b => a.block 4 60 && b.gu
  | .pgshare _ a => a.block 8 56
  | .pgrel _ a => a.block 4 60
  | .extset _ a b => a.gpair && b.block 4 60
  | .extsetRm _ a b => a.gpair && b.block 4 60
  | .extsetClr _ a => a.gpair
  | .qclear _ a b => a.gpair && b.isG
  | .segbegin _ a b => a.block 4 60 && b.gpair
  | .segseal _ a b => a.block 8 56 && b.gpair
  | .link _ d a b => d.isP && a.block 8 56 && b.gpair
  | .linkVfy _ d a b => d.isP && a.block 8 56 && b.gpair
  | .unlink _ d a b => d.isG && a.gpair && b.isG
  | .kvgath _ arv d a b => a.block 8 56 &&
    (match arv with
     | .none => d.isNone && b.isNone
     | .set => d.isSome && optAll Opd.isAw d && b.isSome && optAll Opd.gu b
     | .add => d.isSome && optAll Opd.isAw d && b.isNone)
  | .ropeq _ d a b => d.apair && a.gpair && b.apair && noMix d [b]
  | .repset _ d a => d.isG && a.block 8 56
  | .ovlcommit _ d a b => d.isP && a.gpair && b.gpair
  | .rngc _ d a b => d.vgt && a.apair && (b.vgt || b.isUi || b.isSr) && noMix d [a, b]
  | .gumbel _ d a b => d.vgt && a.fsrc && b.vgt && noMix d [a, b]
  | .latexp _ d a => d.isG && a.block 4 60
  | .accept _ d a => d.isG && a.block 8 56
  | .launch _ d a => d.isG && a.gpair
  | .trap _ _ => true
  | .srd _ d a b => d.isG && a.isSr && optAll Opd.gu b
  | .swr _ d a b => d.isSr && (a.isG || a.isSi || a.isUi) && optAll Opd.gu b
  | .specdepthSetPending _ _ => true
  | .specdepthApplyImmediate _ _ => true
  | .specdepthCancel _ _ => true
  | .nop _ => true
  | .illegalWord _ _ => true
  | .longLatencyWriteback _ => true
  | .fragmentReturn _ => true
  | .watchdogOverrun => true
  | .waitEvaluation _ => true
  | .waitTimeout _ => true
  | .bufferFill _ _ _ => true
  | .bufferClean _ _ _ => true
  | .bufferDrop _ _ _ => true
  | .engineStep _ _ _ => true
  | .gatherTokenStep _ _ _ => true
  | .deviceJobStep _ _ _ => true
  | .copyJobCompletion _ => true
  | .gatherCompletion _ => true
  | .cloneCompletion _ _ => true
  | .tokenComparisonCompletion _ _ => true
  | .linkVfyDecision _ => true
  | .jobFaultDelivery _ => true
  | .cascadeRead _ _ _ => true
  | .epilogueWrite _ _ _ => true
  | .cascadeCompletion _ => true
  | .parkService _ _ => true
  | .debugResume _ => true
  | .debugKill _ => true
  | .debugWindowWrite _ _ _ => true
  | .crewOffer _ _ => true
  | .placementWaitExpiry _ _ _ => true
  | .crewRetire _ => true
  | .launchEnd _ => true
  | .contextSwitchOut _ => true
  | .contextValidObserved _ => true
  | .contextSwitchComplete _ => true
  | .hostAccess _ _ _ => true
  | .reset => true
  | .functionTrainingEnd _ _ => true
  | .bootStart _ => true
  | .managementRegisterWrite _ _ => true
  | .flitCrcRetry _ => true
  | .portDegrade _ _ => true
  | .packageUnreachable _ => true
  | .migrationInstallComplete _ _ _ => true
  | .patrolScrub _ _ => true
  | .contextSwitchIn _ => true
  | .hostUnreachable => true

end Sys2Proof
end

