-- ==== Sys2Proof/Decode.lean ====
section
/-!
DEFINITION. The instruction word (R53): its fields, operand fields (R56, R57), modifiers (R65), the opcode map (R74 to
R80), the decoder with the checks 1 to 4 of R81, and the encoder.
-/

namespace Sys2Proof

/-- The fields of a word (R53). -/
structure Fields where
  maj : BitVec 8
  min : BitVec 8
  h   : Hdr
  md  : BitVec 8
  d   : BitVec 20
  a   : BitVec 20
  b   : BitVec 20
  deriving DecidableEq, Repr

/-- The word that fields make (R53). -/
def Fields.toWord (f : Fields) : IWord :=
  f.maj ++ f.min ++ (BitVec.ofBool f.h.neg ++ f.h.prd ++ f.h.dly ++ f.h.ru ++ f.h.pri) ++ f.md ++ f.d ++ f.a ++ f.b

/-- The fields of a word (R53). -/
def fieldsOf (w : IWord) : Fields :=
  { maj := w.extractLsb' 88 8, min := w.extractLsb' 80 8,
    h := ⟨w.getLsbD 79, w.extractLsb' 76 3, w.extractLsb' 72 4, w.extractLsb' 70 2, w.extractLsb' 68 2⟩,
    md := w.extractLsb' 60 8, d := w.extractLsb' 40 20, a := w.extractLsb' 20 20, b := w.extractLsb' 0 20 }

/-- Special registers by number (R59). -/
def sregs : List SReg :=
  [.gwidth, .tid, .gid, .role, .ngroups, .crewx, .crewy, .crewz, .ncrewx, .ncrewy, .ncrewz, .lane, .core, .quad, .die,
   .pkg, .tsclo, .tschi, .refclklo, .refclkhi, .fpmode, .ybound, .faultmask, .specdepth, .ctx]

/-- The number of a special register (R59). -/
def SReg.no : SReg → Nat
  | .gwidth => 0
  | .tid => 1
  | .gid => 2
  | .role => 3
  | .ngroups => 4
  | .crewx => 5
  | .crewy => 6
  | .crewz => 7
  | .ncrewx => 8
  | .ncrewy => 9
  | .ncrewz => 10
  | .lane => 11
  | .core => 12
  | .quad => 13
  | .die => 14
  | .pkg => 15
  | .tsclo => 16
  | .tschi => 17
  | .refclklo => 18
  | .refclkhi => 19
  | .fpmode => 20
  | .ybound => 21
  | .faultmask => 22
  | .specdepth => 23
  | .ctx => 24

/-- A class with a VAL. -/
def cls (c : BitVec 4) (v : BitVec 16) : BitVec 20 := c ++ v

/-- The class of an operand field (R56). -/
def clsOf (f : BitVec 20) : BitVec 4 := f.extractLsb' 16 4

/-- The VAL of an operand field (R56). -/
def valOf (f : BitVec 20) : BitVec 16 := f.extractLsb' 0 16

/-- A register operand whose number keeps its limit (R56). -/
def regOpd (n : Nat) (v : BitVec 16) (o : Opd) : Option Opd := if v.toNat < n then some o else none

/-- An operand field of the classes 0x0 to 0x8, 0xA and 0xB (R56); a VAL beyond its limit, class 0x9 and the reserved
classes give none. -/
def opdOf (f : BitVec 20) : Option Opd :=
  let v := valOf f
  match (clsOf f).toNat with
  | 0 => regOpd 256 v (.v (v.setWidth 8))
  | 1 => regOpd 64 v (.g (v.setWidth 6))
  | 2 => regOpd 8 v (.p (v.setWidth 3))
  | 3 => regOpd 8 v (.t (v.setWidth 3))
  | 4 => some (.si v)
  | 5 => some (.ui v)
  | 6 => (sregs[v.toNat]?).map Opd.sr
  | 7 => regOpd 4 v (.pin (v.setWidth 2))
  | 8 => regOpd 256 v (.rc (v.setWidth 8))
  | 10 => some (.aw v)
  | 11 => some (.ring (v.extractLsb' 12 4) (v.extractLsb' 0 12))
  | _ => none

/-- The field of an operand (R56). A long immediate stands in A and B; this is its part in A (R57). -/
def Opd.field : Opd → BitVec 20
  | .v n => cls 0#4 (n.setWidth 16)
  | .g n => cls 1#4 (n.setWidth 16)
  | .p n => cls 2#4 (n.setWidth 16)
  | .t n => cls 3#4 (n.setWidth 16)
  | .si x => cls 4#4 x
  | .ui x => cls 5#4 x
  | .sr r => cls 6#4 (BitVec.ofNat 16 r.no)
  | .pin n => cls 7#4 (n.setWidth 16)
  | .rc n => cls 8#4 (n.setWidth 16)
  | .li x => cls 9#4 (x.extractLsb' 0 16)
  | .aw x => cls 10#4 x
  | .ring k s => cls 11#4 (k ++ s)

/-- The B field beside an operand in A: the upper half of a long immediate, else zero (R57, R62). -/
def Opd.upper : Opd → BitVec 20
  | .li x => cls 9#4 (x.extractLsb' 16 16)
  | _ => 0#20

/-- The field of an optional operand: zero where absent (R62). -/
def optField : Option Opd → BitVec 20
  | none => 0#20
  | some o => o.field

/-- An optional operand: a zero field is none (R62). -/
def optOf (f : BitVec 20) (k : Option Opd → Option Instr) : Option Instr :=
  if f = 0#20 then k none else (opdOf f).bind (fun o => k (some o))

/-- Operands in D, A and B. -/
def Fields.dab (f : Fields) (k : Opd → Opd → Opd → Instr) : Option Instr :=
  (opdOf f.d).bind (fun d => (opdOf f.a).bind (fun a => (opdOf f.b).map (fun b => k d a b)))

/-- Operands in D and A; B is zero. -/
def Fields.da (f : Fields) (k : Opd → Opd → Instr) : Option Instr :=
  if f.b = 0#20 then (opdOf f.d).bind (fun d => (opdOf f.a).map (fun a => k d a)) else none

/-- Operands in D and A, where A and B may hold a long immediate (R57). -/
def Fields.daLong (f : Fields) (k : Opd → Opd → Instr) : Option Instr :=
  if clsOf f.a = 9#4 ∧ clsOf f.b = 9#4 then (opdOf f.d).map (fun d => k d (.li (valOf f.b ++ valOf f.a))) else f.da k

/-- Operands in A and B; D is zero. -/
def Fields.ab (f : Fields) (k : Opd → Opd → Instr) : Option Instr :=
  if f.d = 0#20 then (opdOf f.a).bind (fun a => (opdOf f.b).map (fun b => k a b)) else none

/-- An operand in A; D and B are zero. -/
def Fields.a1 (f : Fields) (k : Opd → Instr) : Option Instr :=
  if f.d = 0#20 ∧ f.b = 0#20 then (opdOf f.a).map k else none

/-- An operand in D; A and B are zero. -/
def Fields.d1 (f : Fields) (k : Opd → Instr) : Option Instr :=
  if f.a = 0#20 ∧ f.b = 0#20 then (opdOf f.d).map k else none

/-- No operand: D, A and B are zero. -/
def Fields.zero (f : Fields) (i : Instr) : Option Instr := if f.d = 0#20 ∧ f.a = 0#20 ∧ f.b = 0#20 then some i else none

/-- A field that must be zero. -/
def whenZ (x : BitVec 8) (o : Option Instr) : Option Instr := if x = 0#8 then o else none

/-- A value of a list by its number. -/
def pickAt {α : Type} (l : List α) (n : Nat) (k : α → Option Instr) : Option Instr := (l[n]?).bind k

def itys : List ITy := [.s32, .n32]
def scales : List Scale := [.x1, .x2, .x4, .x8]
def rels : List Rel := [.eq, .ne, .lt, .le, .gt, .ge, .un, .ord]
def plogOps : List PlogOp := [.and, .or, .xor, .not]
def movWs : List MovW := [.b32, .b64]
def xmovOps : List XmovOp := [.idx, .up, .down, .xor]
def scanOps : List ScanOp := [.iadd, .fadd, .smin, .smax, .nmin, .nmax, .fmin, .fmax, .and, .or, .xor]
def voteOps : List VoteOp := [.all, .any, .uni]
def rnds : List Rnd := [.mode, .rn, .rz, .rp, .rm]
def ftzs : List Ftz := [.mode, .ftz, .den]
def ftys : List FTy := [.f32, .f16x2, .bf16x2]
def fmts : List Fmt := [.f32, .f16, .bf16, .e4m3, .e5m2, .s8, .s4, .s32, .n32]
def ldWs : List LdW := [.s8, .n8, .s16, .n16, .b32, .b64]
def stWs : List StW := [.b8, .b16, .b32, .b64]
def atomOps : List AtomOp := [.add, .smin, .smax, .nmin, .nmax, .and, .or, .xor, .xchg, .cas, .fadd, .fmin, .fmax, .pmax]
def lvls : List Lvl := [.l1, .l2, .cis, .mem]
def scopes : List Scope := [.core, .quad, .die, .pkg, .pod, .sys]
def barLvls : List BarLvl := [.core, .quad, .die, .pkg, .pod]
def arvs : List Arv := [.none, .set, .add]

/-- The number of a value in its list. -/
def noIn {α : Type} [BEq α] (l : List α) (x : α) : BitVec 8 := BitVec.ofNat 8 (l.findIdx (· == x))

/-- Layout I (R65). -/
def satOf (md : BitVec 8) (k : Bool → Option Instr) : Option Instr :=
  if md.extractLsb' 0 7 = 0#7 then k (md.getLsbD 7) else none

/-- Layout C (R65). -/
def relOf (md : BitVec 8) (k : Rel → Option Instr) : Option Instr :=
  if md.extractLsb' 0 4 = 0#4 then pickAt rels (md.extractLsb' 4 4).toNat k else none

/-- Layout S (R65). -/
def selOf (md : BitVec 8) (k : Bool → BitVec 3 → Option Instr) : Option Instr :=
  if md.extractLsb' 0 4 = 0#4 then k (md.getLsbD 7) (md.extractLsb' 4 3) else none

/-- Layout V (R65): layout F with OVN. -/
def vmodOf (md : BitVec 8) (k : FMod → Bool → Option Instr) : Option Instr :=
  pickAt rnds (md.extractLsb' 5 3).toNat (fun r =>
    pickAt ftzs (md.extractLsb' 3 2).toNat (fun z => k ⟨r, z, md.getLsbD 2, md.getLsbD 1⟩ (md.getLsbD 0)))

/-- Layout F (R65). -/
def fmodOf (md : BitVec 8) (k : FMod → Option Instr) : Option Instr :=
  vmodOf md (fun m ovn => if ovn then none else k m)

/-- LVL of layout M (R65, R234). -/
def lvlOf (md : BitVec 8) (k : Lvl → Option Instr) : Option Instr :=
  if md.extractLsb' 0 2 = 0#2 ∧ md.extractLsb' 5 3 = 0#3 ∧ md.extractLsb' 2 3 ≠ 0#3 then
    pickAt lvls ((md.extractLsb' 2 3).toNat - 1) k
  else none

/-- SCOPE of layout M (R65, R234). -/
def scopeOf (md : BitVec 8) (k : Scope → Option Instr) : Option Instr :=
  if md.extractLsb' 0 5 = 0#5 ∧ md.extractLsb' 5 3 ≠ 0#3 then pickAt scopes ((md.extractLsb' 5 3).toNat - 1) k else none

/-- LAST of layout M (R65, R234). -/
def lastOf (md : BitVec 8) (k : Bool → Option Instr) : Option Instr :=
  if md &&& 0xFD#8 = 0#8 then k (md.getLsbD 1) else none

/-- Layout MR (R65, R234). -/
def mrOf (md : BitVec 8) (k : Rnd → Bool → Option Instr) : Option Instr :=
  if md &&& 0xE1#8 = 0#8 then pickAt rnds (md.extractLsb' 2 3).toNat (fun r => k r (md.getLsbD 1)) else none

/-- ARV in the top bits of layout X (R305, R341). -/
def arvOf? (md : BitVec 8) (k : Arv → Option Instr) : Option Instr :=
  if md.extractLsb' 0 6 = 0#6 then pickAt arvs (md.extractLsb' 6 2).toNat k else none

def satMd (sat : Bool) : BitVec 8 := BitVec.ofBool sat ++ 0#7
def relMd (r : Rel) : BitVec 8 := (noIn rels r).setWidth 4 ++ 0#4
def selMd (neg : Bool) (prd : BitVec 3) : BitVec 8 := BitVec.ofBool neg ++ prd ++ 0#4
def vMd (m : FMod) (ovn : Bool) : BitVec 8 :=
  (noIn rnds m.rnd).setWidth 3 ++ (noIn ftzs m.ftz).setWidth 2 ++ BitVec.ofBool m.nanc ++ BitVec.ofBool m.sat ++ BitVec.ofBool ovn
def lvlMd (l : Lvl) : BitVec 8 := 0#3 ++ (noIn lvls l + 1#8).setWidth 3 ++ 0#2
def scopeMd (s : Scope) : BitVec 8 := (noIn scopes s + 1#8).setWidth 3 ++ 0#5
def lastMd (last : Bool) : BitVec 8 := 0#6 ++ BitVec.ofBool last ++ 0#1
def mrMd (r : Rnd) (ftz : Bool) : BitVec 8 := 0#3 ++ (noIn rnds r).setWidth 3 ++ BitVec.ofBool ftz ++ 0#1
def arvMd (x : Arv) : BitVec 8 := (noIn arvs x).setWidth 2 ++ 0#6
def flags (a b c d e : Bool) : BitVec 8 :=
  BitVec.ofBool a ++ BitVec.ofBool b ++ BitVec.ofBool c ++ BitVec.ofBool d ++ BitVec.ofBool e ++ 0#3

/-- A barrier operand (R265). -/
def barOf (f : Fields) (k : BarLvl → BitVec 4 → Option Instr) : Option Instr :=
  if clsOf f.a = 5#4 ∧ clsOf f.b = 5#4 ∧ (valOf f.a).toNat < 16 then
    pickAt barLvls (valOf f.b).toNat (fun l => k l ((valOf f.a).setWidth 4))
  else none

/-- The fields of a barrier operand (R265). -/
def barA (idx : BitVec 4) : BitVec 20 := cls 5#4 (idx.setWidth 16)
def barB (l : BarLvl) : BitVec 20 := cls 5#4 ((noIn barLvls l).setWidth 16)

/-- Side and lap parity of a ring operand (R277). -/
def ringOf (f : BitVec 20) (k : Bool → Bool → Option Instr) : Option Instr :=
  if clsOf f = 5#4 ∧ (valOf f).toNat < 4 then k ((valOf f).getLsbD 0) ((valOf f).getLsbD 1) else none
def ringB (prod lap : Bool) : BitVec 20 := cls 5#4 (0#14 ++ BitVec.ofBool lap ++ BitVec.ofBool prod)

/-- An unsigned immediate in A, with D and B zero. -/
def Fields.uiA (f : Fields) (k : BitVec 16 → Instr) : Option Instr :=
  if f.d = 0#20 ∧ f.b = 0#20 ∧ clsOf f.a = 5#4 then some (k (valOf f.a)) else none

/-- The named registers of a trailer (R278): as many as MIN says, in D, A and B, and zero beyond. -/
def trailOf (n : Nat) (d a b : BitVec 20) : Option (List Opd) :=
  match n with
  | 0 => if d = 0#20 ∧ a = 0#20 ∧ b = 0#20 then some [] else none
  | 1 => if a = 0#20 ∧ b = 0#20 then (opdOf d).map (fun x => [x]) else none
  | 2 => if b = 0#20 then (opdOf d).bind (fun x => (opdOf a).map (fun y => [x, y])) else none
  | 3 => (opdOf d).bind (fun x => (opdOf a).bind (fun y => (opdOf b).map (fun z => [x, y, z])))
  | _ => none

/-- The operand of a list, as a field. -/
def nthField (l : List Opd) (n : Nat) : BitVec 20 := optField (l[n]?)

/-- A signed immediate (R173). -/
def siOf (f : BitVec 20) (k : BitVec 16 → Option Instr) : Option Instr :=
  if clsOf f = 4#4 then k (valOf f) else none

/-- `br` (R173): B is a reconvergence offset where there is a guard. -/
def brOf (f : Fields) : Option Instr :=
  if f.d = 0#20 then
    siOf f.a (fun off => if f.b = 0#20 then some (.br f.h off none) else siOf f.b (fun r => some (.br f.h off (some r))))
  else none

/-- The instruction of a word's fields by the opcode map (R74 to R80), before its operand classes are checked. -/
def build (f : Fields) : Option Instr :=
  match f.maj.toNat with
  | 0x00 => pickAt itys f.min.toNat (fun t => satOf f.md (fun s => f.dab (.add f.h t s)))
  | 0x01 => pickAt itys f.min.toNat (fun t => satOf f.md (fun s => f.dab (.sub f.h t s)))
  | 0x02 => pickAt itys f.min.toNat (fun t => satOf f.md (fun s => f.dab (.mul f.h t s)))
  | 0x03 => pickAt itys f.min.toNat (fun t => whenZ f.md (f.dab (.mulhi f.h t)))
  | 0x04 => pickAt itys f.min.toNat (fun t => satOf f.md (fun s => f.dab (.mad f.h t s)))
  | 0x05 => pickAt itys f.min.toNat (fun t => whenZ f.md (f.dab (.div f.h t)))
  | 0x06 => pickAt itys f.min.toNat (fun t => whenZ f.md (f.dab (.rem f.h t)))
  | 0x07 => pickAt itys f.min.toNat (fun t => whenZ f.md (f.dab (.min f.h t)))
  | 0x08 => pickAt itys f.min.toNat (fun t => whenZ f.md (f.dab (.max f.h t)))
  | 0x09 => whenZ f.min (satOf f.md (fun s => f.da (.abs f.h s)))
  | 0x0A => pickAt scales f.min.toNat (fun x => whenZ f.md (f.dab (.lea f.h x)))
  | 0x0B => whenZ f.min (whenZ f.md (f.dab (.and f.h)))
  | 0x0C => whenZ f.min (whenZ f.md (f.dab (.or f.h)))
  | 0x0D => whenZ f.min (whenZ f.md (f.dab (.xor f.h)))
  | 0x0E => whenZ f.min (whenZ f.md (f.daLong (.not f.h)))
  | 0x0F => whenZ f.min (whenZ f.md (f.dab (.shl f.h)))
  | 0x10 => pickAt itys f.min.toNat (fun t => whenZ f.md (f.dab (.shr f.h t)))
  | 0x11 => whenZ f.min (whenZ f.md (f.dab (.rot f.h)))
  | 0x12 => pickAt itys f.min.toNat (fun t => whenZ f.md (f.dab (.bfx f.h t)))
  | 0x13 => whenZ f.min (whenZ f.md (f.dab (.bfi f.h)))
  | 0x14 => whenZ f.md (match f.min.toNat with
    | 0 => f.da (.bitPop f.h)
    | 1 => f.da (.bitClz f.h)
    | 2 => f.da (.bitRev f.h)
    | _ => none)
  | 0x15 => pickAt itys f.min.toNat (fun t => relOf f.md (fun r => f.dab (.cmp f.h t r)))
  | 0x16 => pickAt plogOps f.min.toNat (fun op => whenZ f.md
    (if op = .not then f.da (fun d a => .plog f.h op d a none) else f.dab (fun d a b => .plog f.h op d a (some b))))
  | 0x17 => whenZ f.min (selOf f.md (fun n p => f.dab (.sel f.h n p)))
  | 0x18 => pickAt movWs f.min.toNat (fun w => whenZ f.md (f.daLong (.mov f.h w)))
  | 0x19 => pickAt xmovOps f.min.toNat (fun op => whenZ f.md (f.dab (.xmov f.h op)))
  | 0x1A => pickAt scanOps f.min.toNat (fun op => fmodOf f.md (fun m => f.da (.lsred f.h op m)))
  | 0x1B => pickAt scanOps f.min.toNat (fun op => fmodOf f.md (fun m => f.da (.lscan f.h op m)))
  | 0x1C => pickAt voteOps f.min.toNat (fun op => whenZ f.md (f.da (.vote f.h op)))
  | 0x1D => whenZ f.min (whenZ f.md
    ((opdOf f.d).bind (fun d => (opdOf f.a).bind (fun a => optOf f.b (fun b => some (.ballot f.h d a b))))))
  | 0x1E => whenZ f.min (whenZ f.md (f.dab (.cmprs f.h)))
  | 0x1F => whenZ f.min (whenZ f.md (f.dab (.expnd f.h)))
  | 0x20 => pickAt ftys f.min.toNat (fun t => fmodOf f.md (fun m => f.dab (.fadd f.h t m)))
  | 0x21 => pickAt ftys f.min.toNat (fun t => fmodOf f.md (fun m => f.dab (.fsub f.h t m)))
  | 0x22 => pickAt ftys f.min.toNat (fun t => fmodOf f.md (fun m => f.dab (.fmul f.h t m)))
  | 0x23 => pickAt ftys f.min.toNat (fun t => fmodOf f.md (fun m => f.dab (.fma f.h t m)))
  | 0x24 => pickAt ftys f.min.toNat (fun t => fmodOf f.md (fun m => f.dab (.fmin f.h t m)))
  | 0x25 => pickAt ftys f.min.toNat (fun t => fmodOf f.md (fun m => f.dab (.fmax f.h t m)))
  | 0x26 => pickAt ftys f.min.toNat (fun t => relOf f.md (fun r => f.dab (.fcmp f.h t r)))
  | 0x27 => whenZ f.min (whenZ f.md (f.dab (.fcls f.h)))
  | 0x28 => pickAt ftys f.min.toNat (fun t => whenZ f.md (f.da (.fabs f.h t)))
  | 0x29 => pickAt ftys f.min.toNat (fun t => whenZ f.md (f.da (.fneg f.h t)))
  | 0x2A => whenZ f.min (fmodOf f.md (fun m => f.dab (.fdiv f.h m)))
  | 0x2B => whenZ f.min (fmodOf f.md (fun m => f.da (.sqrt f.h m)))
  | 0x2C => whenZ f.min (fmodOf f.md (fun m => f.da (.rcp f.h m)))
  | 0x2D => whenZ f.min (fmodOf f.md (fun m => f.da (.rsqrt f.h m)))
  | 0x2E => whenZ f.min (fmodOf f.md (fun m => f.da (.exp2 f.h m)))
  | 0x2F => whenZ f.min (fmodOf f.md (fun m => f.da (.log2 f.h m)))
  | 0x30 => whenZ f.min (fmodOf f.md (fun m => f.da (.sin f.h m)))
  | 0x31 => whenZ f.min (fmodOf f.md (fun m => f.da (.cos f.h m)))
  | 0x32 => whenZ f.min (fmodOf f.md (fun m => f.da (.tanh f.h m)))
  | 0x33 => whenZ f.min (fmodOf f.md (fun m => f.da (.frnd f.h m)))
  | 0x40 => pickAt fmts (f.min.extractLsb' 4 4).toNat (fun x => pickAt fmts (f.min.extractLsb' 0 4).toNat (fun y =>
    vmodOf f.md (fun m ovn => f.da (.cvt f.h x y m ovn))))
  | 0x41 => if f.min = 0x10#8 ∨ f.min = 0x20#8 then
      vmodOf f.md (fun m ovn => f.dab (.cvt2 f.h (f.min == 0x20#8) m ovn)) else none
  | 0x42 => whenZ f.min (whenZ f.md (f.da (.decv f.h)))
  | 0x43 => whenZ f.min (fmodOf f.md (fun m => f.dab (.scl f.h m)))
  | 0x50 => pickAt ldWs f.min.toNat (fun w => whenZ f.md (f.dab (.ld f.h w)))
  | 0x51 => pickAt stWs f.min.toNat (fun w => whenZ f.md (f.dab (.st f.h w)))
  | 0x52 => pickAt ldWs f.min.toNat (fun w => whenZ f.md (f.dab (.lds f.h w)))
  | 0x53 => pickAt stWs f.min.toNat (fun w => whenZ f.md (f.dab (.sts f.h w)))
  | 0x54 => whenZ f.min (whenZ f.md (f.dab (.ldr f.h)))
  | 0x55 => whenZ f.min (whenZ f.md (f.dab (.str f.h)))
  | 0x56 => whenZ f.min (whenZ f.md (f.dab (.fillc f.h)))
  | 0x57 => pickAt ldWs f.min.toNat (fun w => lastOf f.md (fun l => f.dab (.ldc f.h w l)))
  | 0x58 => pickAt stWs f.min.toNat (fun w => whenZ f.md (f.dab (.stc f.h w)))
  | 0x59 => pickAt atomOps f.min.toNat (fun op => whenZ f.md (f.dab (.atom f.h op)))
  | 0x5A => pickAt atomOps f.min.toNat (fun op => whenZ f.md (f.dab (.atoms f.h op)))
  | 0x5B => pickAt atomOps f.min.toNat (fun op => mrOf f.md (fun r z => f.ab (.red f.h op r z)))
  | 0x5C => lvlOf f.md (fun l => match f.min.toNat with
    | 0 => f.ab (.cmoClean f.h l)
    | 1 => f.ab (.cmoInval f.h l)
    | 2 => f.ab (.cmoCleaninval f.h l)
    | _ => none)
  | 0x5D => whenZ f.min (scopeOf f.md (fun s => f.zero (.fence f.h s)))
  | 0x5E => whenZ f.min (lvlOf f.md (fun l => f.ab (.pf f.h l)))
  | 0x5F => whenZ f.min (whenZ f.md (f.da (.pin f.h)))
  | 0x60 => whenZ f.min (whenZ f.md (f.d1 (.unpin f.h)))
  | 0x61 => whenZ f.min (whenZ f.md (f.da (.reclaim f.h)))
  | 0x62 => whenZ f.md (match f.min.toNat with
    | 0 => f.dab (.cpy f.h)
    | 1 => f.dab (.cpyCvt f.h)
    | 2 => f.dab (.cpyFill f.h)
    | _ => none)
  | 0x70 => whenZ f.md (barOf f (fun l x => match f.min.toNat with
    | 0 => optOf f.d (fun d => some (.barArrive f.h d l x))
    | 1 => if f.d = 0#20 then some (.barWait f.h l x) else none
    | 2 => optOf f.d (fun d => some (.barSync f.h d l x))
    | 3 => optOf f.d (fun d => some (.barDrop f.h d l x))
    | _ => none))
  | 0x71 => whenZ f.md (match f.min.toNat with
    | 0 => f.dab (.waitAny f.h)
    | 1 => f.dab (.waitAll f.h)
    | _ => none)
  | 0x72 => whenZ f.md (match f.min.toNat with
    | 0 => f.da (.arrvSet f.h)
    | 1 => f.da (.arrvAdd f.h)
    | 2 => f.da (.arrvExpect f.h)
    | _ => none)
  | 0x73 => whenZ f.md (ringOf f.b (fun p l => match f.min.toNat with
    | 0 => (opdOf f.d).bind (fun d => (opdOf f.a).map (fun a => .ringTake f.h d a p l))
    | 1 => if f.d = 0#20 then (opdOf f.a).map (fun a => .ringGive f.h a p l) else none
    | _ => none))
  | 0x74 => whenZ f.min (whenZ f.md (f.uiA (.yield f.h)))
  | 0x75 => whenZ f.md ((trailOf f.min.toNat f.d f.a f.b).map (fun l => .trail f.h l))
  | 0x76 => whenZ f.min (whenZ f.md (f.ab (.regroup f.h)))
  | 0x77 => whenZ f.min (whenZ f.md (f.zero (.join f.h)))
  | 0x78 => whenZ f.min (whenZ f.md (f.da (.fork f.h)))
  | 0x80 => whenZ f.min (whenZ f.md (brOf f))
  | 0x81 => whenZ f.min (whenZ f.md (f.da (.call f.h)))
  | 0x82 => whenZ f.min (whenZ f.md (f.a1 (.ret f.h)))
  | 0x83 => whenZ f.min (whenZ f.md (f.a1 (.jmp f.h)))
  | 0x84 => whenZ f.min (whenZ f.md (f.zero (.exit f.h)))
  | 0x90 => whenZ f.min (whenZ f.md (f.ab (.mcb f.h)))
  | 0x91 => whenZ f.min (satOf f.md (fun c => f.ab (.msort f.h c)))
  | 0x92 => whenZ f.min (if f.md.extractLsb' 0 5 = 0#5 then
      f.ab (.mparts f.h (f.md.getLsbD 7) (f.md.getLsbD 6) (f.md.getLsbD 5)) else none)
  | 0x93 => if f.md.extractLsb' 0 3 = 0#3 then
      (match f.min.toNat with
       | 0 => f.dab (.mloopDense f.h (f.md.getLsbD 7) (f.md.getLsbD 6) (f.md.getLsbD 5) (f.md.getLsbD 4) (f.md.getLsbD 3))
       | 1 => f.dab (.mloopAttn f.h (f.md.getLsbD 7) (f.md.getLsbD 6) (f.md.getLsbD 5) ⟨f.md.getLsbD 4, f.md.getLsbD 3⟩)
       | _ => none)
    else none
  | 0x94 => whenZ f.min (whenZ f.md (f.zero (.mfence f.h)))
  | 0x95 => whenZ f.md (match f.min.toNat with
    | 0 => f.zero (.mringPop f.h)
    | 1 => f.d1 (.mringStat f.h)
    | _ => none)
  | 0x96 => whenZ f.min (whenZ f.md (f.a1 (.epcfg f.h)))
  | 0x97 => whenZ f.min (arvOf? f.md (fun v => if f.b = 0#20 then
      optOf f.d (fun d => optOf f.a (fun a => some (.eprun f.h v d a))) else none))
  | 0x98 => whenZ f.md (match f.min.toNat with
    | 0 => f.da (.mreadPerm f.h)
    | 1 => f.da (.mreadWs f.h)
    | _ => none)
  | 0xA0 => whenZ f.min (whenZ f.md (f.ab (.kvapp f.h)))
  | 0xA1 => whenZ f.min (whenZ f.md (f.a1 (.pgshare f.h)))
  | 0xA2 => whenZ f.min (whenZ f.md (f.a1 (.pgrel f.h)))
  | 0xA3 => whenZ f.min (match f.md.toNat with
    | 0x00 => f.ab (.extset f.h)
    | 0x40 => f.ab (.extsetRm f.h)
    | 0x80 => f.a1 (.extsetClr f.h)
    | _ => none)
  | 0xA4 => whenZ f.min (whenZ f.md (f.ab (.qclear f.h)))
  | 0xA5 => whenZ f.min (whenZ f.md (f.ab (.segbegin f.h)))
  | 0xA6 => whenZ f.min (whenZ f.md (f.ab (.segseal f.h)))
  | 0xA7 => whenZ f.min (match f.md.toNat with
    | 0x00 => f.dab (.link f.h)
    | 0x80 => f.dab (.linkVfy f.h)
    | _ => none)
  | 0xA8 => whenZ f.min (whenZ f.md (f.dab (.unlink f.h)))
  | 0xA9 => whenZ f.min (arvOf? f.md (fun v =>
    optOf f.d (fun d => (opdOf f.a).bind (fun a => optOf f.b (fun b => some (.kvgath f.h v d a b))))))
  | 0xAA => whenZ f.min (whenZ f.md (f.dab (.ropeq f.h)))
  | 0xAB => whenZ f.min (whenZ f.md (f.da (.repset f.h)))
  | 0xAC => whenZ f.min (whenZ f.md (f.dab (.ovlcommit f.h)))
  | 0xB0 => whenZ f.min (whenZ f.md (f.dab (.rngc f.h)))
  | 0xB1 => whenZ f.min (whenZ f.md (f.dab (.gumbel f.h)))
  | 0xB2 => whenZ f.min (whenZ f.md (f.da (.latexp f.h)))
  | 0xB3 => whenZ f.min (whenZ f.md (f.da (.accept f.h)))
  | 0xC0 => whenZ f.min (whenZ f.md (f.da (.launch f.h)))
  | 0xC1 => whenZ f.min (whenZ f.md (f.uiA (.trap f.h)))
  | 0xC2 => whenZ f.min (whenZ f.md
    ((opdOf f.d).bind (fun d => (opdOf f.a).bind (fun a => optOf f.b (fun b => some (.srd f.h d a b))))))
  | 0xC3 => whenZ f.min (whenZ f.md
    ((opdOf f.d).bind (fun d => (opdOf f.a).bind (fun a => optOf f.b (fun b => some (.swr f.h d a b))))))
  | 0xC4 => whenZ f.min (whenZ f.md (f.zero (.nop f.h)))
  | _ => none

/-- The instruction of a word, with every check of R81 that does not depend on the group: checks 1, 3 and 4. -/
def decode (w : IWord) : Option Instr :=
  match build (fieldsOf w) with
  | some i => if i.wf then some i else none
  | none => none

/-- MIN values assigned to a major (R75 to R80): how many from 0 on; none for a reserved major. `cvt` and `cvt2` have
their own. -/
def minCount (maj : Nat) : Option Nat :=
  if maj ≤ 0x02 then some 2
  else
    match maj with
    | 0x03 => some 2
    | 0x04 => some 2
    | 0x05 => some 2
    | 0x06 => some 2
    | 0x07 => some 2
    | 0x08 => some 2
    | 0x0A => some 4
    | 0x10 => some 2
    | 0x12 => some 2
    | 0x14 => some 3
    | 0x15 => some 2
    | 0x16 => some 4
    | 0x18 => some 2
    | 0x19 => some 4
    | 0x1A => some 11
    | 0x1B => some 11
    | 0x1C => some 3
    | 0x20 => some 3
    | 0x21 => some 3
    | 0x22 => some 3
    | 0x23 => some 3
    | 0x24 => some 3
    | 0x25 => some 3
    | 0x26 => some 3
    | 0x28 => some 3
    | 0x29 => some 3
    | 0x50 => some 6
    | 0x51 => some 4
    | 0x52 => some 6
    | 0x53 => some 4
    | 0x57 => some 6
    | 0x58 => some 4
    | 0x59 => some 14
    | 0x5A => some 14
    | 0x5B => some 14
    | 0x5C => some 3
    | 0x62 => some 3
    | 0x70 => some 4
    | 0x71 => some 2
    | 0x72 => some 3
    | 0x73 => some 2
    | 0x75 => some 4
    | 0x93 => some 2
    | 0x95 => some 2
    | 0x98 => some 2
    | n =>
      if n ≤ 0x33 ∨ (0x40 ≤ n ∧ n ≤ 0x43) ∨ (0x50 ≤ n ∧ n ≤ 0x62) ∨ (0x70 ≤ n ∧ n ≤ 0x78) ∨ (0x80 ≤ n ∧ n ≤ 0x84)
        ∨ (0x90 ≤ n ∧ n ≤ 0x98) ∨ (0xA0 ≤ n ∧ n ≤ 0xAC) ∨ (0xB0 ≤ n ∧ n ≤ 0xB3) ∨ (0xC0 ≤ n ∧ n ≤ 0xC4) then some 1
      else none

/-- Whether a MIN is assigned for its major (R74). -/
def minOk (maj min : BitVec 8) : Bool :=
  if maj = 0x40#8 then
    decide ((min.extractLsb' 4 4).toNat < 9) && decide ((min.extractLsb' 0 4).toNat < 9) && min.extractLsb' 4 4 != min.extractLsb' 0 4
  else if maj = 0x41#8 then min == 0x10#8 || min == 0x20#8
  else if maj = 0x5B#8 ∧ (min = 8#8 ∨ min = 9#8) then false
  else
    match minCount maj.toNat with
    | some n => decide (min.toNat < n)
    | none => false

/-- Whether B of a major below 0x50 is a field that its description names as an operand: not in the forms with one source
(R81, check 2). -/
def namesB (maj min : BitVec 8) : Bool :=
  match maj.toNat with
  | 0x09 => false
  | 0x0E => false
  | 0x14 => false
  | 0x16 => min != 3#8
  | 0x18 => false
  | 0x1A => false
  | 0x1B => false
  | 0x1C => false
  | 0x28 => false
  | 0x29 => false
  | 0x40 => false
  | 0x42 => false
  | n => !(decide (0x2B ≤ n) && decide (n ≤ 0x33))

/-- Whether a word is a vector form, by the classes of the fields its description names as operands (R17, R81). An ignored
B of `ballot` is no operand. -/
def vectorForm (f : Fields) : Bool :=
  clsOf f.d == 0#4 || clsOf f.a == 0#4
    || (namesB f.maj f.min && clsOf f.b == 0#4 && !(f.maj == 0x1D#8 && f.b == 0#20))

/-- Roles: 0 copy, 1 matrix, 2 vector (R24). Whether a word is permitted to a role (R25, R180, R303, R355). -/
def roleOk (f : Fields) (role : Nat) : Bool :=
  let n := f.maj.toNat
  if n < 0x20 then n == 0x16 || role == 2 || !vectorForm f
  else if n < 0x50 then role == 2
  else if n = 0x62 then role == 0
  else if 0x90 ≤ n ∧ n < 0xA0 then role == 1
  else if 0xB0 ≤ n ∧ n < 0xB8 then role == 2
  else true

/-- Whether an operand field has a reserved class (R56). -/
def clsReserved (f : BitVec 20) : Bool := decide (12 ≤ (clsOf f).toNat)

/-- What the checks 1 to 4 of R81 make of a word for a group's role: an instruction, or the cause of a trap and whether it
is a role violation. -/
inductive Decoded where
  | instr (i : Instr)
  | illegal (cause : BitVec 8) (role : Bool)
  deriving DecidableEq, Repr

/-- The checks 1 to 4 of R81, in order. -/
def decodeFor (role : Nat) (w : IWord) : Decoded :=
  let f := fieldsOf w
  if (minCount f.maj.toNat).isNone then .illegal 0x01#8 false
  else if minOk f.maj f.min && !roleOk f role then .illegal 0x01#8 true
  else if clsReserved f.d || clsReserved f.a || clsReserved f.b then .illegal 0x02#8 false
  else
    match decode w with
    | some i => .instr i
    | none => .illegal 0x01#8 false

/-- A word from its parts. -/
def mk (maj : BitVec 8) (min : BitVec 8) (h : Hdr) (md : BitVec 8) (d a b : BitVec 20) : Option IWord :=
  some (Fields.toWord ⟨maj, min, h, md, d, a, b⟩)

/-- Optional second predicate of `plog`. -/
def plogB : Option Opd → BitVec 20
  | none => 0#20
  | some o => o.field

/-- The word of an instruction (R53 to R80, and the encoding tables of the instructions' chapters); none for an event. -/
def encode : Instr → Option IWord
  | .add h t s d a b => mk 0x00#8 (noIn itys t) h (satMd s) d.field a.field b.field
  | .sub h t s d a b => mk 0x01#8 (noIn itys t) h (satMd s) d.field a.field b.field
  | .mul h t s d a b => mk 0x02#8 (noIn itys t) h (satMd s) d.field a.field b.field
  | .mulhi h t d a b => mk 0x03#8 (noIn itys t) h 0#8 d.field a.field b.field
  | .mad h t s d a b => mk 0x04#8 (noIn itys t) h (satMd s) d.field a.field b.field
  | .div h t d a b => mk 0x05#8 (noIn itys t) h 0#8 d.field a.field b.field
  | .rem h t d a b => mk 0x06#8 (noIn itys t) h 0#8 d.field a.field b.field
  | .min h t d a b => mk 0x07#8 (noIn itys t) h 0#8 d.field a.field b.field
  | .max h t d a b => mk 0x08#8 (noIn itys t) h 0#8 d.field a.field b.field
  | .abs h s d a => mk 0x09#8 0#8 h (satMd s) d.field a.field 0#20
  | .lea h x d a b => mk 0x0A#8 (noIn scales x) h 0#8 d.field a.field b.field
  | .and h d a b => mk 0x0B#8 0#8 h 0#8 d.field a.field b.field
  | .or h d a b => mk 0x0C#8 0#8 h 0#8 d.field a.field b.field
  | .xor h d a b => mk 0x0D#8 0#8 h 0#8 d.field a.field b.field
  | .not h d a => mk 0x0E#8 0#8 h 0#8 d.field a.field a.upper
  | .shl h d a b => mk 0x0F#8 0#8 h 0#8 d.field a.field b.field
  | .shr h t d a b => mk 0x10#8 (noIn itys t) h 0#8 d.field a.field b.field
  | .rot h d a b => mk 0x11#8 0#8 h 0#8 d.field a.field b.field
  | .bfx h t d a b => mk 0x12#8 (noIn itys t) h 0#8 d.field a.field b.field
  | .bfi h d a b => mk 0x13#8 0#8 h 0#8 d.field a.field b.field
  | .bitPop h d a => mk 0x14#8 0#8 h 0#8 d.field a.field 0#20
  | .bitClz h d a => mk 0x14#8 1#8 h 0#8 d.field a.field 0#20
  | .bitRev h d a => mk 0x14#8 2#8 h 0#8 d.field a.field 0#20
  | .cmp h t r d a b => mk 0x15#8 (noIn itys t) h (relMd r) d.field a.field b.field
  | .plog h op d a b => mk 0x16#8 (noIn plogOps op) h 0#8 d.field a.field (plogB b)
  | .sel h n p d a b => mk 0x17#8 0#8 h (selMd n p) d.field a.field b.field
  | .mov h w d a => mk 0x18#8 (noIn movWs w) h 0#8 d.field a.field a.upper
  | .xmov h op d a b => mk 0x19#8 (noIn xmovOps op) h 0#8 d.field a.field b.field
  | .lsred h op m d a => mk 0x1A#8 (noIn scanOps op) h (vMd m false) d.field a.field 0#20
  | .lscan h op m d a => mk 0x1B#8 (noIn scanOps op) h (vMd m false) d.field a.field 0#20
  | .vote h op d a => mk 0x1C#8 (noIn voteOps op) h 0#8 d.field a.field 0#20
  | .ballot h d a b => mk 0x1D#8 0#8 h 0#8 d.field a.field (optField b)
  | .cmprs h d a b => mk 0x1E#8 0#8 h 0#8 d.field a.field b.field
  | .expnd h d a b => mk 0x1F#8 0#8 h 0#8 d.field a.field b.field
  | .fadd h t m d a b => mk 0x20#8 (noIn ftys t) h (vMd m false) d.field a.field b.field
  | .fsub h t m d a b => mk 0x21#8 (noIn ftys t) h (vMd m false) d.field a.field b.field
  | .fmul h t m d a b => mk 0x22#8 (noIn ftys t) h (vMd m false) d.field a.field b.field
  | .fma h t m d a b => mk 0x23#8 (noIn ftys t) h (vMd m false) d.field a.field b.field
  | .fmin h t m d a b => mk 0x24#8 (noIn ftys t) h (vMd m false) d.field a.field b.field
  | .fmax h t m d a b => mk 0x25#8 (noIn ftys t) h (vMd m false) d.field a.field b.field
  | .fcmp h t r d a b => mk 0x26#8 (noIn ftys t) h (relMd r) d.field a.field b.field
  | .fcls h d a b => mk 0x27#8 0#8 h 0#8 d.field a.field b.field
  | .fabs h t d a => mk 0x28#8 (noIn ftys t) h 0#8 d.field a.field 0#20
  | .fneg h t d a => mk 0x29#8 (noIn ftys t) h 0#8 d.field a.field 0#20
  | .fdiv h m d a b => mk 0x2A#8 0#8 h (vMd m false) d.field a.field b.field
  | .sqrt h m d a => mk 0x2B#8 0#8 h (vMd m false) d.field a.field 0#20
  | .rcp h m d a => mk 0x2C#8 0#8 h (vMd m false) d.field a.field 0#20
  | .rsqrt h m d a => mk 0x2D#8 0#8 h (vMd m false) d.field a.field 0#20
  | .exp2 h m d a => mk 0x2E#8 0#8 h (vMd m false) d.field a.field 0#20
  | .log2 h m d a => mk 0x2F#8 0#8 h (vMd m false) d.field a.field 0#20
  | .sin h m d a => mk 0x30#8 0#8 h (vMd m false) d.field a.field 0#20
  | .cos h m d a => mk 0x31#8 0#8 h (vMd m false) d.field a.field 0#20
  | .tanh h m d a => mk 0x32#8 0#8 h (vMd m false) d.field a.field 0#20
  | .frnd h m d a => mk 0x33#8 0#8 h (vMd m false) d.field a.field 0#20
  | .scl h m d a b => mk 0x43#8 0#8 h (vMd m false) d.field a.field b.field
  | .cvt h x y m o d a => mk 0x40#8 ((noIn fmts x).setWidth 4 ++ (noIn fmts y).setWidth 4) h (vMd m o) d.field a.field 0#20
  | .cvt2 h bf m o d a b => mk 0x41#8 (if bf then 0x20#8 else 0x10#8) h (vMd m o) d.field a.field b.field
  | .decv h d a => mk 0x42#8 0#8 h 0#8 d.field a.field 0#20
  | .ld h w d a b => mk 0x50#8 (noIn ldWs w) h 0#8 d.field a.field b.field
  | .st h w d a b => mk 0x51#8 (noIn stWs w) h 0#8 d.field a.field b.field
  | .lds h w d a b => mk 0x52#8 (noIn ldWs w) h 0#8 d.field a.field b.field
  | .sts h w d a b => mk 0x53#8 (noIn stWs w) h 0#8 d.field a.field b.field
  | .ldr h d a b => mk 0x54#8 0#8 h 0#8 d.field a.field b.field
  | .str h d a b => mk 0x55#8 0#8 h 0#8 d.field a.field b.field
  | .fillc h d a b => mk 0x56#8 0#8 h 0#8 d.field a.field b.field
  | .ldc h w l d a b => mk 0x57#8 (noIn ldWs w) h (lastMd l) d.field a.field b.field
  | .stc h w d a b => mk 0x58#8 (noIn stWs w) h 0#8 d.field a.field b.field
  | .atom h op d a b => mk 0x59#8 (noIn atomOps op) h 0#8 d.field a.field b.field
  | .atoms h op d a b => mk 0x5A#8 (noIn atomOps op) h 0#8 d.field a.field b.field
  | .red h op r z a b => mk 0x5B#8 (noIn atomOps op) h (mrMd r z) 0#20 a.field b.field
  | .cmoClean h l a b => mk 0x5C#8 0#8 h (lvlMd l) 0#20 a.field b.field
  | .cmoInval h l a b => mk 0x5C#8 1#8 h (lvlMd l) 0#20 a.field b.field
  | .cmoCleaninval h l a b => mk 0x5C#8 2#8 h (lvlMd l) 0#20 a.field b.field
  | .fence h s => mk 0x5D#8 0#8 h (scopeMd s) 0#20 0#20 0#20
  | .pf h l a b => mk 0x5E#8 0#8 h (lvlMd l) 0#20 a.field b.field
  | .pin h d a => mk 0x5F#8 0#8 h 0#8 d.field a.field 0#20
  | .unpin h d => mk 0x60#8 0#8 h 0#8 d.field 0#20 0#20
  | .reclaim h d a => mk 0x61#8 0#8 h 0#8 d.field a.field 0#20
  | .cpy h d a b => mk 0x62#8 0#8 h 0#8 d.field a.field b.field
  | .cpyCvt h d a b => mk 0x62#8 1#8 h 0#8 d.field a.field b.field
  | .cpyFill h d a b => mk 0x62#8 2#8 h 0#8 d.field a.field b.field
  | .barArrive h d l x => mk 0x70#8 0#8 h 0#8 (optField d) (barA x) (barB l)
  | .barWait h l x => mk 0x70#8 1#8 h 0#8 0#20 (barA x) (barB l)
  | .barSync h d l x => mk 0x70#8 2#8 h 0#8 (optField d) (barA x) (barB l)
  | .barDrop h d l x => mk 0x70#8 3#8 h 0#8 (optField d) (barA x) (barB l)
  | .waitAny h d a b => mk 0x71#8 0#8 h 0#8 d.field a.field b.field
  | .waitAll h d a b => mk 0x71#8 1#8 h 0#8 d.field a.field b.field
  | .arrvSet h d a => mk 0x72#8 0#8 h 0#8 d.field a.field 0#20
  | .arrvAdd h d a => mk 0x72#8 1#8 h 0#8 d.field a.field 0#20
  | .arrvExpect h d a => mk 0x72#8 2#8 h 0#8 d.field a.field 0#20
  | .ringTake h d a p l => mk 0x73#8 0#8 h 0#8 d.field a.field (ringB p l)
  | .ringGive h a p l => mk 0x73#8 1#8 h 0#8 0#20 a.field (ringB p l)
  | .yield h x => mk 0x74#8 0#8 h 0#8 0#20 (cls 5#4 x) 0#20
  | .trail h l => mk 0x75#8 (BitVec.ofNat 8 l.length) h 0#8 (nthField l 0) (nthField l 1) (nthField l 2)
  | .regroup h a b => mk 0x76#8 0#8 h 0#8 0#20 a.field b.field
  | .join h => mk 0x77#8 0#8 h 0#8 0#20 0#20 0#20
  | .fork h d a => mk 0x78#8 0#8 h 0#8 d.field a.field 0#20
  | .br h off rec => mk 0x80#8 0#8 h 0#8 0#20 (cls 4#4 off) (match rec with
      | none => 0#20
      | some r => cls 4#4 r)
  | .call h d a => mk 0x81#8 0#8 h 0#8 d.field a.field 0#20
  | .ret h a => mk 0x82#8 0#8 h 0#8 0#20 a.field 0#20
  | .jmp h a => mk 0x83#8 0#8 h 0#8 0#20 a.field 0#20
  | .exit h => mk 0x84#8 0#8 h 0#8 0#20 0#20 0#20
  | .mcb h a b => mk 0x90#8 0#8 h 0#8 0#20 a.field b.field
  | .msort h c a b => mk 0x91#8 0#8 h (satMd c) 0#20 a.field b.field
  | .mparts h o c p a b => mk 0x92#8 0#8 h (flags o c p false false) 0#20 a.field b.field
  | .mloopDense h o c p q t d a b => mk 0x93#8 0#8 h (flags o c p q t) d.field a.field b.field
  | .mloopAttn h o c p q d a b => mk 0x93#8 1#8 h (flags o c p q.spb q.ctb) d.field a.field b.field
  | .mfence h => mk 0x94#8 0#8 h 0#8 0#20 0#20 0#20
  | .mringPop h => mk 0x95#8 0#8 h 0#8 0#20 0#20 0#20
  | .mringStat h d => mk 0x95#8 1#8 h 0#8 d.field 0#20 0#20
  | .epcfg h a => mk 0x96#8 0#8 h 0#8 0#20 a.field 0#20
  | .eprun h v d a => mk 0x97#8 0#8 h (arvMd v) (optField d) (optField a) 0#20
  | .mreadPerm h d a => mk 0x98#8 0#8 h 0#8 d.field a.field 0#20
  | .mreadWs h d a => mk 0x98#8 1#8 h 0#8 d.field a.field 0#20
  | .kvapp h a b => mk 0xA0#8 0#8 h 0#8 0#20 a.field b.field
  | .pgshare h a => mk 0xA1#8 0#8 h 0#8 0#20 a.field 0#20
  | .pgrel h a => mk 0xA2#8 0#8 h 0#8 0#20 a.field 0#20
  | .extset h a b => mk 0xA3#8 0#8 h 0x00#8 0#20 a.field b.field
  | .extsetRm h a b => mk 0xA3#8 0#8 h 0x40#8 0#20 a.field b.field
  | .extsetClr h a => mk 0xA3#8 0#8 h 0x80#8 0#20 a.field 0#20
  | .qclear h a b => mk 0xA4#8 0#8 h 0#8 0#20 a.field b.field
  | .segbegin h a b => mk 0xA5#8 0#8 h 0#8 0#20 a.field b.field
  | .segseal h a b => mk 0xA6#8 0#8 h 0#8 0#20 a.field b.field
  | .link h d a b => mk 0xA7#8 0#8 h 0x00#8 d.field a.field b.field
  | .linkVfy h d a b => mk 0xA7#8 0#8 h 0x80#8 d.field a.field b.field
  | .unlink h d a b => mk 0xA8#8 0#8 h 0#8 d.field a.field b.field
  | .kvgath h v d a b => mk 0xA9#8 0#8 h (arvMd v) (optField d) a.field (optField b)
  | .ropeq h d a b => mk 0xAA#8 0#8 h 0#8 d.field a.field b.field
  | .repset h d a => mk 0xAB#8 0#8 h 0#8 d.field a.field 0#20
  | .ovlcommit h d a b => mk 0xAC#8 0#8 h 0#8 d.field a.field b.field
  | .rngc h d a b => mk 0xB0#8 0#8 h 0#8 d.field a.field b.field
  | .gumbel h d a b => mk 0xB1#8 0#8 h 0#8 d.field a.field b.field
  | .latexp h d a => mk 0xB2#8 0#8 h 0#8 d.field a.field 0#20
  | .accept h d a => mk 0xB3#8 0#8 h 0#8 d.field a.field 0#20
  | .launch h d a => mk 0xC0#8 0#8 h 0#8 d.field a.field 0#20
  | .trap h c => mk 0xC1#8 0#8 h 0#8 0#20 (cls 5#4 c) 0#20
  | .srd h d a b => mk 0xC2#8 0#8 h 0#8 d.field a.field (optField b)
  | .swr h d a b => mk 0xC3#8 0#8 h 0#8 d.field a.field (optField b)
  | .specdepthSetPending _ _ => none
  | .specdepthApplyImmediate _ _ => none
  | .specdepthCancel _ _ => none
  | .nop h => mk 0xC4#8 0#8 h 0#8 0#20 0#20 0#20
  | .illegalWord _ _ => none
  | .longLatencyWriteback _ => none
  | .fragmentReturn _ => none
  | .watchdogOverrun => none
  | .waitEvaluation _ => none
  | .waitTimeout _ => none
  | .bufferFill _ _ _ => none
  | .bufferClean _ _ _ => none
  | .bufferDrop _ _ _ => none
  | .engineStep _ _ _ => none
  | .gatherTokenStep _ _ _ => none
  | .deviceJobStep _ _ _ => none
  | .copyJobCompletion _ => none
  | .gatherCompletion _ => none
  | .cloneCompletion _ _ => none
  | .tokenComparisonCompletion _ _ => none
  | .linkVfyDecision _ => none
  | .jobFaultDelivery _ => none
  | .cascadeRead _ _ _ => none
  | .epilogueWrite _ _ _ => none
  | .cascadeCompletion _ => none
  | .parkService _ _ => none
  | .debugResume _ => none
  | .debugKill _ => none
  | .debugWindowWrite _ _ _ => none
  | .crewOffer _ _ => none
  | .placementWaitExpiry _ _ _ => none
  | .crewRetire _ => none
  | .launchEnd _ => none
  | .contextSwitchOut _ => none
  | .contextValidObserved _ => none
  | .contextSwitchComplete _ => none
  | .hostAccess _ _ _ => none
  | .reset => none
  | .functionTrainingEnd _ _ => none
  | .bootStart _ => none
  | .managementRegisterWrite _ _ => none
  | .flitCrcRetry _ => none
  | .portDegrade _ _ => none
  | .packageUnreachable _ => none
  | .migrationInstallComplete _ _ _ => none
  | .patrolScrub _ _ => none
  | .contextSwitchIn _ => none
  | .hostUnreachable => none

/-- Whether an instruction has a word; the others are events. -/
def Instr.isWord (i : Instr) : Bool := (encode i).isSome

/-- The instruction that the decoder reads from a word numbered as the opcode table numbers it: 96 bits, the first byte
lowest (R5, R53); more bits are no instruction. -/
def decodeTableWord (nbits w : Nat) : Option Instr :=
  if nbits ≤ 96 then decode (BitVec.ofNat 96 (w % 2 ^ nbits)) else none

end Sys2Proof
end

