-- ==== Sys2Proof/Machine/Uses.lean ====
section
/-!
DEFINITION. What an instruction reads and writes, for the checks of R71 and R81 (steps 5 and 6) and the waits of R70 and
R237: its operands with the registers of pairs and blocks (R58), whether it closes its run (R68), whether it is a
whole-group point (R41), whether it accesses memory (R237), and whether an agenda may give it (log entry 1).
-/

namespace Sys2Proof.Machine

/-- The operands that an instruction writes and those that it reads. -/
structure Uses where
  dst : List Opd
  src : List Opd
  deriving DecidableEq, Repr

/-- A register pair (R58). -/
def pair (o : Opd) : List Opd := [o, opdNext o]

/-- A register, or a pair where the form is wide. -/
def pairIf (wide : Bool) (o : Opd) : List Opd := if wide then pair o else [o]

/-- The group register `k` places after the one that an operand names. -/
def regPlus (k : Nat) : Opd → Opd
  | .g n => .g (n + BitVec.ofNat 6 k)
  | o => o

/-- A block of `k` group registers (R58). -/
def block (k : Nat) (o : Opd) : List Opd := (List.range k).map (fun i => regPlus i o)

/-- The operands of each instruction. A `trail` neither reads nor writes the registers it names (R70). -/
def usesOf : Instr → Uses
  | .add _ _ _ d a b => ⟨[d], [a, b]⟩
  | .sub _ _ _ d a b => ⟨[d], [a, b]⟩
  | .mul _ _ _ d a b => ⟨[d], [a, b]⟩
  | .mulhi _ _ d a b => ⟨[d], [a, b]⟩
  | .mad _ _ _ d a b => ⟨[d], [a, b, d]⟩
  | .div _ _ d a b => ⟨[d], [a, b]⟩
  | .rem _ _ d a b => ⟨[d], [a, b]⟩
  | .min _ _ d a b => ⟨[d], [a, b]⟩
  | .max _ _ d a b => ⟨[d], [a, b]⟩
  | .abs _ _ d a => ⟨[d], [a]⟩
  | .lea _ _ d a b => ⟨pair d, pair a ++ [b]⟩
  | .and _ d a b => ⟨[d], [a, b]⟩
  | .or _ d a b => ⟨[d], [a, b]⟩
  | .xor _ d a b => ⟨[d], [a, b]⟩
  | .not _ d a => ⟨[d], [a]⟩
  | .shl _ d a b => ⟨[d], [a, b]⟩
  | .shr _ _ d a b => ⟨[d], [a, b]⟩
  | .rot _ d a b => ⟨[d], [a, b]⟩
  | .bfx _ _ d a b => ⟨[d], [a, b]⟩
  | .bfi _ d a b => ⟨[d], [a, b, d]⟩
  | .bitPop _ d a => ⟨[d], [a]⟩
  | .bitClz _ d a => ⟨[d], [a]⟩
  | .bitRev _ d a => ⟨[d], [a]⟩
  | .cmp _ _ _ d a b => ⟨[d], [a, b]⟩
  | .plog _ _ d a b => ⟨[d], a :: b.toList⟩
  | .sel _ _ _ d a b => ⟨[d], [a, b]⟩
  | .mov _ w d a => ⟨pairIf (w == .b64) d, pairIf (w == .b64) a⟩
  | .xmov _ _ d a b => ⟨[d], [a, b]⟩
  | .lsred _ _ _ d a => ⟨[d], [a]⟩
  | .lscan _ _ _ d a => ⟨[d], [a]⟩
  | .vote _ _ d a => ⟨[d], [a]⟩
  | .ballot _ d a b => ⟨[d], a :: b.toList⟩
  | .cmprs _ d a b => ⟨[d], [a, b]⟩
  | .expnd _ d a b => ⟨[d], [a, b]⟩
  | .fadd _ _ _ d a b => ⟨[d], [a, b]⟩
  | .fsub _ _ _ d a b => ⟨[d], [a, b]⟩
  | .fmul _ _ _ d a b => ⟨[d], [a, b]⟩
  | .fma _ _ _ d a b => ⟨[d], [a, b, d]⟩
  | .fmin _ _ _ d a b => ⟨[d], [a, b]⟩
  | .fmax _ _ _ d a b => ⟨[d], [a, b]⟩
  | .fcmp _ _ _ d a b => ⟨[d], [a, b]⟩
  | .fcls _ d a b => ⟨[d], [a, b]⟩
  | .fabs _ _ d a => ⟨[d], [a]⟩
  | .fneg _ _ d a => ⟨[d], [a]⟩
  | .fdiv _ _ d a b => ⟨[d], [a, b]⟩
  | .sqrt _ _ d a => ⟨[d], [a]⟩
  | .rcp _ _ d a => ⟨[d], [a]⟩
  | .rsqrt _ _ d a => ⟨[d], [a]⟩
  | .exp2 _ _ d a => ⟨[d], [a]⟩
  | .log2 _ _ d a => ⟨[d], [a]⟩
  | .sin _ _ d a => ⟨[d], [a]⟩
  | .cos _ _ d a => ⟨[d], [a]⟩
  | .tanh _ _ d a => ⟨[d], [a]⟩
  | .frnd _ _ d a => ⟨[d], [a]⟩
  | .scl _ _ d a b => ⟨[d], [a, b]⟩
  | .cvt _ _ _ _ _ d a => ⟨[d], [a]⟩
  | .cvt2 _ _ _ _ d a b => ⟨[d], [a, b]⟩
  | .decv _ d a => ⟨d :: pair a, pair a⟩
  | .ld _ w d a b => ⟨pairIf (w == .b64) d, pair a ++ [b]⟩
  | .st _ w d a b => ⟨[], pairIf (w == .b64) d ++ pair a ++ [b]⟩
  | .lds _ w d a b => ⟨pairIf (w == .b64) d, [a, b]⟩
  | .sts _ w d a b => ⟨[], pairIf (w == .b64) d ++ [a, b]⟩
  | .ldr _ d a b => ⟨[d], [a, b]⟩
  | .str _ d a b => ⟨[], [d, a, b]⟩
  | .fillc _ d a b => ⟨[d], pair a ++ [b]⟩
  | .ldc _ w _ d a b => ⟨pairIf (w == .b64) d, [a, b]⟩
  | .stc _ w d a b => ⟨[], pairIf (w == .b64) d ++ [a, b]⟩
  | .atom _ op d a b => ⟨pairIf (op == .pmax) d, pair a ++ pairIf (op == .cas || op == .pmax) b⟩
  | .atoms _ op d a b => ⟨pairIf (op == .pmax) d, a :: pairIf (op == .cas || op == .pmax) b⟩
  | .red _ op _ _ a b => ⟨[], pair a ++ pairIf (op == .cas || op == .pmax) b⟩
  | .cmoClean _ _ a b => ⟨[], pair a ++ [b]⟩
  | .cmoInval _ _ a b => ⟨[], pair a ++ [b]⟩
  | .cmoCleaninval _ _ a b => ⟨[], pair a ++ [b]⟩
  | .fence _ _ => ⟨[], []⟩
  | .pf _ _ a b => ⟨[], pair a ++ [b]⟩
  | .pin _ d a => ⟨[], d :: pair a⟩
  | .unpin _ d => ⟨[], [d]⟩
  | .reclaim _ d a => ⟨[d], pair a⟩
  | .cpy _ d a b => ⟨[], d :: block 8 a ++ [b]⟩
  | .cpyCvt _ d a b => ⟨[], d :: block 8 a ++ [b]⟩
  | .cpyFill _ d a b => ⟨[], d :: block 8 a ++ [b]⟩
  | .barArrive _ d _ _ => ⟨d.toList, []⟩
  | .barWait _ _ _ => ⟨[], []⟩
  | .barSync _ d _ _ => ⟨d.toList, []⟩
  | .barDrop _ d _ _ => ⟨d.toList, []⟩
  | .waitAny _ d a b => ⟨[d, regPlus 12 a], block 12 a ++ [b]⟩
  | .waitAll _ d a b => ⟨[d, regPlus 12 a], block 12 a ++ [b]⟩
  | .arrvSet _ d a => ⟨[], [d, a]⟩
  | .arrvAdd _ d a => ⟨[], [d, a]⟩
  | .arrvExpect _ d a => ⟨[], [d, a]⟩
  | .ringTake _ d a _ _ => ⟨[d], [a]⟩
  | .ringGive _ a _ _ => ⟨[], [a]⟩
  | .yield _ _ => ⟨[], []⟩
  | .trail _ _ => ⟨[], []⟩
  | .regroup _ a b => ⟨[], [a, b]⟩
  | .join _ => ⟨[], []⟩
  | .fork _ d a => ⟨[d], pair a⟩
  | .br _ _ _ => ⟨[], []⟩
  | .call _ d a => ⟨pair d, pair a⟩
  | .ret _ a => ⟨[], pair a⟩
  | .jmp _ a => ⟨[], pair a⟩
  | .exit _ => ⟨[], []⟩
  | .mcb _ a b => ⟨[], pair a ++ [b]⟩
  | .msort _ _ a b => ⟨[], block 4 a ++ [b]⟩
  | .mparts _ _ _ _ a b => ⟨[], block 4 a ++ [b]⟩
  | .mloopDense _ _ _ _ _ _ d a b => ⟨[], d :: block 8 a ++ [b]⟩
  | .mloopAttn _ _ _ _ _ d a b => ⟨[], d :: block 8 a ++ [b]⟩
  | .mfence _ => ⟨[], []⟩
  | .mringPop _ => ⟨[], []⟩
  | .mringStat _ d => ⟨[d], []⟩
  | .epcfg _ a => ⟨[], block 4 a⟩
  | .eprun _ _ d a => ⟨[], d.toList ++ a.toList⟩
  | .mreadPerm _ d a => ⟨[d], [a]⟩
  | .mreadWs _ d a => ⟨pair d, [a]⟩
  | .kvapp _ a b => ⟨[], block 4 a ++ [b]⟩
  | .pgshare _ a => ⟨[], block 8 a⟩
  | .pgrel _ a => ⟨[], block 4 a⟩
  | .extset _ a b => ⟨[], pair a ++ block 4 b⟩
  | .extsetRm _ a b => ⟨[], pair a ++ [b]⟩
  | .extsetClr _ a => ⟨[], pair a⟩
  | .qclear _ a b => ⟨[], pair a ++ [b]⟩
  | .segbegin _ a b => ⟨[], block 4 a ++ pair b⟩
  | .segseal _ a b => ⟨[], block 8 a ++ pair b⟩
  | .link _ d a b => ⟨[d], block 8 a ++ pair b⟩
  | .linkVfy _ d a b => ⟨[d], block 8 a ++ pair b⟩
  | .unlink _ d a b => ⟨[d], pair a ++ [b]⟩
  | .kvgath _ _ d a b => ⟨[], d.toList ++ block 8 a ++ b.toList⟩
  | .ropeq _ d a b => ⟨pair d, pair a ++ pair b⟩
  | .repset _ d a => ⟨[d], block 8 a⟩
  | .ovlcommit _ d a b => ⟨[d], pair a ++ pair b⟩
  | .rngc _ d a b => ⟨[d], pair a ++ [b]⟩
  | .gumbel _ d a b => ⟨[d], [a, b]⟩
  | .latexp _ d a => ⟨[d], block 4 a⟩
  | .accept _ d a => ⟨[d], block 8 a⟩
  | .launch _ d a => ⟨[d], pair a⟩
  | .trap _ _ => ⟨[], []⟩
  | .srd _ d a b => ⟨pairIf (a == .sr .tsclo || a == .sr .refclklo) d, a :: b.toList⟩
  | .swr _ _ a b => ⟨[], a :: b.toList⟩
  | .specdepthSetPending _ _ => ⟨[], []⟩
  | .specdepthApplyImmediate _ _ => ⟨[], []⟩
  | .specdepthCancel _ _ => ⟨[], []⟩
  | .nop _ => ⟨[], []⟩
  | .illegalWord _ _ => ⟨[], []⟩
  | .longLatencyWriteback _ => ⟨[], []⟩
  | .fragmentReturn _ => ⟨[], []⟩
  | .watchdogOverrun => ⟨[], []⟩
  | .waitEvaluation _ => ⟨[], []⟩
  | .waitTimeout _ => ⟨[], []⟩
  | .bufferFill _ _ _ => ⟨[], []⟩
  | .bufferClean _ _ _ => ⟨[], []⟩
  | .bufferDrop _ _ _ => ⟨[], []⟩
  | .engineStep _ _ _ => ⟨[], []⟩
  | .gatherTokenStep _ _ _ => ⟨[], []⟩
  | .deviceJobStep _ _ _ => ⟨[], []⟩
  | .copyJobCompletion _ => ⟨[], []⟩
  | .gatherCompletion _ => ⟨[], []⟩
  | .cloneCompletion _ _ => ⟨[], []⟩
  | .tokenComparisonCompletion _ _ => ⟨[], []⟩
  | .linkVfyDecision _ => ⟨[], []⟩
  | .jobFaultDelivery _ => ⟨[], []⟩
  | .cascadeRead _ _ _ => ⟨[], []⟩
  | .epilogueWrite _ _ _ => ⟨[], []⟩
  | .cascadeCompletion _ => ⟨[], []⟩
  | .parkService _ _ => ⟨[], []⟩
  | .debugResume _ => ⟨[], []⟩
  | .debugKill _ => ⟨[], []⟩
  | .debugWindowWrite _ _ _ => ⟨[], []⟩
  | .crewOffer _ _ => ⟨[], []⟩
  | .placementWaitExpiry _ _ _ => ⟨[], []⟩
  | .crewRetire _ => ⟨[], []⟩
  | .launchEnd _ => ⟨[], []⟩
  | .contextSwitchOut _ => ⟨[], []⟩
  | .contextValidObserved _ => ⟨[], []⟩
  | .contextSwitchComplete _ => ⟨[], []⟩
  | .hostAccess _ _ _ => ⟨[], []⟩
  | .reset => ⟨[], []⟩
  | .functionTrainingEnd _ _ => ⟨[], []⟩
  | .bootStart _ => ⟨[], []⟩
  | .managementRegisterWrite _ _ => ⟨[], []⟩
  | .flitCrcRetry _ => ⟨[], []⟩
  | .portDegrade _ _ => ⟨[], []⟩
  | .packageUnreachable _ => ⟨[], []⟩
  | .migrationInstallComplete _ _ _ => ⟨[], []⟩
  | .patrolScrub _ _ => ⟨[], []⟩
  | .contextSwitchIn _ => ⟨[], []⟩
  | .hostUnreachable => ⟨[], []⟩

/-- Run-closing instructions (R68, mark C of the opcode map). -/
def isClosing : Instr → Bool
  | .barWait .. => true
  | .barSync .. => true
  | .waitAny .. => true
  | .waitAll .. => true
  | .yield .. => true
  | .regroup .. => true
  | .join .. => true
  | .br .. => true
  | .call .. => true
  | .ret .. => true
  | .jmp .. => true
  | .exit .. => true
  | .trap .. => true
  | _ => false

/-- Whole-group points (R41): `yield` and the blocking instructions of R46. -/
def isPoint : Instr → Bool
  | .barWait .. => true
  | .barSync .. => true
  | .waitAny .. => true
  | .waitAll .. => true
  | .yield .. => true
  | .regroup .. => true
  | .join .. => true
  | _ => false

/-- Instructions that access memory, scratchpad, arrival words or the pin set, or hand work to a unit that does, and so wait
for an earlier replay (R206, R231, R237). -/
def touchesMemory : Instr → Bool
  | .decv .. => true
  | .ld .. => true
  | .st .. => true
  | .lds .. => true
  | .sts .. => true
  | .ldr .. => true
  | .str .. => true
  | .fillc .. => true
  | .ldc .. => true
  | .stc .. => true
  | .atom .. => true
  | .atoms .. => true
  | .red .. => true
  | .cmoClean .. => true
  | .cmoInval .. => true
  | .cmoCleaninval .. => true
  | .fence .. => true
  | .pf .. => true
  | .reclaim .. => true
  | .cpy .. => true
  | .cpyCvt .. => true
  | .cpyFill .. => true
  | .waitAny .. => true
  | .waitAll .. => true
  | .fork .. => true
  | .mcb .. => true
  | .msort .. => true
  | .mparts .. => true
  | .mloopDense .. => true
  | .mloopAttn .. => true
  | .eprun .. => true
  | .kvapp .. => true
  | .pgshare .. => true
  | .pgrel .. => true
  | .extset .. => true
  | .extsetRm .. => true
  | .extsetClr .. => true
  | .qclear .. => true
  | .segbegin .. => true
  | .segseal .. => true
  | .link .. => true
  | .linkVfy .. => true
  | .unlink .. => true
  | .kvgath .. => true
  | .repset .. => true
  | .ovlcommit .. => true
  | .latexp .. => true
  | .accept .. => true
  | .launch .. => true
  | .ropeq .. => true
  | .arrvSet .. => true
  | .arrvAdd .. => true
  | .arrvExpect .. => true
  | .ringTake .. => true
  | .ringGive .. => true
  | .pin .. => true
  | .unpin .. => true
  | .mfence .. => true
  | _ => false

/-- Instructions that read or write vector registers by way of the register window, themselves or by the unit they hand work
to (R35, R36, R425). -/
def touchesWindow : Instr → Bool
  | .decv .. => true
  | .lds .. => true
  | .sts .. => true
  | .atoms .. => true
  | .kvapp .. => true
  | .repset .. => true
  | .latexp .. => true
  | .cpy .. => true
  | .cpyCvt .. => true
  | .cpyFill .. => true
  | .kvgath .. => true
  | .mparts .. => true
  | .mloopDense .. => true
  | .mloopAttn .. => true
  | .eprun .. => true
  | .accept .. => true
  | _ => false

/-- Events that an agenda may give; those of the issue itself are not among them (log entry 1). -/
def isEvent : Instr → Bool
  | .specdepthSetPending .. => true
  | .specdepthApplyImmediate .. => true
  | .specdepthCancel .. => true
  | .longLatencyWriteback .. => true
  | .fragmentReturn .. => true
  | .waitEvaluation .. => true
  | .waitTimeout .. => true
  | .bufferFill .. => true
  | .bufferClean .. => true
  | .bufferDrop .. => true
  | .engineStep .. => true
  | .gatherTokenStep .. => true
  | .deviceJobStep .. => true
  | .copyJobCompletion .. => true
  | .gatherCompletion .. => true
  | .cloneCompletion .. => true
  | .tokenComparisonCompletion .. => true
  | .linkVfyDecision .. => true
  | .jobFaultDelivery .. => true
  | .cascadeRead .. => true
  | .epilogueWrite .. => true
  | .cascadeCompletion .. => true
  | .parkService .. => true
  | .debugResume .. => true
  | .debugKill .. => true
  | .debugWindowWrite .. => true
  | .crewOffer .. => true
  | .placementWaitExpiry .. => true
  | .crewRetire .. => true
  | .launchEnd .. => true
  | .contextSwitchOut .. => true
  | .contextValidObserved .. => true
  | .contextSwitchComplete .. => true
  | .hostAccess .. => true
  | .reset => true
  | .functionTrainingEnd .. => true
  | .bootStart .. => true
  | .managementRegisterWrite .. => true
  | .flitCrcRetry .. => true
  | .portDegrade .. => true
  | .packageUnreachable .. => true
  | .migrationInstallComplete .. => true
  | .patrolScrub .. => true
  | .contextSwitchIn .. => true
  | .hostUnreachable => true
  | _ => false

end Sys2Proof.Machine
end

