-- ==== Sys2Proof/Machine/Issue.lean ====
section
/-!
DEFINITION. The issue of one instruction: fetch (R54, R55), the checks of R81 in their order, the waits of R70, R237, R262
and R344, the whole-group points (R41) and the watchdog (R45), what the group in focus does by itself (log entry 1), and
what a turn leaves that met a page on the move (R403).
-/

namespace Sys2Proof.Machine

/-- What a turn comes to: the state moves on without an instruction, or an instruction executes. -/
inductive Go where
  | stay (s : State)
  | run (i : Instr) (s : State)
  deriving DecidableEq, Repr

/-- A fetched word with the state after its fetch, a fault with the address it names, or a page on the move (R403). -/
inductive Fetch where
  | word (s : State) (w : IWord)
  | bad (cause : BitVec 8) (va : Nat)
  | hold
  deriving DecidableEq, Repr

/-- Whether a page may be fetched from (R54, R200): execute permission, and not a DEV page. -/
def Page.fetchable (p : Page) : Bool := p.ex && p.cls != 2

/-- Whether that copy is poisoned (R421). -/
def State.fetchPoison (s : State) (die ctx va cls key : Nat) : Bool :=
  if cls = 1 then s.strPoison (.die die) ctx va key else s.poison.contains (key / 32)

/-- The fetch of the word at an address from its two pages, the same one where it does not cross (R54, R55, R235). -/
def State.fetchIn (s : State) (x : Site) (va : Nat) (p q : Page) : Fetch :=
  let at_ := (List.range wordBytes).map (fun i =>
    if (va + i) / 2 ^ 16 = va / 2 ^ 16 then (va + i, p.cls, p.key + i) else (va + i, q.cls, q.key + i + 1 - wordBytes))
  if !p.fetchable then .bad 0x11#8 va
  else if !q.fetchable then .bad 0x11#8 ((va + wordBytes - 1) / 2 ^ 16 * 2 ^ 16)
  else
    match at_.find? (fun b => s.fetchPoison x.c.die x.ctx b.1 b.2.1 b.2.2) with
    | some b => .bad 0x14#8 b.1
    | none =>
      if s.codeTorn x.c.id va wordBytes then
        let (s1, n) := s.draw
        .word s1 (Config.free 96 n)
      else .word s (BitVec.ofNat 96 (leNat (at_.map (fun b => s.fetchByte x.c.die x.ctx b.1 b.2.1 b.2.2))))

/-- Instruction fetch (R54): translated like a data load. A fault names an address in the page that faults. -/
def State.fetchWord (s : State) (x : Site) (va : Nat) : Fetch :=
  let last := va + wordBytes - 1
  let t1 := translate s x.ctx va
  let t2 := if last / 2 ^ 16 = va / 2 ^ 16 then t1 else translate s x.ctx last
  match t1, t2 with
  | .page p, .page q => s.fetchIn x va p q
  | .cause c, .cause d => if d = 0x11#8 ∧ c ≠ 0x11#8 then .bad d (last / 2 ^ 16 * 2 ^ 16) else .bad c va
  | .cause c, _ => .bad c va
  | _, .cause d => .bad d (last / 2 ^ 16 * 2 ^ 16)
  | _, _ => .hold

/-- A fetch fault, taken at the fragment's address before its word counts (R54, R71): a translation fault parks the group,
any other stops it. -/
def State.fetchFault (s : State) (x : Site) (cause : BitVec 8) (va : Nat) : State :=
  if cause = 0x10#8 then s.park x va 0#32 false false
  else s.stop x (Trap.one cause va) 0#32 false x.f.pc

/-- Whether a word is a `trail`, as the word after a run-closing instruction must be (R68, R71). -/
def isTrail (w : IWord) : Bool := (fieldsOf w).maj == 0x75#8

/-- Whether an instruction is a `trail`. -/
def isTrailer : Instr → Bool
  | .trail .. => true
  | _ => false

/-- The operands whose numbers R81 checks at step 6, in the order D, A, B. -/
def checkedOpds : Instr → List Opd
  | .trail _ regs => regs
  | i => (usesOf i).dst ++ (usesOf i).src

/-- A run whose structure the word itself breaks (R71): a `trail` at the run start, a 24th word that is none, or a run
temporary that the run has not written. -/
def runBroken (f : Frag) (i : Instr) : Bool :=
  if isTrailer i then f.pos == 0
  else decide (23 ≤ f.pos) || tempsOf (usesOf i).src &&& ~~~ f.tw != 0#8

/-- An operand beyond the group's allocation (R81 step 6): the cause and what its record names. -/
def opdBeyond (x : Site) : Opd → Option Trap
  | .v n => if x.vregs ≤ n.toNat then some (Trap.one 0x12#8 n.toNat) else none
  | _ => none

/-- A record index beyond the record count (R81 step 6). -/
def recBeyond (x : Site) : Opd → Option Trap
  | .rc n => if x.l.desc.recCnt ≤ n.toNat then some (Trap.one 0x30#8 n.toNat) else none
  | _ => none

/-- An arrival word or ring slot out of range (R81 step 6, R274, R276). -/
def wordBeyond (x : Site) : Opd → Option Trap
  | .aw off =>
    if 0x3FF < off.toNat then some (Trap.one 0x12#8 (0x30000000 + off.toNat))
    else if off.toNat % 4 ≠ 0 then some (Trap.one 0x13#8 (0x30000000 + off.toNat))
    else none
  | .ring k n =>
    if (x.c.ringSlot? k.toNat n.toNat).isNone then some (Trap.one 0x12#8 (k.toNat * 4096 + n.toNat)) else none
  | _ => none

/-- A write of a special register that the group may not write (R29, R81). -/
def srBeyond (s : State) (x : Site) : Instr → Option Trap
  | .swr _ (.sr r) a _ =>
    if r = .fpmode ∨ ((r = .ybound ∨ r = .specdepth) ∧ x.ctx = 0) then none
    else some (Trap.one 0x11#8 (x.read s (lowest x.f.mask) a).toNat)
  | _ => none

/-- The first check of R81 step 6 that fails. -/
def State.beyond (s : State) (x : Site) (i : Instr) : Option Trap :=
  let l := checkedOpds i
  (l.findSome? (opdBeyond x)).or ((l.findSome? (recBeyond x)).or ((l.findSome? (wordBeyond x)).or (srBeyond s x i)))

/-- Whether an instruction waits for outstanding register writes of its group (R70): a register it names, any register for
a regroup (R43), any vector register for an access by way of the register window (R36). -/
def Group.interlocked (g : Group) (i : Instr) : Bool :=
  let u := usesOf i
  match i with
  | .trail .. => false
  | .regroup .. => !g.out.isEmpty
  | _ => g.out.any (fun p => p.regs.any (fun r => u.dst.contains r || u.src.contains r || (touchesWindow i && opdIsV r)))

/-- Whether an instruction must let another fragment of its group replay first (R70, R237): one that accesses memory, where the
replay is not of atomics that have been accepted and wait for their turn (R424), and one that names a register which the replay is
still to write. -/
def Group.replayDue (g : Group) (low : Nat) (i : Instr) : Bool :=
  let u := usesOf i
  g.all.any (fun f => f.replay.isSome && lowest f.mask != low &&
    ((touchesMemory i && !f.early) || f.owes.any (fun r => u.src.contains r || u.dst.contains r)))

/-- The context record that a segment record names; none where it cannot be read. -/
def State.segCtx (s : State) (ctx a : Nat) : List Nat :=
  match s.segment ctx a with
  | .ok r => [r.sctx]
  | .error _ => []

/-- The addresses of the context records that an instruction on KV state reads (R327, R341). -/
def State.kvRecords (s : State) (x : Site) : Instr → List Nat
  | .kvapp _ a _ => [x.gpair (opdGno a)]
  | .pgshare _ a => [x.gpair (opdGno a), x.gpair (opdGno a + 2)]
  | .pgrel _ a => [x.gpair (opdGno a)]
  | .qclear _ a _ => [x.gpair (opdGno a)]
  | .segbegin _ a _ => [x.gpair (opdGno a + 2)]
  | .segseal _ a _ => s.segCtx x.ctx (x.gpair (opdGno a))
  | .link _ _ a _ => x.gpair (opdGno a) :: s.segCtx x.ctx (x.gpair (opdGno a + 2))
  | .linkVfy _ _ a _ => x.gpair (opdGno a) :: s.segCtx x.ctx (x.gpair (opdGno a + 2))
  | .kvgath _ _ _ a _ => [x.gpair (opdGno a)]
  | .ropeq _ _ a _ => [x.gpair (opdGno a)]
  | .repset _ _ a => [x.gpair (opdGno a)]
  | .ovlcommit _ _ a _ => [x.gpair (opdGno a)]
  | _ => []

/-- The tables of the context records that an instruction reads are in use from its issue on, whether it changes them or
traps (R324, log entry 41). -/
def State.noteUse (s : State) (x : Site) (i : Instr) : State :=
  (s.kvRecords x i).foldl (fun s a => match s.kvCtx x.ctx a with
    | .ok c => s.noteTab x.ctx c
    | .error _ => s) s

/-- The issue of an instruction that passed every check: the fragments of a whole-group point fuse, and the watchdog is
compared (R41, R45). -/
def State.launchWord (s : State) (x : Site) (i : Instr) : Go :=
  if isPoint i then
    match s.gather x with
    | some (s1, y) => if y.overruns then .run .watchdogOverrun s1 else .run i s1
    | none => .run i s
  else if x.overruns then .run .watchdogOverrun s
  else .run i (s.noteUse x i)

/-- The checks of R81 steps 5 and 6 on a decoded instruction, then its waits, then its issue. -/
def State.checked (s : State) (x : Site) (i : Instr) : Go :=
  if runBroken x.f i then .run (.illegalWord 0x03#8 false) s
  else
    let rest := fun (s : State) =>
      match s.beyond x i with
      | some t => .stay (s.stop x t 0#32 false x.f.pc)
      | none => if x.g.interlocked i || x.g.replayDue (lowest x.f.mask) i then .stay s else s.launchWord x i
    if isClosing i then
      match s.fetchWord x (x.f.pc + wordBytes) with
      | .hold => .stay s
      | .bad c va => .stay (s.fetchFault x c va)
      | .word s1 w => if isTrail w then rest s1 else .run (.illegalWord 0x03#8 false) s1
    else rest s

/-- Whether a fragment may issue: its group runs on a core, the fragment does not wait at a reconvergence address (R40),
and a verifying link of another fragment does not block the group (R344). -/
def Site.ready (x : Site) : Bool :=
  x.g.stat == .run && x.c.stat == .resident && !x.f.waits
    && (match x.g.block with
        | some (.vfy low _ _ _ _ _) => low == lowest x.f.mask
        | _ => true)

/-- The issue of the fragment in focus (R21): a job's cause is delivered first (R262, R386); then fetch and decode. -/
def State.issue (s : State) : Go :=
  match s.site? with
  | none => .stay s
  | some x =>
    if !x.ready then .stay s
    else if s.deliverable x.g then .run (.jobFaultDelivery x.g.key) s
    else
      match s.fetchWord x x.f.pc with
      | .hold => .stay s
      | .bad c va => .stay ({ s with word := 0#96 }.fetchFault x c va)
      | .word s1 w =>
        let s2 := { s1 with word := w }
        match decodeFor (x.l.roleNow x.g) w with
        | .illegal c r => .run (.illegalWord c r) s2
        | .instr i => s2.checked x i

/-- With no agenda, the group in focus goes on by itself: its oldest outstanding write completes (R70), an overflowed
fragment returns (R39), or a fragment that is ready issues, the one in focus before the others. -/
def State.drift (s : State) : Go :=
  match s.group? s.focus.gk with
  | none => .stay s
  | some g =>
    if !g.out.isEmpty then .run (.longLatencyWriteback s.focus.gk) s
    else if !g.spilled.isEmpty && decide (g.frags.length < 8) then .run (.fragmentReturn s.focus.gk) s
    else
      match (match g.frag? s.focus.low with
             | some f => if f.waits then none else some f
             | none => none) with
      | some _ => s.issue
      | none =>
        match g.frags.find? (fun f => !f.waits) with
        | some f => { s with focus := ⟨s.focus.gk, lowest f.mask⟩ }.issue
        | none => .stay s

/-- The frames that a page entry which something else stored to named before and names now (R324). -/
def KvTorn.frames (x : KvTorn) (s : State) : List Nat :=
  let now := (keyOf s x.tab.ctx (x.tab.etab + 4 * x.e)).map (fun k => leNat (memBytes s.mem k 4))
  (x.old :: now.toList).filterMap (fun w =>
    if w.testBit 31 && decide (bits w 28 0 < x.tab.fcnt) then some (bits w 28 0) else none)

/-- The REFC of those frames is undefined from here on: free values (R324, log entry 41). -/
def State.tearRefc (s0 : State) : State :=
  if s0.kvTorn.isEmpty then s0
  else
    let (s, n) := s0.draw
    let keys := (s.kvTorn.flatMap (fun x => (x.frames s).flatMap (fun f =>
      [10, 11].filterMap (fun i => keyOf s x.tab.ctx (x.tab.ftab + 16 * f + i))))).eraseDups
    { s.memWrite keys (keys.zipIdx.map (fun e => Config.free 8 (n * 2 ^ 40 + e.2))) with kvTorn := [] }

/-- What a step leaves beyond its turn: torn counts (R324), and the failed offers that last (R34). -/
def State.afterStep (s : State) : State := s.tearRefc.keepFails

/-- What a turn that led from `s` to `t` leaves. One that met a page on the move is taken back: an access held so makes no
step, and only the turn is used up (R237, R403). -/
def State.kept (s t : State) : State := if t.held then { s with agenda := s.agenda.tail, held := false } else t.afterStep

end Sys2Proof.Machine
end

