-- ==== Sys2Proof/Machine/Select.lean ====
section
/-!
DEFINITION. The selection of a lane at an issue opportunity (R21, R64, R379), and one turn of the agenda (log entry 1).
-/

namespace Sys2Proof.Machine

/-- What a turn comes to, its instruction executed. -/
def Go.out (g : Go) : Out :=
  match g with
  | .stay t => .next t
  | .run i t => exec i t

/-- The word that a turn issues. -/
def Go.word (g : Go) : IWord :=
  match g with
  | .stay t => t.word
  | .run _ t => t.word

/-- A ready candidate of a lane with the keys of R379; `count` is its count of opportunities. -/
structure Ready where
  gk    : Nat
  low   : Nat
  age   : Nat
  prio  : Nat
  pri   : Nat
  dly   : Nat
  count : Nat
  gid   : Nat
  deriving DecidableEq, Repr

/-- A candidate counts as aged after 192 opportunities (R379). -/
def Ready.aged (a : Ready) : Bool := decide (192 ≤ a.age)

/-- Whether one candidate is selected before another (R379). Between two crews' groups of one gid, the crew that was first on
a core goes first (log entry 58). -/
def Ready.before (a b : Ready) : Bool :=
  if (a.aged || b.aged) && a.age != b.age then decide (b.age < a.age)
  else if a.prio ≠ b.prio then decide (b.prio < a.prio)
  else if a.pri ≠ b.pri then decide (b.pri < a.pri)
  else if a.count ≠ b.count then decide (b.count < a.count)
  else if a.gid ≠ b.gid then decide (a.gid < b.gid)
  else if a.gk ≠ b.gk then decide (a.gk < b.gk)
  else decide (a.low < b.low)

/-- The first of some candidates in the order of R379. -/
def firstReady : List Ready → Option Ready
  | [] => none
  | a :: r =>
    match firstReady r with
    | none => some a
    | some b => if b.before a then some b else some a

/-- The candidates of a lane: the fragments in the split tables of the groups resident on it (R379). -/
def State.laneFrags (s : State) (core lane : Nat) : List (Group × Frag) :=
  (s.groups.filter (fun g => g.live && g.lane == lane && (match s.crew? g.crew with
    | some c => c.stat == .resident && c.core == core
    | none => false))).flatMap (fun g => g.frags.map (fun f => (g, f)))

/-- What a lane remembers of a candidate. -/
def State.pick (s : State) (gk low : Nat) : Pick :=
  (s.picks.find? (fun p => p.gk == gk && p.low == low)).getD ⟨gk, low, 0, 0⟩

/-- The issue of a fragment, as a turn. -/
def State.issueOf (s : State) (gk low : Nat) : Go := { s with focus := ⟨gk, low⟩ }.issue

/-- Whether a candidate is ready, as its issue shows: its group takes a step, which no page on the move holds (R21). One that
waits at a queue takes its place there (R249, R262, R284). -/
def State.tryFrag (r : State × List Ready) (q : Group × Frag) : State × List Ready :=
  let gk := q.1.key
  let low := lowest q.2.mask
  let p := r.1.pick gk low
  if p.dly ≠ 0 then r
  else
    let go := r.1.issueOf gk low
    match go.out with
    | .next t =>
      if t.held then r
      else if t.group? gk = r.1.group? gk then ({ r.1 with waiters := t.waiters }, r.2)
      else
        let h := (fieldsOf go.word).h
        (r.1, r.2 ++ [⟨gk, low, p.age, q.1.prio, h.pri.toNat, h.dly.toNat, p.age, q.1.gid⟩])
    | _ => r

/-- What the lane remembers of its candidates after an opportunity (R64, R379): one that issued starts anew, held for its
DLY; one that was ready and not selected is older by one; any other starts anew. -/
def State.laneAged (s : State) (cs : List (Group × Frag)) (ready : List Ready) (sel : Option Ready) : State :=
  let next := fun (q : Group × Frag) =>
    let gk := q.1.key
    let low := lowest q.2.mask
    let p := s.pick gk low
    match sel, ready.find? (fun a => a.gk == gk && a.low == low) with
    | some b, some a => if a.gk = b.gk ∧ a.low = b.low then (⟨gk, low, 0, b.dly⟩ : Pick) else ⟨gk, low, p.age + 1, 0⟩
    | _, _ => ⟨gk, low, 0, p.dly - 1⟩
  let others := s.picks.filter (fun p => !cs.any (fun q => q.1.key == p.gk) && (s.siteAt p.gk p.low).isSome)
  { s with picks := cs.map next ++ others }

/-- An issue opportunity of a lane (R21, R379): the first of its ready candidates issues. -/
def State.laneTurn (s : State) (core lane : Nat) : Go :=
  let cs := s.laneFrags core lane
  let r := cs.foldl State.tryFrag (s, [])
  let sel := firstReady r.2
  let s1 := r.1.laneAged cs r.2 sel
  match sel with
  | none => .stay s1
  | some a => s1.issueOf a.gk a.low

/-- One turn: the agenda's first entry, or the drift of the group in focus (log entry 1). Time moves only by `pass`: one
nanosecond is one tick of sr.tsc (R29, R411). -/
def State.turn (s0 : State) : Go :=
  let s : State := { s0 with held := false }
  match s.agenda with
  | [] => s.drift
  | t :: r =>
    let s1 := { s with agenda := r }
    match t with
    | .issue gk low => s1.issueOf gk low
    | .lane core lane => s1.laneTurn core lane
    | .event i => if isEvent i then .run i s1 else .stay s1
    | .pass ns => .stay { s1 with nanos := s.nanos + ns, tsc := s.tsc + BitVec.ofNat 64 ns }
    | .image im => .stay { s1 with images := im :: s.images }
    | .migrate d a b n => .stay (s1.startMigrate d a b n)
    | .config off v => .stay (s1.dvsecWrite off v)
    | .error at_ u => .stay (s1.eccError at_ u)
    | .outside far key xs poison => .stay (s1.outsideWrite far key xs poison)
    | .ybound ctx v => .stay (s1.yboundWrite ctx v)
    | .window die addr v => (match s1.windowGroup die addr with
      | some (g, off) => .run (.debugWindowWrite g.key off v) s1
      | none => .stay s1)
    | .pwait die ns => .stay (s1.setWait die ns)
    | .podJoin pkg ctx desc bars => .stay (s1.podJoinFar pkg ctx desc bars)
    | .podArrive pkg ctx desc index key => .stay (s1.podArriveFar pkg ctx desc index key)
    | .podDrop pkg ctx desc index key => .stay (s1.podDropFar pkg ctx desc index key)
    | .podEnd pkg ctx desc => .stay (s1.podEndFar pkg ctx desc)

end Sys2Proof.Machine
end

