-- ==== Sys2Proof/Machine/Stage.lean ====
section
/-!
DEFINITION. Staging one word (log entry 1): where the group in focus can issue, its word is replaced; else a context,
its page table, a launch, a crew and one group of a role that accepts the word are set up around it, as an accepted
launch and a placement would leave them. The word is followed by a `trail`.
-/

namespace Sys2Proof.Machine

/-- The word of a `trail` that names no register (R70). -/
def trailWord : IWord := 0x75#96 <<< 88

/-- A role that decodes a word (R25): the copy, matrix or vector role, in this order; vector where none does. -/
def roleFor (w : IWord) : Nat :=
  ((List.range 3).find? (fun r => match decodeFor r w with
    | .instr _ => true
    | .illegal _ _ => false)).getD 2

/-- The virtual address at which a staged word stands. -/
def stageVa : Nat := 0x1000

/-- The device address of the staged page table's root: its five levels take one 4-KiB frame each. -/
def stageRoot : Nat := 0x1000

/-- A pointer entry (R401). -/
def pointerTo (frame : Nat) : Nat := 2 ^ 63 + frame

/-- A 2-MiB leaf of a COH page of T1 with every permission (R401). -/
def leafTo (frame : Nat) : Nat := 2 ^ 63 + 2 ^ 62 + 2 ^ 55 + 2 ^ 54 + 2 ^ 53 + frame

/-- The staged page table maps the lowest 2 MiB to device address 2 MiB. -/
def stageTable (m : List (Nat × Byte)) : List (Nat × Byte) :=
  let at_ := fun (m : List (Nat × Byte)) (k e : Nat) => memPut m (stageRoot + 4096 * k) (leBytes 8 e)
  at_ (at_ (at_ (at_ m 0 (pointerTo 2)) 1 (pointerTo 3)) 2 (pointerTo 4)) 3 (leafTo 512)

/-- The staged kernel (R116): one group, 256 vector registers, 256 records, entry at the staged word. -/
def stageDesc : Desc :=
  { addr := 0x4000, entry := stageVa, crew := 1, split := splitDefault, vregs := 256, deadline := 4095, arglen := 0,
    scratch := 4096, fpmode := 0#32, rec0 := 0, recCnt := 256, bar0 := 0, barCnt := 0, role0 := 0, roleCnt := 1, live0 := 0,
    liveCnt := 0, cb0 := 0, cbCnt := 0 }

/-- The staged launch, of context 0. -/
def stageLaunch (h role : Nat) : Launch :=
  { handle := h, ctx := 0, issuer := 0, parent := none, desc := stageDesc,
    image := ⟨0, stageVa, stageVa + 2 * wordBytes, 0x4000, 0x4040, 0x5000, 0x8000, 0x8000, 0x8000, 0x8000⟩, queue := 0,
    pre := [], met := false, cx := 1, cy := 1, cz := 1, split := splitDefault, ownSplit := false, args := [], done := 0, stats := 0,
    roles := [⟨0, 1, role, stageVa⟩], roleTorn := none, bars := [], insts := [], next := 1, retired := 0, traps := 0, killed := 0,
    ended := false }

/-- The staged crew, on core 0, with sixteen declared stage rings. -/
def stageCrew (id h role : Nat) : Crew :=
  { id := id, handle := h, lin := 0, core := 0, base := 0, stat := .resident, scr := Bank.zero 8, poison := [],
    aw := ⟨(List.range 16).map (fun k => (0x3C0 + 4 * k, 0x40#8)), []⟩, recs := List.replicate 256 0#320, insts := [],
    hasUnit := role == 1, unit := CascUnit.zero, children := 0, pending := none, past := [], strLines := [], slots := 0,
    slot0 := 0, savedAt := 0 }

/-- The staged group: its fragment holds every thread and stands behind one word of its run, all temporaries written. -/
def stageGroup (crew role : Nat) : Group :=
  { crew := crew, gid := 0, role := role, lane := 0, slot := 0, vbase := 0, v := Bank.zero 32, g := Bank.zero 32,
    p := Bank.zero 32, t := Bank.zero 32, pins := [], fpmode := 0#32, faultmask := 0#32, tscHi := none, refHi := none,
    frags := [{ Frag.start allThreads stageVa with pos := 1, tw := 0xFF#8 }], spilled := [], splitNo := 0, wdog := 4096,
    prio := 0, stat := .run, block := none, recount := false, out := [], jobFaults := [], opening := 0, barPh := [] }

/-- The words placed at a virtual address of a context, byte by byte where they translate. -/
def State.placeWord (s : State) (ctx va : Nat) (w : IWord) : State :=
  let l := (leBytes wordBytes w.toNat ++ leBytes wordBytes trailWord.toNat).zipIdx.filterMap (fun e =>
    (keyOf s ctx (va + e.2)).map (fun k => (k, e.1)))
  { s.memWrite (l.map (·.1)) (l.map (·.2)) with
    bufs := s.bufs.filter (fun b => !(b.ctx == ctx && overlaps va (2 * wordBytes) (b.line * 128) 128)) }

/-- Set up everything that the fetch of one word needs, and place it. -/
def State.stageFresh (s : State) (w : IWord) : State :=
  let role := roleFor w
  let id := s.crewNo
  let s1 : State :=
    { s with sys := { s.sys with boot := some ⟨0, 0, 0, 0, 0, stageRoot⟩ }, mem := stageTable s.mem,
             ctxs := [⟨0, true, true, 4096, 0#32, 0, 0, 0, 0⟩], launches := s.launches ++ [stageLaunch s.nextHandle role],
             crews := s.crews ++ [stageCrew id s.nextHandle role], groups := s.groups ++ [stageGroup id role],
             agenda := [], focus := ⟨id * 32, 0⟩, nextHandle := s.nextHandle + 1, crewNo := id + 1 }
  s1.placeWord 0 stageVa w

/-- The group in focus may issue a word where it stands. -/
def State.staged? (s : State) : Option Site :=
  match s.site? with
  | none => none
  | some x =>
    match s.fetchWord x x.f.pc, s.fetchWord x (x.f.pc + wordBytes) with
    | .word _ _, .word _ _ => if x.ready && x.g.out.isEmpty && x.g.spilled.isEmpty then some x else none
    | _, _ => none

/-- A word stored where the next step fetches. -/
def State.stage (s : State) (w : IWord) : State :=
  match s.staged? with
  | some x => { s.placeWord x.ctx x.f.pc w with agenda := [] }
  | none => s.stageFresh w

end Sys2Proof.Machine
end

