-- ==== Sys2Proof/Machine/Step.lean ====
section
/-!
DEFINITION. The step of the machine: one turn of the agenda, which moves the state by itself or executes one
instruction or event (log entry 1).
-/

namespace Sys2Proof.Machine

/-- One step: a turn, and what it leaves. -/
def step (s : State) : Host.Outcome State Fault Refusal :=
  match s.turn.out with
  | .next t => .next (s.kept t)
  | o => o

/-- The state with a word stored where the next step fetches; the word is numbered as the opcode table numbers it. -/
def State.withFetchWord (s : State) (nbits w : Nat) : State := s.stage (BitVec.ofNat 96 (w % 2 ^ nbits))

end Sys2Proof.Machine
end

