-- ==== Sys2Proof/Safety.lean ====
section
/-!
DEFINITION. The terms in which claims speak of the machine: the invariant of the memories, a safe run, what a register
operand reads as, which threads an instruction executes for, what one instruction leaves unchanged, and the fault record
as it lies in memory.
-/

namespace Sys2Proof

/-- A register operand: a vector, group, predicate register or a run temporary (R56). -/
def Opd.isReg (o : Opd) : Bool := o.isV || o.isG || o.isP || o.isT

end Sys2Proof

namespace Sys2Proof.Machine

/-- Both memories, the bytes of devices among them, keep the canonical form. -/
def State.MemInv (s : State) : Prop := Memory.wf s.mem ∧ Memory.wf s.dev

/-- A safe step: it answers a next state, neither a fault nor a refusal. -/
def State.Safe (s : State) : Prop := ∃ t, step s = .next t

/-- What thread `i` of a group reads in a register operand; p0 reads 1 (R20, R26). -/
def Group.reg (g : Group) (i : Nat) : Opd → Word
  | .v n => g.vreg n i
  | .g n => g.greg n.toNat
  | .t n => g.treg n i
  | .p n => wordOf (g.pred n i)
  | _ => 0#32

/-- The two registers of a pair as one value (R58). -/
def Group.reg64 (g : Group) (i : Nat) (o : Opd) : DWord := g.reg i (opdNext o) ++ g.reg i o

/-- A value as a destination keeps it: a predicate keeps whether it is not zero. -/
def asReg (d : Opd) (w : Word) : Word := if d.isP then (if w = 0#32 then 0#32 else 1#32) else w

/-- Whether an instruction executes for thread `i`: a uniform one executes once, for all threads (R18, R155). -/
def ExecutesFor (uni : Bool) (e : Word) (i : Nat) : Bool := if uni then e != 0#32 else e.getLsbD i

/-- Whether a thread that does not execute keeps D: a temporary that the run writes for the first time becomes undefined in
the fragment's threads that this write leaves out (R69). -/
def Site.keeps (x : Site) (d : Opd) (i : Nat) : Prop := ¬ d.isT ∨ tempsOf [d] &&& ~~~ x.f.tw = 0#8 ∨ x.f.mask.getLsbD i = false

/-- A group after a write of D: `f i` for each thread the instruction executes for (for a uniform one, the value at the
lowest thread of its mask), the former value in the others, and every other register as before. -/
structure Written (x : Site) (uni : Bool) (e : Word) (d : Opd) (f : Nat → Word) (g : Group) : Prop where
  result : ∀ i, i < 32 → ExecutesFor uni e i → d ≠ .p 0#3 → g.reg i d = asReg d (f (if uni then lowest e else i))
  left   : ∀ i, i < 32 → ExecutesFor uni e i = false → x.keeps d i → g.reg i d = x.g.reg i d
  others : ∀ o i, i < 32 → o.isReg → o ≠ d → g.reg i o = x.g.reg i o

/-- As `Written`, for a 64-bit value in a pair. -/
structure Written64 (x : Site) (uni : Bool) (e : Word) (d : Opd) (f : Nat → DWord) (g : Group) : Prop where
  result : ∀ i, i < 32 → ExecutesFor uni e i → g.reg64 i d = f (if uni then lowest e else i)
  left   : ∀ i, i < 32 → ExecutesFor uni e i = false → x.keeps d i → x.keeps (opdNext d) i → g.reg64 i d = x.g.reg64 i d
  others : ∀ o i, i < 32 → o.isReg → o ≠ d → o ≠ opdNext d → g.reg i o = x.g.reg i o

/-- A group whose issuing fragment has gone on to the next word, with nothing changed but its register banks, the latches
of the counters it read, its wait and the fault mask of a replay (R45, R59, R67, R236). -/
def Advanced (x : Site) (s : State) (e : Word) (dst src : List Opd) (g : Group) : Prop :=
  g = { (if e = 0#32 then x.g else x.g.latch s src).setFrag (lowest x.f.mask) (x.after dst) with
        v := g.v, g := g.g, p := g.p, t := g.t, block := none, recount := false,
        faultmask := if x.f.replay.isSome then 0#32 else x.g.faultmask }

/-- A crew without the notes about its window that the model keeps for outstanding jobs. -/
def Crew.plain (c : Crew) : Crew := { c with past := [] }

/-- A barrier without the count it waits for, which a store to its entry leaves undefined (R129). -/
def BarInst.plain (b : BarInst) : BarInst := { b with expect := 0 }

/-- A pod join set's barrier without the count it waits for. -/
def PodBar.plain (b : PodBar) : PodBar := { b with inst := b.inst.plain }

/-- A crew without its notes and without what a store to its tables leaves undefined: its buffer records, and what its
barriers count to (R129). -/
def Crew.bare (c : Crew) : Crew := { c with past := [], recs := [], insts := c.insts.map BarInst.plain }

/-- Everything outside one group is as before: memory, every other group, every crew, launch, context, engine and device
register. The count of free values, the stamps of notes and the notes are the model's own. -/
structure OnlyGroup (s t : State) (gk : Nat) : Prop where
  rest   : t = { s with groups := t.groups, crews := t.crews, free := t.free, stamp := t.stamp }
  crews  : ∀ k, (t.crew? k).map Crew.plain = (s.crew? k).map Crew.plain
  others : ∀ k, k ≠ gk → t.group? k = s.group? k

/-- What follows an instruction in a divided group: fragments fuse where this one arrives, and a deadlock of two
whole-group points is found (R40, R41). In an undivided group nothing follows. -/
def State.rejoin (t : State) (x : Site) : State := if x.f.stack.isEmpty then t else t.settle x

/-- The instruction issued at site `x` completes: the machine answers a next state, in which the issuing group is `g` and
everything else is as before. -/
def Completes (i : Instr) (s : State) (x : Site) (P : State → Group → Prop) : Prop :=
  ∃ t g, exec i s = .next (t.rejoin x) ∧ t.group? x.g.key = some g ∧ P t g

/-- A register-to-register instruction with result `f` per thread: it completes, writes D (once, for all threads, where
`u`), and changes nothing else but what `base` has changed outside the group (R18, R19, R155). -/
def ComputesAs (i : Instr) (s : State) (u : Bool) (e : Site → Word) (d : Opd) (src : List Opd) (f : Site → Nat → Word)
    (base : Site → State) : Prop :=
  ∀ x, s.site? = some x → Completes i s x (fun t g =>
    Written x u (e x) d (f x) g ∧ Advanced x s (e x) [d] src g ∧ OnlyGroup (base x) t x.g.key)

/-- As `ComputesAs`, with the execution mask of R18 and nothing changed outside the group. -/
def Computes (i : Instr) (s : State) (h : Hdr) (d : Opd) (src : List Opd) (f : Site → Nat → Word) : Prop :=
  ComputesAs i s (uniform (d :: src)) (fun x => x.emask h (d :: src)) d src f (fun _ => s)

/-- As `Computes`, for a pair. -/
def Computes64 (i : Instr) (s : State) (h : Hdr) (d : Opd) (src : List Opd) (f : Site → Nat → DWord) : Prop :=
  ∀ x, s.site? = some x → Completes i s x (fun t g =>
    Written64 x (uniform (d :: src)) (x.emask h (d :: src)) d (f x) g ∧
    Advanced x s (x.emask h (d :: src)) [d, opdNext d] src g ∧ OnlyGroup s t x.g.key)

/-- The state with the events of the executing threads counted in the context's statistics, against tensor ID 0 (R151,
R152). -/
def State.counted (s : State) (x : Site) (e : Word) (f : Nat → Ev) : State :=
  s.count x.c.die x.ctx 0 (Ev.sum ((lanes e).map f))

/-- As `Computes`, with the events that the statistics count. -/
def ComputesEv (i : Instr) (s : State) (h : Hdr) (d : Opd) (src : List Opd) (f : Site → Nat → Word × Ev) : Prop :=
  ComputesAs i s (uniform (d :: src)) (fun x => x.emask h (d :: src)) d src (fun x k => (f x k).1)
    (fun x => s.counted x (x.emask h (d :: src)) (fun k => (f x k).2))

/-- An exact result clamped to the range of a type (R158). -/
def clampTo (ty : ITy) (z : Int) : Word := BitVec.ofInt 32 (max (ityRange ty).1 (min (ityRange ty).2 z))

/-- The thread that a move between threads reads from (R169). -/
def moveFrom (op : XmovOp) (i sh : Nat) : Nat :=
  let j : Int := match op with
    | .idx => ((sh % 32 : Nat) : Int)
    | .up => (i : Int) - sh
    | .down => (i : Int) + sh
    | .xor => ((i ^^^ sh : Nat) : Int)
  if 0 ≤ j ∧ j < 32 then j.toNat else i

/-- The bit field that `bfx` takes from a value: `len` bits from bit `pos` (R161). -/
def fieldOf (ty : ITy) (a b : Word) : Word :=
  let pos := b.toNat % 32
  let len := min (b.toNat / 256 % 64) (32 - pos)
  if len = 0 then 0#32
  else match ty with
    | .s32 => (a <<< (32 - pos - len)).sshiftRight (32 - len)
    | .n32 => (a <<< (32 - pos - len)) >>> (32 - len)

/-- The value that `bfi` leaves in D, bit by bit (R161). -/
def fieldInto (d a b : Word) : Word :=
  let pos := b.toNat % 32
  let len := min (b.toNat / 256 % 64) (32 - pos)
  maskOf (fun k => if pos ≤ k ∧ k < pos + len then a.getLsbD (k - pos) else d.getLsbD k)

/-- The group `g0` of the issuing site after its instruction has ended: its fragment is at the next word, with one more
word of the run and one more count, and nothing waits (R45, R46, R67, R236). -/
def Site.ended (x : Site) (g0 : Group) (dst : List Opd) : Group :=
  { g0.setFrag (lowest x.f.mask) (x.after dst) with
    block := none, recount := false, faultmask := if x.f.replay.isSome then 0#32 else g0.faultmask }

/-- An instruction completes: `s1` is the state with its own effect, and beyond that the issuing group goes on to the next
word and nothing else changes. -/
def Ends (i : Instr) (s : State) (x : Site) (s1 : State) (dst : List Opd) : Prop :=
  ∃ g0, s1.group? x.g.key = some g0 ∧ Completes i s x (fun t g => g = x.ended g0 dst ∧ OnlyGroup s1 t x.g.key)

/-- The accesses of the executing threads of a memory instruction, in ascending thread order (R19). A replay finds its
temporaries as they are (R69, R72). -/
def memRun (s : State) (x : Site) (h : Hdr) (ops : List Opd) (r : Ret) (f : Site → State → Nat → Acc) : Sweep :=
  let e := x.emask h ops
  sweep (f x) (lanes e)
    ⟨s.prepTemps x (x.f.replay.isSome || (if uniform ops then e != 0#32 else e == x.f.mask)) (retDst r), [], [], Ev.zero, false, []⟩

/-- The state once the threads of a memory instruction have taken their accesses: what the instruction does beyond them is
`after` (poison that whole granules lose, R421; nothing for most), and their events count. -/
def memDone (s : State) (x : Site) (h : Hdr) (ops : List Opd) (r : Ret) (tensor : Nat) (f : Site → State → Nat → Acc)
    (after : After) : State :=
  (after x ((memRun s x h ops r f).vals.map (·.1)) (memRun s x h ops r f).s).count x.c.die x.ctx tensor (memRun s x h ops r f).ev

/-- A memory instruction in which no thread faults, no page is being moved and no atomic comes before its turn in a replay
completes: the threads' accesses have their effect, their events count, and their values are returned (R19, R70, R236, R424). -/
def AccessEnds (i : Instr) (s : State) (h : Hdr) (ops : List Opd) (r : Ret) (tensor : Nat)
    (f : Site → State → Nat → Acc) (after : After := noMore) : Prop :=
  ∀ x, s.site? = some x → (memRun s x h ops r f).clear → (memRun s x h ops r f).bads = [] →
    Ends i s x (((memDone s x h ops r tensor f after).giveBack x
      (uniform ops) r (memRun s x h ops r f).vals).modGroup x.g.key
        (fun g => if x.emask h ops = 0#32 then g else g.latch s ops)) (retDst r)

/-- The issuing group after some of its threads faulted: sr.faultmask names them, their replay is noted with the registers that it
owes them (R237), the destination counts as written in the run (R69), and the group is parked where every cause is 0x10, else
stopped, at the faulting word (R236). -/
structure Faulted (x : Site) (s : State) (bads : List (Nat × BitVec 8 × Nat)) (dst : List Opd) (g : Group) : Prop where
  mask   : g.faultmask = maskOf (fun i => bads.any (fun b => b.1 == i))
  stat   : g.stat = if bads.all (fun b => b.2.1 == 0x10#8)
             then .parked (lowest x.f.mask) false ((bads.head?.map (·.2.2)).getD 0) s.word
             else .stopped (lowest x.f.mask) x.f.pc s.word
  replay : ∀ f ∈ g.frags, lowest f.mask = lowest x.f.mask → f.pc = x.f.pc ∧ f.replay = some g.faultmask ∧
             f.tw = x.f.tw ||| tempsOf dst ∧ f.owes = dst

/-- The fault record of an access in which the threads of `bads` faulted (R236, R387): of a park, if every cause is 0x10, with
the address of the first; else of a stop, with the cause of the lowest thread that has another. -/
def faultRecord (s : State) (x : Site) (bads : List (Nat × BitVec 8 × Nat)) : FaultRec :=
  let m := maskOf (fun i => bads.any (fun b => b.1 == i))
  match bads.find? (fun b => b.2.1 != 0x10#8) with
  | some b => x.record s (Trap.one b.2.1 b.2.2) 0 m
  | none => x.record s (Trap.one 0x10#8 ((bads.head?.map (·.2.2)).getD 0)) flagPark m

/-- A memory instruction in which some threads fault: the threads that do not fault have taken their accesses, and the
group is parked or stopped; beyond that only the fault record is written (R236, R387, R389). Of a crew, the records that a store of
that record may leave undefined (R129) are left out. -/
def AccessFaults (i : Instr) (s : State) (h : Hdr) (ops : List Opd) (r : Ret) (tensor : Nat) (f : Site → State → Nat → Acc)
    (after : After := noMore) : Prop :=
  ∀ x, s.site? = some x → (memRun s x h ops r f).clear → (memRun s x h ops r f).bads ≠ [] →
    let done := memDone s x h ops r tensor f after
    let bads := (memRun s x h ops r f).bads
    ∃ t g, exec i s = .next t ∧ t.group? x.g.key = some g ∧ Faulted x s bads (retDst r) g ∧
      t.bufs = done.bufs ∧ t.dev = done.dev ∧ t.stats = done.stats ∧
      t.mem = (done.writeRecord x.c.die (faultRecord s x bads)).mem ∧
      (∀ k, (t.crew? k).map Crew.bare = (done.crew? k).map Crew.bare) ∧
      ∀ k, k ≠ x.g.key → t.group? k = done.group? k

/-- An instruction takes the trap of a cause at its own word instead of its effect (R385). What that does to the group is
said once, of `State.trap`. -/
def Traps (i : Instr) (s : State) (x : Site) (cause : BitVec 8) : Prop :=
  ∃ t : Trap, t.cause = cause ∧ exec i s = .next (s.trap x t)

/-- The instruction's fragment waits at a whole-group point for the group's other fragments (R41). -/
def WaitsForFragments (i : Instr) (s : State) (x : Site) : Prop :=
  ∃ g : Group, g = x.g.setFrag (lowest x.f.mask) { x.f with atPoint := true } ∧
    exec i s = .next ((s.setGroup g).settle { x with g := g, f := { x.f with atPoint := true } })

/-- The phase of an instance as the state holds it now. -/
def phaseNow (s : State) (x : Site) (b : BarInst) : Word :=
  ((s.inst? ((s.crew? x.c.id).getD x.c) ((s.launch? x.l.handle).getD x.l) b.level b.index).getD b).phase

/-- An instance after one arrival (R268). -/
def BarInst.arrivedBy (b : BarInst) (gk : Nat) : BarInst :=
  if b.count + 1 = b.expect then
    { b with phase := b.phase + 1#32, count := 0, expect := b.expect - b.drops, drops := 0, arrived := [] }
  else { b with count := b.count + 1, arrived := gk :: b.arrived }

/-- The state with a register result that a uniform instruction writes for all threads (R155, R327). -/
def State.result (s : State) (x : Site) (d : Opd) (w : Word) : State := s.modGroup x.g.key (fun g => g.writeAll d w)

/-- A launch without what its crews use of its descriptor, role and barrier entries, which a store to them leaves undefined
(R129). -/
def Launch.plain (l : Launch) : Launch :=
  { l with
    desc := { addr := l.desc.addr, entry := 0, crew := 0, split := 0, vregs := 0, deadline := 0, arglen := l.desc.arglen,
              scratch := 0, fpmode := 0#32, rec0 := 0, recCnt := 0, bar0 := 0, barCnt := 0, role0 := 0, roleCnt := 0,
              live0 := 0, liveCnt := 0, cb0 := 0, cbCnt := 0 },
    split := 0,
    roles := [],
    roleTorn := none,
    bars := [],
    insts := l.insts.map BarInst.plain }

/-- Nothing changes but memory, what a store leaves undefined of tables in use (R129), and the notes of stores that the model
keeps for others. -/
structure OnlyMemory (s t : State) : Prop where
  rest : t = { s with mem := t.mem, poison := t.poison, seen := t.seen, tornAt := t.tornAt, stamp := t.stamp, free := t.free,
                      launches := t.launches, crews := t.crews, podBars := t.podBars, held := t.held, kvTabs := t.kvTabs,
                      kvTorn := t.kvTorn, seals := t.seals }
  launches : t.launches.map Launch.plain = s.launches.map Launch.plain
  crews    : t.crews.map Crew.bare = s.crews.map Crew.bare
  pods     : t.podBars.map PodBar.plain = s.podBars.map PodBar.plain

/-- An instruction of R327 has none of its effects: it makes no step, traps, or its access faults. -/
def NothingDone (i : Instr) (s : State) (h : Hdr) (x : Site) : Prop :=
  exec i s = .next s ∨ (∃ t, exec i s = .next (s.trap x t)) ∨
  ∃ c va dst, exec i s = .next (s.conclude x [(lowest (x.umask h), c, va)] dst)

/-- The copy of a line that a buffer's fill takes, or its clean writes to (R205): the die buffer's, else memory's; none where
memory cannot be reached. -/
def State.lineBelow (s : State) (b : BufId) (ctx line : Nat) : Option BufLine :=
  match (if b = .die (dieOfBuf b) then none else s.line? (.die (dieOfBuf b)) ctx line) with
  | some w => some w
  | none =>
    match translate s ctx (line * 128) with
    | .page p => some (s.lineOfMem (.die (dieOfBuf b)) ctx line p.key)
    | _ => none

/-- R205, R211: some lines of an L1 buffer have been cleaned. The dirty bytes of each stand in the die buffer's line, over what
that held or memory gives, and are dirty there; the line keeps its bytes, clean; no other line changes, and memory does not.
A line that has nothing below it, as its page cannot be reached, stays as it is. -/
structure Cleaned (s t : State) (b : BufId) (sel : BufLine → Bool) : Prop where
  mem   : t.mem = s.mem
  clean : ∀ c l y w, s.line? b c l = some y → sel y → y.dirty ≠ 0#128 → s.lineBelow b c l = some w →
    t.line? b c l = some { y with dirty := 0#128 } ∧
    ∃ z, t.line? (.die (dieOfBuf b)) c l = some z ∧ z.dirty = w.dirty ||| y.dirty ∧
      ∀ i < 128, lineByte z.value i = if y.dirty.getLsbD i then lineByte y.value i else lineByte w.value i
  kept  : ∀ c l, (∀ y w, s.line? b c l = some y → sel y → y.dirty ≠ 0#128 → s.lineBelow b c l ≠ some w) →
    t.line? b c l = s.line? b c l ∧ t.line? (.die (dieOfBuf b)) c l = s.line? (.die (dieOfBuf b)) c l
  other : ∀ b' c l, b' ≠ b → b' ≠ .die (dieOfBuf b) → t.line? b' c l = s.line? b' c l

/-- Whether an element is finite. -/
def FFmt.finite (F : FFmt) (x : Nat) : Bool :=
  match F.val x with
  | .fin _ _ _ => true
  | _ => false

/-- A finite element in units of 2^−149: every finite element of every format is a multiple of that (R131). -/
def FFmt.units (F : FFmt) (x : Nat) : Int :=
  match F.val x with
  | .fin n m e => (if n then -1 else 1) * ((m * 2 ^ (e + 149).toNat : Nat) : Int)
  | _ => 0

/-- Whether the exact value X / D, in units of 2^−149, rounds in a mode to a magnitude beyond the largest finite one, were
there no limit (R139). `T` is the largest magnitude and `U` the step there. -/
def FFmt.passes (F : FFmt) (rnd : Nat) (X : Int) (D : Nat) : Prop :=
  let T := F.units F.maxBits
  let U := T - F.units (F.maxBits - 1)
  if rnd = 0 then (if F.inf then (2 * T + U) * D ≤ 2 * X.natAbs else (2 * T + U) * D < 2 * X.natAbs)
  else if (rnd = 2 ∧ 0 < X) ∨ (rnd = 3 ∧ X < 0) then T * D < X.natAbs
  else (T + U) * D ≤ X.natAbs

/-- R139: an element is the exact value X / D rounded in a mode: no finite element is nearer, and of two as near it is the
even one; or none lies between it and the value on the side that the mode takes. -/
def FFmt.IsRounded (F : FFmt) (rnd : Nat) (X : Int) (D : Nat) (k : Nat) : Prop :=
  k < 2 ^ F.w ∧ F.finite k ∧ F.neg k = decide (X < 0) ∧ ∀ y < 2 ^ F.w, F.finite y →
    let K := F.units k * D
    let Y := F.units y * D
    (rnd = 0 → (K - X).natAbs ≤ (Y - X).natAbs ∧ ((K - X).natAbs = (Y - X).natAbs → Y ≠ K → k % 2 = 0)) ∧
    (rnd = 1 → K.natAbs ≤ X.natAbs ∧ (Y.natAbs ≤ X.natAbs → Y.natAbs ≤ K.natAbs)) ∧
    (rnd = 2 → X ≤ K ∧ (X ≤ Y → K ≤ Y)) ∧
    (rnd = 3 → K ≤ X ∧ (Y ≤ X → Y ≤ K))

/-- R139, R140: a result and its events are those of the exact value X / D, not zero, rounded once under a mode: overflow,
flushing of a result that is subnormal after rounding, else the rounded element. -/
def FFmt.Rounds (F : FFmt) (v : FEnv) (X : Int) (D : Nat) (r : Nat × Ev) : Prop :=
  let neg := decide (X < 0)
  let away := v.rnd = 0 ∨ (v.rnd = 2 ∧ 0 < X) ∨ (v.rnd = 3 ∧ X < 0)
  (F.passes v.rnd X D → (F.inf → r = (if away ∧ v.sat = false then F.infBits neg else F.sign neg + F.maxBits, Ev.ofSat)) ∧
    (F.inf = false → v.ovn = false → r = (F.sign neg + F.maxBits, Ev.ofSat)) ∧
    (F.inf = false → v.ovn → r = (if v.nanc then F.canon else F.infBits neg, Ev.ofSat.plus Ev.ofNan))) ∧
  (¬ F.passes v.rnd X D → ∃ k, F.IsRounded v.rnd X D k ∧
    r = if v.ftz ∧ F.isSub k then (F.sign neg, Ev.ofFtz) else (k, Ev.zero))

/-- R139: an FP32 element is √(N / D), in units of 2^−149, rounded in a mode. -/
def RootRounded (rnd N D k : Nat) : Prop :=
  k < 2 ^ 31 ∧ fp32.finite k ∧ ∀ y < 2 ^ 31, fp32.finite y →
    let K := (fp32.units k).toNat
    let Y := (fp32.units y).toNat
    (rnd = 0 → (K < Y → 4 * N ≤ (K + Y) ^ 2 * D) ∧ (Y < K → (K + Y) ^ 2 * D ≤ 4 * N)) ∧
    (rnd = 1 ∨ rnd = 3 → K ^ 2 * D ≤ N ∧ (Y ^ 2 * D ≤ N → Y ≤ K)) ∧
    (rnd = 2 → N ≤ K ^ 2 * D ∧ (N ≤ Y ^ 2 * D → K ≤ Y))

/-- R143: the exact value X, in units of 2^−149, rounded to an integer in a mode. -/
def IntRounded (rnd : Nat) (X z : Int) : Prop :=
  (rnd = 0 → 2 * (z * 2 ^ 149 - X).natAbs ≤ 2 ^ 149 ∧ (2 * (z * 2 ^ 149 - X).natAbs = 2 ^ 149 → z % 2 = 0)) ∧
  (rnd = 1 → z = X.tdiv (2 ^ 149)) ∧ (rnd = 2 → z = -(-X / 2 ^ 149)) ∧ (rnd = 3 → z = X / 2 ^ 149)

/-- What a turn that came to `o` gives as a step: the state that it leaves, or the turn used up and nothing else where it met a
page on the move (R237, R403). -/
def State.leaves (s : State) (o : Host.Outcome State Fault Refusal) : Host.Outcome State Fault Refusal :=
  match o with
  | .next t => .next (s.kept t)
  | o => o

/-- R34: a crew that is offered fails only conditions 4 or 5 of R33 on a core, whose free space would hold it in total: the core is
one that it may take, with crews of its split resident, not drained, with room for one more crew and for a Cascade unit if it
needs one. -/
def OnlyFragmented (s : State) (core : Nat) (l : Launch) (q : Cand) : Prop :=
  core ∈ s.coresOf l ∧ s.resident core none ≠ [] ∧ (s.resident core none).length < 16 ∧
  (s.core core).split = l.split ∧ (s.core core).drain = false ∧ (s.core core).splitDrain = false ∧
  (l.matrix → ∀ c ∈ s.resident core none, c.hasUnit = false) ∧
  s.spot? core l (s.candGids l q) none = none ∧ s.roomInTotal core l (s.candGids l q).length

/-- A Cascade job as a group issues it (R284, R304). -/
def Site.job (x : Site) (s : State) (op : CascOp) : CascJob :=
  { op := op, gid := x.g.gid, pc := x.f.pc, word := s.word, opened := x.g.opening, issued := s.stamp, got := [], gotAt := [],
    wrote := [], fault := none, failAt := 0, paused := false }

/-- A matrix instruction puts a job, or an ordered non-job, at the end of the window of its unit. A window of 16 jobs holds
the group, and so does a group that has waited there longer: it waits, with nothing else changed (R284, R304). -/
def Issues (i : Instr) (s : State) (x : Site) (op : CascOp) : Prop :=
  (op.isJob → 16 ≤ x.c.unit.pending ∨ s.ahead (.window x.c.id) x → exec i s = .next (s.waitFor (.window x.c.id) x)) ∧
  ((op.isJob = false ∨ (x.c.unit.pending < 16 ∧ s.ahead (.window x.c.id) x = false)) → (∀ j ∈ x.c.unit.jobs.head?, j.op.isJob) →
    Ends i s x ((s.unwait x).setCrew { x.c with unit :=
      if x.c.unit.jobs = [] ∧ op.isJob = false then x.c.unit.ringAfter op
      else { x.c.unit with jobs := x.c.unit.jobs ++ [x.job s op] } }) [])

end Sys2Proof.Machine
end

