-- ==== Sys2Proof/Certificates/Slice0/Obligations.lean ====
section
/-!
DEFINITION. The statements about the machine, for the provers. Each says in its docstring which rule of the manual it
states, and what rests on a choice of the model.
-/

open Sys2Proof Sys2Proof.Machine

/-! ## Instructions on registers -/

/-- R158: the integer family, with the corner cases of division, of the smallest number and of SAT. -/
def Obligations.IntegerResults : Prop := ∀ (s : State) (h : Hdr) (ty : ITy) (d a b : Opd), wfBin d a b →
  let val := fun (x : Site) i o => ityVal ty (x.read s i o)
  let bySign := fun (f g : Word → Word → Word) (x : Site) i =>
    if ty = .s32 then f (x.read s i a) (x.read s i b) else g (x.read s i a) (x.read s i b)
  Computes (.add h ty false d a b) s h d [a, b] (fun x i => x.read s i a + x.read s i b) ∧
  Computes (.add h ty true d a b) s h d [a, b] (fun x i => clampTo ty (val x i a + val x i b)) ∧
  Computes (.sub h ty false d a b) s h d [a, b] (fun x i => x.read s i a - x.read s i b) ∧
  Computes (.sub h ty true d a b) s h d [a, b] (fun x i => clampTo ty (val x i a - val x i b)) ∧
  Computes (.mul h ty false d a b) s h d [a, b] (fun x i => x.read s i a * x.read s i b) ∧
  Computes (.mul h ty true d a b) s h d [a, b] (fun x i => clampTo ty (val x i a * val x i b)) ∧
  Computes (.mulhi h ty d a b) s h d [a, b] (bySign
    (fun p q => (p.signExtend 64 * q.signExtend 64).extractLsb' 32 32)
    (fun p q => (p.setWidth 64 * q.setWidth 64).extractLsb' 32 32)) ∧
  Computes (.mad h ty false d a b) s h d [a, b, d] (fun x i => x.read s i a * x.read s i b + x.read s i d) ∧
  Computes (.mad h ty true d a b) s h d [a, b, d] (fun x i => clampTo ty (val x i a * val x i b + val x i d)) ∧
  Computes (.div h ty d a b) s h d [a, b] (bySign
    (fun p q => if q = 0#32 then (if p.msb then 0x80000000#32 else 0x7FFFFFFF#32) else p.sdiv q)
    (fun p q => if q = 0#32 then 0xFFFFFFFF#32 else p / q)) ∧
  Computes (.rem h ty d a b) s h d [a, b] (bySign (fun p q => p.srem q) (fun p q => p % q)) ∧
  Computes (.min h ty d a b) s h d [a, b] (bySign (fun p q => if p.sle q then p else q) (fun p q => if p ≤ q then p else q)) ∧
  Computes (.max h ty d a b) s h d [a, b] (bySign (fun p q => if p.sle q then q else p) (fun p q => if p ≤ q then q else p)) ∧
  Computes (.abs h false d a) s h d [a] (fun x i => (x.read s i a).abs) ∧
  Computes (.abs h true d a) s h d [a] (fun x i =>
    if x.read s i a = 0x80000000#32 then 0x7FFFFFFF#32 else (x.read s i a).abs)

/-- R160: bit logic, shifts by the low six bits of B, rotation by its low five. -/
def Obligations.LogicAndShiftResults : Prop := ∀ (s : State) (h : Hdr) (d a b : Opd), wfBin d a b →
  let bin := fun (f : Word → Word → Word) (x : Site) i => f (x.read s i a) (x.read s i b)
  Computes (.and h d a b) s h d [a, b] (bin (· &&& ·)) ∧
  Computes (.or h d a b) s h d [a, b] (bin (· ||| ·)) ∧
  Computes (.xor h d a b) s h d [a, b] (bin (· ^^^ ·)) ∧
  Computes (.shl h d a b) s h d [a, b] (bin (fun p c =>
    if 32 ≤ c.toNat % 64 then 0#32 else BitVec.ofNat 32 (p.toNat * 2 ^ (c.toNat % 64)))) ∧
  Computes (.shr h .n32 d a b) s h d [a, b] (bin (fun p c => BitVec.ofNat 32 (p.toNat / 2 ^ (c.toNat % 64)))) ∧
  Computes (.shr h .s32 d a b) s h d [a, b] (bin (fun p c =>
    if 32 ≤ c.toNat % 64 then (if p.msb then 0xFFFFFFFF#32 else 0#32)
    else BitVec.ofInt 32 (p.toInt / (2 : Int) ^ (c.toNat % 64)))) ∧
  Computes (.rot h d a b) s h d [a, b] (bin (fun p c => (p <<< (c.toNat % 32)) ||| (p >>> (32 - c.toNat % 32))))

/-- R160, R161, R162: `not.b32` with any source, bit fields, and bit counts. -/
def Obligations.BitFieldResults : Prop := ∀ (s : State) (h : Hdr) (d a b : Opd),
  ((Instr.not h d a).wf → Computes (.not h d a) s h d [a] (fun x i => 0xFFFFFFFF#32 - x.read s i a)) ∧
  (wfUn d a →
    Computes (.bitPop h d a) s h d [a] (fun x i => (x.read s i a).cpop) ∧
    Computes (.bitClz h d a) s h d [a] (fun x i => (x.read s i a).clz) ∧
    Computes (.bitRev h d a) s h d [a] (fun x i => (x.read s i a).reverse)) ∧
  (wfBin d a b →
    (∀ ty, Computes (.bfx h ty d a b) s h d [a, b] (fun x i => fieldOf ty (x.read s i a) (x.read s i b))) ∧
    Computes (.bfi h d a b) s h d [a, b, d] (fun x i => fieldInto (x.read s i d) (x.read s i a) (x.read s i b)))

/-- R159, R163 to R167: the address sum, comparison, predicate logic, selection, moves of 32 and 64 bits, and `nop`. -/
def Obligations.CompareSelectMoveResults : Prop := ∀ (s : State) (h : Hdr) (d a b : Opd),
  (∀ sc, (Instr.lea h sc d a b).wf → Computes64 (.lea h sc d a b) s h d [a, b]
    (fun x i => x.read64 s i a + (x.read s i b).signExtend 64 <<< (match sc with
      | .x1 => 0
      | .x2 => 1
      | .x4 => 2
      | .x8 => 3))) ∧
  (∀ ty rel, (Instr.cmp h ty rel d a b).wf → Computes (.cmp h ty rel d a b) s h d [a, b] (fun x i =>
    let p := ityVal ty (x.read s i a)
    let q := ityVal ty (x.read s i b)
    wordOf (match rel with
      | .eq => decide (p = q)
      | .ne => decide (p ≠ q)
      | .lt => decide (p < q)
      | .le => decide (p ≤ q)
      | .gt => decide (p > q)
      | .ge => decide (p ≥ q)
      | _ => false))) ∧
  (∀ op c, (Instr.plog h op d a c).wf → ComputesAs (.plog h op d a c) s false (fun x => x.vmask h) d []
    (fun x i => wordOf (plogVal op (x.read s i a = 1#32) (match c with
      | some o => x.read s i o = 1#32
      | none => false))) (fun _ => s)) ∧
  (∀ neg prd, (Instr.sel h neg prd d a b).wf → Computes (.sel h neg prd d a b) s h d [a, b] (fun x i =>
    if x.g.pred prd i = neg then x.read s i b else x.read s i a)) ∧
  ((Instr.mov h .b32 d a).wf → Computes (.mov h .b32 d a) s h d [a] (fun x i => x.read s i a)) ∧
  ((Instr.mov h .b64 d a).wf → Computes64 (.mov h .b64 d a) s h d [a] (fun x i => x.read64 s i a)) ∧
  (∀ x, s.site? = some x → Completes (.nop h) s x (fun t g =>
    g = { x.g.setFrag (lowest x.f.mask) (x.after []) with
          block := none, recount := false, faultmask := if x.f.replay.isSome then 0#32 else x.g.faultmask } ∧
    OnlyGroup s t x.g.key))

/-- R168, R169, R171, R172: moves between threads, votes, `ballot`, `cmprs` and `expnd`. -/
def Obligations.AcrossThreadsResults : Prop := ∀ (s : State) (h : Hdr) (d a b : Opd),
  (∀ op, (Instr.xmov h op d a b).wf → ComputesAs (.xmov h op d a b) s d.isG (fun x => x.vmask h) d [a, b]
    (fun x i => x.read s (moveFrom op i (match b with
      | .ui v => if v.getLsbD 15 then 32 / 2 ^ (v.toNat % 16) else v.toNat
      | o => (x.read s i o).toNat)) a) (fun _ => s)) ∧
  (∀ n, (Instr.vote h .all d (.p n)).wf → Computes (.vote h .all d (.p n)) s h d [.p n]
    (fun x _ => wordOf (decide (∀ i ∈ lanes x.f.mask, x.g.pred n i)))) ∧
  (∀ n, (Instr.vote h .any d (.p n)).wf → Computes (.vote h .any d (.p n)) s h d [.p n]
    (fun x _ => wordOf (decide (∃ i ∈ lanes x.f.mask, x.g.pred n i)))) ∧
  (∀ n, (Instr.vote h .uni d (.p n)).wf → Computes (.vote h .uni d (.p n)) s h d [.p n]
    (fun x _ => wordOf (decide (∀ i ∈ lanes x.f.mask, ∀ j ∈ lanes x.f.mask, x.g.pred n i = x.g.pred n j)))) ∧
  (∀ n k, (Instr.ballot h d (.p n) k).wf → Computes (.ballot h d (.p n) k) s h d [.p n] (fun x _ =>
    let first := match k with
      | some (.ui v) => 32 * v.toNat
      | _ => 0
    maskOf (fun j => first == 0 && x.f.mask.getLsbD j && x.g.pred n j))) ∧
  ((Instr.cmprs h d a b).wf → ∀ x, s.site? = some x → Completes (.cmprs h d a b) s x (fun t g =>
    let e := lanes (x.vmask h)
    let sel := e.filter (fun i => x.read s i b = 1#32)
    (∀ k i j : Nat, e[k]? = some i → sel[k]? = some j → g.reg i d = x.read s j a) ∧
    (∀ i : Nat, i < 32 → (∀ k : Nat, k < sel.length → e[k]? ≠ some i) → g.reg i d = x.g.reg i d) ∧
    (∀ o i, i < 32 → o.isReg → o ≠ d → g.reg i o = x.g.reg i o) ∧
    Advanced x s (x.vmask h) [d] [a, b] g ∧ OnlyGroup s t x.g.key)) ∧
  ((Instr.expnd h d a b).wf → ∀ x, s.site? = some x → Completes (.expnd h d a b) s x (fun t g =>
    let e := lanes (x.vmask h)
    let sel := e.filter (fun i => x.read s i b = 1#32)
    (∀ k i j : Nat, sel[k]? = some i → e[k]? = some j → g.reg i d = x.read s j a) ∧
    (∀ i < 32, i ∉ sel → g.reg i d = x.g.reg i d) ∧
    (∀ o i, i < 32 → o.isReg → o ≠ d → g.reg i o = x.g.reg i o) ∧
    Advanced x s (x.vmask h) [d] [a, b] g ∧ OnlyGroup s t x.g.key))

/-- R170: `lsred` and `lscan`. The value is that of the tree, or of the prefix steps; over an empty mask a group register D
takes the empty result, except under the never guard. The events that count are those of every combination that the fixed order
makes, those at positions of inactive threads of `lscan` included: the model's choice (log entry 51). -/
def Obligations.ReduceAndScanResults : Prop := ∀ (s : State) (h : Hdr) (op : ScanOp) (m : FMod) (d a : Opd),
  let tree := fun (x : Site) => redTree op (scanEnv x op m) 5 (partsOf x s (x.vmask h) a)
  let scan := fun (x : Site) => scanSteps op (scanEnv x op m) 5 1 (partsOf x s (x.vmask h) a)
  let value := fun (x : Site) (p : Option Part) => match p with
    | some p => partResult op (scanEnv x op m) p
    | none => (scanEmpty op, Ev.zero)
  ((Instr.lsred h op m d a).wf → ComputesAs (.lsred h op m d a) s d.isG
    (fun x => if d.isG then (if neverGuard h then 0#32 else allThreads) else x.vmask h) d [a]
    (fun x _ => (value x (tree x).1).1)
    (fun x => s.count x.c.die x.ctx 0 (if x.vmask h = 0#32 then Ev.zero else (tree x).2.plus (value x (tree x).1).2))) ∧
  ((Instr.lscan h op m d a).wf → ComputesAs (.lscan h op m d a) s false (fun x => x.vmask h) d [a]
    (fun x i => (value x (((scan x).1[i]?).getD none)).1)
    (fun x => s.count x.c.die x.ctx 0
      ((scan x).2.plus (Ev.sum ((lanes (x.vmask h)).map (fun i => (value x (((scan x).1[i]?).getD none)).2)))))) ∧
  -- what the tree and the steps amount to for the operations of integers that are associative
  (∀ f, (op = .iadd ∧ f = (· + ·) ∨ op = .and ∧ f = (· &&& ·) ∨ op = .or ∧ f = (· ||| ·) ∨ op = .xor ∧ f = (· ^^^ ·)) →
    ∀ x : Site, (value x (tree x).1).1 = ((lanes (x.vmask h)).map (fun i => x.read s i a)).foldl f (scanEmpty op) ∧
      ∀ i, (x.vmask h).getLsbD i → (value x (((scan x).1[i]?).getD none)).1
        = (((lanes (x.vmask h)).filter (· ≤ i)).map (fun j => x.read s j a)).foldl f (scanEmpty op))

/-- R182 to R185, R188: floating arithmetic, element by element, under the mode of the word and of `sr.fpmode`; the events
count against tensor ID 0. R139 to R141: what `add`, `sub`, `mul`, `fma` and the division give of finite elements is their exact
result rounded once; of NaNs the first; of an invalid operation the canonical NaN. -/
def Obligations.FloatArithmeticResults : Prop := ∀ (s : State) (h : Hdr) (ty : FTy) (m : FMod) (d a b : Opd),
  let env := fun (x : Site) => FEnv.resolve x.g.fpmode m false
  let elem := fun (x : Site) i o k => ftyElem ty (x.readF s ty i o) k
  let two := fun (f : FFmt → FEnv → Nat → Nat → Nat × Ev) (x : Site) i =>
    perElem ty (fun k => f (ftyFmt ty) (env x) (elem x i a k) (elem x i b k))
  (wfFBin d a b →
    ComputesEv (.fadd h ty m d a b) s h d [a, b] (two FFmt.add) ∧
    ComputesEv (.fsub h ty m d a b) s h d [a, b] (two FFmt.sub) ∧
    ComputesEv (.fmul h ty m d a b) s h d [a, b] (two FFmt.mul) ∧
    ComputesEv (.fma h ty m d a b) s h d [a, b, d] (fun x i => perElem ty (fun k =>
      (ftyFmt ty).fma (env x) (elem x i a k) (elem x i b k) (ftyElem ty (x.read s i d) k))) ∧
    (ty = .f32 → ComputesEv (.fdiv h m d a b) s h d [a, b] (two (fun _ => fdiv32)))) ∧
  ((Instr.fmin h ty m d a b).wf →
    ComputesEv (.fmin h ty m d a b) s h d [a, b] (two (fun F v => F.pick v true)) ∧
    ComputesEv (.fmax h ty m d a b) s h d [a, b] (two (fun F v => F.pick v false))) ∧
  (wfFUn d a →
    Computes (.fabs h ty d a) s h d [a] (fun x i => (perElem ty (fun k =>
      (signOp (ftyFmt ty) false (ftyElem ty (x.read s i a) k), Ev.zero))).1) ∧
    Computes (.fneg h ty d a) s h d [a] (fun x i => (perElem ty (fun k =>
      (signOp (ftyFmt ty) true (ftyElem ty (x.read s i a) k), Ev.zero))).1)) ∧
  (∀ F ∈ [fp32, fp16, bf16], ∀ (v : FEnv) (p0 q0 r0 : Nat), v.rnd < 4 → p0 < 2 ^ F.w → q0 < 2 ^ F.w → r0 < 2 ^ F.w →
    let p := F.flush v p0
    let q := F.flush v q0
    let r := F.flush v r0
    let exact := fun (X : Int) (D : Nat) (n : Bool) (z : Nat × Ev) =>
      (X ≠ 0 → F.Rounds v X D z) ∧ (X = 0 → z = (F.sign n, Ev.zero))
    let zero := fun (n1 n2 : Bool) => if n1 = n2 then n1 else v.rnd == 3
    let nan := fun (y : Nat) => (if v.nanc then F.canon else F.quiet y, Ev.ofNan)
    let bad := (F.canon, Ev.ofNan)
    let neg := F.neg p != F.neg q
    (F.finite p → F.finite q →
      exact (F.units p + F.units q) 1 (zero (F.neg p) (F.neg q)) (F.add v p0 q0) ∧
      exact (F.units p - F.units q) 1 (zero (F.neg p) (!F.neg q)) (F.sub v p0 q0) ∧
      exact (F.units p * F.units q) (2 ^ 149) neg (F.mul v p0 q0) ∧
      (F.finite r → exact (F.units p * F.units q + 2 ^ 149 * F.units r) (2 ^ 149) (zero neg (F.neg r)) (F.fma v p0 q0 r0))) ∧
    (F.isNan p → F.add v p0 q0 = nan p ∧ F.sub v p0 q0 = nan p ∧ F.mul v p0 q0 = nan p ∧ F.fma v p0 q0 r0 = nan p) ∧
    (F.isNan p = false → F.isNan q →
      F.add v p0 q0 = nan q ∧ F.sub v p0 q0 = nan q ∧ F.mul v p0 q0 = nan q ∧ F.fma v p0 q0 r0 = nan q) ∧
    (F.isNan p = false → F.isNan q = false → F.isNan r → F.fma v p0 q0 r0 = nan r) ∧
    (∀ n, F.val p = .inf n → (F.val q = .inf (!n) → F.add v p0 q0 = bad) ∧ (F.val q = .inf n → F.sub v p0 q0 = bad)) ∧
    ((F.val p = .inf (F.neg p) ∧ F.finite q ∧ F.units q = 0) ∨ (F.val q = .inf (F.neg q) ∧ F.finite p ∧ F.units p = 0) →
      F.mul v p0 q0 = bad ∧ (F.isNan r = false → F.fma v p0 q0 r0 = bad)) ∧
    (F.val p = .inf (F.neg p) → (F.finite q ∧ F.units q ≠ 0) ∨ F.val q = .inf (F.neg q) →
      F.mul v p0 q0 = (F.infBits neg, Ev.zero) ∧ (F.val r = .inf (!neg) → F.fma v p0 q0 r0 = bad)) ∧
    (F = fp32 → F.finite p → F.finite q →
      (F.units q ≠ 0 → exact (F.units p * 2 ^ 149 * (F.units q).sign) (F.units q).natAbs neg (fdiv32 v p0 q0)) ∧
      (F.units q = 0 → fdiv32 v p0 q0 = if F.units p = 0 then bad else (F.infBits neg, Ev.zero))))

/-- R188 to R191: the functions of one FP32 value; `rsqrt` rounds to nearest-even in every mode. The roots are those of the
exact value, rounded once; a negative value gives the canonical NaN. -/
def Obligations.FloatFunctionResults : Prop := ∀ (s : State) (h : Hdr) (m : FMod) (d a b : Opd),
  let one := fun (f : FEnv → Nat → Nat × Ev) (x : Site) i =>
    ((BitVec.ofNat 32 (f (FEnv.resolve x.g.fpmode m false) (x.read s i a).toNat).1 : Word),
      (f (FEnv.resolve x.g.fpmode m false) (x.read s i a).toNat).2)
  (wfFUn d a →
    ComputesEv (.sqrt h m d a) s h d [a] (one fsqrt32) ∧
    ComputesEv (.rcp h m d a) s h d [a] (one frcp32) ∧
    (m.nf → ComputesEv (.rsqrt h m d a) s h d [a] (one (fun v => frsqrt32 { v with rnd := 0 })) ∧
      ComputesEv (.exp2 h m d a) s h d [a] (one fexp2) ∧
      ComputesEv (.log2 h m d a) s h d [a] (one flog2) ∧
      ComputesEv (.sin h m d a) s h d [a] (one fsin) ∧
      ComputesEv (.cos h m d a) s h d [a] (one fcos) ∧
      ComputesEv (.tanh h m d a) s h d [a] (one ftanh)) ∧
    (m.sat = false → ComputesEv (.frnd h m d a) s h d [a] (one frnd32))) ∧
  ((Instr.scl h m d a b).wf → ComputesEv (.scl h m d a b) s h d [a, b] (fun x i =>
    one (fun v p => fscl32 v p (x.read s i b).toInt) x i)) ∧
  (∀ (v : FEnv) (p0 : Nat), v.rnd < 4 → p0 < 2 ^ 32 →
    let p := fp32.flush v p0
    let n := (fp32.units p).toNat
    (fp32.finite p → 0 < fp32.units p →
      (∃ k, fsqrt32 v p0 = (k, Ev.zero) ∧ RootRounded v.rnd (n * 2 ^ 149) 1 k) ∧
      ∃ k, frsqrt32 { v with rnd := 0 } p0 = (k, Ev.zero) ∧ RootRounded 0 (2 ^ 447) n k) ∧
    (fp32.finite p ∧ fp32.units p < 0 ∨ fp32.val p = .inf true →
      fsqrt32 v p0 = (fp32.canon, Ev.ofNan) ∧ frsqrt32 { v with rnd := 0 } p0 = (fp32.canon, Ev.ofNan)))

/-- R186, R187, R193, R194: comparison and class tests of floating values, and conversions. R142 to R144: what a conversion
gives of an exact value, of a NaN and of an infinity, and of integers. That an integer beyond the largest FP16 value overflows there
and counts SAT, as R139 has it of every value, where R144 says that a large integer overflows only into E4M3 and E5M2, is the
model's reading (log entry 51). -/
def Obligations.FloatTestAndConversionResults : Prop := ∀ (s : State) (h : Hdr) (d a b : Opd),
  (∀ ty rel, (Instr.fcmp h ty rel d a b).wf → Computes (.fcmp h ty rel d a b) s h d [a, b] (fun x i =>
    let wa := x.readF s ty i a
    let wb := x.readF s ty i b
    let holds := fun k => relFloat rel ((ftyFmt ty).cmp? (FEnv.ofMode x.g.fpmode) (ftyElem ty wa k) (ftyElem ty wb k))
    wordOf (if ty = .f32 then holds 0 else holds 0 && holds 1))) ∧
  ((Instr.fcls h d a b).wf → Computes (.fcls h d a b) s h d [a, b] (fun x i =>
    wordOf ((x.read s i b).toNat / 2 ^ fclass (x.read s i a).toNat % 2 == 1))) ∧
  (∀ dst src m ovn, (Instr.cvt h dst src m ovn d a).wf → ComputesEv (.cvt h dst src m ovn d a) s h d [a] (fun x i =>
    convert dst src (FEnv.resolve x.g.fpmode m ovn) (x.read s i a))) ∧
  (∀ bf m ovn, (Instr.cvt2 h bf m ovn d a b).wf → ComputesEv (.cvt2 h bf m ovn d a b) s h d [a, b] (fun x i =>
    let half := fun o => convert (if bf then .bf16 else .f16) .f32 (FEnv.resolve x.g.fpmode m false) (x.read s i o)
    ((half b).1 <<< 16 ||| (half a).1, (half a).2.plus (half b).2))) ∧
  (∀ F ∈ [fp32, fp16, bf16, e4m3, e5m2], ∀ (v : FEnv) (p0 : Nat), v.rnd < 4 → p0 < 2 ^ F.w →
    let p := F.flush v p0
    (∀ G ∈ [fp32, fp16, bf16, e4m3, e5m2],
      let r := cvtFF F G v p0
      (F.finite p → (F.units p ≠ 0 → G.Rounds v (F.units p) 1 r) ∧ (F.units p = 0 → r = (G.sign (F.neg p), Ev.zero))) ∧
      (F.isNan p → r.2 = Ev.ofNan ∧ G.isNan r.1 ∧ (v.nanc → r.1 = G.canon) ∧ (v.nanc = false → G.neg r.1 = F.neg p ∧
        (G.inf → r.1.testBit (G.mw - 1) ∧
          ∀ i, 1 ≤ i → i < G.mw → r.1.testBit (G.mw - 1 - i) = (decide (i < F.mw) && p.testBit (F.mw - 1 - i))))) ∧
      (∀ n, F.val p = .inf n → (G.inf → r = (G.infBits n, Ev.zero)) ∧
        (G.inf = false → v.ovn = false → r = (G.sign n + G.maxBits, Ev.ofSat)) ∧
        (G.inf = false → v.ovn → r = (if v.nanc then G.canon else G.infBits n, Ev.ofSat.plus Ev.ofNan)))) ∧
    (∀ lo hi : Int,
      (F.finite p → ∃ z, IntRounded v.rnd (F.units p) z ∧
        cvtFI F v lo hi p0 = if z < lo then (lo, Ev.ofSat) else if hi < z then (hi, Ev.ofSat) else (z, Ev.zero)) ∧
      (F.isNan p → cvtFI F v lo hi p0 = (0, Ev.ofInv)) ∧
      (∀ n, F.val p = .inf n → cvtFI F v lo hi p0 = (if n then lo else hi, Ev.ofSat))) ∧
    (∀ z : Int, (z ≠ 0 → F.Rounds v (z * 2 ^ 149) 1 (cvtIF F v z)) ∧ cvtIF F v 0 = (0, Ev.zero)))

/-! ## Decoding of streams, sampling, lattices -/

/-- R195 to R197, R356, R357: `decv` gives each thread the running value after its delta, and moves on past the payload; a
reserved width writes all ones to A and counts INV; a byte outside the crew's window traps with 0x12, a poisoned one with 0x14
(R421). `rngc` mixes seed and counter; `gumbel` adds its noise to the logit. -/
def Obligations.StreamDecodeAndSampling : Prop := ∀ (s : State) (h : Hdr) (d a b : Opd),
  ((Instr.decv h d a).wf → ∀ x, s.site? = some x → x.vmask h ≠ 0#32 →
    let p := (x.g.reg 0 a).toNat
    let run := x.g.reg 0 (opdNext a)
    let byte := fun k => scrByte x.c x.g (p + k)
    let w := (byte 0).toNat
    let delta := fun j => unzig (leNat ((List.range (4 * w)).map (fun k => byte (1 + k))) / 2 ^ (w * j) % 2 ^ w)
    let after := fun j => run + BitVec.ofInt 32 (((List.range (j + 1)).map delta).sum)
    let poisoned := fun k n => s.scrPoison x.c.id (p + k) n
    (x.inWindow p 1 = false → Traps (.decv h d a) s x 0x12#8) ∧
    (x.inWindow p 1 → poisoned 0 1 → Traps (.decv h d a) s x 0x14#8) ∧
    (x.inWindow p 1 → poisoned 0 1 = false → w ≤ 16 → s.scrOpen x.c.id p = false →
      ((∃ k < 4 * w, x.inWindow (p + 1 + k) 1 = false) → Traps (.decv h d a) s x 0x12#8) ∧
      ((∀ k < 4 * w, x.inWindow (p + 1 + k) 1) → poisoned 1 (4 * w) → Traps (.decv h d a) s x 0x14#8)) ∧
    ((∀ k ≤ 4 * w, x.inWindow (p + k) 1 ∧ s.scrOpen x.c.id (p + k) = false) → poisoned 0 1 = false → poisoned 1 (4 * w) = false →
      w ≤ 16 → Completes (.decv h d a) s x (fun t g =>
      (∀ i < 32, g.reg i d = if (x.vmask h).getLsbD i then after i else x.g.reg i d) ∧
      g.reg 0 a = BitVec.ofNat 32 (p + 1 + 4 * w) ∧ g.reg 0 (opdNext a) = after 31 ∧
      (∀ o i, i < 32 → o.isReg → o ∉ [d, a, opdNext a] → g.reg i o = x.g.reg i o) ∧
      Advanced x s (x.vmask h) [d] [] g ∧ OnlyGroup s t x.g.key)) ∧
    (x.inWindow p 1 → s.scrOpen x.c.id p = false → poisoned 0 1 = false → 16 < w → Completes (.decv h d a) s x (fun t g =>
      g.reg 0 a = 0xFFFFFFFF#32 ∧ (∀ o i, i < 32 → o.isReg → o ≠ a → g.reg i o = x.g.reg i o) ∧
      Advanced x s (x.vmask h) [d] [] g ∧ OnlyGroup (s.count x.c.die x.ctx 0 Ev.ofInv) t x.g.key))) ∧
  ((Instr.rngc h d a b).wf → Computes (.rngc h d a b) s h d [a, b] (fun x i =>
    let mix := fun (y m : BitVec 64) (k : Nat) => y * m ^^^ (y * m) >>> k
    let y := x.read64 s i a + (x.read s i b).setWidth 64 * 0x9E3779B97F4A7C15#64
    (mix (mix (mix (mix y 0xD6E8FEB86659FD93#64 31) 0xA5CB3F1D2C8E46B7#64 29) 0xC3A5C85C97CB3127#64 30)
      0x8CB92BA72F3D8DD7#64 33).extractLsb' 32 32)) ∧
  ((Instr.gumbel h d a b).wf → ComputesEv (.gumbel h d a b) s h d [a, b] (fun x i =>
    (BitVec.ofNat 32 (gumbelVal (x.read s i a).toNat (x.read s i b).toNat).1,
      (gumbelVal (x.read s i a).toNat (x.read s i b).toNat).2)))

/-- R358 to R364: the lattice instructions. `latexp` writes the rows of the paths that the depth admits, as many as the
block allows, and D counts them all; `accept` answers 3 to 5 with nothing changed, or decides the test; a bad lattice traps.
An accepted node is marked and becomes the last one, a rejected one only marked. -/
def Obligations.LatticeInstructions : Prop := ∀ (s : State) (h : Hdr) (d a : Opd) (x : Site), s.site? = some x →
  x.umask h ≠ 0#32 →
  let blk := fun k => (x.g.greg (opdGno a + k)).toNat
  (∀ t, s.lattice x (blk 0) = .error (.trap t) →
    Traps (.latexp h d a) s x t.cause ∧ Traps (.accept h d a) s x t.cause ∧ t.cause ∈ [0x12#8, 0x13#8, 0x38#8]) ∧
  (∀ c va, s.lattice x (blk 0) = .error (.acc c va) → c = 0x14#8 ∧
    let met := s.conclude x [(lowest (x.umask h), c, va)] [d]
    exec (.latexp h d a) s = .next met ∧ exec (.accept h d a) s = .next met) ∧
  (∀ q, s.lattice x (blk 0) = .ok q → blk 2 ≤ 256 → blk 3 = 0 → blk 1 % 4 = 0 → x.inWindow (blk 1) (16 * blk 2) →
    let w := latticeRows q (s.depth x.ctx)
    (w.full → Traps (.latexp h d a) s x 0x38#8) ∧
    (w.full = false → Ends (.latexp h d a) s x
      ((s.scrWrite x.c.id x.g.gid (blk 1) ((w.rows.take (blk 2)).flatMap (leBytes 16))).result x d
        (BitVec.ofNat 32 w.rows.length)) [d])) ∧
  (∀ q rp rq, s.lattice x (blk 0) = .ok q → blk 1 < q.nodes.length → 1 ≤ blk 3 → blk 3 ≤ 2 ^ 24 → blk 4 < 2 ^ 16 →
    blk 7 = 0 → x.probRec (blk 4 % 256) [.f32] = .ok rp → x.probRec (blk 4 / 256) [.f32, .f16, .bf16] = .ok rq →
    let n := q.node (blk 1)
    let first := q.cand (blk 1) ∧ ∀ k < blk 1, q.cand k = false
    let ends := fun (t : State) (k : Nat) => Ends (.accept h d a) s x (t.result x d (BitVec.ofNat 32 k)) [d]
    (s.depth x.ctx < n.depth → ends s 3) ∧
    (n.depth ≤ s.depth x.ctx → q.cand (blk 1) = false → ends s 4) ∧
    (n.depth ≤ s.depth x.ctx → q.cand (blk 1) → ¬ first → ends s 5) ∧
    (∀ pr r, n.depth ≤ s.depth x.ctx → first → n.tok < blk 3 →
      (List.range (blk 3)).foldlM (x.probAt rp rq (blk 4 % 256) (blk 4 / 256) (blk 5) (blk 6)) ⟨s, [], [], 0, 0⟩ = .ok pr →
      s.acceptTest x q (blk 1) (blk 2) (blk 3) rp rq (blk 4 % 256) (blk 5) pr = .ok r → ends r.1 r.2 ∧
      (r.2 = 1 ↔ (2 * (blk 2 / 256) + 1) * (pr.q.reverse[n.tok]?).getD 0 < (pr.p.reverse[n.tok]?).getD 0 * 2 ^ 25) ∧
      r.2 ∈ [0, 1, 2])) ∧
  (∀ q k ok, q.at_ + 32 + 16 * (k + 1) ≤ 0x30000000 → k < 64 → s.crew? x.c.id = some x.c →
    s.group? (x.c.id * 32 + x.g.gid) = some x.g →
    let t := s.mark x q k ok
    ∃ c, t.crew? x.c.id = some c ∧ t.mem = s.mem ∧ t.groups = s.groups ∧
      (c.scr.get (q.at_ + 32 + 16 * k)).toNat % 4 = (if ok then 1 else 2) ∧
      (c.scr.get (q.at_ + 32 + 16 * k)).toNat / 4 = (x.c.scr.get (q.at_ + 32 + 16 * k)).toNat / 4 ∧
      (ok → (c.scr.get (q.at_ + 1)).toNat = k) ∧ (ok = false → c.scr.get (q.at_ + 1) = x.c.scr.get (q.at_ + 1)) ∧
      (∀ m, m ≠ q.at_ + 1 → m ≠ q.at_ + 32 + 16 * k → (m < q.at_ + 16 ∨ q.at_ + 24 ≤ m) → c.scr.get m = x.c.scr.get m))

/-! ## Memory -/

/-- What each thread of a memory instruction does: its access, with the address and the data that the operands give; a granule
that the threads of one store cover between them loses its poison (R421). R239, R241, R242: where the element of a record lies,
what a load makes of its code and its scale, and what a store writes: its own bits, and no others. That an FP32 element is
converted like any other, from FP32 to FP32, so that a signalling NaN becomes quiet and counts NAN, is the model's reading (log
entry 15); that the page of a scale is not compared with the record's class is its choice (log entry 60). -/
def Obligations.MemoryAccesses : Prop :=
  (∀ (s : State) (h : Hdr) (d a b : Opd),
    (∀ w, AccessEnds (.ld h w d a b) s h [d, a, b] (.late d (w == .b64)) 0 (fun x s1 i =>
      (x.loadAt s1 (x.addr s i a b) (ldBytes w) (w == .b32 || w == .b64)).map (ldExtend w))) ∧
    (∀ w, AccessEnds (.st h w d a b) s h [d, a, b] .none 0 (fun x s1 i =>
      x.storeAt s1 (x.addr s i a b) (stBytes w) (x.data s w i d) (w == .b32 || w == .b64))
      (fun x is t => t.coverMem (x.buf s) x.ctx (is.map (fun i => (x.addr s i a b, stBytes w))))) ∧
    (∀ w, AccessEnds (.lds h w d a b) s h [d, a, b] (.now d (w == .b64)) 0 (fun x s1 i =>
      (x.ldsAt s1 (x.saddr s i a b) (ldBytes w)).map (ldExtend w))) ∧
    (∀ w, AccessEnds (.sts h w d a b) s h [d, a, b] .none 0 (fun x s1 i =>
      x.stsAt s1 (x.saddr s i a b) (stBytes w) (x.data s w i d))
      (fun x is t => t.coverScr x.c.id (is.map (fun i => (x.saddr s i a b, stBytes w))))) ∧
    (∀ op, AccessEnds (.atom h op d a b) s h [d, a, b] (.late d (op == .pmax)) 0 (fun x s1 i =>
      x.atomAt s1 op (FEnv.ofMode x.g.fpmode) i (x.read64 s i a).toNat (x.atomB s op i b).1 (x.atomB s op i b).2)) ∧
    (∀ op, AccessEnds (.atoms h op d a b) s h [d, a, b] (.now d (op == .pmax)) 0 (fun x s1 i =>
      x.atomsAt s1 op i (x.read s i a).toNat (x.atomB s op i b).1 (x.atomB s op i b).2)) ∧
    (∀ op rnd ftz, AccessEnds (.red h op rnd ftz a b) s h [a, b] .none 0 (fun x s1 i =>
      x.atomAt s1 op (redEnv op rnd ftz x.g.fpmode) i (x.read64 s i a).toNat (x.atomB s op i b).1 (x.atomB s op i b).2)) ∧
    (∀ n r, (∀ x, s.site? = some x → x.record? n.toNat = some r ∧ recOk r false false) →
      AccessEnds (.ldr h d (.rc n) b) s h [d, .rc n, b] (.late d false) (recTensor r) (fun x s1 i =>
        x.elemLoadAt s1 r n.toNat (x.read s i b).toNat)) ∧
    (∀ n r enc, encOf (recEnc r) = some enc → (∀ x, s.site? = some x → x.record? n.toNat = some r ∧ recOk r true false) →
      AccessEnds (.str h d (.rc n) b) s h [d, .rc n, b] .none (recTensor r) (fun x s1 i =>
        x.codeStoreAt s1 r n.toNat (x.read s i b).toNat (elemStore enc (x.read s i d)).1 (elemStore enc (x.read s i d)).2)
        (fun x is t => t.coverMem (x.buf s) x.ctx (elemBytesIn r (is.map (fun i => (x.read s i b).toNat)))))) ∧
  -- the place of element e, and the accesses of a COH page
  (∀ (x : Site) (s : State) (r : Rec) (idx e : Nat) (enc : Enc), encOf (recEnc r) = some enc →
    let w := encBits enc
    let row := if recCols r = 0 then 0 else e / recCols r
    let lin := if recCols r = 0 then e * w else row * recStride r * 8 + e % recCols r * w
    let off := if recIlv r = 1 then (lin / 8 ^^^ row % 8 * 16) * 8 else lin
    let n := (off % 8 + w + 7) / 8
    let req := fun wr => Req.mk x.ctx (recBase r + off / 8) n wr false false (some (recClass r))
    (recExtent r * 8 < lin + w →
      (∃ va, x.elemLoadAt s r idx e = .bad 0x11#8 va) ∧ ∀ code ev, ∃ va, x.codeStoreAt s r idx e code ev = .bad 0x11#8 va) ∧
    (lin + w ≤ recExtent r * 8 → ∀ keys, s.check (x.buf s) (req false) = .ok 0 keys →
      (∀ i < n, keys[i]? = keyOf s x.ctx (recBase r + off / 8 + i)) ∧
      let raw := leNat (keys.map (memGet s.mem)) / 2 ^ (off % 8) % 2 ^ w
      let gives := fun code => Machine.Acc.ok s ((elemLoad enc (recSmode r) raw code).1.setWidth 64) (elemLoad enc (recSmode r) raw code).2
      (recSmode r = 0 → x.elemLoadAt s r idx e = gives 0) ∧
      (∀ ks, recSmode r = 1 → s.check (x.buf s) ⟨x.ctx, recScale r + e / 2 ^ recGsize r, 1, false, false, false, none⟩ = .ok 0 ks →
        x.elemLoadAt s r idx e = gives (leNat (ks.map (memGet s.mem)))) ∧
      (∀ ks, recSmode r = 2 → recScale r % 4 = 0 →
        s.check (x.buf s) ⟨x.ctx, recScale r + 4 * (e / 2 ^ recGsize r), 4, false, false, false, none⟩ = .ok 0 ks →
        x.elemLoadAt s r idx e = gives (leNat (ks.map (memGet s.mem))))) ∧
    (lin + w ≤ recExtent r * 8 → ∀ keys code ev, s.check (x.buf s) (req true) = .ok 0 keys → keys.Nodup →
      ∃ t, x.codeStoreAt s r idx e code ev = .ok t 0#64 ev ∧
        (∀ i < n, ∀ k, keys[i]? = some k → ∀ j < 8, (memGet t.mem k).getLsbD j =
          if off % 8 ≤ 8 * i + j ∧ 8 * i + j < off % 8 + w then code.testBit (8 * i + j - off % 8) else (memGet s.mem k).getLsbD j) ∧
        (∀ k, k ∉ keys → memGet t.mem k = memGet s.mem k) ∧ t.bufs = s.bufs ∧ t.dev = s.dev ∧ t.groups = s.groups)) ∧
  -- the value of a code, with and without a factor
  (∀ (enc : Enc) (raw code : Nat), raw < 2 ^ encBits enc → code < 2 ^ 32 →
    let z : Int := if enc ∈ [Enc.s8, .s4, .s32] then sextNat raw (encBits enc)
      else if enc = .tern then (if raw = 1 then 1 else if raw = 3 then -1 else 0) else raw
    let exact : Option Int := match encFloat enc with
      | some F => if F.finite raw then some (F.units raw) else none
      | none => some (z * 2 ^ 149)
    let g := sextNat code 8
    (∀ F, encFloat enc = some F → elemLoad enc 0 raw 0 = (BitVec.ofNat 32 (cvtFF F fp32 FEnv.unit raw).1, (cvtFF F fp32 FEnv.unit raw).2)) ∧
    (encFloat enc = none → ¬ (enc = .tern ∧ raw = 2) → elemLoad enc 0 raw 0 = (BitVec.ofInt 32 z, Ev.zero)) ∧
    (∀ m ∈ [0, 1, 2], enc = .tern → raw = 2 → elemLoad enc m raw code = (if m = 0 then 0#32 else 0x7FC00000#32, Ev.ofInv)) ∧
    (encCode enc = false → ¬ (enc = .tern ∧ raw = 2) → ∀ X, exact = some X → X ≠ 0 →
      (∃ q, fp32.Rounds FEnv.unit (X * 2 ^ g.toNat) (2 ^ (-g).toNat) q ∧ elemLoad enc 1 raw code = (BitVec.ofNat 32 q.1, q.2)) ∧
      (fp32.finite code → fp32.units code ≠ 0 →
        ∃ q, fp32.Rounds FEnv.unit (X * fp32.units code) (2 ^ 149) q ∧ elemLoad enc 2 raw code = (BitVec.ofNat 32 q.1, q.2)) ∧
      (fp32.isNan code → elemLoad enc 2 raw code = (BitVec.ofNat 32 (fp32.quiet code), Ev.ofNan)))) ∧
  (∀ (enc : Enc) (v : Word),
    let z : Int := if enc = .n6 then v.toNat else v.toInt
    let lo : Int := if enc = .s8 then -128 else if enc = .s4 then -8 else 0
    let hi : Int := if enc = .s8 then 127 else if enc = .s4 then 7 else 63
    (∀ F, encFloat enc = some F → elemStore enc v = cvtFF fp32 F FEnv.unit v.toNat) ∧
    (enc ∈ [Enc.s8, .s4, .n6] → elemStore enc v =
      ((max lo (min hi z) % 2 ^ encBits enc).toNat, if lo ≤ z ∧ z ≤ hi then Ev.zero else Ev.ofSat)) ∧
    (enc ∈ [Enc.s32, .n32] → elemStore enc v = (v.toNat, Ev.zero)))

/-- R236, R387, R389: the group of a faulting memory instruction is parked when every cause is 0x10 and stops otherwise, at its
word; the threads that do not fault have taken their accesses, and beyond that only the fault record is written, where
`State.writeRecord` puts it. A bad record takes trap 0x30 before any thread accesses memory (R235). An access of a page on the move
makes no step (R237), nor does an atomic of a replayed launch that comes before its turn; the threads whose turn has come apply
(R424). -/
def Obligations.MemoryFaults : Prop := ∀ (s : State) (h : Hdr) (d a b : Opd),
  (∀ w, AccessFaults (.ld h w d a b) s h [d, a, b] (.late d (w == .b64)) 0 (fun x s1 i =>
    (x.loadAt s1 (x.addr s i a b) (ldBytes w) (w == .b32 || w == .b64)).map (ldExtend w))) ∧
  (∀ w, AccessFaults (.st h w d a b) s h [d, a, b] .none 0 (fun x s1 i =>
    x.storeAt s1 (x.addr s i a b) (stBytes w) (x.data s w i d) (w == .b32 || w == .b64))
    (fun x is t => t.coverMem (x.buf s) x.ctx (is.map (fun i => (x.addr s i a b, stBytes w))))) ∧
  (∀ w, AccessFaults (.lds h w d a b) s h [d, a, b] (.now d (w == .b64)) 0 (fun x s1 i =>
    (x.ldsAt s1 (x.saddr s i a b) (ldBytes w)).map (ldExtend w))) ∧
  (∀ w, AccessFaults (.sts h w d a b) s h [d, a, b] .none 0 (fun x s1 i =>
    x.stsAt s1 (x.saddr s i a b) (stBytes w) (x.data s w i d))
    (fun x is t => t.coverScr x.c.id (is.map (fun i => (x.saddr s i a b, stBytes w))))) ∧
  (∀ op, AccessFaults (.atom h op d a b) s h [d, a, b] (.late d (op == .pmax)) 0 (fun x s1 i =>
    x.atomAt s1 op (FEnv.ofMode x.g.fpmode) i (x.read64 s i a).toNat (x.atomB s op i b).1 (x.atomB s op i b).2)) ∧
  (∀ op, AccessFaults (.atoms h op d a b) s h [d, a, b] (.now d (op == .pmax)) 0 (fun x s1 i =>
    x.atomsAt s1 op i (x.read s i a).toNat (x.atomB s op i b).1 (x.atomB s op i b).2)) ∧
  (∀ op rnd ftz, AccessFaults (.red h op rnd ftz a b) s h [a, b] .none 0 (fun x s1 i =>
    x.atomAt s1 op (redEnv op rnd ftz x.g.fpmode) i (x.read64 s i a).toNat (x.atomB s op i b).1 (x.atomB s op i b).2)) ∧
  (∀ n r, (∀ x, s.site? = some x → x.record? n.toNat = some r ∧ recOk r false false) →
    AccessFaults (.ldr h d (.rc n) b) s h [d, .rc n, b] (.late d false) (recTensor r) (fun x s1 i =>
      x.elemLoadAt s1 r n.toNat (x.read s i b).toNat)) ∧
  (∀ n r enc, encOf (recEnc r) = some enc → (∀ x, s.site? = some x → x.record? n.toNat = some r ∧ recOk r true false) →
    AccessFaults (.str h d (.rc n) b) s h [d, .rc n, b] .none (recTensor r) (fun x s1 i =>
      x.codeStoreAt s1 r n.toNat (x.read s i b).toNat (elemStore enc (x.read s i d)).1 (elemStore enc (x.read s i d)).2)
      (fun x is t => t.coverMem (x.buf s) x.ctx (elemBytesIn r (is.map (fun i => (x.read s i b).toNat))))) ∧
  (∀ n x (dest : Bool), s.site? = some x →
    (∀ r, x.record? n.toNat = some r → x.emask h [d, .rc n, b] ≠ 0#32 ∧ recOk r dest false = false) →
    let i := if dest then Instr.str h d (.rc n) b else .ldr h d (.rc n) b
    ∃ t g, exec i s = .next t ∧ t.group? x.g.key = some g ∧
      g.stat = .stopped (lowest x.f.mask) x.f.pc s.word ∧ g.v = x.g.v ∧ g.g = x.g.g ∧ g.p = x.g.p ∧ g.t = x.g.t ∧
      t.bufs = s.bufs ∧ t.dev = s.dev ∧ t.stats = s.stats ∧
      t.mem = (s.writeRecord x.c.die (x.record s (Trap.one 0x30#8 n.toNat) 0 0#32)).mem ∧
      (∀ k, (t.crew? k).map Crew.bare = (s.crew? k).map Crew.bare) ∧ ∀ k, k ≠ x.g.key → t.group? k = s.group? k) ∧
  (∀ op x, s.site? = some x →
    let w := memRun s x h [d, a, b] (.late d (op == .pmax)) (fun x s1 i =>
      x.atomAt s1 op (FEnv.ofMode x.g.fpmode) i (x.read64 s i a).toNat (x.atomB s op i b).1 (x.atomB s op i b).2)
    (w.held ∨ (w.late ≠ [] ∧ w.vals = [] ∧ w.bads = []) → exec (.atom h op d a b) s = .next s) ∧
    (w.held = false → w.late ≠ [] → w.vals ≠ [] → w.bads = [] → ∃ t g, exec (.atom h op d a b) s = .next t ∧
      t.group? x.g.key = some g ∧ g.stat = x.g.stat ∧
      ∀ f ∈ g.frags, lowest f.mask = lowest x.f.mask → f.pc = x.f.pc ∧ f.early ∧ f.owes = dstOf (some d) (op == .pmax) ∧
        f.replay = some (maskOf (fun i => w.late.contains i))))

/-- R206, R207, R243: one direct access. A misaligned one meets cause 0x13 and takes no step. In a COH page a load reads
the bytes of memory at the translated address, as the last store in the machine's order of steps left them (log entry 49), and
a store changes exactly those bytes. That a DEV page's register keeps what is written to it and reads as that is the model's
choice (log entry 3). -/
def Obligations.DirectAccess : Prop := ∀ (x : Site) (s : State) (a n val : Nat) (dev : Bool), n ∈ [1, 2, 4, 8] →
  (a % n ≠ 0 → x.loadAt s a n dev = .bad 0x13#8 a ∧ x.storeAt s a n val dev = .bad 0x13#8 a) ∧
  (∀ wr c, a % n = 0 → s.check (x.buf s) ⟨x.ctx, a, n, wr, false, dev, none⟩ = .cause c →
    if wr then x.storeAt s a n val dev = .bad c a else x.loadAt s a n dev = .bad c a) ∧
  (∀ keys, a % n = 0 → s.check (x.buf s) ⟨x.ctx, a, n, false, false, dev, none⟩ = .ok 0 keys →
    x.loadAt s a n dev = .ok s (BitVec.ofNat 64 (leNat (keys.map (memGet s.mem)))) Ev.zero ∧
    (∀ i < n, keys[i]? = keyOf s x.ctx (a + i))) ∧
  (∀ keys, a % n = 0 → s.check (x.buf s) ⟨x.ctx, a, n, false, false, dev, none⟩ = .ok 2 keys →
    x.loadAt s a n dev = .ok s (BitVec.ofNat 64 (leNat (keys.map (memGet s.dev)))) Ev.zero) ∧
  (∀ keys, a % n = 0 → s.check (x.buf s) ⟨x.ctx, a, n, true, false, dev, none⟩ = .ok 0 keys →
    ∃ t, x.storeAt s a n val dev = .ok t 0#64 Ev.zero ∧ (∀ i < n, keys[i]? = keyOf s x.ctx (a + i)) ∧
      (∀ i < n, ∀ k, keys[i]? = some k → memGet t.mem k = BitVec.ofNat 8 (val / 256 ^ i)) ∧
      (∀ k, k ∉ keys → memGet t.mem k = memGet s.mem k) ∧
      t.bufs = s.bufs ∧ t.dev = s.dev ∧ t.groups = s.groups ∧ t.crews.map Crew.bare = s.crews.map Crew.bare ∧
      t.tiles = s.tiles) ∧
  (∀ keys, a % n = 0 → s.check (x.buf s) ⟨x.ctx, a, n, true, false, dev, none⟩ = .ok 2 keys →
    ∃ t, x.storeAt s a n val dev = .ok t 0#64 Ev.zero ∧ t.mem = s.mem ∧ t.bufs = s.bufs ∧
      (∀ i < n, ∀ k, keys[i]? = some k → memGet t.dev k = BitVec.ofNat 8 (val / 256 ^ i)) ∧
      (∀ k, k ∉ keys → memGet t.dev k = memGet s.dev k))

/-- R205, R210: one direct access to a STR page, in the thread's own buffer. A load reads the copy there, after a fill from
the die's buffer or memory if it holds none; a store changes that copy, and neither changes memory. -/
def Obligations.StreamedAccess : Prop := ∀ (x : Site) (s : State) (a n val : Nat) (dev : Bool), n ∈ [1, 2, 4, 8] → a % n = 0 →
  let b := x.buf s
  let home := fun (t : State) i => (t.line? b x.ctx (a / 128)).map (fun l => lineByte l.value ((a + i) % 128))
  let copy := fun i => match s.line? b x.ctx (a / 128), s.line? (.die (dieOfBuf b)) x.ctx (a / 128) with
    | some l, _ => some (lineByte l.value ((a + i) % 128))
    | none, some l => some (lineByte l.value ((a + i) % 128))
    | none, none => (keyOf s x.ctx (a + i)).map (memGet s.mem)
  (∀ keys, s.check b ⟨x.ctx, a, n, false, false, dev, none⟩ = .ok 1 keys →
    ∃ t v, x.loadAt s a n dev = .ok t v Ev.zero ∧ t.mem = s.mem ∧ t.dev = s.dev ∧
      (∀ i < n, copy i = some (v.extractLsb' (8 * i) 8)) ∧ (∀ i < n, home t i = copy i)) ∧
  (∀ keys, s.check b ⟨x.ctx, a, n, true, false, dev, none⟩ = .ok 1 keys →
    ∃ t, x.storeAt s a n val dev = .ok t 0#64 Ev.zero ∧ t.mem = s.mem ∧ t.dev = s.dev ∧
      (∀ i < n, home t i = some (BitVec.ofNat 8 (val / 256 ^ i))) ∧
      (∀ l, t.line? b x.ctx (a / 128) = some l → ∀ i < n, l.dirty.getLsbD ((a + i) % 128)) ∧
      (∀ b' c l, (b', c, l) ≠ (b, x.ctx, a / 128) → t.line? b' c l = s.line? b' c l))

/-- R35, R36, R215, R244, R421: one access to the crew's space. A load of a poisoned granule meets cause 0x14. A store changes exactly its bytes: of the scratchpad or the
arrival words, or, in the group's own window, of its vector registers. -/
def Obligations.ScratchpadAccess : Prop := ∀ (x : Site) (s : State) (a n val : Nat), n ∈ [1, 2, 4, 8] →
  s.crew? x.c.id = some x.c → s.group? (x.c.id * 32 + x.g.gid) = some x.g →
  (a % n ≠ 0 → x.ldsAt s a n = .bad 0x13#8 a ∧ x.stsAt s a n val = .bad 0x13#8 a) ∧
  (a % n = 0 → x.region a n = .none → x.ldsAt s a n = .bad 0x12#8 a ∧ x.stsAt s a n val = .bad 0x12#8 a) ∧
  (a % n = 0 → x.region a n ≠ .none → x.l.desc.scratch ≤ 0x30000000 →
    x.ldsAt s a n = (if s.scrPoison x.c.id a n then .bad 0x14#8 a
      else .ok s (BitVec.ofNat 64 (leNat ((List.range n).map (fun i => scrByte x.c x.g (a + i))))) Ev.zero) ∧
    ∃ t c g, x.stsAt s a n val = .ok t 0#64 Ev.zero ∧ t.mem = s.mem ∧ t.bufs = s.bufs ∧ t.dev = s.dev ∧
      t.crew? x.c.id = some c ∧ t.group? (x.c.id * 32 + x.g.gid) = some g ∧
      (∀ i < n, scrByte c g (a + i) = BitVec.ofNat 8 (val / 256 ^ i)) ∧
      (∀ k, k < a ∨ a + n ≤ k → k < 0x40000000 ∨ windowBase x.g.gid ≤ k → scrByte c g k = scrByte x.c x.g k))

/-- R226, R251, R252: one atomic on COH memory outside a replay returns the value before it and leaves the new one; no other
byte changes. The new value on 32-bit words, and of `pmax` on 64 bits: the larger key wins, and of equal weights the lower
index. -/
def Obligations.Atomics : Prop :=
  (∀ (x : Site) (s : State) (op : AtomOp) (v : FEnv) (i a b c : Nat) (keys : List Nat),
    a % atomBytes op = 0 → s.check (x.buf s) ⟨x.ctx, a, atomBytes op, true, true, false, none⟩ = .ok 0 keys →
    s.sys.rplPlay = [] →
    let old := leNat (keys.map (memGet s.mem))
    ∃ t, x.atomAt s op v i a b c = .ok t (BitVec.ofNat 64 old) (atomNew op v old b c).2 ∧
      (∀ j < atomBytes op, ∀ k, keys[j]? = some k → memGet t.mem k = BitVec.ofNat 8 ((atomNew op v old b c).1 / 256 ^ j)) ∧
      (∀ k, k ∉ keys → memGet t.mem k = memGet s.mem k) ∧ t.bufs = s.bufs ∧ t.dev = s.dev ∧ t.groups = s.groups) ∧
  (∀ (v : FEnv) (p b c : Word),
    (atomNew .add v p.toNat b.toNat 0).1 = (p + b).toNat ∧
    (atomNew .smin v p.toNat b.toNat 0).1 = (if p.sle b then p else b).toNat ∧
    (atomNew .smax v p.toNat b.toNat 0).1 = (if p.sle b then b else p).toNat ∧
    (atomNew .nmin v p.toNat b.toNat 0).1 = (if p ≤ b then p else b).toNat ∧
    (atomNew .nmax v p.toNat b.toNat 0).1 = (if p ≤ b then b else p).toNat ∧
    (atomNew .and v p.toNat b.toNat 0).1 = (p &&& b).toNat ∧
    (atomNew .or v p.toNat b.toNat 0).1 = (p ||| b).toNat ∧
    (atomNew .xor v p.toNat b.toNat 0).1 = (p ^^^ b).toNat ∧
    (atomNew .xchg v p.toNat b.toNat 0).1 = b.toNat ∧
    (atomNew .cas v p.toNat b.toNat c.toNat).1 = (if p = b then c else p).toNat ∧
    (∀ old, (atomNew .pmax v old b.toNat c.toNat).1 = max old (pmaxKey b.toNat c.toNat).1) ∧
    (∀ b' c' : Word, fp32.isNan b.toNat = false → fp32.isNan b'.toNat = false →
      ((pmaxKey b.toNat c.toNat).1 < (pmaxKey b'.toNat c'.toNat).1 ↔
        fp32.order b.toNat < fp32.order b'.toNat ∨ (b = b' ∧ c'.toNat < c.toNat)))) ∧
  (∀ b c : Word,
    let kept : Word := if fp32.isNan b.toNat then 0x7FC00000#32 else b
    let o : Word := if kept.msb then ~~~ kept else kept ||| 0x80000000#32
    let key := (pmaxKey b.toNat c.toNat).1
    pmaxKey b.toNat c.toNat = ((o ++ ~~~ c).toNat, if fp32.isNan b.toNat then Ev.ofNan else Ev.zero) ∧ 0 < key ∧
    (∀ c' : Word, fp32.isNan b.toNat → (pmaxKey 0x7F800000 c'.toNat).1 < key) ∧
    (let high : Word := BitVec.ofNat 32 (key / 2 ^ 32)
     kept = if high.msb then high ^^^ 0x80000000#32 else ~~~ high) ∧
    c = ~~~ (BitVec.ofNat 32 key))

/-- R70: a long-latency write reaches its registers later: the oldest of the group leaves the list, and each of its cells
holds its value. -/
def Obligations.LongLatencyWrites : Prop := ∀ (s : State) (gk : Nat) (g : Group) (p : Pend) (r : List Pend),
  s.group? gk = some g → g.out = p :: r →
  ∃ t g', exec (.longLatencyWriteback gk) s = .next t ∧ t.group? gk = some g' ∧ g'.out = r ∧ OnlyGroup s t gk ∧
    ((p.cells.map (·.1)).Nodup → (∀ e ∈ p.cells, ∀ c i, e.1 = Cell.v c i → i < 32) →
      (∀ c i m, (Cell.v c i, m) ∈ p.cells → g'.v.get (c * 32 + i) = m) ∧
      (∀ c m, (Cell.g c, m) ∈ p.cells → g'.g.get c = m)) ∧
    (∀ k, (∀ e ∈ p.cells, ∀ c i, e.1 = Cell.v c i → c * 32 + i ≠ k) → g'.v.get k = g.v.get k) ∧
    (∀ k, (∀ e ∈ p.cells, e.1 ≠ Cell.g k) → g'.g.get k = g.g.get k) ∧
    g'.p = g.p ∧ g'.t = g.t ∧ g'.frags = g.frags ∧ g'.spilled = g.spilled ∧ g'.stat = g.stat ∧ g'.pins = g.pins

/-- R224, R246 to R249: counted tiles. `fillc` copies the lines into a new entry and returns its handle later; without a slot,
or behind a fill that has waited longer, it waits (log entry 52); `ldc` reads the tile of a live handle, and its `.last` form is
one consuming access; `stc` writes the tile; a stale handle traps. -/
def Obligations.CountedTiles : Prop := ∀ (s : State) (h : Hdr) (d a b : Opd) (x : Site), s.site? = some x →
  (x.umask h ≠ 0#32 →
    let va := (x.read64 s (lowest (x.umask h)) a).toNat
    let w := (x.read s (lowest (x.umask h)) b).toNat
    let lines := w / 256
    let readers := w % 256
    ((lines = 0 ∨ 128 < lines ∨ readers = 0) → Traps (.fillc h d a b) s x 0x11#8) ∧
    (1 ≤ lines → lines ≤ 128 → 1 ≤ readers → va % 128 = 0 →
      let waits := exec (.fillc h d a b) s = .next (s.waitFor (.fill x.c.die) x)
      (s.ahead (.fill x.c.die) x → waits) ∧
      (∀ xs, s.ahead (.fill x.c.die) x = false →
        (if va = 0 then xs = [] else s.fillBytes x.c.die x.ctx ((List.range lines).map (fun k => va + 128 * k)) = .ok xs) →
        (s.fillSlot x.c.die lines = none → waits) ∧
        ∀ slot, s.fillSlot x.c.die lines = some slot →
          let tile : Tile := { die := x.c.die, slot := slot, ctx := x.ctx, handle := x.l.handle, gen := s.genOf x.c.die slot,
                               readers := readers, lines := lines, bytes := xs.zipIdx.map (fun e => (e.2, e.1)), poison := [],
                               order := s.fillNo }
          Ends (.fillc h d a b) s x
            ((State.unwait { s with tiles := s.tiles ++ [tile], fillNo := s.fillNo + 1 } x).giveBack x true (.late d false)
              [(lowest (x.umask h), BitVec.ofNat 64 (tile.gen * 2 ^ 15 + tile.die * 2 ^ 12 + tile.slot))]) [d]))) ∧
  (∀ w last t, x.emask h [d, a, b] ≠ 0#32 →
    s.tile? x.ctx x.l.handle (x.read s (lowest (x.emask h [d, a, b])) a).toNat = some t →
    (∀ i ∈ lanes (x.emask h [d, a, b]), (x.read s i b).toNat % ldBytes w = 0 ∧
      (x.read s i b).toNat + ldBytes w ≤ 128 * t.lines ∧ t.poisonIn (x.read s i b).toNat (ldBytes w) = false) →
    Ends (.ldc h w last d a b) s x
      (((if last then s.consume t else s).giveBack x (uniform [d, a, b]) (.late d (w == .b64))
        ((lanes (x.emask h [d, a, b])).map (fun i =>
          (i, ldExtend w (BitVec.ofNat 64 (leNat (t.read (x.read s i b).toNat (ldBytes w)))))))).modGroup x.g.key
            (fun g => g.latch s [a, b])) (dstOf (some d) (w == .b64))) ∧
  (∀ w t, x.emask h [d, a, b] ≠ 0#32 →
    s.tile? x.ctx x.l.handle (x.read s (lowest (x.emask h [d, a, b])) a).toNat = some t →
    (∀ i ∈ lanes (x.emask h [d, a, b]),
      (x.read s i b).toNat % stBytes w = 0 ∧ (x.read s i b).toNat + stBytes w ≤ 128 * t.lines) →
    ∃ s1 t1, Ends (.stc h w d a b) s x s1 [] ∧ s1.mem = s.mem ∧ s1.bufs = s.bufs ∧
      s1.tile? x.ctx x.l.handle t.handleNo = some t1 ∧ t1.readers = t.readers ∧
      (∀ k, (∀ i ∈ lanes (x.emask h [d, a, b]), k < (x.read s i b).toNat ∨ (x.read s i b).toNat + stBytes w ≤ k) →
        t1.read k 1 = t.read k 1) ∧
      (∀ i ∈ lanes (x.emask h [d, a, b]),
        (∀ j ∈ lanes (x.emask h [d, a, b]), i < j → (x.read s j b).toNat ≠ (x.read s i b).toNat) →
        t1.read (x.read s i b).toNat (stBytes w) = leBytes (stBytes w) (x.data s w i d))) ∧
  (∀ w last, x.emask h [d, a, b] ≠ 0#32 →
    s.tile? x.ctx x.l.handle (x.read s (lowest (x.emask h [d, a, b])) a).toNat = none →
    Traps (.ldc h w last d a b) s x 0x18#8 ∧ ∀ w, Traps (.stc h w d a b) s x 0x18#8)

/-- R211, R253 to R255: maintenance of the buffers and fences, each complete within its step. A fence up to `die` sends the dirty
bytes of every line of the issuing buffer to the die buffer; from `pkg` on it then takes the clean step, by which
`bufferClean` writes a line of the die buffer to memory, of every line there. A `cmo` does the same for the lines of its range,
or drops them; it waits while a line of its range lies in a page on the move (R403). That a dirty line of an L1 whose die line is
absent goes by way of a filled one, and that a line that cannot be reached below keeps its dirty bytes, is the model's choice and
reading (log entry 59). That `pf` does nothing at all is the model's
choice among what R255 allows (log entry 32). -/
def Obligations.MaintenanceAndFences : Prop := ∀ (s : State) (h : Hdr) (a b : Opd) (x : Site), s.site? = some x →
  let die := BufId.die x.c.die
  let dieClean := fun (t : State) (sel : BufLine → Bool) =>
    (t.bufs.filter (fun y => y.buf == die && sel y)).foldl (fun t y => t.cleanLine die x.c.die y.ctx y.line) t
  let fromDie := fun (t u : State) (sel : BufLine → Bool) => ∀ k, memGet u.mem k = memGet t.mem k ∨
    ∃ y i, y ∈ t.bufs ∧ y.buf = die ∧ sel y ∧ y.dirty.getLsbD i ∧ memGet u.mem k = lineByte y.value i
  (∀ l, Ends (.pf h l a b) s x s []) ∧
  (x.umask h ≠ 0#32 →
    let va := (x.read64 s (lowest (x.umask h)) a).toNat
    let n := (x.read s (lowest (x.umask h)) b).toNat
    (cmoHeld s x.ctx va n = false → ∀ l,
      Ends (.cmoClean h l a b) s x (s.cmoCleanRange x l va n) [] ∧
      Ends (.cmoInval h l a b) s x (s.cmoDropRange x l va n) [] ∧
      Ends (.cmoCleaninval h l a b) s x ((s.cmoCleanRange x l va n).cmoDropRange x l va n) []) ∧
    (cmoHeld s x.ctx va n → ∀ l, exec (.cmoClean h l a b) s = .next s ∧ exec (.cmoInval h l a b) s = .next s ∧
      exec (.cmoCleaninval h l a b) s = .next s) ∧
    (∀ sc, Ends (.fence h sc) s x (s.fenceClean x sc) [])) ∧
  -- what these do to lines and memory
  (∀ sc, sc ∈ [.core, .quad, .die] → Cleaned s (s.fenceClean x sc) (x.buf s) (fun _ => true)) ∧
  (∀ sc, sc ∈ [.pkg, .pod, .sys] → s.fenceClean x sc = dieClean (s.fenceClean x .die) (fun _ => true) ∧
    fromDie (s.fenceClean x .die) (s.fenceClean x sc) (fun _ => true)) ∧
  (∀ va n, Cleaned s (s.cmoCleanRange x .l1 va n) (x.buf s) (cmoLine s x.ctx va n) ∧
    ∀ l, l ≠ .l1 → let t := s.cmoCleanRange x .l1 va n
      s.cmoCleanRange x l va n = dieClean t (cmoLine t x.ctx va n) ∧ fromDie t (s.cmoCleanRange x l va n) (cmoLine t x.ctx va n)) ∧
  (∀ l va n, (∀ y, y ∈ (s.cmoDropRange x l va n).bufs ↔ y ∈ s.bufs ∧
    ¬ ((y.buf = x.buf s ∨ (l ≠ .l1 ∧ y.buf = die)) ∧ cmoLine s x.ctx va n y)) ∧
    (s.cmoDropRange x l va n).mem = s.mem) ∧
  (∀ va n y, cmoLine s x.ctx va n y ↔
    y.ctx = x.ctx ∧ (∃ k, va ≤ k ∧ k < va + n ∧ k / 128 = y.line) ∧ keyOf s x.ctx (y.line * 128) ≠ none)

/-- R205, R210, R203, R421: the background steps of buffers, each of which answers a next state. A fill brings an absent line of a
readable STR page in, clean, with the bytes and the poison of the level below; a drop takes a clean line away; neither changes
memory. A clean sends the dirty bytes of an L1 line to the die buffer's line, and those of a die buffer's line to memory at the
line's own address; a line whose page is on the move (R403) or cannot be reached holds it (log entry 59). -/
def Obligations.BufferSteps : Prop := ∀ (s : State) (b : BufId) (ctx line : Nat),
  let die := BufId.die (dieOfBuf b)
  let fill := exec (.bufferFill b ctx line) s
  let clean := exec (.bufferClean b ctx line) s
  let drop := exec (.bufferDrop b ctx line) s
  let kept := fun (t : State) (l : List BufId) =>
    ∀ b' c' l', ¬ (b' ∈ l ∧ c' = ctx ∧ l' = line) → t.line? b' c' l' = s.line? b' c' l'
  (∀ k, (∀ i < 128, lineByte (s.lineOfMem b ctx line k).value i = memGet s.mem (k + i)) ∧
    (s.lineOfMem b ctx line k).dirty = 0#128 ∧
    ∀ i < 4, (s.lineOfMem b ctx line k).poison.getLsbD i = s.poison.contains (k / 32 + i)) ∧
  (s.line? b ctx line = none → s.strLine ctx line → ∃ t y w, fill = .next t ∧ s.lineBelow b ctx line = some w ∧
    t.line? b ctx line = some y ∧ y.value = w.value ∧ y.dirty = 0#128 ∧ y.poison = w.poison ∧
    t.mem = s.mem ∧ t.poison = s.poison ∧ kept t [b]) ∧
  (s.line? b ctx line ≠ none ∨ s.strLine ctx line = false → fill = .next s) ∧
  (s.line? b ctx line = none → drop = .next s) ∧
  (∀ y, s.line? b ctx line = some y →
    (y.dirty = 0#128 → ∃ t, drop = .next t ∧ t.line? b ctx line = none ∧ t.mem = s.mem ∧ kept t [b]) ∧
    (y.dirty ≠ 0#128 → drop = .next s)) ∧
  ((∀ y, s.line? b ctx line = some y → y.dirty = 0#128) → clean = .next s) ∧
  (∀ y, s.line? b ctx line = some y → y.dirty ≠ 0#128 →
    (b ≠ die → ∀ w, s.lineBelow b ctx line = some w → ∃ t z, clean = .next t ∧
      t.line? b ctx line = some { y with dirty := 0#128 } ∧ t.line? die ctx line = some z ∧ z.dirty = w.dirty ||| y.dirty ∧
      (∀ i < 128, lineByte z.value i = if y.dirty.getLsbD i then lineByte y.value i else lineByte w.value i) ∧
      (∀ i < 4, z.poison.getLsbD i = (w.poison.getLsbD i && !wholeGranule y.dirty i)) ∧ t.mem = s.mem ∧ kept t [b, die]) ∧
    (b = die → ∀ p, translate s ctx (line * 128) = .page p → ∃ t, clean = .next t ∧
      keyOf s ctx (line * 128) = some p.key ∧ t.line? b ctx line = some { y with dirty := 0#128 } ∧ kept t [b] ∧
      (∀ i < 128, y.dirty.getLsbD i → memGet t.mem (p.key + i) = lineByte y.value i) ∧
      (∀ j, (∀ i < 128, y.dirty.getLsbD i → j ≠ p.key + i) → memGet t.mem j = memGet s.mem j) ∧
      (∀ g, g ∈ t.poison ↔ g ∈ s.poison ∧ ¬ ∀ i < 32, ∃ k < 128, y.dirty.getLsbD k ∧ p.key + k = 32 * g + i)) ∧
    (s.lineBelow b ctx line = none → clean = .next s.hold))

/-- R227 to R229, R256 to R258: pins and reclaim. The removal of the last pin of a deferred name takes the name from every list
and runs its free action. R332, R370: a free action writes the name to the next entry of the context's free queue and then
PUT; a full queue counts the name as lost; no queue, or one that cannot be written, gets nothing. -/
def Obligations.PinsAndReclaim : Prop :=
  (∀ (s : State) (ctx : Nat) (name : DWord) (c : Context), s.ctx? ctx = some c →
    let t := s.freeAction ctx name
    let bytes := fun (keys : List Nat) (v : Nat) => ∀ i k, keys[i]? = some k → memGet t.mem k = BitVec.ofNat 8 (v / 256 ^ i)
    (c.freeq = 0 → t.mem = s.mem) ∧
    ((∀ hd, s.cohRead ctx c.freeq 16 ≠ .ok hd) ∨ (∀ ks, s.cohKeys ctx c.freeq 16 ≠ .ok ks) → t.mem = s.mem) ∧
    (∀ hd hk, c.freeq ≠ 0 → s.cohRead ctx c.freeq 16 = .ok hd → s.cohKeys ctx c.freeq 16 = .ok hk →
      let field := fun k => leNat hd / 2 ^ (32 * k) % 2 ^ 32
      let used := (field 0 + 2 ^ 32 - field 1) % 2 ^ 32
      let full := field 2 = 0 ∨ 2 ^ 24 < field 2 ∨ field 2 ≤ used
      let slot := c.freeq + 16 + 8 * (field 0 % field 2)
      (∀ lk, full → s.cohKeys ctx (c.freeq + 12) 4 = .ok lk → lk.Nodup →
        bytes lk (min 0xFFFFFFFF (field 3 + 1)) ∧ ∀ k, k ∉ lk → memGet t.mem k = memGet s.mem k) ∧
      (∀ sk pk, ¬ full → s.cohKeys ctx slot 8 = .ok sk →
        (s.cohStore ctx slot 8 name.toNat).cohKeys ctx c.freeq 4 = .ok pk → (sk ++ pk).Nodup →
        bytes sk name.toNat ∧ bytes pk ((field 0 + 1) % 2 ^ 32) ∧ ∀ k, k ∉ sk ++ pk → memGet t.mem k = memGet s.mem k) ∧
      (¬ full → (∀ sk, s.cohKeys ctx slot 8 ≠ .ok sk) → t.mem = s.mem))) ∧
  ∀ (s : State) (h : Hdr) (n : BitVec 2) (d a : Opd) (x : Site), s.site? = some x → x.umask h ≠ 0#32 →
  let name := x.read64 s (lowest (x.umask h)) a
  let gone := s.unpinReg x.ctx x.g.key n.toNat
  Ends (.unpin h (.pin n)) s x gone [] ∧ (name = 0#64 → Ends (.pin h (.pin n) a) s x gone []) ∧
  (∃ g, gone.group? x.g.key = some g ∧ g.pinOf n.toNat = 0#64 ∧ ∀ k, k ≠ n.toNat → g.pinOf k = x.g.pinOf k) ∧
  (let old := x.g.pinOf n.toNat
   let left := s.pins.erase ⟨x.ctx, .reg x.g.key n.toNat, old⟩
   let last := old ≠ 0#64 ∧ ⟨x.ctx, .reg x.g.key n.toNat, old⟩ ∈ s.pins ∧ (∀ e ∈ left, ¬ (e.ctx = x.ctx ∧ e.name = old)) ∧
     ∃ e ∈ s.deferred, e.ctx = x.ctx ∧ e.name = old
   gone.pins = (if old = 0#64 then s.pins else left) ∧
   (last → gone.deferred = s.deferred.filter (fun e => !(e.ctx == x.ctx && e.name == old)) ∧
     gone.mem = (s.freeAction x.ctx old).mem) ∧
   (¬ last → gone.deferred = s.deferred ∧ gone.mem = s.mem)) ∧
  (name.toNat / 2 ^ 60 ∈ [0, 15] → name ≠ 0#64 → Traps (.pin h (.pin n) a) s x 0x11#8) ∧
  (name.toNat / 2 ^ 60 ∈ [0, 15] → Traps (.reclaim h d a) s x 0x11#8) ∧
  (name.toNat / 2 ^ 60 ∉ [0, 15] →
    -- the former name is removed first, and its free action run; then the new one is entered
    (∃ s1 g, Ends (.pin h (.pin n) a) s x s1 [] ∧ s1.group? x.g.key = some g ∧ g.pinOf n.toNat = name ∧ s1.pinned x.ctx name ∧
      s1.pins = gone.pins ++ [⟨x.ctx, .reg x.g.key n.toNat, name⟩] ∧ s1.deferred = gone.deferred ∧ s1.mem = gone.mem ∧
      ∀ k, k ≠ n.toNat → g.pinOf k = x.g.pinOf k) ∧
    (let back := fun (t : State) (k : Nat) => t.giveBack x true (.late d false) [(lowest (x.umask h), BitVec.ofNat 64 k)]
     (s.pinned x.ctx name = false → Ends (.reclaim h d a) s x (back (s.freeAction x.ctx name) 0) [d]) ∧
     (s.pinned x.ctx name → s.deferred.contains ⟨x.c.die, x.ctx, name⟩ → Ends (.reclaim h d a) s x (back s 2) [d]) ∧
     (s.pinned x.ctx name → s.deferred.contains ⟨x.c.die, x.ctx, name⟩ = false → (s.deferredOn x.c.die).length < 4096 →
       Ends (.reclaim h d a) s x (back { s with deferred := s.deferred ++ [⟨x.c.die, x.ctx, name⟩] } 1) [d]) ∧
     (s.pinned x.ctx name → s.deferred.contains ⟨x.c.die, x.ctx, name⟩ = false → 4096 ≤ (s.deferredOn x.c.die).length →
       Traps (.reclaim h d a) s x 0x19#8)))

/-- R260 to R262: a copy command whose block R261 passes puts the job that the block describes at the end of its engine's queue.
A queue of 64 jobs holds the group, and so does a group that has waited there longer (log entry 52); a failing check traps.
That a nonzero upper word of an element index fails is the model's choice (log entry 53). -/
def Obligations.CopyCommands : Prop := ∀ (s : State) (h : Hdr) (d a b : Opd) (x : Site), s.site? = some x →
  x.umask h ≠ 0#32 → ∀ (i : Instr) (form : CpyForm),
  (i, form) ∈ [(Instr.cpy h d a b, CpyForm.plain), (.cpyCvt h d a b, .cvt), (.cpyFill h d a b, .fill)] →
  let eng := (x.read s (lowest (x.umask h)) b).toNat
  let q := x.c.die * 6 + eng
  let check := cpyCheck x form (opdGno a) eng (opdAw d) s.stamp x.f.pc s.word
  let g := fun k => (x.g.greg (opdGno a + k)).toNat
  let ctl := g 5
  let ssp := ctl.testBit 0
  let dsp := ctl.testBit 1
  let strm := ctl.testBit 2
  let sr := (x.record? (ctl / 2 ^ 8 % 256)).getD 0#320
  let dr := (x.record? (ctl / 2 ^ 16 % 256)).getD 0#320
  let bytes := fun (r : Rec) => if form = .cvt then (g 4 * recWidth r + 7) / 8 else g 4
  ((∃ j, check = .ok j) ↔
    eng ≤ 5 ∧ ctl / 2 ^ 26 = 0 ∧ ctl / 2 ^ 3 % 32 = 0 ∧ ctl / 2 ^ 24 % 4 ≠ 3 ∧ (strm → form = .plain) ∧
    (ssp → form ≠ .fill ∧ strm = false) ∧ (ssp ∨ form = .cvt → g 1 = 0) ∧ (dsp ∨ form = .cvt → g 3 = 0) ∧
    (form = .fill → g 2 % 4 = 0 ∧ g 4 % 4 = 0) ∧
    (form = .cvt ∨ strm → x.record? (ctl / 2 ^ 8 % 256) = some sr ∧ recOk sr false strm) ∧
    (form = .cvt → x.record? (ctl / 2 ^ 16 % 256) = some dr ∧ recOk dr true false) ∧
    (ssp → x.inWindow (g 0) (bytes sr)) ∧ (dsp → strm = false → x.inWindow (g 2) (bytes dr))) ∧
  (∀ j, check = .ok j →
    j.src = (if form = .cvt then (if ssp then .packed sr (g 0) else .elems sr (ctl / 2 ^ 8 % 256) (g 0))
      else if ssp then .scr (g 0) else .mem (g 0 + 2 ^ 32 * g 1)) ∧
    j.dst = (if form = .cvt then (if dsp then .packed dr (g 2) else .elems dr (ctl / 2 ^ 16 % 256) (g 2))
      else if dsp then .scr (g 2) else .mem (g 2 + 2 ^ 32 * g 3)) ∧
    j.kind = (match form with
      | .cvt => .cvt
      | .fill => .fill (x.g.greg (opdGno a + 7))
      | .plain => if strm then .stream sr (ctl / 2 ^ 8 % 256) (g 4) else .copy) ∧
    (strm = false → j.len = g 4 ∧ j.left = g 4 ∧ j.bytes = bytes dr) ∧ (strm → j.left = 1) ∧
    j.arv = ctl / 2 ^ 24 % 4 ∧ j.awOff = opdAw d ∧ j.awVal = x.g.greg (opdGno a + 6) ∧
    j.crew = x.c.id ∧ j.gid = x.g.gid ∧ j.ctx = x.ctx ∧ j.pc = x.f.pc ∧ j.word = s.word ∧ j.moved = [] ∧ j.paused = false ∧
    ((s.queue q).length < 64 → s.ahead (.engine q) x = false → Ends i s x ((s.unwait x).setQueue q (s.queue q ++ [j])) []) ∧
    (64 ≤ (s.queue q).length ∨ s.ahead (.engine q) x → exec i s = .next (s.waitFor (.engine q) x))) ∧
  (∀ t, check = .error t → Traps i s x t.cause ∧ t.cause ∈ [0x11#8, 0x12#8, 0x13#8, 0x30#8])

/-- R217, R218, R262, R263: the steps of a copy engine. A chunk moves its bytes and is marked moved; a stream chunk becomes
the copy of the bytes its index entry names; a translation fault pauses the job where it is; a job whose chunks have all
moved leaves the queue, and its arrival word is set, or steps by its bytes; another cause ends the job. The size of a chunk, and
that a failed stream counts the LEN that it read, or 0 where it read none, are the model's choice (log entry 53). -/
def Obligations.CopySteps : Prop := ∀ (s : State) (e : Nat) (j : Job),
  (∀ k off n, (s.queue e)[k]? = some j → j.paused = false → j.left ≠ 0 → j.chunkAt off → off ∉ j.moved → j.chunkLen off = n →
    let done := fun (t : State) => t.setJob e k { j with moved := off :: j.moved, left := j.left - n }
    (∀ xs t, j.kind = .copy → s.placeRead (e / 6) j j.src off n = .ok xs → s.placeWrite (e / 6) j j.dst off xs = .ok t →
      exec (.engineStep e k off) s = .next (done t)) ∧
    (∀ pat t, j.kind = .fill pat → s.placeWrite (e / 6) j j.dst off
        ((List.range n).map (fun i => pat.extractLsb' (8 * ((off + i) % 4)) 8)) = .ok t →
      exec (.engineStep e k off) s = .next (done t)) ∧
    (∀ info, j.kind = .copy → s.placeRead (e / 6) j j.src off n = .error (.bad 0x10#8 info) →
      ∃ t, exec (.engineStep e k off) s = .next t ∧ t.queue e = (s.queue e).set k { j with paused := true, pauseAt := info } ∧
        t.groups = s.groups ∧ t.launches.map Launch.plain = s.launches.map Launch.plain) ∧
    (∀ c info, j.kind = .copy → s.placeRead (e / 6) j j.src off n = .error (.bad c info) → c ≠ 0x10#8 →
      exec (.engineStep e k off) s =
        .next ((s.completeJob e k { j with failed := true }).jobFault j.crew j.gid (j.fault e k c info)))) ∧
  (∀ k off t, (s.queue e)[k]? = some j → j.paused = false → j.left ≠ 0 → j.kind = .cvt → off < j.len → off ∉ j.moved →
    s.cvtStep (e / 6) j off = .ok t →
    exec (.engineStep e k off) s = .next (t.setJob e k { j with moved := off :: j.moved, left := j.left - 1 })) ∧
  (∀ k off r idx chunk j1, (s.queue e)[k]? = some j → j.paused = false → j.left ≠ 0 → j.kind = .stream r idx chunk →
    s.streamStep (e / 6) j r idx chunk = .ok j1 → exec (.engineStep e k off) s = .next (s.setJob e k j1) ∧
      ∃ xs, s.engRead (e / 6) j.ctx (recSidx r + 8 * chunk) 8 = .ok xs ∧
        let n := leNat xs / 2 ^ 40 % 2 ^ 13
        let start := leNat xs % 2 ^ 40
        leNat xs / 2 ^ 53 % 2 ^ 11 = 0 ∧ 1 ≤ n ∧ n ≤ 4096 ∧ start + n ≤ recExtent r ∧
        j1 = { j with kind := .copy, src := .chunk (recBase r + start) (recClass r) idx, len := n, bytes := n, left := n,
                      moved := [] }) ∧
  -- a stream that fails counts the LEN of its index entry, where that lies in its range
  (∀ k off r idx chunk c info n, (s.queue e)[k]? = some j → j.paused = false → j.left ≠ 0 → j.kind = .stream r idx chunk →
    s.streamStep (e / 6) j r idx chunk = .error (.bad c info, n) → c ≠ 0x10#8 →
    exec (.engineStep e k off) s = .next ((s.completeJob e k { j with bytes := n, failed := true }).jobFault j.crew j.gid
      (j.fault e k c info)) ∧
    ∀ xs, s.engRead (e / 6) j.ctx (recSidx r + 8 * chunk) 8 = .ok xs → (recSidx r + 8 * chunk) % 8 = 0 →
      let len := leNat xs / 2 ^ 40 % 2 ^ 13
      n = if 1 ≤ len ∧ len ≤ 4096 then len else 0) ∧
  (∀ r c, s.queue e = j :: r → j.left = 0 → j.paused = false → (∀ x, j.kind ≠ .gather x) →
    (if j.kind = .cvt then s.cvtTaints j = [] ∧ s.cvtStored j = [] else s.taints j = []) → s.crew? j.crew = some c →
    ∃ t c', exec (.copyJobCompletion e) s = .next t ∧ t.queue e = r ∧ t.mem = s.mem ∧ t.groups = s.groups ∧
      t.crew? j.crew = some c' ∧ c'.awGet j.awOff = (if j.arv = 1 then j.awVal
        else if j.arv = 2 then arrivalStep (c.awGet j.awOff) j.bytes else c.awGet j.awOff))

/-! ## Synchronisation and control flow -/

/-- R265 to R269: one arrival at a barrier: a group that has arrived in this phase, or has dropped, or finds no group expected,
does not arrive; else the count rises, and at the expected count the phase advances and the pending drops leave. Arriving and
dropping complete at once; waiting completes when the phase is no longer the one the group arrived at, and blocks the group
until then; a barrier the group may not use traps with 0x21, a second arrival with 0x20. A drop raises Q and sets the group's
flag; one of a group that has not arrived arrives too. An arrival at a pod barrier is held until the links are ready (R415).
That the arrival inside a drop does not look at the flag just set, and D at `bar.drop` of a group that has arrived, are the
model's reading (log entry 8). -/
def Obligations.Barriers : Prop :=
  (∀ (s : State) (c : Crew) (l : Launch) (gk lvl idx : Nat) (b : BarInst),
    s.crew? c.id = some c → s.launch? l.handle = some l → s.inst? c l lvl idx = some b → b.level = lvl → b.index = idx →
    ((b.dropped.contains gk ∨ b.arrived.contains gk ∨ b.expect = 0) → s.barArrive c l gk b = none) ∧
    (let ready := lvl ≠ 4 ∨ s.sys.ready.getLsbD 29
     let arrives := fun (t : State) (b1 : BarInst) => ∃ c' l', t.crew? c.id = some c' ∧ t.launch? l.handle = some l' ∧
        t.inst? c' l' lvl idx = some (b1.arrivedBy gk) ∧ t.mem = s.mem ∧ t.bufs = s.bufs ∧
        ∀ k g, s.group? k = some g → ∃ g', t.group? k = some g' ∧ g' = { g with barPh := g'.barPh } ∧
          (k = gk → lookup g'.barPh (barNo lvl idx) = some b.phase) ∧ (k ≠ gk → g' = g)
     let dropping := { b with dropped := gk :: b.dropped, drops := b.drops + 1 }
     let r := s.barDrop c l gk b
     (b.dropped.contains gk = false → b.arrived.contains gk = false → b.expect ≠ 0 →
        (ready → ∃ t, s.barArrive c l gk b = some (t, b.phase) ∧ arrives t b) ∧
        (¬ ready → s.barArrive c l gk b = some (s.hold, b.phase) ∧ r.s = s.hold) ∧
        (ready → arrives r.s dropping ∧ r.phase = some b.phase ∧ r.bad = false)) ∧
     (b.dropped.contains gk → r.s = s ∧ r.bad) ∧
     (b.dropped.contains gk = false → b.arrived.contains gk ∨ b.expect = 0 →
        (∃ c' l', r.s.crew? c.id = some c' ∧ r.s.launch? l.handle = some l' ∧ r.s.inst? c' l' lvl idx = some dropping) ∧
        r.s.groups = s.groups ∧ r.s.mem = s.mem ∧ r.phase = none ∧ (r.bad ↔ b.arrived.contains gk = false)))) ∧
  (∀ (s : State) (h : Hdr) (d : Option Opd) (l : BarLvl) (idx : BitVec 4) (x : Site),
    s.site? = some x →
    (x.umask h ≠ 0#32 → (x.l.member x.g.gid (levelNo l) idx.toNat = false ∨ s.inst? x.c x.l (levelNo l) idx.toNat = none) →
      Traps (.barArrive h d l idx) s x 0x21#8 ∧ Traps (.barDrop h d l idx) s x 0x21#8) ∧
    (∀ b, x.umask h ≠ 0#32 → x.l.member x.g.gid (levelNo l) idx.toNat → s.inst? x.c x.l (levelNo l) idx.toNat = some b →
      (∀ t ph, s.barArrive x.c x.l x.g.key b = some (t, ph) → Ends (.barArrive h d l idx) s x (t.writeOpt x d ph) d.toList) ∧
      (s.barArrive x.c x.l x.g.key b = none → Traps (.barArrive h d l idx) s x 0x20#8) ∧
      ((s.barDrop x.c x.l x.g.key b).bad = false → Ends (.barDrop h d l idx) s x
        ((s.barDrop x.c x.l x.g.key b).s.writeOpt x d ((s.barDrop x.c x.l x.g.key b).phase.getD
          ((lookup x.g.barPh (barNo b.level b.index)).getD b.phase))) d.toList) ∧
      ((s.barDrop x.c x.l x.g.key b).bad → ∃ t : Trap, t.cause = 0x20#8 ∧
        exec (.barDrop h d l idx) s = .next ((s.barDrop x.c x.l x.g.key b).s.trap x t))) ∧
    (s.gather x = none → WaitsForFragments (.barWait h l idx) s x ∧ WaitsForFragments (.barSync h d l idx) s x) ∧
    (∀ s1 y, s.gather x = some (s1, y) → y.umask h ≠ 0#32 →
      (y.l.member y.g.gid (levelNo l) idx.toNat = false ∨ s1.inst? y.c y.l (levelNo l) idx.toNat = none) →
      let bad := fun i => ∃ t : Trap, t.cause = 0x21#8 ∧ exec i s = .next (s1.trap y t)
      bad (.barWait h l idx) ∧ bad (.barSync h d l idx)) ∧
    (∀ s1 y b, s.gather x = some (s1, y) → y.umask h ≠ 0#32 → y.l.member y.g.gid (levelNo l) idx.toNat →
      s1.inst? y.c y.l (levelNo l) idx.toNat = some b →
      let no := barNo b.level b.index
      let here := lookup y.g.barPh no
      (here ≠ some (phaseNow s1 y b) → Ends (.barWait h l idx) s y s1 []) ∧
      (here = some (phaseNow s1 y b) → exec (.barWait h l idx) s = .next (s1.blockOn y (.bar no))) ∧
      (y.g.block = some (.bar no) → here ≠ some (phaseNow s1 y b) → Ends (.barSync h d l idx) s y s1 d.toList) ∧
      (y.g.block ≠ some (.bar no) → s1.barArrive y.c y.l y.g.key b = none →
        ∃ t : Trap, t.cause = 0x20#8 ∧ exec (.barSync h d l idx) s = .next (s1.trap y t)) ∧
      (∀ t ph, y.g.block ≠ some (.bar no) → s1.barArrive y.c y.l y.g.key b = some (t, ph) →
        let t1 := t.writeOpt y d ph
        (some ph ≠ some (phaseNow t1 y b) → Ends (.barSync h d l idx) s y t1 d.toList) ∧
        (some ph = some (phaseNow t1 y b) → exec (.barSync h d l idx) s = .next (t1.blockOn y (.bar no))))))

/-- R44, R271 to R273: when each kind of condition of a wait holds; and the waits. One completes when its conditions hold in one
evaluation, writing true and the fired mask, or when its time has passed, writing false; until then the group is blocked.
That a condition of KIND 5 holds once the launch has ended with 1 in its done word, and holds from then on whatever that area is
used for, is the model's reading (log entry 25). -/
def Obligations.Waits : Prop :=
  (∀ (s : State) (x : Site) (c : Cond),
    (c.kind = 1 → ∀ b, s.inst? x.c x.l (c.aux / 256 % 8) (c.aux % 256) = some b → c.val < 2 ^ 32 →
      condHolds s x c = .ok (decide (0 ≤ (b.phase - BitVec.ofNat 32 c.val).toInt))) ∧
    (c.kind = 2 → c.rel ≤ 5 → condHolds s x c = .ok
      (relInt ([.eq, .ne, .lt, .le, .gt, .ge][c.rel]?.getD .eq) (x.c.awGet c.opr).toNat c.val)) ∧
    (c.kind = 3 → c.rel ≤ 5 → ∀ xs, s.cohRead x.ctx (c.aux * 2 ^ 32 + c.opr) 4 = .ok xs → condHolds s x c = .ok
      (relInt ([.eq, .ne, .lt, .le, .gt, .ge][c.rel]?.getD .eq) (leNat xs) c.val)) ∧
    (c.kind = 4 → condHolds s x c = .ok (!(s.queue (x.c.die * 6 + c.aux)).any (fun j => j.crew == x.c.id))) ∧
    (c.kind = 5 → (∀ l, s.named? x.ctx c.opr = some l →
        condHolds s x c = .ok (l.met || (l.ended && s.cohNat? l.ctx l.done 4 == some 1))) ∧
      (s.named? x.ctx c.opr = none → condHolds s x c = .ok false)) ∧
    (c.kind = 6 → condHolds s x c = .ok (decide (c.opr * 2 ^ 32 + c.val ≤ s.tsc.toNat)))) ∧
  (∀ (s : State) (h : Hdr) (d : BitVec 3) (a b : Opd) (all : Bool) (x : Site),
    let instr := if all then Instr.waitAll h (.p d) a b else .waitAny h (.p d) a b
    let holds := fun (y : Site) (k fired : Nat) =>
      if all then fired == ((condBlock y.g k).filter (fun c => c.kind != 0)).foldl (fun m c => m + 2 ^ c.no) 0 else fired != 0
    let result := fun (t : State) (y : Site) (k fired : Nat) => t.modGroup y.g.key (fun g =>
      (g.writeAll (.p d) (wordOf (holds y k fired))).writeAll (.g (BitVec.ofNat 6 (k + 12))) (BitVec.ofNat 32 fired))
    let firedNow := fun (t : State) (y : Site) (k : Nat) => condFired t y ((condBlock y.g k).filter (fun c => c.kind != 0))
    (s.site? = some x → s.gather x = none → WaitsForFragments instr s x) ∧
    (∀ s1 y fired, s.site? = some x → s.gather x = some (s1, y) → y.umask h ≠ 0#32 → waitCheck s1 y (opdGno a) = none →
      firedNow s1 y (opdGno a) = .ok fired →
      let ticks := (y.read s1 (lowest (y.umask h)) b).toNat
      ((holds y (opdGno a) fired ∨ (ticks = 0 ∧ y.g.block = none)) → Ends instr s y (result s1 y (opdGno a) fired) []) ∧
      (holds y (opdGno a) fired = false → ticks ≠ 0 → y.g.block = none → exec instr s = .next (s1.blockOn y
        (.wait (if ticks = 0xFFFFFFFF then none else some (s1.nanos + 10 * ticks)) all d.toNat (opdGno a) s1.word)))) ∧
    (∀ s1 y t, s.site? = some x → s.gather x = some (s1, y) → y.umask h ≠ 0#32 → waitCheck s1 y (opdGno a) = some t →
      exec instr s = .next (s1.trap y t)) ∧
    (∀ gk y fired k w deadline, s.blocked? gk = some y → y.g.block = some (.wait deadline all d.toNat k w) →
      firedNow { s with word := w } y k = .ok fired →
      (holds y k fired → Ends (.waitEvaluation gk) s y (result { s with word := w } y k fired) []) ∧
      (∀ ns, deadline = some ns → ns ≤ s.nanos → Ends (.waitTimeout gk) s y (result { s with word := w } y k fired) [])))

/-- R275 to R277: arrival words and stage rings. A step adds to the 31-bit count and flips the phase when the count becomes
0; an amount above 2^30 − 1 traps; a consumer sees a slot full, and a producer free, by its phase bit. That a ring whose LEN is 65 to
127, or whose BASE is no multiple of 8, is taken as it stands is the model's choice (log entry 60). -/
def Obligations.ArrivalWordsAndRings : Prop := ∀ (s : State) (h : Hdr) (off : BitVec 16) (a : Opd) (x : Site),
  (∀ (w : Word) (n : Int), n ≠ 0 →
    (arrivalStep w n).setWidth 31 = w.setWidth 31 + BitVec.ofInt 31 n ∧
    ((arrivalStep w n).msb ≠ w.msb ↔ w.setWidth 31 + BitVec.ofInt 31 n = 0#31)) ∧
  (∀ w, arrivalStep w 0 = w) ∧
  (∀ (c : Crew) (o : Nat) (w : Word), (c.awSet o w).awGet o = w ∧
    ∀ o', o' + 4 ≤ o ∨ o + 4 ≤ o' → (c.awSet o w).awGet o' = c.awGet o') ∧
  (∀ (c : Crew) (k slot : Nat), k < 16 →
    let head := c.awGet (0x3C0 + 4 * k)
    let base := (head.extractLsb' 16 10).toNat
    let len := (head.extractLsb' 0 7).toNat
    c.ringSlot? k slot = if head.extractLsb' 26 6 ≠ 0#6 ∨ head.extractLsb' 7 9 ≠ 0#9 ∨ len = 0 ∨ len ≤ slot ∨ 0x3C0 < base + 8 * len
      then none else some (base + 8 * slot)) ∧
  (s.site? = some x → x.umask h ≠ 0#32 →
    let v := x.read s (lowest (x.umask h)) a
    let was := x.c.awGet off.toNat
    let put := fun o w => s.setCrew (x.c.awSet o w)
    Ends (.arrvSet h (.aw off) a) s x (put off.toNat v) [] ∧
    (v.toNat < 2 ^ 30 → Ends (.arrvAdd h (.aw off) a) s x (put off.toNat (arrivalStep was v.toNat)) [] ∧
      Ends (.arrvExpect h (.aw off) a) s x (put off.toNat (arrivalStep was (-(v.toNat : Int)))) []) ∧
    (2 ^ 30 ≤ v.toNat → Traps (.arrvAdd h (.aw off) a) s x 0x11#8 ∧ Traps (.arrvExpect h (.aw off) a) s x 0x11#8) ∧
    (∀ (d : Opd) (k : BitVec 4) (slot : BitVec 12) (prod lap : Bool),
      (x.c.ringSlot? k.toNat slot.toNat = none →
        Traps (.ringTake h d (.ring k slot) prod lap) s x 0x12#8 ∧ Traps (.ringGive h (.ring k slot) prod lap) s x 0x12#8) ∧
      (∀ o, x.c.ringSlot? k.toNat slot.toNat = some o →
        Ends (.ringTake h d (.ring k slot) prod lap) s x (s.modGroup x.g.key (fun g => g.writeAll d (wordOf
          (if prod then (x.c.awGet (o + 4)).msb == lap else (x.c.awGet o).msb != lap)))) [] ∧
        Ends (.ringGive h (.ring k slot) prod lap) s x
          (put (if prod then o else o + 4) (if (x.c.awGet (if prod then o else o + 4)).msb then 0#32 else 0x80000000#32)) [])))

/-- R45, R279, R383: a `yield` at which the group goes on: the watchdog takes the smaller of its deadline and the bound, the
count is 0, the registers that the live-mask entry names keep their values, and so do predicates, pins and arrival words. A
`yield` of a crew that is to leave its core, or that a crew of higher priority is to replace, stops the group, to resume at the word after the yield's `trail`, which counts
one in the new window (the count and the address are log entry 24); that a crew one group of which has stopped so stops at every
other group's next yield is the model's choice (log entry 22). No crew of another context makes one of context 0 leave
its core (R367). -/
def Obligations.Yields : Prop :=
  (∀ (s : State) (x : Site) (prio : Nat), s.outranked x prio → ∃ q l, q ∈ s.cands ∧ prio < q.prio ∧
    s.launch? q.handle = some l ∧ (x.ctx = 0 → l.ctx = 0)) ∧
  (∀ (s s1 : State) (h : Hdr) (dl : BitVec 16) (x y : Site),
    s.site? = some x → s.gather x = some (s1, y) → y.umask h ≠ 0#32 →
    y.c.pending = none → s1.outranked y (s1.queuePrio y.l) = false →
    let e := s1.liveEntry y.l y.f.pc
    ∃ t g c, exec (.yield h dl) s = .next t ∧ t.group? y.g.key = some g ∧ t.crew? y.c.id = some c ∧
      g.wdog = min (dl.toNat + 1) (s1.ybound y.ctx) ∧ g.frags = [{ y.after [] with count := 0 }] ∧ g.stat = y.g.stat ∧
      g.block = none ∧ g.g = y.g.g ∧ g.p = y.g.p ∧ g.pins = y.g.pins ∧ c.aw = y.c.aw ∧ c.pending = none ∧
      (∀ b k, e.vmask.getLsbD b → b * 256 ≤ k → k < b * 256 + 256 → g.v.get k = y.g.v.get k) ∧
      (∀ k, e.sbase ≤ k → k < e.sbase + e.slen → c.scr.get k = y.c.scr.get k) ∧ t.mem = s.mem) ∧
  (∀ (s s1 : State) (h : Hdr) (dl : BitVec 16) (x y : Site) (why : Away),
    s.site? = some x → s.gather x = some (s1, y) → y.umask h ≠ 0#32 →
    (y.c.pending = some why ∨ (y.c.pending = none ∧ s1.outranked y (s1.queuePrio y.l) ∧ why = .prio)) →
    ∃ t g c f, exec (.yield h dl) s = .next t ∧ t.group? y.g.key = some g ∧ t.crew? y.c.id = some c ∧
      g.stat = .held ∧ g.frags = [f] ∧ f.pc = y.f.pc + 24 ∧ f.count = 1 ∧ f.pos = 0 ∧ f.mask = y.f.mask ∧
      g.wdog = min (dl.toNat + 1) (s1.ybound y.ctx) ∧ c.pending = some why ∧ g.g = y.g.g ∧ g.p = y.g.p ∧ g.pins = y.g.pins)

/-- R42, R43, R49, R280, R282: a `regroup` completes when every live group that it names waits at the same one, with the same
operands and role: the threads of the participants, in ascending gid and thread order, fill the groups of the lowest gids, with
the register blocks that the live operand names and the predicates, and the groups left over end. Until then the group
waits; groups at another regroup that either names, or of another role, all take trap 0x21. Which two addresses a record names
where several regroups clash is the model's choice (log entry 56). A `join` of a crew with no children left completes for every
live group, once all wait there; with children, the crew is to leave its core. -/
def Obligations.RegroupAndJoin : Prop :=
  (∀ (s s1 : State) (h : Hdr) (a b : Opd) (x y : Site),
    s.site? = some x → (s.gather x = none → WaitsForFragments (.regroup h a b) s x) ∧
    (s.gather x = some (s1, y) → y.umask h ≠ 0#32 → (s1.groups.map Group.key).Nodup → y.g.stat = .run → y.vregs ≤ 256 →
      let members := y.read s1 (lowest (y.umask h)) a
      let live := y.read s1 (lowest (y.umask h)) b
      let here := (y.f.pc, members, live, s1.word)
      let s2 := s1.blockOn y (.regroup y.f.pc members live s1.word)
      let crew := sortBy (fun p q => p.gid ≤ q.gid) (s2.groupsOf y.c.id)
      let ps := crew.filter (fun q => q.live && members.getLsbD q.gid)
      let one := fun (q : Group) => ∃ f, q.frags = [f] ∧ q.spilled = [] ∧ f.stack = []
      let at_ := fun (q : Group) => ∃ m, q.atRegroup = some m ∧ sameMeeting m here
      let stopped := fun (t : State) (q : Group) => ∀ m f, q.atRegroup = some m → q.frags = [f] → ∃ g, t.group? q.key = some g ∧
        g.stat = .stopped (lowest f.mask) f.pc m.2.2.2 ∧ g.v = q.v ∧ g.g = q.g ∧ g.p = q.p
      ((∃ k < 32, live.getLsbD k ∧ y.vregs / 8 ≤ k) → ∃ t : Trap, t.cause = 0x12#8 ∧ exec (.regroup h a b) s = .next (s1.trap y t)) ∧
      ((∀ k < 32, live.getLsbD k → k < y.vregs / 8) →
        (members.getLsbD y.g.gid = false → ∃ t : Trap, t.cause = 0x21#8 ∧ exec (.regroup h a b) s = .next (s1.trap y t)) ∧
        (members.getLsbD y.g.gid → (∀ q ∈ crew, one q) →
          -- the order of the meeting: ascending gid
          ps.Pairwise (fun p q => p.gid < q.gid) ∧
          (∀ q, q ∈ ps ↔ q ∈ s2.groups ∧ q.crew = y.c.id ∧ q.stat ≠ .ended ∧ members.getLsbD q.gid) ∧
          -- somebody has not come
          (clashes members live y.f.pc y.g crew = [] → (∃ q ∈ ps, ¬ at_ q) → exec (.regroup h a b) s = .next s2) ∧
          -- the meeting completes
          (clashes members live y.f.pc y.g crew = [] → (∀ q ∈ ps, at_ q ∧ y.l.roleNow q = y.l.roleNow y.g) →
            let ts := ps.flatMap (fun q => (lanes (q.frags.foldl (fun m f => m ||| f.mask) 0#32)).map (fun i => (q, i)))
            ∃ t, exec (.regroup h a b) s = .next t ∧ ∀ k d, ps[k]? = some d → ∃ g, t.group? d.key = some g ∧
              (ts.length ≤ 32 * k → g.stat = .ended) ∧
              (32 * k < ts.length → g.stat = .run ∧ g.block = none ∧ g.g = d.g ∧ g.pins = d.pins ∧ g.fpmode = d.fpmode ∧
                g.frags.map (·.mask) = [maskOf (fun i => decide (32 * k + i < ts.length))] ∧
                g.frags.map (·.pc) = d.frags.map (fun f => f.pc + 12) ∧
                ∀ i < 32, ∀ q j, ts[32 * k + i]? = some (q, j) →
                  (∀ n : BitVec 8, live.getLsbD (n.toNat / 8) → g.vreg n i = q.vreg n j) ∧ ∀ n : BitVec 3, g.pred n i = q.pred n j)) ∧
          -- the roles differ, or regroups clash
          (clashes members live y.f.pc y.g crew = [] → (∀ q ∈ ps, at_ q) → (∃ q ∈ ps, y.l.roleNow q ≠ y.l.roleNow y.g) →
            ∃ t, exec (.regroup h a b) s = .next t ∧ ∀ q ∈ ps, stopped t q) ∧
          (clashes members live y.f.pc y.g crew ≠ [] → ∃ t, exec (.regroup h a b) s = .next t ∧
            (∀ q ∈ crew, at_ q ∨ (∃ m, q.atRegroup = some m ∧ ∃ k ∈ clashes members live y.f.pc y.g crew, sameMeeting m k) → stopped t q) ∧
            ∀ q ∈ s2.groups, (∀ m, q.atRegroup = some m → q.crew = y.c.id → sameMeeting m here = false ∧
              ∀ k ∈ clashes members live y.f.pc y.g crew, sameMeeting m k = false) → t.group? q.key = some q))))) ∧
  (∀ (s : State) (gk lo hi : Nat) (x : Site) (m : Nat × Word × Word × IWord), s.siteAt gk (lowest x.f.mask) = some x →
    x.g.frags = [x.f] → x.g.atRegroup = some m →
    s.regroupTrap gk lo hi = { State.stop { s with word := m.2.2.2 } x ⟨0x21#8, 0#64, BitVec.ofNat 64 lo, BitVec.ofNat 64 hi, false⟩
      0#32 false x.f.pc with word := s.word }) ∧
  (∀ (s s1 : State) (h : Hdr) (x y : Site),
    s.site? = some x → (s.gather x = none → WaitsForFragments (.join h) s x) ∧
    (s.gather x = some (s1, y) → y.umask h ≠ 0#32 → (s1.groups.map Group.key).Nodup → y.g.stat = .run →
      let s2 := s1.blockOn y .join
      let others := s1.groups.filter (fun q => q.crew == y.c.id && q.key != y.g.key && q.live)
      ((∃ q ∈ others, q.atJoin = false) → exec (.join h) s = .next s2) ∧
      ((∀ q ∈ others, q.atJoin) →
        (y.c.children = 0 → y.c.pending ≠ some .join → (∀ q ∈ others, ∃ f, q.frags = [f] ∧ q.spilled = [] ∧ f.stack = []) →
          ∃ t, exec (.join h) s = .next t ∧ ∀ q ∈ y.g :: others, ∃ g, t.group? q.key = some g ∧ g.stat = .run ∧ g.block = none ∧
            g.frags.map (·.pc) = q.frags.map (fun f => f.pc + 12) ∧ g.frags.map (·.mask) = q.frags.map (·.mask) ∧
            g.v = q.v ∧ g.g = q.g ∧ g.p = q.p) ∧
        ((y.c.children ≠ 0 ∨ y.c.pending = some .join) → ∃ t g c, exec (.join h) s = .next t ∧ t.group? y.g.key = some g ∧
          g.block = some .join ∧ g.frags.map (·.pc) = [y.f.pc] ∧ t.crew? y.c.id = some c ∧ c.pending = some .join))))

/-- R54, R173 to R177: control transfers note, at their own word, what their trailer will do. A branch of a fragment whose
threads disagree divides it; a target that is no instruction address traps with 0x13. That a call writes its link at its own
word, while the transfer waits for the trailer, is the model's reading (log entry 20). -/
def Obligations.ControlTransfers : Prop := ∀ (s : State) (h : Hdr) (x : Site), s.site? = some x →
  let goes := fun (t : Xfer) => { x with f := { x.f with xfer := some t } }
  (∀ off rec, let taken := maskOf (fun i => x.f.mask.getLsbD i && (x.g.pred h.prd i != h.neg))
    let target := fun (o : BitVec 16) => (((x.f.pc : Int) + 12 * o.toInt) % 2 ^ 64).toNat
    Ends (.br h off rec) s (goes (if taken = x.f.mask then .goto (target off)
      else if taken = 0#32 then .goto (x.f.pc + 24)
      else .split taken (target off) (x.f.pc + 24) (target (rec.getD 0#16)))) s []) ∧
  (x.umask h ≠ 0#32 →
    Ends (.exit h) s (goes .exit) s [] ∧
    (∀ a, let ta := (x.read64 s (lowest (x.umask h)) a).toNat
      let good := ta < 2 ^ 56 ∧ (x.l.desc.entry : Int) % 12 = (ta : Int) % 12
      (good → Ends (.jmp h a) s (goes (.goto ta)) s [] ∧ Ends (.ret h a) s (goes (.goto ta)) s []) ∧
      (¬ good → Traps (.jmp h a) s x 0x13#8 ∧ Traps (.ret h a) s x 0x13#8) ∧
      (∀ d : BitVec 6, a.isG → let linked := s.modGroup x.g.key (fun g =>
          { g with g := (g.g.set d.toNat (BitVec.ofNat 32 (x.f.pc + 24))).set (d + 1#6).toNat
                          (BitVec.ofNat 32 ((x.f.pc + 24) / 2 ^ 32)) })
        (good → Ends (.call h (.g d) a) s (goes (.goto ta)) linked [.g d, .g (d + 1#6)]) ∧
        (¬ good → Traps (.call h (.g d) a) s x 0x13#8) ∧
        (∀ off : BitVec 16, Ends (.call h (.g d) (.si off)) s
          (goes (.goto (((x.f.pc : Int) + 12 * off.toInt) % 2 ^ 64).toNat)) linked [.g d, .g (d + 1#6)]))))

/-- R37, R39 to R41, R70, R173, R278: the trailer waits while a register write of its run that it does not name is outstanding;
then it counts, and its fragment goes on to the next word, to the target, or as two fragments, or ends. A division that finds the
split table full makes room; fragments that all wait at the reconvergence address fuse; two points that wait for one another take
trap 0x04; and a group with no fragment left ends. First for an undivided group, then for two fragments of one split, then for
every group. -/
def Obligations.Trailer : Prop := ∀ (s : State) (h : Hdr) (regs : List Opd) (x : Site), s.site? = some x →
  ((∃ p ∈ x.g.out, p.inRun ∧ p.frag &&& x.f.mask ≠ 0#32 ∧ ∃ r ∈ p.regs, r ∉ regs) → exec (.trail h regs) s = .next s) ∧
  ((∀ p ∈ x.g.out, p.inRun = false ∨ p.frag &&& x.f.mask = 0#32 ∨ ∀ r ∈ p.regs, r ∈ regs) →
    let after := { x.counted with pos := 0, tw := 0#8, xfer := none, replay := none, due := false, owes := [], early := false }
    let no := (x.g.splitNo + 1) % 2 ^ 16
    (x.g.frags = [x.f] → x.g.spilled = [] → x.f.stack = [] → x.f.atPoint = false →
      ∃ t g, exec (.trail h regs) s = .next t ∧ t.group? x.g.key = some g ∧ t.dev = s.dev ∧
        (x.f.xfer = none → g.frags = [{ after with pc := x.f.pc + 12 }] ∧ g.stat = x.g.stat ∧ t.mem = s.mem ∧ g.v = x.g.v) ∧
        (∀ a, x.f.xfer = some (.goto a) → g.frags = [{ after with pc := a }] ∧ g.stat = x.g.stat ∧ t.mem = s.mem ∧ g.v = x.g.v) ∧
        (x.f.xfer = some .exit → g.frags = [] ∧ g.stat = .ended) ∧
        (∀ taken ta fa r, x.f.xfer = some (.split taken ta fa r) → x.f.mask &&& taken ≠ 0#32 → x.f.mask &&& ~~~ taken ≠ 0#32 →
          g.splitNo = no ∧ t.mem = s.mem ∧ g.stat = x.g.stat ∧
          -- one side may be at the reconvergence address at once, and waits there
          (ta ≠ r ∨ fa ≠ r → g.frags = [{ after with mask := x.f.mask &&& taken, pc := ta, stack := [(r, no)] },
                                        { after with mask := x.f.mask &&& ~~~ taken, pc := fa, stack := [(r, no)] }]) ∧
          (ta = r → fa = r → g.frags = [{ after with pc := r }]))) ∧
    -- two fragments of one split, of which the other waits at the reconvergence address
    (∀ q r n st, x.g.frags = [x.f, q] → x.g.spilled = [] → lowest x.f.mask ≠ lowest q.mask → x.f.atPoint = false → q.atPoint = false →
      x.f.stack = (r, n) :: st → q.stack = (r, n) :: st → q.pc = r → q.xfer = none → (∀ e ∈ st.head?, e.1 ≠ r) →
      ∃ t g, exec (.trail h regs) s = .next t ∧ t.group? x.g.key = some g ∧ g.stat = x.g.stat ∧ g.v = x.g.v ∧ g.spilled = [] ∧
        t.mem = s.mem ∧ t.dev = s.dev ∧
        (∀ a, x.f.xfer = some (.goto a) ∨ (x.f.xfer = none ∧ a = x.f.pc + 12) →
          (a ≠ r → g.frags = [{ after with pc := a }, q]) ∧
          (a = r → g.frags = [⟨x.f.mask ||| q.mask, r, st, max after.count q.count, 0, 0#8, none, none, false, false, [], false⟩])) ∧
        (x.f.xfer = some .exit → g.frags = [⟨q.mask, r, st, q.count, 0, 0#8, none, none, false, false, [], false⟩])) ∧
    -- any group
    (let pieces := match x.f.xfer with
       | none => [{ after with pc := x.f.pc + 12 }]
       | some (.goto a) => [{ after with pc := a }]
       | some .exit => []
       | some (.split taken ta fa r) =>
         [{ after with mask := x.f.mask &&& taken, pc := ta, stack := (r, no) :: x.f.stack },
          { after with mask := x.f.mask &&& ~~~ taken, pc := fa, stack := (r, no) :: x.f.stack }]
     let divides := match x.f.xfer with
       | some (.split _ _ _ _) => true
       | _ => false
     let g0 : Group := { x.g with
       out := x.g.out.map (fun p => if p.frag &&& x.f.mask = 0#32 then p else { p with inRun := false }),
       frags := x.g.frags.flatMap (fun y => if lowest y.mask == lowest x.f.mask then pieces else [y]),
       splitNo := if divides then no else x.g.splitNo }
     let g1 := if divides then g0.spill (fun y => y.mask &&& x.f.mask != 0#32) else g0
     let t1 := (s.setGroup g1).setGroup g1.settle
     (g1.all = [] → exec (.trail h regs) s = .next ((s.setGroup g1).endGroup x.g.key)) ∧
     (g1.all ≠ [] → g1.settle.deadlock = none → exec (.trail h regs) s = .next t1) ∧
     (∀ p q, g1.all ≠ [] → g1.settle.deadlock = some (p, q) →
       exec (.trail h regs) s = .next (t1.overrun { x with g := g1.settle } (x.offset p) (x.offset q)))))

/-- R39, R40: the oldest waiting fragment takes a free entry of the split table; a ninth fragment makes one go to the overflow
store, a waiting one that was in the table if there is one, else any, the two new ones included, and of these the deepest, then
the one with the highest lowest thread; fragments of one split
that all wait at its reconvergence address fuse, with the union of their threads and the largest count. That the fused fragment has
the larger count, and starts a run, at position 0 and with no temporary written, is the model's reading (log entry 6). -/
def Obligations.Fragments : Prop :=
  (∀ (s : State) (gk : Nat) (g : Group) (f : Frag) (r : List Frag), s.group? gk = some g → g.spilled = f :: r →
    (g.frags.length < 8 → exec (.fragmentReturn gk) s = .next (s.setGroup { g with frags := g.frags ++ [f], spilled := r })) ∧
    (8 ≤ g.frags.length → exec (.fragmentReturn gk) s = .next s)) ∧
  (∀ (g : Group) (fresh : Frag → Bool), (g.frags.length ≤ 8 → g.spill fresh = g) ∧
    (8 < g.frags.length → ∃ f ∈ g.frags,
      g.spill fresh = { g with frags := g.frags.filter (fun y => lowest y.mask != lowest f.mask), spilled := g.spilled ++ [f] } ∧
      let first := fun (y : Frag) => y.waits ∧ fresh y = false
      ((∃ y ∈ g.frags, first y) → first f) ∧
      ∀ y ∈ g.frags, (first y ∨ ¬ first f) → y.stack.length < f.stack.length ∨
        (y.stack.length = f.stack.length ∧ lowest y.mask ≤ lowest f.mask))) ∧
  (∀ (g : Group) (p q : Frag) (a n : Nat) (st : List (Nat × Nat)), g.frags = [p, q] → g.spilled = [] →
    p.stack = (a, n) :: st → q.stack = (a, n) :: st → p.pc = a → q.pc = a → p.xfer = none → q.xfer = none →
    (∀ e ∈ st.head?, e.1 ≠ a) →
    g.settle.spilled = [] ∧ g.settle.frags = [⟨p.mask ||| q.mask, a, st, max p.count q.count, 0, 0#8, none, none, false, false, [], false⟩])

/-! ## Exceptions -/

/-- R45, R385: a trap stops the group at its word. The word has counted, the registers keep their values, TRAPS of the
launch rises by one, and nothing else of the package changes but the record that `State.writeRecord` puts into memory, and what
a store there leaves undefined of tables in use (R129). -/
def Obligations.TrapStops : Prop := ∀ (s : State) (x : Site) (t : Trap), s.site? = some x →
  let r := x.record s t 0 0#32
  let w := s.writeRecord x.c.die r
  let u := s.trap x t
  (r.cause = t.cause ∧ r.pc = x.f.pc ∧ r.word = s.word ∧ r.gid = x.g.gid ∧ r.slot = x.g.slot ∧ r.ctx = x.ctx ∧ r.mask = 0#32 ∧
    r.flags = (if t.role then 2 else 0) ∧ r.tsc = s.tsc.toNat ∧ r.info0 = t.i0 ∧ r.info1 = t.i1 ∧ r.info2 = t.i2 ∧
    r.src = x.c.die * 2 ^ 11 + x.c.core % 64 * 2 ^ 5 + x.g.lane) ∧
  u.group? x.g.key = some { x.g.setFrag (lowest x.f.mask) x.counted with
    stat := .stopped (lowest x.f.mask) x.f.pc s.word, recount := false } ∧
  (∀ k, k ≠ x.g.key → u.group? k = s.group? k) ∧
  (∀ k, u.launch? k = if k = x.l.handle then (w.launch? k).map (fun l => { l with traps := l.traps + 1 }) else w.launch? k) ∧
  u.mem = w.mem ∧ u.crews = w.crews ∧ OnlyMemory s w ∧
  u.bufs = s.bufs ∧ u.dev = s.dev ∧ u.tiles = s.tiles ∧ u.pins = s.pins ∧ u.engines = s.engines ∧ u.stats = s.stats ∧
  u.ctxs = s.ctxs ∧ u.djobs = s.djobs ∧ u.deferred = s.deferred ∧ u.podBars = w.podBars ∧ u.cores = s.cores ∧ u.sys = s.sys

/-- R387, R389: where the fields of a fault record lie. A record goes to PUT mod 4,096 of the die's ring, and PUT advances;
when the ring is full only LOST rises. -/
def Obligations.FaultRecords : Prop :=
  (∀ r : FaultRec,
    let w : BitVec 512 := BitVec.ofNat 512 r.toNat
    r.toNat < 2 ^ 512 ∧ w.extractLsb' 0 64 = r.info0 ∧ w.extractLsb' 64 64 = r.info1 ∧ w.extractLsb' 128 64 = r.info2 ∧
    w.extractLsb' 192 32 = r.mask ∧ w.extractLsb' 224 96 = r.word ∧ w.extractLsb' 320 64 = BitVec.ofNat 64 r.pc ∧
    w.extractLsb' 384 8 = BitVec.ofNat 8 r.slot ∧ w.extractLsb' 392 8 = BitVec.ofNat 8 r.gid ∧
    w.extractLsb' 400 8 = BitVec.ofNat 8 r.flags ∧ w.extractLsb' 408 8 = r.cause ∧ w.extractLsb' 416 16 = BitVec.ofNat 16 r.ctx ∧
    w.extractLsb' 432 16 = BitVec.ofNat 16 r.src ∧ w.extractLsb' 448 64 = BitVec.ofNat 64 r.tsc) ∧
  (∀ (s : State) (die put get : Nat) (r : FaultRec) (b : Boot), s.sys.boot = some b →
    let base := b.fq + die * 327680
    s.cohNat? 0 base 4 = some put → s.cohNat? 0 (base + 4) 4 = some get →
    -- the records not taken yet, also once PUT has wrapped below GET
    let used := (put + 2 ^ 32 - get) % 2 ^ 32
    (used < 4096 →
      s.writeRecord die r = (s.cohStore 0 (base + 64 + 64 * (put % 4096)) 64 r.toNat).cohStore 0 base 4 ((put + 1) % 2 ^ 32)) ∧
    (∀ lost, 4096 ≤ used → s.cohNat? 0 (base + 8) 4 = some lost →
      s.writeRecord die r = s.cohStore 0 (base + 8) 4 ((lost + 1) % 2 ^ 32)))

/-- R81, R82, R391, R393, R398: the words that trap of themselves. A word that is no instruction stops the group at the word
and counts nothing; the `trap` instruction counts, and resumes past its trailer. -/
def Obligations.DecodeAndSoftwareTraps : Prop := ∀ (s : State) (x : Site), s.site? = some x →
  (∀ cause role, ∃ t r, exec (.illegalWord cause role) s = .next t ∧
    t.group? x.g.key = some { x.g.setFrag (lowest x.f.mask) x.f with
      stat := .stopped (lowest x.f.mask) x.f.pc s.word, recount := false } ∧
    (∀ k, k ≠ x.g.key → t.group? k = s.group? k) ∧
    (t.launch? x.l.handle).map Launch.plain = some { x.l with traps := x.l.traps + 1 }.plain ∧
    r.word = s.word ∧ r.cause = cause ∧ r.pc = x.f.pc ∧ r.flags = (if role then 2 else 0) ∧
    t.mem = (s.writeRecord x.c.die r).mem ∧ t.bufs = s.bufs ∧ t.dev = s.dev ∧
    t.crews = (s.writeRecord x.c.die r).crews ∧ t.crews.map Crew.bare = s.crews.map Crew.bare ∧ t.pins = s.pins ∧
    t.tiles = s.tiles ∧ t.stats = s.stats ∧ t.ctxs = s.ctxs) ∧
  (∀ h code, x.umask h ≠ 0#32 → ∃ t g r, exec (.trap h code) s = .next t ∧ t.group? x.g.key = some g ∧
    g.stat = .stopped (lowest x.f.mask) (x.f.pc + 24) s.word ∧ g.v = x.g.v ∧ g.g = x.g.g ∧ g.p = x.g.p ∧
    (t.launch? x.l.handle).map Launch.plain = some { x.l with traps := x.l.traps + 1 }.plain ∧
    r.cause = 0x40#8 ∧ r.info0 = code.setWidth 64 ∧ r.word = s.word ∧ r.pc = x.f.pc ∧
    t.mem = (s.writeRecord x.c.die r).mem ∧ t.crews.map Crew.bare = s.crews.map Crew.bare) ∧
  (∀ h code, x.umask h = 0#32 → Ends (.trap h code) s x s [])

/-- R45, R177, R391, R394: a word whose count would exceed the watchdog does not execute, and its group is killed; one that
does not exceed it is not an overrun. -/
def Obligations.WatchdogOverrun : Prop := ∀ (s : State) (x : Site), s.site? = some x →
  (x.counted.count ≤ x.g.wdog → exec .watchdogOverrun s = .next s) ∧
  (x.g.wdog < x.counted.count → ∃ t g l, exec .watchdogOverrun s = .next t ∧ t.group? x.g.key = some g ∧
    g.stat = .ended ∧ g.frags = [] ∧ g.spilled = [] ∧ g.out = [] ∧ t.launch? x.l.handle = some l ∧
    l.traps = x.l.traps + 1 ∧ l.killed = x.l.killed + 1)

/-- R392 to R394: what the control core does with a stopped group. A resume lets it run at its resume address: at its own word
as it stood, elsewhere in its run with its temporaries (R72), and anywhere else at the start of a run (R67); what it had to
replay or to transfer to is then gone (log entry 27). An address that is no instruction's takes trap 0x13, with the word of the
earlier stop in the record (log entry 19). Where it resumes, fragments of its split may fuse (R40). A kill ends the group; a patch through the window changes exactly the word that it
names. -/
def Obligations.StoppedGroups : Prop := ∀ (s : State) (gk low resume : Nat) (w : IWord) (g : Group) (c : Crew) (l : Launch) (f : Frag),
  s.group? gk = some g → g.stat = .stopped low resume w → s.crew? g.crew = some c → s.launch? c.handle = some l →
  g.all.find? (fun f => lowest f.mask == low) = some f →
  (let runs := fun (q : Frag) (b : Option Block) =>
     let g1 : Group := { g.setFrag low q with stat := .run, block := b, recount := g.block.isSome }
     exec (.debugResume gk) s = .next (if q.stack = [] then s.setGroup g1 else (s.setGroup g1).settle ⟨g1, q, c, l⟩)
   let moved := { f with pc := resume, replay := none, xfer := none, due := false, atPoint := false, owes := [], early := false }
   let inside := f.pc - 12 * f.pos ≤ resume ∧ resume ≤ f.pc - 12 * f.pos + 23 * 12 ∧
     ∀ k < (resume - f.pc) / 12, s.trailAt c.die l.ctx (f.pc + 12 * k) = false
   ((l.desc.entry : Int) % 12 = (resume : Int) % 12 →
      (resume = f.pc → runs f g.block) ∧
      (resume ≠ f.pc → inside → runs { moved with pos := (resume + 12 * f.pos - f.pc) / 12 } none) ∧
      (resume ≠ f.pc → ¬ inside → runs { moved with pos := 0, tw := 0#8 } none) ∧
      -- a fragment resumed at its reconvergence address, where the other one of its split waits, fuses with it
      (∀ q n st, g.frags = [f, q] → g.spilled = [] → lowest f.mask ≠ lowest q.mask → f.stack = (resume, n) :: st →
        q.stack = (resume, n) :: st → q.pc = resume → q.xfer = none → q.atPoint = false → resume ≠ f.pc →
        (∀ e ∈ st.head?, e.1 ≠ resume) → ∃ t g', exec (.debugResume gk) s = .next t ∧ t.group? gk = some g' ∧ g'.stat = .run ∧
          g'.frags = [⟨f.mask ||| q.mask, resume, st, max f.count q.count, 0, 0#8, none, none, false, false, [], false⟩] ∧
          g'.spilled = [] ∧ g'.v = g.v ∧ g'.g = g.g ∧ g'.p = g.p ∧ t.mem = s.mem)) ∧
   ((l.desc.entry : Int) % 12 ≠ (resume : Int) % 12 → ∃ t g' r, exec (.debugResume gk) s = .next t ∧
      t.group? gk = some g' ∧ g'.stat = .stopped low f.pc w ∧ r.cause = 0x13#8 ∧ r.info0 = BitVec.ofNat 64 resume ∧
      r.word = w ∧ r.pc = f.pc ∧ t.mem = (s.writeRecord c.die r).mem)) ∧
  (∃ t g' l', exec (.debugKill gk) s = .next t ∧ t.group? gk = some g' ∧ g'.stat = .ended ∧ g'.all = [] ∧
    t.launch? c.handle = some l' ∧ l'.killed = l.killed + 1) ∧
  -- the window of a resident group lies at the address that its core, lane and slot give, and reads as its state
  (∀ off, c.stat = .resident → g.lane < 32 → g.slot < 8 → off < 0x20000 →
    (∀ q ∈ s.groups, q.stat ≠ .ended → q.lane = g.lane → q.slot = g.slot → (∃ y, s.crew? q.crew = some y ∧ y.stat = .resident ∧
      y.core = c.core) → q = g) →
    let addr := 0x00F000000000 + c.core % 64 * 0x2000000 + g.lane * 0x100000 + g.slot * 0x20000 + off
    s.windowGroup (c.core / 64) addr = some (g, off) ∧
    s.windowRead (c.core / 64) addr = g.window l.desc.vregs low resume off) ∧
  (∀ value, exec (.debugWindowWrite gk 0x8814 1#32) s = exec (.debugResume gk) s ∧
    exec (.debugWindowWrite gk 0x8814 2#32) s = exec (.debugKill gk) s ∧
    (value ≠ 1#32 → value ≠ 2#32 → exec (.debugWindowWrite gk 0x8814 value) s = .next s)) ∧
  (∀ off value, off % 4 = 0 → off ≠ 0x8814 → ∃ g', exec (.debugWindowWrite gk off value) s = .next (s.setGroup g') ∧
    (∀ (n : BitVec 8) i, i < 32 → n.toNat < l.desc.vregs →
      g'.vreg n i = if off = (n.toNat * 32 + i) * 4 then value else g.vreg n i) ∧
    (∀ n, n < 64 → g'.greg n = if off = 0x8000 + 4 * n then value else g.greg n) ∧
    (∀ (n : BitVec 3) i, i < 32 → g'.pred n i = if off = 0x8100 + 4 * n.toNat ∧ n ≠ 0#3 then value.getLsbD i else g.pred n i) ∧
    (∀ (n : BitVec 3) i, i < 32 → g'.treg n i = if off = 0x8400 + (n.toNat * 32 + i) * 4 then value else g.treg n i) ∧
    g'.frags = g.frags ∧ g'.spilled = g.spilled ∧ g'.pins = g.pins ∧ g'.faultmask = g.faultmask ∧
    g'.fpmode = (if off = 0x8808 ∧ value.toNat / 128 = 0 ∧ value.getLsbD 3 = false then value else g.fpmode) ∧
    g'.stat = (if off = 0x8800 then .stopped low (resume / 2 ^ 32 * 2 ^ 32 + value.toNat) w
      else if off = 0x8804 then .stopped low (resume % 2 ^ 32 + 2 ^ 32 * value.toNat) w else g.stat))

/-- R236, R392: a parked group runs again once its mapping is installed, with its replay as it stood; where there is no
mapping it stops with cause 0x11 and a second record that says so. The pause of a copy job, of a device job or of a Cascade
job ends with its service; without a mapping a copy job ends and a Cascade job has its cause, each with its second record. -/
def Obligations.ParkServices : Prop := ∀ (s : State) (lf : Leaf),
  (∀ gk g c l low va w f, s.group? gk = some g → g.stat = .parked low false va w → s.crew? g.crew = some c →
    c.stat = .resident → s.launch? c.handle = some l → g.all.find? (fun f => lowest f.mask == low) = some f →
    (∃ t, exec (.parkService (.group gk) (some lf)) s = .next t ∧ t.group? gk = some { g with stat := .run } ∧
      (∀ i < 8, memGet t.mem (lf.key + i) = BitVec.ofNat 8 (lf.value.toNat / 256 ^ i)) ∧
      (∀ k, k < lf.key ∨ lf.key + 8 ≤ k → memGet t.mem k = memGet s.mem k)) ∧
    (∃ t g' r, exec (.parkService (.group gk) none) s = .next t ∧ t.group? gk = some g' ∧ g'.stat = .stopped low f.pc w ∧
      g'.v = g.v ∧ g'.g = g.g ∧ g'.p = g.p ∧ r.cause = 0x11#8 ∧ r.flags = 16 ∧ r.word = w ∧ r.pc = f.pc ∧
      r.mask = f.replay.getD 0#32 ∧ r.info0 = BitVec.ofNat 64 va ∧ t.mem = (s.writeRecord c.die r).mem)) ∧
  (∀ e k j, (s.queue e)[k]? = some j → j.paused →
    (∃ t, exec (.parkService (.engine e k) (some lf)) s = .next t ∧ (t.queue e)[k]? = some { j with paused := false }) ∧
    (∀ c l g, (∀ x, j.kind ≠ .gather x) → (if j.kind = .cvt then s.cvtTaints j = [] ∧ s.cvtStored j = [] else s.taints j = []) →
      s.crew? j.crew = some c → s.launch? c.handle = some l → s.group? (j.crew * 32 + j.gid) = some g →
      ∃ t r, exec (.parkService (.engine e k) none) s = .next t ∧ t.queue e = (s.queue e).eraseIdx k ∧
        r.cause = 0x11#8 ∧ r.flags = 24 ∧ r.word = j.word ∧ r.pc = j.pc ∧ t.mem = (s.writeRecord c.die r).mem)) ∧
  (∀ d k j, s.djob? d k = some j → j.paused → ∃ t, exec (.parkService (.device d k) (some lf)) s = .next t ∧
    t.djobs[k]? = some { j with paused := false }) ∧
  (∀ crew k c j, s.crew? crew = some c → c.unit.jobs[k]? = some j → j.paused →
    (∃ t c', exec (.parkService (.cascade crew k) (some lf)) s = .next t ∧ t.crew? crew = some c' ∧
      c'.unit.jobs[k]? = some { j with paused := false }) ∧
    (∃ t c', exec (.parkService (.cascade crew k) none) s = .next t ∧ t.crew? crew = some c' ∧
      c'.unit.jobs[k]? = some { j with paused := false, fault := some 0x11#8 } ∧
      ∀ l g, s.launch? c.handle = some l → s.group? (crew * 32 + j.gid) = some g → ∃ r, r.cause = 0x11#8 ∧ r.flags = 24 ∧
        r.word = j.word ∧ r.pc = j.pc ∧ t.mem = (s.writeRecord c.die r).mem))

/-- R262, R386, R387, R390: a cause that a job meets writes its record at once, with the time of the cause, and counts in TRAPS; it
reaches its group at an instruction boundary: the group stops there, to resume at the instruction that issued the job, and
no further record is written. -/
def Obligations.JobFaultDelivery : Prop :=
  (∀ (s : State) (crew gid : Nat) (g : Group) (c : Crew) (l : Launch) (j : JobFault),
    s.group? (crew * 32 + gid) = some g → g.stat ≠ .ended → s.crew? crew = some c → s.launch? c.handle = some l →
    let r := j.record s l.ctx gid g.slot 8
    let t := s.jobFault crew gid j
    r.tsc = s.tsc.toNat ∧ r.cause = j.cause ∧ r.pc = j.pc ∧ r.word = j.word ∧ t.mem = (s.writeRecord c.die r).mem ∧
    t.group? (crew * 32 + gid) = some { g with jobFaults := g.jobFaults ++ [{ j with silent := true }] } ∧
    (t.launch? l.handle).map Launch.traps = some (l.traps + 1)) ∧
  ∀ (s : State) (gk : Nat) (g : Group) (c : Crew) (l : Launch) (j : JobFault) (r : List JobFault),
  s.group? gk = some g → g.jobFaults = j :: r → g.frags ≠ [] → s.crew? g.crew = some c → s.launch? c.handle = some l →
  (s.deliverable g = false → exec (.jobFaultDelivery gk) s = .next s) ∧
  (g.stat = .run → c.stat = .resident → (∀ f ∈ g.all, f.replay = none ∧ f.due = false) →
    ∃ t g' low, exec (.jobFaultDelivery gk) s = .next t ∧ t.group? gk = some g' ∧
      g' = { g with jobFaults := r, stat := .stopped low j.pc j.word } ∧ (∃ f ∈ g.all, lowest f.mask = low) ∧
      (t.launch? c.handle).map Launch.traps = some (l.traps + if j.silent then 0 else 1) ∧
      (j.silent → t.mem = s.mem ∧ t.launches = s.launches ∧ t.crews = s.crews))

/-! ## The Cascade unit -/

/-- R284, R297, R304 to R316: the matrix instructions. One that passes its checks puts its job into the window of its unit,
with the fields of its block; `epcfg` and `mring.pop` act at once where no job stands before them; a failing ring check
traps; `mfence` opens a new window; `mring.stat` and the debug reads answer. That a group which finds room waits behind one that has
waited longer for the same window is the model's reading (log entry 52). -/
def Obligations.CascadeInstructions : Prop := ∀ (s : State) (h : Hdr) (x : Site), s.site? = some x →
  let u := x.c.unit
  (x.umask h ≠ 0#32 →
  (∀ (a b : Opd), let slot := (x.read s (lowest (x.umask h)) b).toNat
    let va := (x.read64 s (lowest (x.umask h)) a).toNat
    (∀ n : BitVec 16, a = .ui n →
      (n.toNat < x.l.desc.cbCnt → slot ≤ 15 → Issues (.mcb h a b) s x (.mcb slot (x.l.image.cbs + 32 * (x.l.desc.cb0 + n.toNat)))) ∧
      (x.l.desc.cbCnt ≤ n.toNat → Traps (.mcb h a b) s x 0x30#8)) ∧
    (∀ n, a = .g n → (slot ≤ 15 → va % 32 = 0 → Issues (.mcb h a b) s x (.mcb slot va)) ∧
      (slot ≤ 15 → va % 32 ≠ 0 → Traps (.mcb h a b) s x 0x13#8) ∧ (15 < slot → Traps (.mcb h a b) s x 0x11#8))) ∧
  (∀ (a : Opd) (n : BitVec 8) (ctd : Bool), let q := x.recRef n.toNat
    let tern := encOf (recEnc q.r) == some .tern
    let c := x.blk a 2
    let cnt := bits c 21 16 + 1
    (operandBad q (x.record? n.toNat).isSome [.k4, .k3, .k2, .tern] tern → Traps (.msort h ctd a (.rc n)) s x 0x30#8) ∧
    (operandBad q (x.record? n.toNat).isSome [.k4, .k3, .k2, .tern] tern = false → (recSmode q.r = 1 → recGsize q.r = 6) →
      c / 2 ^ 22 = 0 → bits c 15 12 = 0 → bits c 7 6 = 0 → bits c 5 0 + cnt ≤ 64 → (tern → bits c 11 8 = 0) →
      (ctd = false → x.blk a 1 = 0 → x.blk a 3 = 0 →
        Issues (.msort h ctd a (.rc n)) s x (.msort (x.blk a 0) cnt (bits c 11 8) (bits c 5 0) none 0 q)) ∧
      (ctd → s.tile? x.ctx x.l.handle (x.blk a 1) = none → Traps (.msort h ctd a (.rc n)) s x 0x18#8) ∧
      (∀ t, ctd → s.tile? x.ctx x.l.handle (x.blk a 1) = some t → 8 * x.blk a 3 + cnt * 64 * recWidth q.r ≤ t.lines * 1024 →
        Issues (.msort h ctd a (.rc n)) s x
          (.msort (x.blk a 0) cnt (bits c 11 8) (bits c 5 0) (some (x.blk a 1)) (x.blk a 3) q)))) ∧
  (∀ (a : Opd) (n : BitVec 8) (opn cls sp : Bool), let q := x.recRef n.toNat
    let c := x.blk a 2
    let cnt := bits c 21 16 + 1
    let ok := operandBad q (x.record? n.toNat).isSome [.f16, .bf16, .e4m3, .e5m2, .s8] false = false ∧ c / 2 ^ 30 = 0 ∧
      bits c 23 22 = 0 ∧ bits c 15 6 = 0 ∧ x.blk a 3 = 0
    (ok → (sp → ∀ r < cnt, outside x ((x.blk a 0 + r * x.blk a 1) * recWidth q.r) (64 * recWidth q.r) = false) →
      (headFails u opn false = false → Issues (.mparts h opn cls sp a (.rc n)) s x
        (.mparts opn cls sp (x.blk a 0) (x.blk a 1) (bits c 29 24) cnt (bits c 5 0) q)) ∧
      (headFails u opn false → Traps (.mparts h opn cls sp a (.rc n)) s x 0x11#8)) ∧
    (ok → sp → (∃ r < cnt, outside x ((x.blk a 0 + r * x.blk a 1) * recWidth q.r) (64 * recWidth q.r)) →
      Traps (.mparts h opn cls sp a (.rc n)) s x 0x12#8)) ∧
  (∀ (opn cls spa spb ctb : Bool) (d a b : Opd),
    (∀ op, loopJob s x false opn cls spa spb ctb d a b = .ok op → Issues (.mloopDense h opn cls spa spb ctb d a b) s x op) ∧
    (∀ t, loopJob s x false opn cls spa spb ctb d a b = .error t → Traps (.mloopDense h opn cls spa spb ctb d a b) s x t.cause) ∧
    (∀ op, loopJob s x true opn cls spa spb ctb d a b = .ok op → Issues (.mloopAttn h opn cls spa ⟨spb, ctb⟩ d a b) s x op) ∧
    (∀ t, loopJob s x true opn cls spa spb ctb d a b = .error t → Traps (.mloopAttn h opn cls spa ⟨spb, ctb⟩ d a b) s x t.cause) ∧
    -- `ctb` where it may not stand, once the records are good (R310, R316)
    (∀ (i j : BitVec 8), d = .rc i → b = .rc j → ctb →
      let ra := x.recRef i.toNat
      let rb := x.recRef j.toNat
      let m := x.recRef (bits (x.blk a 5) 15 8)
      operandBad ra (x.record? i.toNat).isSome denseEncs true = false → recCols ra.r ≠ 0 →
      operandBad rb (x.record? j.toNat).isSome denseEncs true = false → recCols rb.r ≠ 0 →
      (spb → Traps (.mloopDense h opn cls spa spb ctb d a b) s x 0x11#8) ∧
      ((x.record? m.ix).isSome → maskBad m = false → Traps (.mloopAttn h opn cls spa ⟨spb, ctb⟩ d a b) s x 0x11#8)) ∧
    (∀ (i j : BitVec 8), d = .rc i → b = .rc j → spa = false → spb = false → ctb = false → opn →
      let ra := x.recRef i.toNat
      let rb := x.recRef j.toNat
      operandBad ra (x.record? i.toNat).isSome denseEncs true = false → recCols ra.r ≠ 0 →
      operandBad rb (x.record? j.toNat).isSome denseEncs true = false → recCols rb.r ≠ 0 →
      1 ≤ x.blk a 4 → x.blk a 4 ≤ 65536 → x.blk a 5 = 0 → x.blk a 6 = 0 → x.blk a 7 = 0 →
      headFails u true (intPair ra.r rb.r) = false →
      loopJob s x false opn cls spa spb ctb d a b = .ok
        (.mloop true cls false false none (x.blk a 0) (x.blk a 1) (x.blk a 2) (x.blk a 3) (x.blk a 4) 0 ra rb none))) ∧
  (∀ a : Opd, Issues (.epcfg h a) s x (.epcfg (x.g.greg (opdGno a + 3) ++ x.g.greg (opdGno a + 2) ++
    x.g.greg (opdGno a + 1) ++ x.g.greg (opdGno a)))) ∧
  (tailFails u = false → Issues (.mringPop h) s x .pop) ∧ (tailFails u → Traps (.mringPop h) s x 0x11#8) ∧
  (∀ arv d a, let v := u.project.epc.toNat
    let q := x.recRef (epDrec v)
    let at_ := fun (k : Nat) => 8 * epOrigin v + (k / epCols v * epPitch v + k % epCols v) * recWidth q.r
    (((x.record? (epDrec v)).isNone ∨ recOk q.r true false = false) → Traps (.eprun h arv d a) s x 0x30#8) ∧
    ((x.record? (epDrec v)).isSome → recOk q.r true false → bits v 19 12 = 0 → bits v 6 2 = 0 → epBias v ≤ 1 → epScl v ≤ 2 →
      bits v 71 52 % 4 = 0 → bits v 51 32 % 4 = 0 →
      (epDsp v → ∀ k < epRows v * epCols v, outside x (at_ k) (recWidth q.r) = false) →
      x.inWindow (bits v 51 32) (if epScl v = 0 then 0 else if epScl v = 1 then 4 * epCols v else 4 * epRows v) →
      x.inWindow (bits v 71 52) (if epBias v = 0 then 0 else 4 * epCols v) →
      (tailFails u → Traps (.eprun h arv d a) s x 0x11#8) ∧
      (tailFails u = false → Issues (.eprun h arv d a) s x (.eprun (arvNo arv) ((d.map opdAw).getD 0)
        ((a.map (x.read s (lowest (x.umask h)))).getD 0#32) u.project.epc q)))) ∧
  Ends (.mfence h) s x (s.modGroup x.g.key (fun g => { g with opening := s.stamp })) [] ∧
  (∀ d, Ends (.mringStat h d) s x (s.result x d (BitVec.ofNat 32 (u.head + 8 * u.tail
    + (if (u.slot u.head).st = 1 ∧ (u.slot u.head).int32 then 64 else 0) + (if (u.slot u.head).st = 1 then 128 else 0)
    + 256 * (u.slots.filter (fun t => t.st == 2)).length + 4096 * u.pending))) [])) ∧
  (∀ d a : Opd, u.pending ≠ 0 → exec (.mreadPerm h d a) s = .next s ∧ exec (.mreadWs h d a) s = .next s) ∧
  (∀ (d : BitVec 8) (a : Opd), x.vmask h = 0#32 → u.pending = 0 →
    Ends (.mreadPerm h (.v d) a) s x s [] ∧ Ends (.mreadWs h (.v d) a) s x s []) ∧
  (∀ (d : BitVec 8) (a : Opd), x.vmask h ≠ 0#32 → let n := (x.read s (lowest (x.vmask h)) a).toNat
    (u.pending = 0 → 63 < n → Traps (.mreadPerm h (.v d) a) s x 0x11#8 ∧ Traps (.mreadWs h (.v d) a) s x 0x11#8) ∧
    (u.pending = 0 → n ≤ 63 →
      Completes (.mreadPerm h (.v d) a) s x (fun t g =>
        Written x false (x.vmask h) (.v d) (fun i => if i < 16 then (u.perm.get n).extractLsb' (32 * i) 32 else 0#32) g ∧
        Advanced x s (x.vmask h) [] [] g ∧ OnlyGroup s t x.g.key) ∧
      (d.toNat % 2 = 0 → Completes (.mreadWs h (.v d) a) s x (fun t g =>
        Written64 x false (x.vmask h) (.v d) (fun i => if n + i < 64 then (u.ws.get (n + i)).signExtend 64 else 0#64) g ∧
        Advanced x s (x.vmask h) [] [] g ∧ OnlyGroup s t x.g.key))))

/-- R205, R221, R222, R285, R289, R290, R293 to R295, R301: the steps of the Cascade unit. A read gives a region its data, once;
an element of an `eprun` is converted and written, once; the oldest job completes when its regions are read and its elements
written, acts on the unit, and leaves the window: `mcb` fills a codebook slot, `msort` writes table entries, `mparts` the wide
sums and a column of the head tile, an `mloop`, dense or of attention, in FP32 or INT32, the head tile, and `eprun` frees the
tail slot. A translation fault pauses the job; another cause ends it at its completion, where its group is told to stop; either
writes its record at once (R386, R387). What an INT32 step leaves where an `exp8` factor leaves a fraction is free (log entry
10). -/
def Obligations.CascadeSteps : Prop := ∀ (s : State) (c : Crew) (l : Launch) (j : CascJob) (k : Nat),
  s.crew? c.id = some c → s.launch? c.handle = some l → c.unit.jobs[k]? = some j →
  let became := fun (i : Instr) (j1 : CascJob) (Q : State → Prop) => ∃ t c1, exec i s = .next t ∧ t.crew? c.id = some c1 ∧
    c1.unit = { c.unit with jobs := c.unit.jobs.set k j1 } ∧ c1.scr = c.scr ∧ c1.aw = c.aw ∧ t.groups = s.groups ∧ Q t
  -- a cause that a step meets: the job's new state, the record, and TRAPS
  let met := fun (i : Instr) (base : State) (cause : BitVec 8) (info : Nat) =>
    let page := cause = 0x10#8
    became i (if page then { j with paused := true, failAt := info } else { j with fault := some cause, failAt := info }) (fun t =>
      ∀ g, s.group? (c.id * 32 + j.gid) = some g →
        t.mem = (base.writeRecord c.die ((j.record c cause info k).record base l.ctx j.gid g.slot
          (if page then flagPark + flagJob else flagJob))).mem ∧
        (t.launch? l.handle).map Launch.traps = some (if page then l.traps else l.traps + 1))
  (∀ region, j.paused = false → j.fault = none → region ∈ j.op.regions → j.codes region = none →
    let got := s.draw.1.cascGet c l.ctx j region s.free
    (∀ xs, got = .ok xs → became (.cascadeRead c.id k region)
      { j with got := put j.got region xs, gotAt := put j.gotAt region s.stamp } (fun t => t.mem = s.mem)) ∧
    (got = .error .hold → exec (.cascadeRead c.id k region) s = .next s) ∧
    (∀ cause info, got = .error (.bad cause info) → met (.cascadeRead c.id k region) s.draw.1 cause info)) ∧
  (∀ region, (j.codes region).isSome → exec (.cascadeRead c.id k region) s = .next s) ∧
  (∀ arv aw val cfg q n e, j.op = .eprun arv aw val cfg q → j.paused = false → j.fault = none →
    (∀ r ∈ j.op.regions, (j.codes r).isSome) → n < epRows cfg.toNat * epCols cfg.toNat → j.wrote.contains n = false →
    let before := consumersBefore c.unit.jobs k
    let slot := (c.unit.tail + before) % 8
    let row := n / epCols cfg.toNat
    let col := n % epCols cfg.toNat
    before < 8 → (c.unit.slot slot).st = 2 →
    epElem cfg.toNat ((encOf (recEnc q.r)).getD .f32) (c.unit.slot slot).int32 (c.unit.ring.get (slot * 4096 + 64 * row + col))
      ((((j.codes 0).getD [])[if epScl cfg.toNat = 2 then row else col]?).getD 0) ((((j.codes 1).getD [])[col]?).getD 0) = e →
    (∀ t, s.epPut c l.ctx j cfg.toNat q n e.1 = .ok t → exec (.epilogueWrite c.id k n) s =
      .next ((t.count c.die l.ctx (recTensor q.r) e.2).setCasc c.id k { j with wrote := n :: j.wrote })) ∧
    (s.epPut c l.ctx j cfg.toNat q n e.1 = .hold → exec (.epilogueWrite c.id k n) s = .next s) ∧
    (∀ cause info, s.epPut c l.ctx j cfg.toNat q n e.1 = .bad cause info → met (.epilogueWrite c.id k n) s cause info)) ∧
  (∀ r, k = 0 → c.unit.jobs = j :: r → s.crews.all (fun y => y.id != c.id || y.past.isEmpty) → s.seen = [] →
    (j.done = false → exec (.cascadeCompletion c.id) s = .next s) ∧
    (∀ cause g, j.done → j.fault = some cause → s.group? (c.id * 32 + j.gid) = some g → g.stat ≠ .ended →
      ∃ t c1, exec (.cascadeCompletion c.id) s = .next t ∧ t.mem = s.mem ∧ t.launches = s.launches ∧
        t.group? (c.id * 32 + j.gid) =
          some { g with jobFaults := g.jobFaults ++ [{ j.record c cause j.failAt 0 with silent := true }] } ∧
        t.crew? c.id = some c1 ∧ c1.unit.perm = c.unit.perm ∧ c1.unit.cbs = c.unit.cbs ∧ c1.unit.ws = c.unit.ws ∧
        c1.scr = c.scr) ∧
    (j.done → j.fault = none → (∀ y ∈ r.head?, y.op.isJob) →
      (∀ slot addr v, j.op = .mcb slot addr → j.got = [(0, [v])] →
        (cbOk v → ∃ t c1, exec (.cascadeCompletion c.id) s = .next t ∧ t.crew? c.id = some c1 ∧
          c1.unit = { c.unit with cbs := c.unit.cbs.set slot (BitVec.ofNat 256 v), jobs := r } ∧ t.groups = s.groups) ∧
        (cbOk v = false → ∃ t c1, exec (.cascadeCompletion c.id) s = .next t ∧ t.crew? c.id = some c1 ∧
          c1.unit = { c.unit with jobs := r } ∧ ∀ g, s.group? (c.id * 32 + j.gid) = some g → g.stat = .run →
          ∃ g1 f, t.group? (c.id * 32 + j.gid) = some g1 ∧ g1.jobFaults = g.jobFaults ++ [f] ∧ f.cause = 0x31#8)) ∧
      (∀ arv aw val cfg q, j.op = .eprun arv aw val cfg q →
        ∃ t c1, exec (.cascadeCompletion c.id) s = .next t ∧ t.crew? c.id = some c1 ∧
          c1.unit = { c.unit.freeTail with jobs := r } ∧ t.groups = s.groups ∧ c1.awGet aw =
            (if arv = 1 then val else if arv = 2 then
              arrivalStep (c.awGet aw) (ceilDiv (epRows cfg.toNat * epCols cfg.toNat * recWidth q.r) 8) else c.awGet aw)) ∧
      -- `msort`: one table entry for each weight group, with the record's tensor; nothing else of the unit changes
      (∀ g0 n cb q ctd off rq, j.op = .msort g0 n cb q ctd off rq →
        let enc := (encOf (recEnc rq.r)).getD .tern
        let xs := (j.codes 0).getD []
        let entry := fun m => sortEntry enc (cbLevels (c.unit.cbs.get cb).toNat) cb ((xs[m]?).getD 0)
          (((xs.drop (n + 64 * m)).take 64).map (fun v => v % 2 ^ encBits enc))
        ∃ t c1, exec (.cascadeCompletion c.id) s = .next t ∧ t.crew? c.id = some c1 ∧ t.groups = s.groups ∧
          c1.unit = { c.unit with perm := c1.unit.perm, permT := c1.unit.permT, jobs := r } ∧
          (∀ m < n, c1.unit.perm.get (q + m) = (entry m).1 ∧ lookup c1.unit.permT (q + m) = some (recTensor rq.r)) ∧
          (∀ m, m < q ∨ q + n ≤ m →
            c1.unit.perm.get m = c.unit.perm.get m ∧ lookup c1.unit.permT m = lookup c.unit.permT m) ∧
          t.stats = (s.count c.die l.ctx (recTensor rq.r) (Ev.sum ((List.range n).map (fun m => ⟨0, 0, 0, (entry m).2⟩)))).stats) ∧
      (c.unit.head < 8 → c.unit.slots.length = 8 →
        let base := c.unit.head * 4096
        -- the ring around a job that opens the head slot, or finds it open, and may close it
        let ring := fun (u1 : CascUnit) (opn cls int : Bool) =>
          u1.head = (if cls then (c.unit.head + 1) % 8 else c.unit.head) ∧ u1.tail = c.unit.tail ∧
          u1.slot c.unit.head = (let z := if opn then ⟨1, int⟩ else c.unit.slot c.unit.head
            if cls then { z with st := 2 } else z) ∧
          (∀ m, m ≠ c.unit.head → u1.slot m = c.unit.slot m) ∧
          (∀ m, m < base ∨ base + 4096 ≤ m → u1.ring.get m = c.unit.ring.get m)
        let start := fun (opn : Bool) m => if opn then 0#32 else c.unit.ring.get m
        -- `mparts`: the wide sums, and one column of the head tile
        (∀ opn cls sp e0 pitch col n q rq, j.op = .mparts opn cls sp e0 pitch col n q rq → n ≤ 64 → col < 64 →
          let p := (c.unit.perm.get q).toNat
          let row := fun m => partsRow p (c.unit.cbs.get (entCb p)).toNat (blockFixed (encOf (recEnc rq.r) == some .s8)
            (((j.codes m).getD []).map (fun v => datumVal rq.r false (v % 2 ^ recWidth rq.r))))
          let acc := fun m => accAdd (start opn (base + 64 * m + col)).toNat (row m).2.1
          ∃ t c1, exec (.cascadeCompletion c.id) s = .next t ∧ t.crew? c.id = some c1 ∧ t.groups = s.groups ∧
            c1.unit.jobs = r ∧ c1.unit.perm = c.unit.perm ∧ c1.unit.permT = c.unit.permT ∧ c1.unit.cbs = c.unit.cbs ∧
            c1.unit.epc = c.unit.epc ∧ ring c1.unit opn cls false ∧
            (∀ m < n, c1.unit.ws.get m = BitVec.ofInt 48 (row m).1 ∧
              c1.unit.ring.get (base + 64 * m + col) = BitVec.ofNat 32 (acc m).1) ∧
            (∀ m, n ≤ m → c1.unit.ws.get m = c.unit.ws.get m) ∧
            (∀ i i', i < 64 → i' < 64 → (i' ≠ col ∨ n ≤ i) →
              c1.unit.ring.get (base + 64 * i + i') = start opn (base + 64 * i + i')) ∧
            t.stats = (s.count c.die l.ctx ((lookup c.unit.permT q).getD 0)
              (Ev.sum ((List.range n).map (fun m => (row m).2.2.plus (acc m).2)))).stats) ∧
        -- `mloop`, dense or of attention: each element of the head tile takes the K-steps in order
        (∀ opn cls spa spb ctb a0 ai b0 bi n off ra rb attn, j.op = .mloop opn cls spa spb ctb a0 ai b0 bi n off ra rb attn →
          let int := intPair ra.r rb.r
          let ks := kStep ra.r rb.r
          let el := fun (q : Rec) (sp : Bool) k m => let v := (((j.codes k).getD [])[m]?).getD 0
            datumVal q (recSmode q == 1 && !sp) (v % 2 ^ recWidth q + v / 2 ^ 32 * 2 ^ 32)
          let step := fun (acc : Word) (ps : List (Val × Val)) => if int then (stepInt acc ps).1
            else BitVec.ofNat 32 (accAdd acc.toNat (stepFloat ps).1).1
          -- the blocks of the mask that are computed, of a query block and a key block of the job
          let seen := fun (f : AttnRef) qb kb =>
            ((((j.codes (2 * n)).getD [])[qb * f.cols n ks + kb]?).getD 0) % 2 == 1
          ∃ t c1, exec (.cascadeCompletion c.id) s = .next t ∧ t.crew? c.id = some c1 ∧ t.groups = s.groups ∧
            c1.unit.jobs = r ∧ c1.unit.perm = c.unit.perm ∧ c1.unit.permT = c.unit.permT ∧ c1.unit.cbs = c.unit.cbs ∧
            c1.unit.ws = c.unit.ws ∧ c1.unit.epc = c.unit.epc ∧ ring c1.unit opn cls int ∧
            ∀ i i', i < 64 → i' < 64 → c1.unit.ring.get (base + 64 * i + i') =
              let all := fun (kept : Nat → Bool) => (List.range n).foldl (fun acc st =>
                let kk := (List.range ks).filter (fun m => kept (st * ks + m))
                if kk = [] then acc
                else step acc (kk.map (fun m => (el ra.r spa (2 * st) (i * ks + m), el rb.r spb (2 * st + 1) (m * 64 + i')))))
                (start opn (base + 64 * i + i'))
              match attn with
              | none => all (fun _ => true)
              | some f =>
                if f.value then all (fun m => seen f (i / 16) (m / 16))
                else if seen f (i / 16) (i' / 16) then all (fun _ => true) else 0xFF800000#32)))) ∧
  -- an INT32 step on integers: the exact sum of the products, saturated
  (∀ (acc : Word) (ps : List (Int × Int)), (stepInt acc (ps.map (fun p =>
      (.fin (decide (p.1 < 0)) p.1.natAbs 0, .fin (decide (p.2 < 0)) p.2.natAbs 0)))).1 =
    BitVec.ofInt 32 (max (-2147483648) (min 2147483647 (acc.toInt + (ps.map (fun p => p.1 * p.2)).sum))))

/-- R291 to R293, R295, R428: summation by parts. The table entry that `msort` makes of 64 codes holds their positions by
ascending level, those of one level and the reserved ones, which come last, in their own order; how many codes have a level of
each index or a lower one; and whether a code is reserved, of which each counts. Where none is, it gives the sum of every
mantissa times the level of its code. -/
def Obligations.SummationByParts : Prop := ∀ (enc : Enc) (nlev cb gexp : Nat) (codes : List Nat) (lev : Nat → Int) (m : List Int),
  enc ∈ [.tern, .k2, .k3, .k4] → nlev ≤ 16 → gexp < 256 → cb < 16 → codes.length = 64 → m.length = 64 →
  let e := sortEntry enc nlev cb gexp codes
  let p := e.1.toNat
  let level := fun w => levelIdx enc nlev w
  (let key := fun k => 64 * (level ((codes[k]?).getD 0)).getD 16 + k
   (∀ k < 64, entPos p k < 64) ∧ (∀ k k', k < k' → k' < 64 → key (entPos p k) < key (entPos p k')) ∧
   (∀ j < 16, entCnt p j = (codes.filter (fun w => (level w).any (fun i => decide (i ≤ j)))).length) ∧
   (entRsv p ↔ ∃ w ∈ codes, level w = none) ∧ e.2 = (codes.filter (fun w => (level w).isNone)).length ∧
   entCb p = cb ∧ entFmt p = fmtNo enc ∧ entG p = sextNat gexp 8) ∧
  ((∀ w ∈ codes, (level w).isSome) →
    partsSum p (if enc = .tern then 3 else nlev) lev m =
      ((List.range 64).map (fun k => lev ((level ((codes[k]?).getD 0)).getD 0) * (m[k]?).getD 0)).sum)

/-! ## KV frames, maps, segments, gathers -/

/-- R319, R321 to R323, R333, R335: how frame entries, page entries, extents and segment records lie in their bytes, how a
position resolves through a map, and what inserting and removing an extent leave of the others; and what one COH store of
these instructions changes. -/
def Obligations.KvRecords : Prop :=
  (∀ f : Frame, f.seg < 2 ^ 32 → f.refc < 2 ^ 16 → f.fill < 32 → f.fmt < 4 → f.kexp < 256 → f.vexp < 256 → f.data < 2 ^ 56 →
    let w : BitVec 128 := BitVec.ofNat 128 f.toNat
    frameFields f.toNat = f ∧ (w.extractLsb' 96 32).toNat = f.seg ∧ (w.extractLsb' 80 16).toNat = f.refc ∧
    (w.extractLsb' 75 5).toNat = f.fill ∧ w.getLsbD 74 = f.q ∧ (w.extractLsb' 72 2).toNat = f.fmt ∧
    (w.extractLsb' 64 8).toNat = f.kexp ∧ (w.extractLsb' 56 8).toNat = f.vexp ∧ (w.extractLsb' 0 56).toNat = f.data) ∧
  (∀ e : PageEnt, e.frame < 2 ^ 29 → let w : BitVec 32 := BitVec.ofNat 32 e.toNat
    w.getLsbD 31 = e.valid ∧ w.getLsbD 30 = e.cow ∧ w.getLsbD 29 = e.cln ∧ (w.extractLsb' 0 29).toNat = e.frame) ∧
  (∀ y : Extent, y.seg < 2 ^ 32 → y.stride < 2 ^ 16 → y.len < 2 ^ 16 → y.base < 2 ^ 32 → y.start < 2 ^ 32 →
    let w : BitVec 128 := BitVec.ofNat 128 y.toNat
    extentOf y.toNat = y ∧ (w.extractLsb' 96 32).toNat = y.seg ∧ (w.extractLsb' 80 16).toNat = y.stride ∧
    (w.extractLsb' 64 16).toNat = y.len ∧ (w.extractLsb' 32 32).toNat = y.base ∧ (w.extractLsb' 0 32).toNat = y.start) ∧
  (∀ r : Segment, r.digest < 2 ^ 64 → r.sens < 2 ^ 56 → r.toka < 2 ^ 56 → r.sctx < 2 ^ 56 → r.ebase < 2 ^ 32 →
    r.stride < 2 ^ 16 → r.len < 2 ^ 16 → r.ntok < 2 ^ 32 → r.id < 2 ^ 32 → r.state < 4 →
    segFields r.at_ r.toNat = { r with clean := true }) ∧
  -- what `segseal` writes into a record leaves its other fields
  (∀ at_ w n t m d, n < 2 ^ 32 → t < 2 ^ 56 → m < 2 ^ 56 → d < 2 ^ 64 →
    segFields at_ (sealWord w n t m d) = { segFields at_ w with ntok := n, toka := t, sens := m, digest := d, state := 2 } ∧
    bits (sealWord w n t m d) 127 2 = bits w 127 2) ∧
  (∀ (c : KvCtx) (m : KvMap) (p l h : Nat) (lo hi : List Extent) (y : Extent), m.ext = lo ++ y :: hi → extentsOk m.ext →
    y.start ≤ p → (∀ z ∈ hi, p < z.start) →
    (p - y.start < 16 * y.len → l < c.layers → h < c.heads →
      let e := y.base + (p - y.start) / 16 * y.stride + l * c.heads + h
      (e < c.ecnt → resolve c m p l h = .ok ⟨e, (p - y.start) % 16⟩) ∧
      (c.ecnt ≤ e → ∃ t, resolve c m p l h = .error (.trap t) ∧ t.cause = 0x11#8)) ∧
    ((16 * y.len ≤ p - y.start ∨ c.layers ≤ l ∨ c.heads ≤ h) → ∃ t, resolve c m p l h = .error (.trap t) ∧ t.cause = 0x11#8)) ∧
  (∀ (m n : KvMap) (y : Extent), extentsOk m.ext → m.insert y = .ok n → n.at_ = m.at_ ∧ n.ver = m.ver ∧ extentsOk n.ext ∧
    ∀ z, z ∈ n.ext ↔ z = y ∨ (z ∈ m.ext ∧ z.start ≠ y.start)) ∧
  (∀ (m : KvMap) (y : Extent), extentsOk m.ext → m.ext.length ≤ 32 →
    ((y.len = 0 ∨ 2 ^ 32 < y.start + 16 * y.len) → ∃ t, m.insert y = .error (.trap t) ∧ t.cause = 0x11#8) ∧
    (1 ≤ y.len → y.start + 16 * y.len ≤ 2 ^ 32 → m.ext.length = 32 → (∀ z ∈ m.ext, z.start ≠ y.start) →
      ∃ t, m.insert y = .error (.trap t) ∧ t.cause = 0x29#8)) ∧
  (∀ (m : KvMap) (st : Nat), extentsOk m.ext → (m.remove st).at_ = m.at_ ∧ (m.remove st).ver = m.ver ∧
    extentsOk (m.remove st).ext ∧ ∀ z, z ∈ (m.remove st).ext ↔ z ∈ m.ext ∧ z.start ≠ st) ∧
  -- the slots that a change does not write hold what they held
  (∀ (m n : KvMap) (st : Nat), extentsOk m.ext → m.ext.length + m.rest.length = 32 → (∀ z ∈ m.rest, z < 2 ^ 128) →
    ((∃ y : Extent, y.start = st ∧ m.insert y = .ok n) ∨ n = m.remove st) →
    ∀ k < 32, (k < (changedSlots m n (some st)).1 ∨ (changedSlots m n (some st)).2 ≤ k) →
      bits n.toNat (128 * (k + 1) + 127) (128 * (k + 1)) = bits m.toNat (128 * (k + 1) + 127) (128 * (k + 1))) ∧
  (∀ (s t : State) (ctx va n v : Nat), 0 < n → n ≤ 2 ^ 16 → s.wr ctx va n v = .ok t → OnlyMemory s t ∧
    ∃ keys : List Nat, keys.length = n ∧ (∀ k < n, keys[k]? = keyOf s ctx (va + k)) ∧
      (∀ k < n, ∀ p, keys[k]? = some p → memGet t.mem p = BitVec.ofNat 8 (v / 256 ^ k)) ∧
      ∀ p, p ∉ keys → memGet t.mem p = memGet s.mem p)

/-- R327, R359, R365: an instruction on KV records ends, or else nothing of it is done: it makes no step, traps, or its
access faults. Four have a third way: `kvapp` parks for its clones, `kvgath` waits for its engine, `link.vfy` compares tokens first,
and each thread of `ropeq` makes its own access. What one does where it ends is stated for each on its own. -/
def Obligations.KvWholeOrNothing : Prop := ∀ (s : State) (h : Hdr) (d a b : Opd) (x : Site), s.site? = some x →
  (∀ i ∈ [Instr.pgshare h a, .pgrel h a, .extset h a b, .extsetRm h a b, .extsetClr h a, .qclear h a b, .segbegin h a b,
      .segseal h a b, .link h d a b, .unlink h d a b, .repset h d a, .ovlcommit h d a b, .latexp h d a, .accept h d a],
    NothingDone i s h x ∨ ∃ s1 dst, Ends i s x s1 dst) ∧
  -- an append may park its group for the clones that it starts
  (NothingDone (.kvapp h a b) s h x ∨ (∃ s1, Ends (.kvapp h a b) s x s1 []) ∨
    ∃ t g va, exec (.kvapp h a b) s = .next t ∧ t.group? x.g.key = some g ∧ g.stat = .parked (lowest x.f.mask) true va s.word) ∧
  -- a gather may wait for its engine
  (∀ arv d' b', let i := Instr.kvgath h arv d' a b'
    NothingDone i s h x ∨ (∃ s1, Ends i s x s1 []) ∨ ∃ e, exec i s = .next (s.waitFor (.engine e) x)) ∧
  -- a link that compares first blocks its group; a trap or a fault of its decision gives the comparison up
  (let i := Instr.linkVfy h d a b
   let loose := s.modGroup x.g.key (fun g => { g with block := none })
   NothingDone i s h x ∨ (∃ s1, Ends i s x s1 []) ∨
   (∃ j, exec i s = .next (State.blockOn { s with djobs := s.djobs ++ [j] } x (.vfy (lowest x.f.mask) none d a b s.word))) ∨
   (∃ t, exec i s = .next (loose.trap x t)) ∨ ∃ c va, exec i s = .next (loose.conclude x [(lowest x.f.mask, c, va)] [])) ∧
  -- a rotation reads its record for all threads first; then each thread makes its access or faults
  (let i := Instr.ropeq h d a b
   exec i s = .next s ∨ (∃ t, exec i s = .next (s.trap x t)) ∨ (∃ s1, Ends i s x s1 [d, opdNext d]) ∨
   (∃ c va, exec i s = .next (s.conclude x ((lanes (x.emask h [d, b])).map (fun k => (k, c, va))) [])) ∨
   ∃ c r, let f := fun (y : Site) t k => y.ropeAt c r d b t k
     AccessEnds i s h [d, b] (.now d true) 0 f ∧ AccessFaults i s h [d, b] (.now d true) 0 f ∧
     ((memRun s x h [d, b] (.now d true) f).held → exec i s = .next s))

/-- R333, R334, R346, R351 to R353: the instructions on maps, and the bytes that a change of a map stores: the extents of the slots
that it changes, and NEXT where their number changes or all are cleared. -/
def Obligations.KvMaps : Prop := ∀ (s : State) (h : Hdr) (d a b : Opd) (x : Site), s.site? = some x → x.umask h ≠ 0#32 →
  let blk := fun k => (x.g.greg (opdGno a + k)).toNat
  let stored := fun (i : Instr) (m n : KvMap) (st : Option Nat) => ∀ t, s.putMap x.ctx m n st = .ok t → Ends i s x t []
  let at_ := (x.g.greg (opdGno b)).toNat
  (∀ m, s.kvMap x.ctx (x.gpair (opdGno a)) = .ok m →
    (∀ n, m.insert ⟨(x.g.greg (opdGno b + 3)).toNat, (x.g.greg (opdGno b + 2)).toNat / 2 ^ 16,
        (x.g.greg (opdGno b + 2)).toNat % 2 ^ 16, (x.g.greg (opdGno b + 1)).toNat, at_⟩ = .ok n →
      stored (.extset h a b) m n (some at_)) ∧
    ((∃ y ∈ m.ext, y.start = at_) → stored (.extsetRm h a b) m (m.remove at_) (some at_)) ∧
    ((∀ y ∈ m.ext, y.start ≠ at_) → Ends (.extsetRm h a b) s x s []) ∧
    stored (.extsetClr h a) m { m with ext := [], rest := List.replicate 32 0 } none ∧
    (let pos := (x.read s (lowest (x.umask h)) b).toNat
     ((∀ y ∈ m.ext, y.start = pos → y.seg = 0) → Ends (.unlink h d a b) s x (s.result x d 0xFFFFFFFF#32) [d]) ∧
     (∀ y t, y ∈ m.ext → y.start = pos → y.seg ≠ 0 → s.putMap x.ctx m (m.remove pos) (some pos) = .ok t →
       Ends (.unlink h d a b) s x (t.result x d (BitVec.ofNat 32 y.base)) [d]))) ∧
  (∀ c f t, s.kvCtx x.ctx (x.gpair (opdGno a)) = .ok c → let n := (x.read s (lowest (x.umask h)) b).toNat
    s.frame x.ctx c n = .ok f → s.putFrame x.ctx c n { f with q := false } = .ok t → Ends (.qclear h a b) s x t []) ∧
  (∀ c m ps, s.kvCtx x.ctx (x.gpair (opdGno a)) = .ok c → s.kvMap x.ctx c.mapv = .ok m → blk 6 ≤ 65536 → blk 7 = 0 →
    blk 5 % 4 = 0 → x.inWindow (blk 5) (4 * blk 6) → s.repairSet x.ctx (x.gpair (opdGno a + 2)) (blk 4) m.ext.tail = .ok ps →
    Ends (.repset h d a) s x ((s.scrWrite x.c.id x.g.gid (blk 5) ((ps.take (blk 6)).flatMap (leBytes 4))).result x d
      (BitVec.ofNat 32 ps.length)) [d]) ∧
  (∀ c w m ver, let oa := x.gpair (opdGno b)
    s.kvCtx x.ctx (x.gpair (opdGno a)) = .ok c → oa % 32 = 0 → s.rd x.ctx oa 32 = .ok w → let o := ovlFields w
    o.clean → o.state = 0 → o.nent ≤ 65536 → o.tgt + o.nent ≤ c.ecnt → o.flist % 4 = 0 → o.nmap % 16 = 0 →
    s.kvMap x.ctx o.nmap = .ok m → o.nmap ≠ c.mapv → s.rd x.ctx c.mapv 4 = .ok ver →
    (∀ t, ver ≠ o.bver → s.wr x.ctx oa 4 2 = .ok t → Ends (.ovlcommit h d a b) s x (t.result x d 0#32) []) ∧
    (∀ l t1 t2 t3 t4, ver = o.bver → s.ovlWords x.ctx c o = .ok l → repeated (l.map (·.2)) = false →
      l.foldlM (State.ovlInstall x.ctx c) s = .ok t1 → t1.wr x.ctx o.nmap 4 ((o.bver + 1) % 2 ^ 32) = .ok t2 →
      t2.wr x.ctx (c.at_ + 49) 7 o.nmap = .ok t3 → t3.wr x.ctx oa 4 1 = .ok t4 →
      Ends (.ovlcommit h d a b) s x (t4.result x d 1#32) [])) ∧
  -- the bytes that a change of a map stores, where the slots' stores leave the translation of the map as it is
  (∀ (m n : KvMap) (st : Option Nat) (t : State), s.putMap x.ctx m n st = .ok t →
    let r := changedSlots m n st
    let key := fun k => keyOf s x.ctx (m.at_ + k)
    let stores := fun k => (16 + 16 * r.1 ≤ k ∧ k < 16 + 16 * r.2) ∨ ((st = none ∨ n.ext.length ≠ m.ext.length) ∧ k = 4)
    r.1 < r.2 → r.2 ≤ 32 → (∀ k k', stores k → stores k' → k ≠ k' → key k = none ∨ key k ≠ key k') →
    (∀ u, s.wr x.ctx (m.at_ + 16 + 16 * r.1) (16 * (r.2 - r.1)) (n.toNat >>> (128 * (r.1 + 1))) = .ok u →
      keyOf u x.ctx (m.at_ + 4) = key 4) →
    (∀ k p, stores k → key k = some p → memGet t.mem p = BitVec.ofNat 8 (n.toNat / 256 ^ k)) ∧
    ∀ p, (∀ k, stores k → key k ≠ some p) → memGet t.mem p = memGet s.mem p) ∧
  -- the repair set of one extent: the positions of its governed length that lie in the window or are sensitive, where
  -- nothing has stored to the mask since its seal (R343)
  (∀ T w y next r ps, y.seg ≠ 0 → s.segment x.ctx (T + 64 * y.seg) = .ok r → r.id = y.seg → 2 ≤ r.state →
    s.extentRepair x.ctx T w y next = .ok ps →
    let len := min (min r.ntok (16 * y.len)) (match next with
      | some z => z.start - y.start
      | none => 16 * y.len)
    (∀ k < len, s.sealTorn x.ctx r.at_ (r.sens + k / 8) 1 = false) → ∀ p, p ∈ ps ↔ ∃ k < len, p = y.start + k ∧
      (k < w ∨ (r.sens ≠ 0 ∧ ∃ byte, s.rd x.ctx (r.sens + k / 8) 1 = .ok byte ∧ byte.testBit (k % 8))))

/-- R325 to R332: `kvapp` writes the token's rows into private frames, or clones the shared ones first and waits for the
clones; `pgshare` and `pgrel` count references up and down. -/
def Obligations.KvSharing : Prop := ∀ (s : State) (h : Hdr) (a b : Opd) (x : Site), s.site? = some x → x.umask h ≠ 0#32 →
  let k := opdGno a
  let blk := fun n => (x.g.greg (k + n)).toNat
  (∀ c m hs src, s.kvCtx x.ctx (x.gpair k) = .ok c → s.kvMap x.ctx c.mapv = .ok m →
    (List.range c.heads).mapM (s.appHead x.ctx c m (blk 2) (blk 3)) = .ok hs → repeated (hs.map (·.ent.frame)) = false →
    s.appSource x (x.read s (lowest (x.umask h)) b).toNat (2 * c.heads * c.hd) = .ok src →
    let cl := hs.filter Head.clones
    let o := (x.read s (lowest (x.umask h)) b).toNat
    let bad := fun n => s.scrPoison x.c.id (o + 4 * n) 4
    (∀ w, cl = [] → (∀ n < 2 * c.heads * c.hd, bad n = false) → hs.foldlM (State.appWrite x c src) (s, Ev.zero) = .ok w →
      Ends (.kvapp h a b) s x (w.1.count x.c.die x.ctx 0 w.2) []) ∧
    (∀ n, cl = [] → n < 2 * c.heads * c.hd → bad n = true → (∀ k < n, bad k = false) →
      exec (.kvapp h a b) s = .next (s.conclude x [(lowest (x.umask h), 0x14#8, o + 4 * n)] [])) ∧
    (cl ≠ [] → c.spcnt < cl.length → Traps (.kvapp h a b) s x 0x2A#8) ∧
    (∀ s1, cl ≠ [] → cl.length ≤ c.spcnt → cl.foldlM (fun s q => s.cloneOne x c.at_ q) s = .ok s1 →
      ∃ t g f, exec (.kvapp h a b) s = .next t ∧ t.group? x.g.key = some g ∧
        g.stat = .parked (lowest x.f.mask) true c.at_ s.word ∧ f ∈ g.all ∧ f.pc = x.f.pc ∧ f.replay = some (x.umask h) ∧
        g.v = x.g.v ∧ g.g = x.g.g ∧ g.p = x.g.p ∧ t.djobs = s1.djobs ∧ t.pins = s1.pins ∧
        s1.djobs.length = s.djobs.length + cl.length ∧ s1.pins.length = s.pins.length + cl.length)) ∧
  (∀ cs cd fs s1, s.kvCtx x.ctx (x.gpair k) = .ok cs → s.kvCtx x.ctx (x.gpair (k + 2)) = .ok cd → cs.ftab = cd.ftab →
    blk 7 = 0 → 1 ≤ blk 6 → blk 6 ≤ 65536 → blk 4 + blk 6 ≤ cs.ecnt → blk 5 + blk 6 ≤ cd.ecnt →
    (cs.at_ = cd.at_ → overlaps (blk 4) (blk 6) (blk 5) (blk 6) = false) →
    (List.range (blk 6)).mapM (fun n => (s.shareCheck x.ctx cs cd (blk 4 + n) (blk 5 + n)).map (fun f =>
      (blk 4 + n, blk 5 + n, f))) = .ok fs →
    fs.foldlM (State.shareOne x.ctx cs cd) s = .ok s1 → OnlyMemory s s1 ∧ Ends (.pgshare h a) s x s1 []) ∧
  (∀ c all low, let u := s.draw.1
    u.kvCtx x.ctx (x.gpair k) = .ok c → 1 ≤ blk 3 → blk 3 ≤ 65536 → blk 2 + blk 3 ≤ c.ecnt →
    (List.range (blk 3)).mapM (fun n => (u.relCheck x.ctx c (blk 2 + n)).map (fun f => f.map (fun f => (blk 2 + n, f)))) = .ok all →
    let es := all.filterMap id
    u.unused x.ctx c s.free (es.map (·.2)) = .ok low →
    let z := low.map frameName
    let wait := z.filter (fun f => u.pinned x.ctx f && !u.deferred.contains ⟨x.c.die, x.ctx, f⟩)
    (∀ s1, (u.deferredOn x.c.die).length + wait.length ≤ 4096 → es.foldlM (State.relOne x.ctx c s.free) u = .ok s1 →
      Ends (.pgrel h a) s x (z.foldl (fun t f => (t.reclaimName x.c.die x.ctx f).1) s1) []) ∧
    (4096 < (u.deferredOn x.c.die).length + wait.length → Traps (.pgrel h a) s x 0x19#8)) ∧
  -- the frames that `pgrel` frees: those whose count falls to 0, each once
  (∀ c seed fs low, s.unused x.ctx c seed fs = .ok low → low.Nodup ∧ ∀ f, f ∈ low ↔
    f ∈ fs ∧ ∃ fr, s.frame x.ctx c f = .ok fr ∧ lowerBy seed f (fs.count f) fr.refc = 0) ∧
  (∀ seed f n refc, n ≤ refc → lowerBy seed f n refc = refc - n) ∧
  (∀ cs cd t i j f fr, s.frame x.ctx cs f = .ok fr → s.shareOne x.ctx cs cd (i, j, f) = .ok t → fr.refc < 65535) ∧
  (∀ seed f refc, 1 ≤ refc → lowerRefc seed f refc = refc - 1)

/-- R335, R342 to R345: `segbegin` opens a free segment, `segseal` seals an open one and marks its frames, and `link` maps a
sealed one into a context. `link.vfy` first compares the tokens, as a device job that blocks the group; then it decides as
`link` does, or answers false. A store to the tokens since the seal, or meanwhile, leaves the outcome to the model's choice
(log entry 4). -/
def Obligations.SegmentsAndLinks : Prop := ∀ (s : State) (h : Hdr) (d a b : Opd) (x : Site),
  let k := opdGno a
  (s.site? = some x → x.umask h ≠ 0#32 →
    (∀ r c t, s.segment x.ctx (x.gpair k) = .ok r → s.kvCtx x.ctx (x.gpair (k + 2)) = .ok c →
      let w := (x.g.greg (opdGno b + 1)).toNat
      let eb := (x.g.greg (opdGno b)).toNat
      r.clean → r.toka % 4 = 0 → r.sctx % 64 = 0 → r.state = 0 → r.id ≠ 0 → w % 2 ^ 16 ≠ 0 → c.layers * c.heads ≤ w / 2 ^ 16 →
      eb + (w % 2 ^ 16 - 1) * (w / 2 ^ 16) + c.layers * c.heads ≤ c.ecnt →
      s.wr x.ctx r.at_ 64 ({ r with sctx := c.at_, ebase := eb, len := w % 2 ^ 16, stride := w / 2 ^ 16, ntok := 0, toka := 0,
                                    sens := 0, digest := 0, state := 1 } : Segment).toNat = .ok t →
      Ends (.segbegin h a b) s x t []) ∧
    (∀ r c fs s1 w t, s.segment x.ctx (x.gpair k) = .ok r → let ntok := (x.g.greg (k + 2)).toNat
      r.toka % 4 = 0 → r.state = 1 → x.g.greg (k + 3) = 0#32 → 16 * (r.len - 1) < ntok → ntok ≤ 16 * r.len →
      x.gpair (k + 4) ≠ 0 → x.gpair (k + 4) % 4 = 0 → x.gpair (k + 4) < 2 ^ 56 → x.gpair (k + 6) < 2 ^ 56 →
      s.kvField x.ctx r.sctx = .ok c → (usedOffsets r c).mapM (s.sealCheck x.ctx c r ntok) = .ok fs →
      fs.foldlM (State.sealFrame x.ctx c r.id) s = .ok s1 →
      s1.rd x.ctx r.at_ 64 = .ok w →
      s1.wr x.ctx r.at_ 64 (sealWord w ntok (x.gpair (k + 4)) (x.gpair (k + 6)) (x.gpair (opdGno b))) = .ok t →
      -- from here on the model notes stores to the token array and the mask
      Ends (.segseal h a b) s x (t.sealed x.ctx r.at_ (x.gpair (k + 4)) (x.gpair (k + 6)) ntok) []) ∧
    (∀ q m s1 s2, s.linkChecks x false a b = .ok q → q.m.insert ⟨q.r.id, q.r.stride, q.r.len, q.j, q.pos⟩ = .ok m →
      q.maps.foldlM (State.shareOne x.ctx q.src q.d) s = .ok s1 → s1.putMap x.ctx q.m m (some q.pos) = .ok s2 →
      Ends (.link h d a b) s x (s2.result x d 1#32) []) ∧
    (∀ q, s.linkChecks x true a b = .ok q → x.g.block = none → ∃ t g j, exec (.linkVfy h d a b) s = .next t ∧
      t.djobs = s.djobs ++ [j] ∧ j.kind = .compare q.r.at_ q.r.toka q.arr (4 * q.r.ntok) false ∧ j.left = 4 * q.r.ntok ∧
      j.crew = x.c.id ∧ j.gid = x.g.gid ∧ j.ctx = x.ctx ∧ t.group? x.g.key = some g ∧
      g.block = some (.vfy (lowest x.f.mask) none d a b s.word) ∧ g.v = x.g.v ∧ g.g = x.g.g ∧ g.p = x.g.p ∧ t.mem = s.mem) ∧
    (∀ low d' a' b' w, x.g.block = some (.vfy low none d' a' b' w) → exec (.linkVfy h d a b) s = .next s) ∧
    (∀ low d' a' b' w q, x.g.block = some (.vfy low (some false) d' a' b' w) → s.linkChecks x true a b = .ok q →
      Ends (.linkVfy h d a b) s x (s.result x d 0#32) [])) ∧
  (∀ gk low v w, s.siteAt gk low = some x → x.g.block = some (.vfy low (some v) d a b w) → x.g.stat = .run →
    x.c.stat = .resident →
    let s0 : State := { s with word := w }
    (∀ q, s0.linkChecks x true a b = .ok q → v = false → Ends (.linkVfyDecision gk) s x (s0.result x d 0#32) []) ∧
    (∀ q m s1 s2, v = true → s0.linkChecks x true a b = .ok q → q.m.insert ⟨q.r.id, q.r.stride, q.r.len, q.j, q.pos⟩ = .ok m →
      q.maps.foldlM (State.shareOne x.ctx q.src q.d) s0 = .ok s1 → s1.putMap x.ctx q.m m (some q.pos) = .ok s2 →
      Ends (.linkVfyDecision gk) s x (s2.result x d 1#32) []) ∧
    (∀ t, s0.linkChecks x true a b = .error (.trap t) → ∃ t1 g, exec (.linkVfyDecision gk) s = .next t1 ∧
      t1.group? gk = some g ∧ g.block = none ∧ g.stat = .stopped low x.f.pc w ∧ t1.djobs = s.djobs)) ∧
  (∀ die n j rcd x' y len bad gk g low w, s.djob? die n = some j → j.kind = .compare rcd x' y len bad → j.paused = false →
    j.left = 0 → gk = j.crew * 32 + j.gid → s.group? gk = some g → g.block = some (.vfy low none d a b w) →
    ∃ t v, exec (.tokenComparisonCompletion die n) s = .next t ∧ t.djobs = s.djobs.eraseIdx n ∧ t.mem = s.mem ∧
      t.group? gk = some { g with block := some (.vfy low (some v) d a b w) } ∧
      (s.storedSince j.ctx x' len j.issued = false → s.storedSince j.ctx y len j.issued = false →
        s.sealTorn j.ctx rcd x' len = false → v = !bad))

/-- R337, R338, R347 to R350: a gather joins its engine's queue with its pin; an engine serves it token by token, with both
rows as FP32 and the keys rotated; a token that is not finite sets Q in its frame and ends the job with cause 0x28, whose
record is written at once; `ropeq` rotates a pair of each thread. That the groups that wait for a queue go in the order in
which they came is R262's; that it is one order for the whole queue is the model's reading (log entry 52). -/
def Obligations.Gathers : Prop := ∀ (s : State) (h : Hdr) (x : Site),
  (∀ arv d a b c m rot toks, s.site? = some x → x.umask h ≠ 0#32 → let blk := fun n => (x.g.greg (opdGno a + n)).toNat
    s.kvCtx x.ctx (x.gpair (opdGno a)) = .ok c → s.kvMap x.ctx c.mapv = .ok m →
    (if c.rot = 0 then rot = none else ∃ r, s.rotHeader x.ctx c = .ok r ∧ rot = some r.2) →
    1 ≤ blk 3 → blk 3 ≤ 64 → blk 4 / 2 ^ 24 = 0 → blk 7 / 2 ^ 19 = 0 → bits (blk 7) 15 12 = 0 → bits (blk 7) 18 16 ≤ 5 →
    (List.range (blk 3)).mapM (fun t => s.gatherTok x.ctx c m rot (blk 2 + t) (blk 4 % 2 ^ 16) (bits (blk 4) 23 16)) = .ok toks →
    gatherTileChecks x (blk 5) (blk 6) (4 * blk 3 * c.hd) = .ok () →
    let e := x.c.die * 6 + bits (blk 7) 18 16
    let name := mapName c.mapv
    let job : Job :=
      { kind := .gather { rcd := c.at_, layer := blk 4 % 2 ^ 16, head := bits (blk 4) 23 16, toks := toks, koff := blk 5,
                          voff := blk 6, hd := c.hd, rot := c.rot, tensor := blk 7 % 2 ^ 12, name := name },
        crew := x.c.id, gid := x.g.gid, ctx := x.ctx, handle := x.l.handle, pc := x.f.pc, word := s.word,
        src := .mem 0, dst := .scr (blk 5), len := 4 * blk 3 * c.hd, arv := arvOf arv, awOff := (d.map opdAw).getD 0,
        awVal := (b.map (x.read s (lowest (x.umask h)))).getD 0#32, bytes := 8 * blk 3 * c.hd, moved := [], left := blk 3,
        paused := false, pauseAt := 0, failed := false, issued := s.stamp }
    ((s.queue e).length < 64 → s.ahead (.engine e) x = false → Ends (.kvgath h arv d a b) s x
      { (s.unwait x).setQueue e (s.queue e ++ [job]) with pins := s.pins ++ [⟨x.ctx, .gather x.g.key, name⟩] } []) ∧
    (64 ≤ (s.queue e).length ∨ s.ahead (.engine e) x → exec (.kvgath h arv d a b) s = .next (s.waitFor (.engine e) x))) ∧
  (∀ e k tok j y t kb vb table, (s.queue e)[k]? = some j → j.kind = .gather y → y.toks[tok]? = some t → j.paused = false →
    j.moved.contains tok = false → s.seen = [] → t.freed = false →
    let n := y.hd * fmtBytes t.fmt
    let row := t.data + t.slot * n
    s.cohRead j.ctx row n = .ok kb → s.cohRead j.ctx (row + 4096) n = .ok vb →
    let keys := (elemsOf (fmtBytes t.fmt) kb).map (fromFrame t.fmt t.kexp)
    let vals := (elemsOf (fmtBytes t.fmt) vb).map (fromFrame t.fmt t.vexp)
    let bad := (keys ++ vals).any (fun q => nonFinite q.1)
    let out := if y.rot = 0 then keys else rotKeys table keys
    (bad = false → s.rotEntries j y t.pos = .ok table →
      let put := (s.draw.1.putElems j (y.koff + 4 * tok * y.hd) (out.map (·.1))).putElems j (y.voff + 4 * tok * y.hd)
        (vals.map (·.1))
      exec (.gatherTokenStep e k tok) s = .next ((put.count (dieOfEngine e) j.ctx y.tensor
        (Ev.sum ((out ++ vals).map (·.2)))).setJob e k { j with moved := tok :: j.moved, left := j.left - 1 })) ∧
    (∀ g c l s1, bad → s.draw.1.quarantineSet j t.entryAddr = .ok s1 → s.crew? j.crew = some c → s.launch? c.handle = some l →
      s.group? (j.crew * 32 + j.gid) = some g → g.stat ≠ .ended →
      let ended := (s1.count (dieOfEngine e) j.ctx y.tensor (Ev.sum ((keys ++ vals).map (·.2)))).completeGather e k j y
      ∃ (t1 : State) (f : JobFault), exec (.gatherTokenStep e k tok) s = .next t1 ∧ t1.queue e = (s.queue e).eraseIdx k ∧
        t1.group? (j.crew * 32 + j.gid) = some { g with jobFaults := g.jobFaults ++ [{ f with silent := true }] } ∧
        f.cause = 0x28#8 ∧ f.pc = j.pc ∧ f.word = j.word ∧ f.info0 = BitVec.ofNat 64 y.rcd ∧
        t1.mem = (ended.writeRecord c.die (f.record ended l.ctx j.gid g.slot 8)).mem)) ∧
  -- the quarantine mark of a frame entry: bit 74 of its 16 bytes
  (∀ j at_ t, at_ % 16 = 0 → s.quarantineSet j at_ = .ok t → OnlyMemory s t ∧ ∃ keys, s.cohKeys j.ctx at_ 16 = .ok keys ∧
    (∀ n p, keys[n]? = some p → memGet t.mem p = if n = 9 then memGet s.mem p ||| 4#8 else memGet s.mem p) ∧
    ∀ p, p ∉ keys → memGet t.mem p = memGet s.mem p) ∧
  (∀ e j r y c, s.queue e = j :: r → j.kind = .gather y → j.left = 0 → j.paused = false → s.crew? j.crew = some c →
    ∃ t c1, exec (.gatherCompletion e) s = .next t ∧ t.queue e = r ∧ t.crew? j.crew = some c1 ∧
      t.pins = s.pins.erase ⟨j.ctx, .gather (j.crew * 32 + j.gid), y.name⟩ ∧
      -- where no group has stored to the tiles since the job's issue
      ((∀ m ∈ s.storedBytes j, overlaps m 1 y.koff j.len = false ∧ overlaps m 1 y.voff j.len = false) → c1.scr = c.scr ∧
        c1.awGet j.awOff = (if j.arv = 1 then j.awVal
          else if j.arv = 2 then arrivalStep (c.awGet j.awOff) j.bytes else c.awGet j.awOff))) ∧
  (∀ d a b c r, s.site? = some x → x.emask h [d, b] ≠ 0#32 → s.kvCtx x.ctx (x.gpair (opdGno a)) = .ok c → c.rot ≠ 0 →
    s.rotHeader x.ctx c = .ok r →
    AccessEnds (.ropeq h d a b) s h [d, b] (.now d true) 0 (fun y t i => y.ropeAt c r d b t i) ∧
    ∀ i, let p := (x.read s i b).toNat
      let j := (x.read s i (opdNext b)).toNat
      (r.2 ≤ p → x.ropeAt c r d b s i = .bad 0x2B#8 p) ∧ (p < r.2 → r.1 ≤ j → x.ropeAt c r d b s i = .bad 0x11#8 j) ∧
      (∀ w, p < r.2 → j < r.1 → s.rd x.ctx (c.rot + 16 + 8 * (p * r.1 + j)) 8 = .ok w →
        let q := rotPair (w % 2 ^ 32) (w / 2 ^ 32) (x.read s i d).toNat (x.read s i (opdNext d)).toNat
        x.ropeAt c r d b s i = .ok s (BitVec.ofNat 64 (q.1.1 + 2 ^ 32 * q.2.1)) (q.1.2.plus q.2.2))) ∧
  -- the rotation of a pair (R338): one rounding after each product and each sum
  (∀ c z u v, let mul := fun p q => (fp32.mul FEnv.unit p q).1
    fp32.isNan (mul z v) = false →
    (rotPair c z u v).1.1 = (fp32.add FEnv.unit (mul c u) (fp32.negate (mul z v))).1 ∧
    (rotPair c z u v).2.1 = (fp32.add FEnv.unit (mul z u) (mul c v)).1)

/-- R326, R328, R345, R403, R404, R421: the steps of device jobs. A chunk of a clone is copied, row by row; the completion
clears CLN in the page entry and changes no other byte, takes the pin away, and ends the park of a group with no clone left; a
store that its translation fails pauses the job; a comparison notes whether a chunk differs. A chunk of a page that moves is
copied where its memory answers and none of it is poisoned, else the move ends; that its record then has the flag JOB alone and
names no group, which it serves none, is the model's reading (log entry 31). The installation of the page's leaf waits for the
copy. -/
def Obligations.DeviceJobs : Prop := ∀ (s : State) (die k : Nat) (j : DevJob), s.djob? die k = some j →
  (∀ off, j.left ≠ 0 → j.paused = false → j.moved.contains off = false →
    let done := fun (t : State) (n : Nat) => t.setDjob k { j with moved := off :: j.moved, left := j.left - n }
    (∀ src dst len at_ name xs keys, j.kind = .clone src dst len at_ name → let n := cloneChunk len off
      n ≠ 0 → dst % 128 = 0 → s.cohRead j.ctx (src + off) n = .ok xs → s.cohKeys j.ctx (dst + off) n = .ok keys →
      ∃ t, exec (.deviceJobStep die k off) s = .next (done t n) ∧ OnlyMemory s t ∧
        (∀ i < n, ∀ p, keys[i]? = some p → some (memGet t.mem p) = xs[i]?) ∧ ∀ p, p ∉ keys → memGet t.mem p = memGet s.mem p) ∧
    (∀ src dst len at_ name, j.kind = .clone src dst len at_ name → let n := cloneChunk len off
      (n = 0 → exec (.deviceJobStep die k off) s = .next s) ∧
      (n ≠ 0 → s.cohRead j.ctx (src + off) n = .error none → exec (.deviceJobStep die k off) s = .next s) ∧
      (n ≠ 0 → s.cohRead j.ctx (src + off) n = .error (some 0x10#8) → ∃ t info, exec (.deviceJobStep die k off) s = .next t ∧
        t.djobs = s.djobs.set k { j with paused := true, pauseAt := info } ∧ t.groups = s.groups)) ∧
    (∀ src dst size, j.kind = .migrate src dst size → off % 128 = 0 → off < size → let n := min 128 (size - off)
      let answers := s.keyMet (src + off) = none ∧ s.keyMet (dst + off) = none
      let poisoned := ∃ i < n, (src + off + i) / 32 ∈ s.poison
      (answers → ¬ poisoned → ∃ t, exec (.deviceJobStep die k off) s = .next (done t n) ∧ OnlyMemory s t ∧
        (∀ i < n, memGet t.mem (dst + off + i) = memGet s.mem (src + off + i)) ∧
        ∀ p, p < dst + off ∨ dst + off + n ≤ p → memGet t.mem p = memGet s.mem p) ∧
      ((answers ∧ poisoned) ∨ (∃ info, s.keyMet (src + off) = some (.bad 0x14#8 info)) →
        ∃ t r, exec (.deviceJobStep die k off) s = .next t ∧ t.djobs = s.djobs.eraseIdx k ∧ t.groups = s.groups ∧
          r.cause = 0x14#8 ∧ r.flags = 8 ∧
          t.mem = (State.writeRecord { s.draw.1 with djobs := s.djobs.eraseIdx k } j.die r).mem)) ∧
    (∀ rcd a b len bad u v, j.kind = .compare rcd a b len bad → let n := compareChunk a b len off
      n ≠ 0 → s.cohRead j.ctx (a + off) n = .ok u → s.cohRead j.ctx (b + off) n = .ok v →
      exec (.deviceJobStep die k off) s = .next (s.setDjob k
        { j with kind := .compare rcd a b len (bad || u != v), moved := off :: j.moved, left := j.left - n }))) ∧
  (∀ src dst len at_ name, j.kind = .clone src dst len at_ name → let gk := j.crew * 32 + j.gid
    ((j.paused ∨ j.left ≠ 0) → exec (.cloneCompletion die k) s = .next s) ∧
    (j.paused = false → j.left = 0 → at_ % 4 = 0 →
      (∀ xs keys, s.cohRead j.ctx at_ 4 = .ok xs → s.cohKeys j.ctx at_ 4 = .ok keys →
        ∃ t, exec (.cloneCompletion die k) s = .next t ∧ t.djobs = s.djobs.eraseIdx k ∧
          t.pins = s.pins.erase ⟨j.ctx, .clone gk, name⟩ ∧
          (∀ g low va w, s.group? gk = some g → g.stat = .parked low true va w → t.group? gk =
            some (if t.pins.any (fun p => p.by_ == .clone gk) then g else { g with stat := .run })) ∧
          -- the page entry, where no deferred free of the frame's name follows (R229)
          ((∀ y ∈ s.deferred, ¬ (y.ctx = j.ctx ∧ y.name = name)) →
            (∀ i p, keys[i]? = some p → memGet t.mem p = if i = 3 then memGet s.mem p &&& 0xDF#8 else memGet s.mem p) ∧
            ∀ p, p ∉ keys → memGet t.mem p = memGet s.mem p)) ∧
      (s.cohRead j.ctx at_ 4 = .error none → exec (.cloneCompletion die k) s = .next s) ∧
      (s.cohRead j.ctx at_ 4 = .error (some 0x10#8) → ∃ t info, exec (.cloneCompletion die k) s = .next t ∧
        t.djobs = s.djobs.set k { j with paused := true, pauseAt := info } ∧ t.pins = s.pins ∧ t.groups = s.groups))) ∧
  (∀ src dst size (lf : Leaf), j.kind = .migrate src dst size →
    (j.left ≠ 0 → exec (.migrationInstallComplete die k lf) s = .next s) ∧
    (j.left = 0 → ∃ t, exec (.migrationInstallComplete die k lf) s = .next t ∧ t.djobs = s.djobs.eraseIdx k ∧
      t.groups = s.groups ∧ t.pins = s.pins ∧ (∀ i < 8, memGet t.mem (lf.key + i) = BitVec.ofNat 8 (lf.value.toNat / 256 ^ i)) ∧
      ∀ p, p < lf.key ∨ lf.key + 8 ≤ p → memGet t.mem p = memGet s.mem p)) ∧
  -- the chunks of a clone are the 128-byte lines of the key rows and of the value rows, up to the rows' end
  (∀ len off, len ≤ 4096 → (cloneChunk len off ≠ 0 ↔ off % 128 = 0 ∧ off < 8192 ∧ off % 4096 < len)) ∧
  (∀ len, len ≤ 4096 → ((List.range 64).map (fun m => cloneChunk len (128 * m))).sum = 2 * len)

/-! ## Launches, special registers, schedulers, contexts -/

/-- R281, R371 to R374, R396, R397: `launch` and `fork`. A record that is read is decided in the group's own step: an
accepted launch takes the next handle and waits, a refused one changes nothing but its done area, whose DONE is written
last; D is the handle, or 0. (What a store to a table in use leaves undefined, R129, is left out.) -/
def Obligations.Launches : Prop := ∀ (s : State) (h : Hdr) (d a : Opd),
  (∀ x, s.site? = some x → x.umask h ≠ 0#32 →
    let at_ := x.gpair (opdGno a)
    (x.ctx ≠ 0 → Traps (.launch h d a) s x 0x11#8) ∧
    (at_ % 64 ≠ 0 → s.launchRec x.ctx at_ = .error (.acc 0x13#8 at_)) ∧
    (∀ c va, s.launchRec x.ctx at_ = .error (.acc c va) →
      let met := s.conclude x [(lowest (x.umask h), c, va)] [d]
      exec (.fork h d a) s = .next met ∧ (x.ctx = 0 → exec (.launch h d a) s = .next met)) ∧
    (∀ r, s.launchRec x.ctx at_ = .ok r →
      let own := s.accept x.ctx x.ctx (some x.c) r
      let far := (s.observe r.ctx).accept r.ctx x.ctx none r
      Ends (.fork h d a) s x (own.1.result x d (BitVec.ofNat 32 own.2)) [d] ∧
      (x.ctx = 0 → Ends (.launch h d a) s x (far.1.result x d (BitVec.ofNat 32 far.2)) [d]))) ∧
  (∀ (ctx issuer : Nat) (child : Option Crew) (r : LRec),
    let code := s.launchCode ctx child r (s.launchReads ctx r)
    let n := s.accept ctx issuer child r
    -- a page on the move under what is read holds the turn; nothing else comes of it
    let u := s.touchLaunch ctx r (s.launchReads ctx r)
    u = { s with held := u.held } ∧ code ≤ 9 ∧
    (code ≠ 0 → n.2 = 0 ∧ OnlyMemory s n.1 ∧ (s.doneOk ctx r.done = false → n.1 = u) ∧
      (s.doneOk ctx r.done → n.1 = (u.cohStore ctx (r.done + 4) 28 (code * 2 ^ 32)).cohStore ctx r.done 4 2)) ∧
    (code = 0 → n.2 = s.nextHandle ∧ n.1.groups = s.groups ∧
      n.1.nextHandle = (if s.nextHandle = 0xFFFFFFFF then 1 else s.nextHandle + 1) ∧
      (∃ l, n.1.launches.map Launch.plain = (s.launches ++ [l]).map Launch.plain ∧ l.handle = s.nextHandle ∧ l.ctx = ctx ∧ l.issuer = issuer ∧
        l.queue = r.queue ∧ l.pre = r.pre.filter (· ≠ 0) ∧ (l.cx, l.cy, l.cz) = (r.cx, r.cy, r.cz) ∧ l.done = r.done ∧
        l.next = 0 ∧ l.retired = 0 ∧ l.traps = 0 ∧ l.killed = 0 ∧ l.ended = false ∧ l.met = false) ∧
      (child = none → n.1.crews.map Crew.bare = s.crews.map Crew.bare) ∧
      (∀ c, child = some c → n.1.crews.map Crew.bare = (s.setCrew { c with children := c.children + 1 }).crews.map Crew.bare)) ∧
    -- the checks of R374 that need nothing but the record and the state
    ((∃ p ∈ r.pre, p ≠ 0 ∧ s.named? ctx p = none) → code ≠ 0) ∧
    (256 ≤ (s.launches.filter (fun l => l.ctx == ctx && !l.ended)).length → code ≠ 0) ∧
    (r.cx * r.cy * r.cz = 0 ∨ 2 ^ 32 < r.cx * r.cy * r.cz ∨ r.done % 32 ≠ 0 ∨ r.desc % 64 ≠ 0 → code ∈ [1, 2]) ∧
    (child = none → (∀ k, s.ctx? ctx = some k → k.valid = false) → code ≠ 0) ∧
    (∀ c, child = some c → 16 ≤ c.children ∨ r.ctx ≠ 0 → code ≠ 0) ∧
    (s.doneOk ctx r.done = false → code ≠ 0))

/-- R29, R45, R59, R137, R361, R395, R399, R400: `srd`, `swr` and the registers they name; and a write of a context's
`sr.specdepth` or `sr.ybound` by the control core. What a refused write by the control core does is the model's choice (log
entry 7); that a write that cancels is refused too where another field is out of range is its reading (log entry 50). -/
def Obligations.SpecialRegisters : Prop := ∀ (s : State) (h : Hdr) (d a : Opd) (x : Site),
  (s.site? = some x → x.umask h ≠ 0#32 →
    let i := lowest (x.umask h)
    let v := x.read s i a
    (∀ r, r ∉ [SReg.tsclo, .refclklo] → Ends (.srd h d (.sr r) none) s x (s.result x d (x.read s i (.sr r))) [d]) ∧
    (∀ (n : BitVec 6) (r : SReg) (w : DWord), (r, w) ∈ [(SReg.tsclo, s.tsc), (.refclklo, BitVec.ofNat 64 (s.nanos / 10))] →
      (n.toNat % 2 = 1 → Traps (.srd h (.g n) (.sr r) none) s x 0x11#8) ∧
      (n.toNat % 2 = 0 → Ends (.srd h (.g n) (.sr r) none) s x (s.modGroup x.g.key (fun g =>
        { g with g := (g.g.set n.toNat (w.setWidth 32)).set (n + 1#6).toNat (w.extractLsb' 32 32) })) [.g n, .g (n + 1#6)])) ∧
    -- B names a context: its entry counts as it stands at the step, and the device has observed it then
    (∀ b r, let c := (x.read s i b).toNat
      let seen := s.observe c
      let refused := fun (j : Instr) (t : State) => ∃ y : Trap, y.cause = 0x11#8 ∧ exec j s = .next (t.trap x y)
      (x.ctx ≠ 0 ∨ (c ≠ 0 ∧ r ∉ [SReg.ybound, .specdepth]) →
        refused (.srd h d (.sr r) (some b)) s ∧ refused (.swr h (.sr r) a (some b)) s) ∧
      (x.ctx = 0 → c = 0 ∨ r ∈ [SReg.ybound, .specdepth] → s.validEntry c = none →
        refused (.srd h d (.sr r) (some b)) seen ∧ refused (.swr h (.sr r) a (some b)) seen) ∧
      (∀ k, x.ctx = 0 → s.validEntry c ≠ none → seen.ctx? c = some k →
        Ends (.srd h d (.sr .ybound) (some b)) s x (seen.result x d (BitVec.ofNat 32 k.ybound)) [d] ∧
        Ends (.srd h d (.sr .specdepth) (some b)) s x (seen.result x d k.depth) [d] ∧
        (1024 ≤ v.toNat ∧ v.toNat ≤ 65536 → Ends (.swr h (.sr .ybound) a (some b)) s x (seen.setCtx { k with ybound := v.toNat }) []) ∧
        (¬ (1024 ≤ v.toNat ∧ v.toNat ≤ 65536) → refused (.swr h (.sr .ybound) a (some b)) seen) ∧
        (∀ w, depthWrite k.depth v = some w → Ends (.swr h (.sr .specdepth) a (some b)) s x (seen.setCtx { k with depth := w }) []) ∧
        (depthWrite k.depth v = none → refused (.swr h (.sr .specdepth) a (some b)) seen))) ∧
    (v.toNat < 128 ∧ v.getLsbD 3 = false → Ends (.swr h (.sr .fpmode) a none) s x
      (s.modGroup x.g.key (fun g => { g with fpmode := v })) []) ∧
    (¬ (v.toNat < 128 ∧ v.getLsbD 3 = false) → Traps (.swr h (.sr .fpmode) a none) s x 0x11#8) ∧
    (∀ r, r ∉ [SReg.fpmode, .ybound, .specdepth] ∨ (x.ctx ≠ 0 ∧ r ≠ .fpmode) → Traps (.swr h (.sr r) a none) s x 0x11#8)) ∧
  -- what a thread reads in the registers that say where it runs
  (∀ i, let n := fun r => (x.read s i (.sr r)).toNat
    n .gwidth = 32 ∧ (i < 32 → n .tid = i) ∧ (x.c.core < 512 → 64 * n .die + 4 * n .quad + n .core = x.c.core) ∧
    (x.c.lin < x.l.cx * x.l.cy * x.l.cz → x.l.cx * x.l.cy * x.l.cz ≤ 2 ^ 32 →
      n .crewx < x.l.cx ∧ n .crewy < x.l.cy ∧ n .crewz < x.l.cz ∧
      n .crewx + x.l.cx * (n .crewy + x.l.cy * n .crewz) = x.c.lin)) ∧
  (∀ (old w : Word) (lvl : Nat), lvl = (w.extractLsb' 24 3).toNat →
    let bad := w.extractLsb' 27 3 ≠ 0#3 ∨ (w.getLsbD 31 ∧ w.getLsbD 30) ∨ 4 < lvl ∨
      ([16, 8, 8, 4, 2][lvl]?).getD 0 ≤ (w.extractLsb' 16 8).toNat ∨ 63 < (w.extractLsb' 8 8).toNat
    (bad → depthWrite old w = none) ∧
    (¬ bad → w.getLsbD 31 → ∃ n, depthWrite old w = some n ∧ n.extractLsb' 8 24 = w.extractLsb' 8 24 ∧
      n.extractLsb' 0 8 = old.extractLsb' 0 8) ∧
    (¬ bad → w.getLsbD 30 → depthWrite old w = some ((w.extractLsb' 8 8).setWidth 32)) ∧
    (¬ bad → w.getLsbD 31 = false → w.getLsbD 30 = false → depthWrite old w = some ((old.extractLsb' 0 8).setWidth 32))) ∧
  (∀ ctx k w, s.ctx? ctx = some k →
    let wrote := fun (i : Instr) => exec i s = .next (((depthWrite k.depth w).map (fun n =>
      s.setCtx { k with depth := n })).getD s)
    (w.getLsbD 31 → w.getLsbD 30 = false → wrote (.specdepthSetPending ctx w)) ∧
    (w.getLsbD 31 = false → w.getLsbD 30 → wrote (.specdepthApplyImmediate ctx w)) ∧
    (w.getLsbD 31 = false → w.getLsbD 30 = false → wrote (.specdepthCancel ctx w))) ∧
  (∀ ctx k v rest, let s1 : State := { s with held := false, agenda := rest }
    s.ctx? ctx = some k → s.agenda = .ybound ctx v :: rest →
    step s = s.leaves (.next (if 1024 ≤ v ∧ v ≤ 65536 then s1.setCtx { k with ybound := v } else s1)))

/-- R23, R24, R27, R30, R33, R34, R45, R178, R376 to R378, R383, R384: offers and placement, retirement, the end of a launch.
An offered crew is placed when no crew before it in the order finds a place; a place keeps the conditions of R33; a core on which
a crew has failed conditions 4 or 5 alone for the placement wait is drained. That a failure begins with an offer that finds no place,
and that a wait out of its range changes nothing, is the model's choice (log entry 45). A new crew
starts with the registers of R30, a saved one goes on with the registers it left with. The first block of a free run is the model's
choice (log entry 55). -/
def Obligations.Schedulers : Prop :=
  (∀ (s : State) (handle lin : Nat), let found := s.cands.find? (fun q => q.handle == handle && q.lin == lin)
    (found = none → exec (.crewOffer handle lin) s = .next s) ∧
    (∀ q l, found = some q → s.launch? handle = some l →
      ((∃ y ∈ s.cands, y.before q ∧ (s.placed? y).isSome) → exec (.crewOffer handle lin) s = .next s) ∧
      ((∀ y ∈ s.cands, y.before q → s.placed? y = none) →
        (∀ t, s.placed? q = some t → exec (.crewOffer handle lin) s = .next t) ∧
        (s.placed? q = none → exec (.crewOffer handle lin) s = .next ((s.markSplit l).noteFails l q))))) ∧
  -- an offer that found no place notes where the crew begins to fail conditions 4 or 5 alone
  (∀ (s : State) (l : Launch) (q : Cand), let t := s.noteFails l q
    t = { s with fails := t.fails } ∧ ∀ e, e ∈ t.fails ↔ e ∈ s.fails ∨ (e.handle = q.handle ∧ e.lin = q.lin ∧ e.since = s.nanos ∧
      OnlyFragmented s e.core l q ∧ ∀ y ∈ s.fails, ¬ (y.handle = q.handle ∧ y.lin = q.lin ∧ y.core = e.core))) ∧
  (∀ a b : Cand, a.before b ↔ b.prio < a.prio ∨ (a.prio = b.prio ∧ ((a.crew.isSome ∧ b.crew = none) ∨
    (a.crew.isSome = b.crew.isSome ∧ (a.pos < b.pos ∨ (a.pos = b.pos ∧ a.lin < b.lin)))))) ∧
  (∀ (s : State) (l : Launch) (core : Nat) (gids : List Nat) (less : Option Nat) (p : Spot), s.spot? core l gids less = some p →
    let here := s.resident core less
    here.length < 16 ∧ (here ≠ [] → (s.core core).split = l.split ∧ (s.core core).drain = false ∧ (s.core core).splitDrain = false) ∧
    (l.matrix → ∀ c ∈ here, c.hasUnit = false) ∧ p.base % 4096 = 0 ∧
    p.base + scratchAlloc l.desc.scratch ≤ splitS (s.splitAt core l less) * 32768 ∧
    (∀ c ∈ here, ∀ q, s.launch? c.handle = some q → c.base % 4096 = 0 →
      p.base + scratchAlloc l.desc.scratch ≤ c.base ∨ c.base + scratchAlloc q.desc.scratch ≤ p.base) ∧
    p.seats.map (·.1) = gids ∧ (∀ e ∈ p.seats, e.2.lane < 32 ∧ e.2.slot < 8) ∧
    p.seats.Pairwise (fun a b => (a.2.lane, a.2.slot) ≠ (b.2.lane, b.2.slot)) ∧
    -- the lanes, group by group in ascending gid order: what is resident before it, its blocks, the groups seated before it
    (let old := (s.groups.filter (fun g => g.live && here.any (fun c => c.id == g.crew))).filterMap (fun g =>
       ((s.crew? g.crew).bind (fun c => s.launch? c.handle)).map (fun q => (g, q.desc.vregs / 8)))
     let blocks := l.desc.vregs / 8
     let apart := fun (a m b n : Nat) => a + m ≤ b ∨ b + n ≤ a
     ∀ k e, p.seats[k]? = some e →
       let sat := p.seats.take k
       let load := fun (lane : Nat) => (old.filter (fun o => o.1.lane == lane)).length + (sat.filter (fun y => y.2.lane == lane)).length
       let free := fun (lane a : Nat) => a + blocks ≤ splitR (s.splitAt core l less) ∧
         (∀ o ∈ old, o.1.lane = lane → apart a blocks o.1.vbase o.2) ∧
         ∀ y ∈ sat, y.2.lane = lane → apart a blocks y.2.vbase blocks
       let taken := fun (slot : Nat) => (∃ o ∈ old, o.1.lane = e.2.lane ∧ o.1.slot = slot) ∨
         ∃ y ∈ sat, y.2.lane = e.2.lane ∧ y.2.slot = slot
       -- a free run of its blocks, and the lowest slot that nobody holds
       free e.2.lane e.2.vbase ∧ load e.2.lane < 8 ∧ ¬ taken e.2.slot ∧ (∀ j < e.2.slot, taken j) ∧
       -- no lane that has room holds fewer groups, and none of as few stands before it
       ∀ lane < 32, load lane < 8 → (∃ a, free lane a) →
         load e.2.lane < load lane ∨ (load e.2.lane = load lane ∧ e.2.lane ≤ lane))) ∧
  (∀ (s : State) (l : Launch) (gids : List Nat) (die core : Nat) (p : Spot), s.offer l gids = (die, some (core, p)) →
    let fits := fun d => (s.coresOf l).filter (fun c => c / 64 == d && (s.spot? c l gids none).isSome)
    core ∈ fits die ∧ s.spot? core l gids none = some p ∧ (∀ c ∈ fits die, core ≤ c) ∧
    ∀ d ∈ s.diesOf l, (fits d).length ≤ (fits die).length ∧ ((fits d).length = (fits die).length → die ≤ d)) ∧
  (∀ (s : State) (l : Launch) (core : Nat) (p : Spot), let t := s.placeNew l core p
    (∃ c gs, t.crews = s.crews ++ [c] ∧ t.groups = s.groups ++ gs ∧ c.lin = l.next ∧ c.handle = l.handle ∧ c.core = core ∧
      c.base = p.base ∧ c.stat = .resident ∧ c.pending = none ∧ c.children = 0 ∧ (∀ off, c.awGet off = 0#32) ∧
      gs.map (·.gid) = p.seats.map (·.1) ∧
      ∀ g ∈ gs, g.crew = c.id ∧ g.stat = .run ∧ g.block = none ∧ g.pins = [] ∧ g.fpmode = l.desc.fpmode ∧
        g.role = l.roleOf g.gid ∧ g.frags = [Frag.start 0xFFFFFFFF#32 (l.entryOf g.gid)] ∧ (∀ f ∈ g.frags, f.count = 0) ∧
        g.wdog = min (l.desc.deadline + 1) (s.ybound l.ctx) ∧ (∀ n i, g.vreg n i = 0#32) ∧
        (∀ k, g.greg k = ((l.args.find? (fun e => e.1 == k)).map (·.2)).getD 0#32) ∧
        (∀ n i, n ≠ 0#3 → g.pred n i = false)) ∧ t.mem = s.mem) ∧
  (∀ (s : State) (l : Launch) (c : Crew) (core : Nat) (p : Spot), s.crew? c.id = some c → s.imageTorn l.ctx c = false →
    (p.seats.map (·.1)).Nodup → let t := s.placeBack l c core p
    (∃ c1, t.crew? c.id = some c1 ∧ c1.core = core ∧ c1.base = p.base ∧ c1.stat = .resident ∧ c1.pending = none ∧
      c1.scr = c.scr ∧ c1.aw = c.aw ∧ c1.insts = c.insts ∧ c1.unit = c.unit) ∧
    ∀ gid st g, (gid, st) ∈ p.seats → s.group? (c.id * 32 + gid) = some g →
      -- a group that waits in its instruction executes it again, as the start of a run (R47, R67)
      let anew := fun (f : Frag) => if g.blocked then { f with pos := 0, tw := 0#8 } else f
      (g.blocked ↔ g.block ≠ none ∧ ∀ low clone va w, g.stat ≠ .parked low clone va w) ∧
      t.group? (c.id * 32 + gid) = some { g.unhold with
        lane := st.lane, slot := st.slot, vbase := st.vbase, recount := g.block.isSome,
        frags := g.frags.map anew, spilled := g.spilled.map anew }) ∧
  (∀ (s : State) (handle lin core : Nat),
    -- a crew that has failed so for the placement wait of the core's die, and still does, has the core drained
    let due := ∃ e ∈ s.fails, e.handle = handle ∧ e.lin = lin ∧ e.core = core ∧ e.since + s.placeWait (core / 64) ≤ s.nanos ∧
      ∃ q l, s.cands.find? (fun q => q.handle == handle && q.lin == lin) = some q ∧ s.launch? handle = some l ∧
        OnlyFragmented s core l q
    (due → exec (.placementWaitExpiry handle lin core) s = .next (s.setCore { s.core core with drain := true })) ∧
    (¬ due → exec (.placementWaitExpiry handle lin core) s = .next s)) ∧
  (∀ (s : State) (die ns : Nat) (rest : List Turn), s.agenda = .pwait die ns :: rest →
    (∀ d, lookup s.pwait d = none → s.placeWait d = 1000000) ∧
    ∃ t, step s = s.leaves (.next t) ∧ t = { s with held := false, agenda := rest, pwait := t.pwait } ∧
      ∀ d, t.placeWait d = if d = die ∧ 100000 ≤ ns ∧ ns ≤ 100000000 then ns else s.placeWait d) ∧
  -- a failure ends as soon as the crew would not fail so any more
  (∀ s : State, s.keepFails = { s with fails := s.keepFails.fails } ∧ ∀ e, e ∈ s.keepFails.fails ↔ e ∈ s.fails ∧
    ∃ q l, s.cands.find? (fun q => q.handle == e.handle && q.lin == e.lin) = some q ∧ s.launch? e.handle = some l ∧
      OnlyFragmented s e.core l q) ∧
  (∀ (s : State) (c : Crew) (l : Launch), s.crew? c.id = some c → s.launch? c.handle = some l →
    let finished := c.stat = .resident ∧ (∀ g ∈ s.groupsOf c.id, g.stat = .ended) ∧ s.crewQuiet c
    (¬ finished → exec (.crewRetire c.id) s = .next s) ∧
    (finished → ∃ t c1, exec (.crewRetire c.id) s = .next t ∧ t.crew? c.id = some c1 ∧ c1.stat = .retired ∧ c1.hasUnit = false ∧
      t.launch? c.handle = some { l with retired := l.retired + 1 } ∧ t.mem = s.mem ∧ t.groups = s.groups)) ∧
  (∀ (s : State) (l : Launch), s.launch? l.handle = some l →
    ((l.ended ∨ l.retired ≠ l.cx * l.cy * l.cz) → exec (.launchEnd l.handle) s = .next s) ∧
    (l.ended = false → l.retired = l.cx * l.cy * l.cz → ∃ t, exec (.launchEnd l.handle) s = .next t ∧
      t.launch? l.handle = some { l with ended := true, met := t.cohNat? l.ctx l.done 4 == some 1 } ∧ t.groups = s.groups ∧
      (∀ y ∈ t.tiles, ¬ (y.ctx = l.ctx ∧ y.handle = l.handle)) ∧
      (∀ p c, l.parent = some p → s.crew? p = some c →
        (t.crew? p).map Crew.bare = some { c with children := c.children - 1 }.bare) ∧
      (l.stats = 0 → (∀ y ∈ s.bufs, y.ctx = l.ctx → y.dirty = 0#128) → (∀ y ∈ s.tiles, y.handle ≠ l.handle) →
        t.mem = ((s.cohStore l.ctx (l.done + 4) 28 (l.handle + 2 ^ 64 * l.traps + 2 ^ 96 * l.killed)).cohStore
          l.ctx l.done 4 1).mem)))

/-- R47, R49, R302, R368, R381, R382: what the device does when it observes a context's entry, and how a crew leaves its
core. A crew leaves only when each of its groups has stopped at a point where it may, with nothing outstanding and room in
the save arena; its arrival words, barrier instances, group registers, predicates, pins, and what the live-mask entries
name keep their values. How much of the arena an image takes, and that outstanding register writes complete first, is the
model's choice (log entry 13). -/
def Obligations.ContextSwitches : Prop :=
  (∀ (s : State) (ctx : Nat), let seen := s.observe ctx
    (s.validEntry ctx = none → exec (.contextSwitchOut ctx) s = .next seen ∧ exec (.contextSwitchIn ctx) s = .next s ∧
      exec (.contextValidObserved ctx) s = .next s) ∧
    (∀ w, s.validEntry ctx = some w →
      exec (.contextSwitchOut ctx) s = .next (if w.testBit 1 then s else seen) ∧
      (∀ k, s.ctx? ctx = some k → exec (.contextSwitchIn ctx) s = .next (if w.testBit 1 then seen else s)) ∧
      ((∀ k, s.ctx? ctx = some k → k.valid = false) → exec (.contextValidObserved ctx) s = .next seen) ∧
      (∀ k, s.ctx? ctx = some k → k.valid → exec (.contextValidObserved ctx) s = .next s) ∧
      (∃ k, seen.ctx? ctx = some k ∧ k.valid ∧ k.run = w.testBit 1 ∧ k.save = bits w 511 456 ∧ k.savecap = bits w 447 416 ∧
        k.freeq = bits w 415 360 ∧ k.qtab = bits w 351 296 ∧
        (s.ctx? ctx = none → k.ybound = (if bits w 287 256 = 0 then 4096 else bits w 287 256) ∧ k.depth = 0#32) ∧
        (∀ k0, s.ctx? ctx = some k0 → k.ybound = k0.ybound ∧ k.depth = k0.depth))) ∧
    (s.validEntry ctx = none → ∀ k0, s.ctx? ctx = some k0 →
      seen.ctx? ctx = some { k0 with valid := false, run := false }) ∧
    seen.mem = s.mem ∧ seen.launches = s.launches ∧
    -- the resident crews of the context
    (∀ k c, ctx ≠ 0 → seen.ctx? ctx = some k → (s.crews.map Crew.id).Nodup → s.crew? c.id = some c →
      c.stat = .resident → (s.launch? c.handle).map (·.ctx) = some ctx →
      (k.run = false → seen.crew? c.id = some { c with pending := if c.pending = none then some .switch else c.pending } ∧
        seen.groups = s.groups) ∧
      (k.run → seen.crew? c.id = some { c with pending := if c.pending = some .switch then none else c.pending } ∧
        (c.pending = some .switch → ∀ g ∈ seen.groups, g.crew = c.id → g.stat ≠ .held)))) ∧
  (∀ (s : State) (c : Crew) (l : Launch), s.crew? c.id = some c → s.launch? c.handle = some l →
    let stays := exec (.contextSwitchComplete c.id) s = .next s
    (c.pending = none → stays) ∧ (s.crewQuiet c = false → stays) ∧ (s.arenaRoom l = none → stays) ∧
    ((∃ g ∈ s.groupsOf c.id, g.stat = .run ∧ g.block = none) → stays) ∧
    ((∃ g ∈ s.groupsOf c.id, ∃ low a w, g.stat = .stopped low a w) → stays) ∧
    ((∃ g ∈ s.groupsOf c.id, g.stat ≠ .ended ∧ g.out ≠ []) → stays) ∧
    (∀ why a, s.leaving c = some why → s.arenaRoom l = some a → ∃ t c1, exec (.contextSwitchComplete c.id) s = .next t ∧
      t.crew? c.id = some c1 ∧ c1.stat = .saved why ∧ c1.pending = none ∧ c1.aw = c.aw ∧ c1.insts = c.insts ∧
      c1.slot0 = a ∧ c1.slots = imageSlots l ∧ t.pins = s.pins ∧ t.tiles = s.tiles ∧
      ((∀ y ∈ s.bufs, y.dirty = 0#128) → (s.groups.map Group.key).Nodup → t.mem = s.mem ∧
        ∀ gk g, s.group? gk = some g → g.crew = c.id → g.stat ≠ .ended →
          let e := s.draw.1.keepOf l g why
          ∃ g1, t.group? gk = some g1 ∧ g1.g = g.g ∧ g1.p = g.p ∧ g1.pins = g.pins ∧ g1.frags = g.frags ∧ g1.stat = g.stat ∧
            g1.block = g.block ∧
            (∀ b k, e.vmask.getLsbD b → b * 256 ≤ k → k < b * 256 + 256 → g1.v.get k = g.v.get k) ∧
            (∀ k, e.sbase ≤ k → k < e.sbase + e.slen → c1.scr.get k = c.scr.get k) ∧
            (c.hasUnit → (e.perm → c1.unit.perm = c.unit.perm ∧ c1.unit.cbs = c.unit.cbs) ∧ (e.ws → c1.unit.ws = c.unit.ws) ∧
              (e.ring → c1.unit.ring = c.unit.ring ∧ c1.unit.slots = c.unit.slots ∧ c1.unit.epc = c.unit.epc)))))

/-- R209, R404, R407 to R412, R414 to R421: what reaches the package from outside. A host write to device memory lands as one
write once S0 is ready; a reset returns to reset release (the memory of this package is then undefined: the model lists
nothing, log entry 3); READY and FAIL bits come with the end of training; a write to BOOTHI starts the boot once: a good record
starts context 0 and its first launch, and a record, or a launch, that is refused sets FAIL bit 31 and starts nothing; another
package writes to this one once the links are ready; an error counts, and an uncorrectable one poisons its granule. That such
turns come by an agenda is the model's own (log entry 1). -/
def Obligations.SystemEvents : Prop := ∀ s : State,
  (∀ sp addr, exec (.hostAccess sp addr none) s = .next s) ∧
  (∀ addr xs, let lands := fun (sp : HostSpace) (k0 : Nat) => ∃ t, exec (.hostAccess sp addr (some xs)) s = .next t ∧
      OnlyMemory s t ∧ (∀ i b, xs[i]? = some b → memGet t.mem (k0 + i) = b) ∧
      (∀ k, k < k0 ∨ k0 + xs.length ≤ k → memGet t.mem k = memGet s.mem k)
    lands .host (hostKey addr) ∧ (s.hostReach addr xs.length → lands .device addr) ∧
    (s.hostReach addr xs.length = false → exec (.hostAccess .device addr (some xs)) s = .next s)) ∧
  (∃ t, exec .reset s = .next t ∧ t.groups = [] ∧ t.crews = [] ∧ t.launches = [] ∧ t.ctxs = [] ∧ t.nextHandle = 1 ∧
    t.sys.ready = 0#32 ∧ t.sys.fail = 0#32 ∧ t.sys.links = 0#32 ∧ t.sys.boot = none ∧ t.sys.started = false ∧ t.nanos = 0 ∧
    t.bufs = [] ∧ t.tiles = [] ∧ t.pins = [] ∧ t.deferred = [] ∧ t.engines = [] ∧ t.djobs = [] ∧ t.tsc = s.tsc ∧
    (s.MemInv → t.MemInv ∧ ∀ k, farKeys ≤ k → memGet t.mem k = memGet s.mem k)) ∧
  (∀ f k (ok : Bool), funcBit f = some k → (ok ∨ k ≠ 30) → s.sys.ready.getLsbD k = false → s.sys.fail.getLsbD k = false →
    s.sys.bootReq = false →
    exec (.functionTrainingEnd f ok) s = .next { s with sys := if ok then { s.sys with ready := withBit s.sys.ready k }
      else { s.sys with fail := withBit s.sys.fail k } }) ∧
  (∀ f k ok, funcBit f = some k → s.sys.ready.getLsbD k ∨ s.sys.fail.getLsbD k → exec (.functionTrainingEnd f ok) s = .next s) ∧
  (∀ p ok, p < 18 → lookup s.sys.lanes p = none → ∃ t, exec (.functionTrainingEnd (.port p) ok) s = .next t ∧
    lookup t.sys.lanes p = some (if ok then 8 else 0) ∧ (t.sys.links.getLsbD p ↔ ok ∨ s.sys.links.getLsbD p) ∧
    (s.sys.lanes.length = 17 → t.sys.ready.getLsbD 29) ∧ t.mem = s.mem) ∧
  (∀ hi, exec (.bootStart hi) s = exec (.managementRegisterWrite 0x14 hi) s ∧
    (s.sys.started → exec (.bootStart hi) s = .next s) ∧
    (s.sys.started = false → s.sys.ready.getLsbD 30 = false → exec (.bootStart hi) s =
      .next { s with sys := { s.sys with bootHi := hi, bootReq := true } }) ∧
    (s.sys.started = false → s.sys.ready.getLsbD 30 → s.sys.fail.getLsbD 31 = false →
      ((∀ w, s.bootRead (hi.toNat * 2 ^ 32 + s.sys.bootLo.toNat) = some w → bootOk (hi.toNat * 2 ^ 32 + s.sys.bootLo.toNat) w = false) →
        ∃ t, exec (.bootStart hi) s = .next t ∧ t.sys.fail.getLsbD 31 ∧ t.sys.boot = none ∧ t.sys.started = false ∧
          t.launches = s.launches ∧ t.mem = s.mem) ∧
      (∀ w r, let addr := hi.toNat * 2 ^ 32 + s.sys.bootLo.toNat
        let s0 : State := { s with sys := { s.sys with bootHi := hi, boot := some (bootOf w), bootReq := false } }
        let s1 := ((s0.touchEntry 0).touch 0 (bootOf w).wlr 64).bootCtx
        s.bootRead addr = some w → bootOk addr w →
        (s1.wellRec (bootOf w).wlr = none → ∃ t, exec (.bootStart hi) s = .next t ∧ t.sys.fail.getLsbD 31 ∧ t.sys.boot = none ∧
          t.sys.started = false ∧ t.launches = s.launches ∧ t.mem = s.mem) ∧
        (s1.wellRec (bootOf w).wlr = some r → (s1.accept 0 0 none r).2 = 0 → ∃ t, exec (.bootStart hi) s = .next t ∧
          t.sys.fail.getLsbD 31 ∧ t.sys.boot = none ∧ t.sys.started = false ∧
          t.launches.map Launch.plain = s.launches.map Launch.plain) ∧
        (s1.wellRec (bootOf w).wlr = some r → (s1.accept 0 0 none r).2 ≠ 0 → ∃ t l, exec (.bootStart hi) s = .next t ∧
          t.sys.started ∧ t.sys.ready.getLsbD 31 ∧ t.sys.fail = s.sys.fail ∧ t.sys.boot = some (bootOf w) ∧
          (∃ k, t.ctx? 0 = some k ∧ k.valid ∧ k.run) ∧ t.launches.map Launch.plain = (s.launches ++ [l]).map Launch.plain ∧
          l.ctx = 0 ∧ l.handle = s.nextHandle ∧ l.queue = r.queue ∧ l.done = r.done)))) ∧
  (∀ off v, off ≠ 0x10 → off ≠ 0x14 → exec (.managementRegisterWrite off v) s = .next s) ∧
  (∀ v, exec (.managementRegisterWrite 0x10 v) s =
    .next (if s.sys.started then s else { s with sys := { s.sys with bootLo := v } })) ∧
  (∀ port, exec (.flitCrcRetry port) s = .next s) ∧
  (∀ port n lanes, lookup s.sys.lanes port = some n →
    (lanes ∈ [4, 2, 1, 0] → lanes < n → ∃ t, exec (.portDegrade port lanes) s = .next t ∧
      lookup t.sys.lanes port = some lanes ∧ t.mem = s.mem ∧
      (∀ k, t.sys.links.getLsbD k = (s.sys.links.getLsbD k && !(lanes == 0 && k == port)))) ∧
    (n ≤ lanes → exec (.portDegrade port lanes) s = .next s)) ∧
  (∀ pkg, ∃ t, exec (.packageUnreachable pkg) s = .next t ∧ (pkg ≠ s.pkg → pkg ∈ t.sys.lost) ∧ t.mem = s.mem) ∧
  (exec .hostUnreachable s = .next { s with sys := { s.sys with hostLost := true } }) ∧
  (∀ granule, exec (.patrolScrub granule .clean) s = .next s ∧
    (32 * granule < deviceBytes → exec (.patrolScrub granule .corrected) s =
        .next { s with sys := { s.sys with cec := if s.sys.cec = 0xFFFFFFFF#32 then s.sys.cec else s.sys.cec + 1#32 } } ∧
      ∃ t, exec (.patrolScrub granule .uncorrectable) s = .next t ∧ granule ∈ t.poison ∧ t.mem = s.mem ∧
        t.sys.uec = (if s.sys.uec = 0xFFFFFFFF#32 then s.sys.uec else s.sys.uec + 1#32))) ∧
  (∀ rest, let s1 : State := { s with held := false, agenda := rest }
    let stays := step s = s.leaves (.next s1)
    -- configuration space: BOOTLO and BOOTHI act as in the management window
    (∀ off v, s.agenda = .config off v :: rest →
      (off = 0x0C → step s = s.leaves (exec (.managementRegisterWrite 0x10 v) s1)) ∧
      (off = 0x10 → step s = s.leaves (exec (.bootStart v) s1)) ∧ (off ≠ 0x0C → off ≠ 0x10 → stays)) ∧
    -- a write by the host or by another package, with the poison that its data carries
    (∀ far key xs ps, s.agenda = .outside far key xs ps :: rest →
      (s1.outsideReach far key xs.length = false → stays) ∧
      (s1.outsideReach far key xs.length → ∃ t, step s = s.leaves (.next t) ∧ OnlyMemory s1 t ∧
        (∀ i b, xs[i]? = some b → memGet t.mem (key + i) = b) ∧
        (∀ k, k < key ∨ key + xs.length ≤ k → memGet t.mem k = memGet s.mem k) ∧
        (∀ g ∈ ps, overlaps (32 * g) 32 key xs.length → g ∈ t.poison))) ∧
    -- an error that an access or a scrub meets
    (∀ at_ u, s.agenda = .error at_ u :: rest →
      let up := fun (w : Word) => if w = 0xFFFFFFFF#32 then w else w + 1#32
      (s1.eccHere at_ = false → stays) ∧
      (s1.eccHere at_ → u = false → step s = s.leaves (.next { s1 with sys := { s1.sys with cec := up s1.sys.cec } })) ∧
      (s1.eccHere at_ → u → ∃ t, step s = s.leaves (.next t) ∧ t.sys = { s.sys with uec := up s.sys.uec } ∧ t.mem = s.mem ∧
        (∀ g, at_ = .mem g → g ∈ t.poison) ∧
        (∀ b ctx line i y, at_ = .line b ctx line i → s.line? b ctx line = some y →
          ∃ z, t.line? b ctx line = some z ∧ z.poison = y.poison ||| (1#4 <<< i) ∧ z.value = y.value ∧ z.dirty = y.dirty) ∧
        (∀ crew g c, at_ = .scr crew g → s.crew? crew = some c → t.crew? crew = some { c with poison := g :: c.poison }) ∧
        (∀ die slot g, at_ = .tile die slot g → ∀ y ∈ t.tiles, y.die = die → y.slot = slot → g ∈ y.poison))))

/-! ## Decoding, the step, reset, the invariant -/

/-- R53 to R80: every instruction has one word, and every word that decodes is the word of a well-formed instruction; the
events of the device, among them what the issue itself does with an illegal word and an overrun, have none. -/
def Obligations.DecodeRoundTrip : Prop := ∀ i : Instr, (∀ w : IWord, decode w = some i ↔ (i.wf ∧ encode i = some w)) ∧
  ((encode i).isSome ↔ isEvent i = false ∧ (∀ c r, i ≠ .illegalWord c r) ∧ i ≠ .watchdogOverrun) ∧
  (i.wf → isEvent i = false → (∀ c r, i ≠ .illegalWord c r) → i ≠ .watchdogOverrun → ∃ w, encode i = some w ∧ decode w = some i)

/-- R25, R53, R56 to R65, R81: words that the manual writes out are the instructions that it gives beside them; and words
that no instruction has, with the causes of R81. -/
def Obligations.DecodeWords : Prop :=
  let h : Hdr := ⟨false, 0#3, 0#4, 0#2, 0#2⟩
  decode 0x2300B2040000040000100002#96 = some (.fma ⟨true, 3#3, 2#4, 0#2, 0#2⟩ .f32 ⟨.rz, .mode, false, false⟩ (.v 4) (.v 1) (.v 2)) ∧
  decode 0x000000080000070000340064#96 = some (.add h .s32 true (.v 7) (.v 3) (.si 100)) ∧
  decode 0x150020020200010000510009#96 = some (.cmp { h with prd := 2 } .s32 .lt (.p 1) (.v 5) (.g 9)) ∧
  decode 0x180000000100049567891234#96 = some (.mov h .b32 (.g 4) (.li 0x12345678)) ∧
  decode 0x800010000000004000440006#96 = some (.br { h with prd := 1 } 4 (some 6)) ∧
  decode 0x570400002000021000640080#96 = some (.ldc h .b32 true (.v 2) (.g 6) (.si 128)) ∧
  decode 0x590D00000000040000A00006#96 = some (.atom h .pmax (.v 4) (.v 10) (.v 6)) ∧
  decode 0x740000000000005025700000#96 = some (.yield h 599) ∧
  decode 0x9300000A0800001000880003#96 = some (.mloopDense h true false true false false (.rc 0) (.g 8) (.rc 3)) ∧
  decode 0xA90000080A00401001800000#96 = some (.kvgath h .add (some (.aw 0x40)) (.g 24) none) ∧
  decode 0xB00000000000031000A00001#96 = some (.rngc h (.v 3) (.g 10) (.v 1)) ∧
  decode 0xC30000000600171000610007#96 = some (.swr h (.sr .specdepth) (.g 6) (some (.g 7))) ∧
  -- an odd pair; a reserved class; a reserved major; a nonzero ignored field; two words that the role does not permit
  decode 0x420000000000061000B00000#96 = none ∧
  decodeFor 2 0x00000000000007C000340064#96 = .illegal 0x02#8 false ∧
  decodeFor 2 0xFF0000000000000000000000#96 = .illegal 0x01#8 false ∧
  decodeFor 2 0x840000000000000000000001#96 = .illegal 0x01#8 false ∧
  decodeFor 0 0x2300B2040000040000100002#96 = .illegal 0x01#8 true ∧
  decodeFor 2 0x900000000000005000050000#96 = .illegal 0x01#8 true

/-- R21, R41, R45, R54, R71, R81, R82, R379: one step issues the word at the fragment's address. A word that decodes for the
group's role and passes the checks executes: the step is `exec` of its instruction, at the state after the fetch, and what
that leaves; a whole-group point first gathers the fragments. A word that fails a check takes its trap, one that must wait
makes no step, and one beyond the watchdog is not executed. A lane issues the first of its ready candidates. The agenda that
names the fragment, the lane or the event is the model's own (log entry 1), as is that the checks of R81 come before the
watchdog is compared (log entry 18), and that the tables of a KV record count as in use from the issue of an instruction that reads it
(log entry 41). -/
def Obligations.StepRunsDecoded : Prop := ∀ (s : State) (rest : List Turn),
  let s1 : State := { s with held := false, agenda := rest }
  let runs := fun (o : Host.Outcome State Fault Refusal) => step s = s.leaves o
  (∀ gk low x, s.agenda = .issue gk low :: rest →
    let s0 : State := { s1 with focus := ⟨gk, low⟩ }
    s0.site? = some x → x.ready →
    (s0.deliverable x.g → runs (exec (.jobFaultDelivery x.g.key) s0)) ∧
    (s0.deliverable x.g = false →
      (s0.fetchWord x x.f.pc = .hold → runs (.next s0)) ∧
      (∀ cause va, s0.fetchWord x x.f.pc = .bad cause va → runs (.next (State.fetchFault { s0 with word := 0#96 } x cause va))) ∧
      (∀ s' w, s0.fetchWord x x.f.pc = .word s' w →
        let s2 : State := { s' with word := w }
        (∀ c r, decodeFor (x.l.roleNow x.g) w = .illegal c r → runs (exec (.illegalWord c r) s2)) ∧
        (∀ i, decodeFor (x.l.roleNow x.g) w = .instr i → decode w = some i ∧
          let goesOn := fun (s3 : State) =>
            (∀ t, s3.beyond x i = some t → runs (.next (s3.stop x t 0#32 false x.f.pc))) ∧
            (s3.beyond x i = none → (x.g.interlocked i ∨ x.g.replayDue (lowest x.f.mask) i) → runs (.next s3)) ∧
            (s3.beyond x i = none → x.g.interlocked i = false → x.g.replayDue (lowest x.f.mask) i = false →
              (isPoint i = false → x.overruns → runs (exec .watchdogOverrun s3)) ∧
              -- the tables of the context records that the instruction reads are in use from here on (log entry 41)
              (isPoint i = false → x.overruns = false → let s4 := s3.noteUse x i
                (∃ k, s4 = { s3 with kvTabs := k }) ∧ (s3.kvRecords x i = [] → s4 = s3) ∧ runs (exec i s4)) ∧
              (isPoint i → s3.gather x = none → runs (exec i s3)) ∧
              (isPoint i → ∀ t y, s3.gather x = some (t, y) → runs (exec (if y.overruns then .watchdogOverrun else i) t)))
          (runBroken x.f i → runs (exec (.illegalWord 0x03#8 false) s2)) ∧
          (runBroken x.f i = false → isClosing i = false → goesOn s2) ∧
          (runBroken x.f i = false → isClosing i →
            (∀ c va, s2.fetchWord x (x.f.pc + 12) = .bad c va → runs (.next (s2.fetchFault x c va))) ∧
            (∀ s3 w1, s2.fetchWord x (x.f.pc + 12) = .word s3 w1 →
              (isTrail w1 = false → runs (exec (.illegalWord 0x03#8 false) s3)) ∧ (isTrail w1 → goesOn s3))))))) ∧
  (∀ core lane, s.agenda = .lane core lane :: rest →
    let ready := ((s1.laneFrags core lane).foldl State.tryFrag (s1, [])).2
    let noted := fun (t : State) => t = { s1 with picks := t.picks, waiters := t.waiters }
    (firstReady ready = none → ∃ t, noted t ∧ runs (.next t)) ∧
    (∀ a, firstReady ready = some a → ∃ t, noted t ∧ runs (t.issueOf a.gk a.low).out)) ∧
  (∀ l a, firstReady l = some a → a ∈ l ∧ ∀ b ∈ l, b.before a = false) ∧
  (∀ i, s.agenda = .event i :: rest → isEvent i → runs (exec i s1)) ∧
  (∀ i, s.agenda = .event i :: rest → isEvent i = false → runs (.next s1)) ∧
  (∀ ns, s.agenda = .pass ns :: rest → runs (.next { s1 with nanos := s.nanos + ns, tsc := s.tsc + BitVec.ofNat 64 ns })) ∧
  -- a write to an address of the die's debug windows reaches the group that is resident there (R393)
  (∀ die addr v, s.agenda = .window die addr v :: rest →
    (∀ g off, s1.windowGroup die addr = some (g, off) → runs (exec (.debugWindowWrite g.key off v) s1)) ∧
    (s1.windowGroup die addr = none → runs (.next s1))) ∧
  -- a turn that met a page on the move is taken back; one that changed no page entry of a KV context by a plain store stands as it
  -- is, but for the failed offers that have ended
  (∀ t, t.held → s.leaves (.next t) = .next { s with agenda := s.agenda.tail, held := false }) ∧
  (∀ t, t.held = false → t.kvTorn = [] → s.leaves (.next t) = .next t.keepFails)

/-- R34, R361, R373, R408, R409, R414, R418: what reset leaves. That a step from there changes nothing is the model's: an empty agenda
lets the group in focus go on, and there is none (log entries 1 and 16). -/
def Obligations.ResetState : Prop :=
  let r := State.reset
  Memory.wf r.mem ∧ Memory.wf r.dev ∧ r.ctxs = [] ∧ r.launches = [] ∧ r.crews = [] ∧ r.groups = [] ∧ r.nextHandle = 1 ∧ r.pins = [] ∧ r.deferred = [] ∧
  r.bufs = [] ∧ r.tiles = [] ∧ r.nanos = 0 ∧ r.sys.ready = 0#32 ∧ r.sys.fail = 0#32 ∧ r.sys.links = 0#32 ∧
  r.sys.cec = 0#32 ∧ r.sys.uec = 0#32 ∧ r.sys.boot = none ∧ r.sys.started = false ∧
  r.fails = [] ∧ (∀ die, r.placeWait die = 1000000) ∧ step r = .next r

/-- The invariant of the memories: every step, of whatever state, answers a next state, and keeps the canonical form of both
memories. -/
def Obligations.EveryStepKeepsMemory : Prop := ∀ s : State, s.Safe ∧ ∀ t, step s = .next t → s.MemInv → t.MemInv

/-- R17, R18, R41, R63: a uniform instruction whose guard fails at the lowest thread of the fragment only counts and goes on,
whatever its modifiers and operands; a whole-group point first gathers the fragments. The instructions that are uniform by their
operands (arithmetic, loads and stores) have their guard in their own statements, as `pf`, which does nothing, `br`, whose guard is
its condition, and `trail`, which no guard changes. -/
def Obligations.GuardedOff : Prop := ∀ (s : State) (h : Hdr) (d a b : Opd) (x : Site) (i : Instr) (lv : Lvl) (sc : Scope)
    (p q u v w : Bool) (side : LoopSide) (od oa : Option Opd) (arv : Arv) (bl : BarLvl) (n : BitVec 4) (code : BitVec 16),
  s.site? = some x → (∀ k, d ≠ .t k) →
  (x.umask h = 0#32 →
    i ∈ [Instr.pin h d a, .unpin h d, .reclaim h d a, .fillc h d a b, .cpy h d a b, .cpyCvt h d a b, .cpyFill h d a b,
      .cmoClean h lv a b, .cmoInval h lv a b, .cmoCleaninval h lv a b, .fence h sc, .barArrive h od bl n, .barDrop h od bl n,
      .arrvSet h d a, .arrvAdd h d a, .arrvExpect h d a, .ringTake h d a p q, .ringGive h a p q, .fork h d a, .call h d a,
      .jmp h a, .ret h a, .exit h, .mcb h a b, .msort h p a b, .mparts h p q u a b, .mloopDense h p q u v w d a b,
      .mloopAttn h p q u side d a b, .mfence h, .mringPop h, .mringStat h d, .epcfg h a, .eprun h arv od oa, .kvapp h a b,
      .pgshare h a, .pgrel h a, .extset h a b, .extsetRm h a b, .extsetClr h a, .qclear h a b, .segbegin h a b, .segseal h a b,
      .link h d a b, .linkVfy h d a b, .unlink h d a b, .kvgath h arv od a oa, .repset h d a, .ovlcommit h d a b, .latexp h d a,
      .accept h d a, .launch h d a, .trap h code, .srd h d a oa, .swr h d a oa] →
    Ends i s x s []) ∧
  (∀ s1 y, s.gather x = some (s1, y) → y.umask h = 0#32 → (∀ k, od ≠ some (.t k)) →
    i ∈ [Instr.barWait h bl n, .barSync h od bl n, .waitAny h d a b, .waitAll h d a b, .yield h code, .regroup h a b, .join h] →
    ∃ t g g0, s1.group? y.g.key = some g0 ∧ exec i s = .next t ∧ t.group? y.g.key = some g ∧ g = y.ended g0 [] ∧
      OnlyGroup s1 t y.g.key)
end

