-- ==== Sys2Proof/Laws/State.lean ====
section
/-!
SUPPORT. The updates of `State` field by field: each update leaves every field but its own as it was. Each lemma is true by
`rfl`, so that no later proof unfolds a record update.
-/

namespace Sys2Proof.Machine

@[simp] theorem setGroup_nanos (s : State) (g : Group) : (s.setGroup g).nanos = s.nanos := rfl
@[simp] theorem setGroup_tsc (s : State) (g : Group) : (s.setGroup g).tsc = s.tsc := rfl
@[simp] theorem setGroup_pkg (s : State) (g : Group) : (s.setGroup g).pkg = s.pkg := rfl
@[simp] theorem setGroup_sys (s : State) (g : Group) : (s.setGroup g).sys = s.sys := rfl
@[simp] theorem setGroup_mem (s : State) (g : Group) : (s.setGroup g).mem = s.mem := rfl
@[simp] theorem setGroup_poison (s : State) (g : Group) : (s.setGroup g).poison = s.poison := rfl
@[simp] theorem setGroup_dev (s : State) (g : Group) : (s.setGroup g).dev = s.dev := rfl
@[simp] theorem setGroup_bufs (s : State) (g : Group) : (s.setGroup g).bufs = s.bufs := rfl
@[simp] theorem setGroup_tiles (s : State) (g : Group) : (s.setGroup g).tiles = s.tiles := rfl
@[simp] theorem setGroup_gens (s : State) (g : Group) : (s.setGroup g).gens = s.gens := rfl
@[simp] theorem setGroup_fillNo (s : State) (g : Group) : (s.setGroup g).fillNo = s.fillNo := rfl
@[simp] theorem setGroup_ctxs (s : State) (g : Group) : (s.setGroup g).ctxs = s.ctxs := rfl
@[simp] theorem setGroup_stats (s : State) (g : Group) : (s.setGroup g).stats = s.stats := rfl
@[simp] theorem setGroup_images (s : State) (g : Group) : (s.setGroup g).images = s.images := rfl
@[simp] theorem setGroup_nextHandle (s : State) (g : Group) : (s.setGroup g).nextHandle = s.nextHandle := rfl
@[simp] theorem setGroup_launches (s : State) (g : Group) : (s.setGroup g).launches = s.launches := rfl
@[simp] theorem setGroup_podBars (s : State) (g : Group) : (s.setGroup g).podBars = s.podBars := rfl
@[simp] theorem setGroup_cores (s : State) (g : Group) : (s.setGroup g).cores = s.cores := rfl
@[simp] theorem setGroup_crews (s : State) (g : Group) : (s.setGroup g).crews = s.crews := rfl
@[simp] theorem setGroup_engines (s : State) (g : Group) : (s.setGroup g).engines = s.engines := rfl
@[simp] theorem setGroup_djobs (s : State) (g : Group) : (s.setGroup g).djobs = s.djobs := rfl
@[simp] theorem setGroup_pins (s : State) (g : Group) : (s.setGroup g).pins = s.pins := rfl
@[simp] theorem setGroup_deferred (s : State) (g : Group) : (s.setGroup g).deferred = s.deferred := rfl
@[simp] theorem setGroup_agenda (s : State) (g : Group) : (s.setGroup g).agenda = s.agenda := rfl
@[simp] theorem setGroup_focus (s : State) (g : Group) : (s.setGroup g).focus = s.focus := rfl
@[simp] theorem setGroup_word (s : State) (g : Group) : (s.setGroup g).word = s.word := rfl
@[simp] theorem setGroup_seen (s : State) (g : Group) : (s.setGroup g).seen = s.seen := rfl
@[simp] theorem setGroup_tornAt (s : State) (g : Group) : (s.setGroup g).tornAt = s.tornAt := rfl
@[simp] theorem setGroup_stamp (s : State) (g : Group) : (s.setGroup g).stamp = s.stamp := rfl
@[simp] theorem setGroup_free (s : State) (g : Group) : (s.setGroup g).free = s.free := rfl
@[simp] theorem setGroup_crewNo (s : State) (g : Group) : (s.setGroup g).crewNo = s.crewNo := rfl
@[simp] theorem setGroup_held (s : State) (g : Group) : (s.setGroup g).held = s.held := rfl
@[simp] theorem setGroup_waiters (s : State) (g : Group) : (s.setGroup g).waiters = s.waiters := rfl
@[simp] theorem setGroup_picks (s : State) (g : Group) : (s.setGroup g).picks = s.picks := rfl
@[simp] theorem setGroup_kvTabs (s : State) (g : Group) : (s.setGroup g).kvTabs = s.kvTabs := rfl
@[simp] theorem setGroup_kvTorn (s : State) (g : Group) : (s.setGroup g).kvTorn = s.kvTorn := rfl
@[simp] theorem setGroup_seals (s : State) (g : Group) : (s.setGroup g).seals = s.seals := rfl
@[simp] theorem setGroup_fails (s : State) (g : Group) : (s.setGroup g).fails = s.fails := rfl
@[simp] theorem setGroup_pwait (s : State) (g : Group) : (s.setGroup g).pwait = s.pwait := rfl

@[simp] theorem setCrew_nanos (s : State) (c : Crew) : (s.setCrew c).nanos = s.nanos := rfl
@[simp] theorem setCrew_tsc (s : State) (c : Crew) : (s.setCrew c).tsc = s.tsc := rfl
@[simp] theorem setCrew_pkg (s : State) (c : Crew) : (s.setCrew c).pkg = s.pkg := rfl
@[simp] theorem setCrew_sys (s : State) (c : Crew) : (s.setCrew c).sys = s.sys := rfl
@[simp] theorem setCrew_mem (s : State) (c : Crew) : (s.setCrew c).mem = s.mem := rfl
@[simp] theorem setCrew_poison (s : State) (c : Crew) : (s.setCrew c).poison = s.poison := rfl
@[simp] theorem setCrew_dev (s : State) (c : Crew) : (s.setCrew c).dev = s.dev := rfl
@[simp] theorem setCrew_bufs (s : State) (c : Crew) : (s.setCrew c).bufs = s.bufs := rfl
@[simp] theorem setCrew_tiles (s : State) (c : Crew) : (s.setCrew c).tiles = s.tiles := rfl
@[simp] theorem setCrew_gens (s : State) (c : Crew) : (s.setCrew c).gens = s.gens := rfl
@[simp] theorem setCrew_fillNo (s : State) (c : Crew) : (s.setCrew c).fillNo = s.fillNo := rfl
@[simp] theorem setCrew_ctxs (s : State) (c : Crew) : (s.setCrew c).ctxs = s.ctxs := rfl
@[simp] theorem setCrew_stats (s : State) (c : Crew) : (s.setCrew c).stats = s.stats := rfl
@[simp] theorem setCrew_images (s : State) (c : Crew) : (s.setCrew c).images = s.images := rfl
@[simp] theorem setCrew_nextHandle (s : State) (c : Crew) : (s.setCrew c).nextHandle = s.nextHandle := rfl
@[simp] theorem setCrew_launches (s : State) (c : Crew) : (s.setCrew c).launches = s.launches := rfl
@[simp] theorem setCrew_podBars (s : State) (c : Crew) : (s.setCrew c).podBars = s.podBars := rfl
@[simp] theorem setCrew_cores (s : State) (c : Crew) : (s.setCrew c).cores = s.cores := rfl
@[simp] theorem setCrew_groups (s : State) (c : Crew) : (s.setCrew c).groups = s.groups := rfl
@[simp] theorem setCrew_engines (s : State) (c : Crew) : (s.setCrew c).engines = s.engines := rfl
@[simp] theorem setCrew_djobs (s : State) (c : Crew) : (s.setCrew c).djobs = s.djobs := rfl
@[simp] theorem setCrew_pins (s : State) (c : Crew) : (s.setCrew c).pins = s.pins := rfl
@[simp] theorem setCrew_deferred (s : State) (c : Crew) : (s.setCrew c).deferred = s.deferred := rfl
@[simp] theorem setCrew_agenda (s : State) (c : Crew) : (s.setCrew c).agenda = s.agenda := rfl
@[simp] theorem setCrew_focus (s : State) (c : Crew) : (s.setCrew c).focus = s.focus := rfl
@[simp] theorem setCrew_word (s : State) (c : Crew) : (s.setCrew c).word = s.word := rfl
@[simp] theorem setCrew_seen (s : State) (c : Crew) : (s.setCrew c).seen = s.seen := rfl
@[simp] theorem setCrew_tornAt (s : State) (c : Crew) : (s.setCrew c).tornAt = s.tornAt := rfl
@[simp] theorem setCrew_stamp (s : State) (c : Crew) : (s.setCrew c).stamp = s.stamp := rfl
@[simp] theorem setCrew_free (s : State) (c : Crew) : (s.setCrew c).free = s.free := rfl
@[simp] theorem setCrew_crewNo (s : State) (c : Crew) : (s.setCrew c).crewNo = s.crewNo := rfl
@[simp] theorem setCrew_held (s : State) (c : Crew) : (s.setCrew c).held = s.held := rfl
@[simp] theorem setCrew_waiters (s : State) (c : Crew) : (s.setCrew c).waiters = s.waiters := rfl
@[simp] theorem setCrew_picks (s : State) (c : Crew) : (s.setCrew c).picks = s.picks := rfl
@[simp] theorem setCrew_kvTabs (s : State) (c : Crew) : (s.setCrew c).kvTabs = s.kvTabs := rfl
@[simp] theorem setCrew_kvTorn (s : State) (c : Crew) : (s.setCrew c).kvTorn = s.kvTorn := rfl
@[simp] theorem setCrew_seals (s : State) (c : Crew) : (s.setCrew c).seals = s.seals := rfl
@[simp] theorem setCrew_fails (s : State) (c : Crew) : (s.setCrew c).fails = s.fails := rfl
@[simp] theorem setCrew_pwait (s : State) (c : Crew) : (s.setCrew c).pwait = s.pwait := rfl

@[simp] theorem setLaunch_nanos (s : State) (l : Launch) : (s.setLaunch l).nanos = s.nanos := rfl
@[simp] theorem setLaunch_tsc (s : State) (l : Launch) : (s.setLaunch l).tsc = s.tsc := rfl
@[simp] theorem setLaunch_pkg (s : State) (l : Launch) : (s.setLaunch l).pkg = s.pkg := rfl
@[simp] theorem setLaunch_sys (s : State) (l : Launch) : (s.setLaunch l).sys = s.sys := rfl
@[simp] theorem setLaunch_mem (s : State) (l : Launch) : (s.setLaunch l).mem = s.mem := rfl
@[simp] theorem setLaunch_poison (s : State) (l : Launch) : (s.setLaunch l).poison = s.poison := rfl
@[simp] theorem setLaunch_dev (s : State) (l : Launch) : (s.setLaunch l).dev = s.dev := rfl
@[simp] theorem setLaunch_bufs (s : State) (l : Launch) : (s.setLaunch l).bufs = s.bufs := rfl
@[simp] theorem setLaunch_tiles (s : State) (l : Launch) : (s.setLaunch l).tiles = s.tiles := rfl
@[simp] theorem setLaunch_gens (s : State) (l : Launch) : (s.setLaunch l).gens = s.gens := rfl
@[simp] theorem setLaunch_fillNo (s : State) (l : Launch) : (s.setLaunch l).fillNo = s.fillNo := rfl
@[simp] theorem setLaunch_ctxs (s : State) (l : Launch) : (s.setLaunch l).ctxs = s.ctxs := rfl
@[simp] theorem setLaunch_stats (s : State) (l : Launch) : (s.setLaunch l).stats = s.stats := rfl
@[simp] theorem setLaunch_images (s : State) (l : Launch) : (s.setLaunch l).images = s.images := rfl
@[simp] theorem setLaunch_nextHandle (s : State) (l : Launch) : (s.setLaunch l).nextHandle = s.nextHandle := rfl
@[simp] theorem setLaunch_podBars (s : State) (l : Launch) : (s.setLaunch l).podBars = s.podBars := rfl
@[simp] theorem setLaunch_cores (s : State) (l : Launch) : (s.setLaunch l).cores = s.cores := rfl
@[simp] theorem setLaunch_crews (s : State) (l : Launch) : (s.setLaunch l).crews = s.crews := rfl
@[simp] theorem setLaunch_groups (s : State) (l : Launch) : (s.setLaunch l).groups = s.groups := rfl
@[simp] theorem setLaunch_engines (s : State) (l : Launch) : (s.setLaunch l).engines = s.engines := rfl
@[simp] theorem setLaunch_djobs (s : State) (l : Launch) : (s.setLaunch l).djobs = s.djobs := rfl
@[simp] theorem setLaunch_pins (s : State) (l : Launch) : (s.setLaunch l).pins = s.pins := rfl
@[simp] theorem setLaunch_deferred (s : State) (l : Launch) : (s.setLaunch l).deferred = s.deferred := rfl
@[simp] theorem setLaunch_agenda (s : State) (l : Launch) : (s.setLaunch l).agenda = s.agenda := rfl
@[simp] theorem setLaunch_focus (s : State) (l : Launch) : (s.setLaunch l).focus = s.focus := rfl
@[simp] theorem setLaunch_word (s : State) (l : Launch) : (s.setLaunch l).word = s.word := rfl
@[simp] theorem setLaunch_seen (s : State) (l : Launch) : (s.setLaunch l).seen = s.seen := rfl
@[simp] theorem setLaunch_tornAt (s : State) (l : Launch) : (s.setLaunch l).tornAt = s.tornAt := rfl
@[simp] theorem setLaunch_stamp (s : State) (l : Launch) : (s.setLaunch l).stamp = s.stamp := rfl
@[simp] theorem setLaunch_free (s : State) (l : Launch) : (s.setLaunch l).free = s.free := rfl
@[simp] theorem setLaunch_crewNo (s : State) (l : Launch) : (s.setLaunch l).crewNo = s.crewNo := rfl
@[simp] theorem setLaunch_held (s : State) (l : Launch) : (s.setLaunch l).held = s.held := rfl
@[simp] theorem setLaunch_waiters (s : State) (l : Launch) : (s.setLaunch l).waiters = s.waiters := rfl
@[simp] theorem setLaunch_picks (s : State) (l : Launch) : (s.setLaunch l).picks = s.picks := rfl
@[simp] theorem setLaunch_kvTabs (s : State) (l : Launch) : (s.setLaunch l).kvTabs = s.kvTabs := rfl
@[simp] theorem setLaunch_kvTorn (s : State) (l : Launch) : (s.setLaunch l).kvTorn = s.kvTorn := rfl
@[simp] theorem setLaunch_seals (s : State) (l : Launch) : (s.setLaunch l).seals = s.seals := rfl
@[simp] theorem setLaunch_fails (s : State) (l : Launch) : (s.setLaunch l).fails = s.fails := rfl
@[simp] theorem setLaunch_pwait (s : State) (l : Launch) : (s.setLaunch l).pwait = s.pwait := rfl

@[simp] theorem setCtx_nanos (s : State) (c : Context) : (s.setCtx c).nanos = s.nanos := rfl
@[simp] theorem setCtx_tsc (s : State) (c : Context) : (s.setCtx c).tsc = s.tsc := rfl
@[simp] theorem setCtx_pkg (s : State) (c : Context) : (s.setCtx c).pkg = s.pkg := rfl
@[simp] theorem setCtx_sys (s : State) (c : Context) : (s.setCtx c).sys = s.sys := rfl
@[simp] theorem setCtx_mem (s : State) (c : Context) : (s.setCtx c).mem = s.mem := rfl
@[simp] theorem setCtx_poison (s : State) (c : Context) : (s.setCtx c).poison = s.poison := rfl
@[simp] theorem setCtx_dev (s : State) (c : Context) : (s.setCtx c).dev = s.dev := rfl
@[simp] theorem setCtx_bufs (s : State) (c : Context) : (s.setCtx c).bufs = s.bufs := rfl
@[simp] theorem setCtx_tiles (s : State) (c : Context) : (s.setCtx c).tiles = s.tiles := rfl
@[simp] theorem setCtx_gens (s : State) (c : Context) : (s.setCtx c).gens = s.gens := rfl
@[simp] theorem setCtx_fillNo (s : State) (c : Context) : (s.setCtx c).fillNo = s.fillNo := rfl
@[simp] theorem setCtx_stats (s : State) (c : Context) : (s.setCtx c).stats = s.stats := rfl
@[simp] theorem setCtx_images (s : State) (c : Context) : (s.setCtx c).images = s.images := rfl
@[simp] theorem setCtx_nextHandle (s : State) (c : Context) : (s.setCtx c).nextHandle = s.nextHandle := rfl
@[simp] theorem setCtx_launches (s : State) (c : Context) : (s.setCtx c).launches = s.launches := rfl
@[simp] theorem setCtx_podBars (s : State) (c : Context) : (s.setCtx c).podBars = s.podBars := rfl
@[simp] theorem setCtx_cores (s : State) (c : Context) : (s.setCtx c).cores = s.cores := rfl
@[simp] theorem setCtx_crews (s : State) (c : Context) : (s.setCtx c).crews = s.crews := rfl
@[simp] theorem setCtx_groups (s : State) (c : Context) : (s.setCtx c).groups = s.groups := rfl
@[simp] theorem setCtx_engines (s : State) (c : Context) : (s.setCtx c).engines = s.engines := rfl
@[simp] theorem setCtx_djobs (s : State) (c : Context) : (s.setCtx c).djobs = s.djobs := rfl
@[simp] theorem setCtx_pins (s : State) (c : Context) : (s.setCtx c).pins = s.pins := rfl
@[simp] theorem setCtx_deferred (s : State) (c : Context) : (s.setCtx c).deferred = s.deferred := rfl
@[simp] theorem setCtx_agenda (s : State) (c : Context) : (s.setCtx c).agenda = s.agenda := rfl
@[simp] theorem setCtx_focus (s : State) (c : Context) : (s.setCtx c).focus = s.focus := rfl
@[simp] theorem setCtx_word (s : State) (c : Context) : (s.setCtx c).word = s.word := rfl
@[simp] theorem setCtx_seen (s : State) (c : Context) : (s.setCtx c).seen = s.seen := rfl
@[simp] theorem setCtx_tornAt (s : State) (c : Context) : (s.setCtx c).tornAt = s.tornAt := rfl
@[simp] theorem setCtx_stamp (s : State) (c : Context) : (s.setCtx c).stamp = s.stamp := rfl
@[simp] theorem setCtx_free (s : State) (c : Context) : (s.setCtx c).free = s.free := rfl
@[simp] theorem setCtx_crewNo (s : State) (c : Context) : (s.setCtx c).crewNo = s.crewNo := rfl
@[simp] theorem setCtx_held (s : State) (c : Context) : (s.setCtx c).held = s.held := rfl
@[simp] theorem setCtx_waiters (s : State) (c : Context) : (s.setCtx c).waiters = s.waiters := rfl
@[simp] theorem setCtx_picks (s : State) (c : Context) : (s.setCtx c).picks = s.picks := rfl
@[simp] theorem setCtx_kvTabs (s : State) (c : Context) : (s.setCtx c).kvTabs = s.kvTabs := rfl
@[simp] theorem setCtx_kvTorn (s : State) (c : Context) : (s.setCtx c).kvTorn = s.kvTorn := rfl
@[simp] theorem setCtx_seals (s : State) (c : Context) : (s.setCtx c).seals = s.seals := rfl
@[simp] theorem setCtx_fails (s : State) (c : Context) : (s.setCtx c).fails = s.fails := rfl
@[simp] theorem setCtx_pwait (s : State) (c : Context) : (s.setCtx c).pwait = s.pwait := rfl

@[simp] theorem setCore_nanos (s : State) (c : Core) : (s.setCore c).nanos = s.nanos := rfl
@[simp] theorem setCore_tsc (s : State) (c : Core) : (s.setCore c).tsc = s.tsc := rfl
@[simp] theorem setCore_pkg (s : State) (c : Core) : (s.setCore c).pkg = s.pkg := rfl
@[simp] theorem setCore_sys (s : State) (c : Core) : (s.setCore c).sys = s.sys := rfl
@[simp] theorem setCore_mem (s : State) (c : Core) : (s.setCore c).mem = s.mem := rfl
@[simp] theorem setCore_poison (s : State) (c : Core) : (s.setCore c).poison = s.poison := rfl
@[simp] theorem setCore_dev (s : State) (c : Core) : (s.setCore c).dev = s.dev := rfl
@[simp] theorem setCore_bufs (s : State) (c : Core) : (s.setCore c).bufs = s.bufs := rfl
@[simp] theorem setCore_tiles (s : State) (c : Core) : (s.setCore c).tiles = s.tiles := rfl
@[simp] theorem setCore_gens (s : State) (c : Core) : (s.setCore c).gens = s.gens := rfl
@[simp] theorem setCore_fillNo (s : State) (c : Core) : (s.setCore c).fillNo = s.fillNo := rfl
@[simp] theorem setCore_ctxs (s : State) (c : Core) : (s.setCore c).ctxs = s.ctxs := rfl
@[simp] theorem setCore_stats (s : State) (c : Core) : (s.setCore c).stats = s.stats := rfl
@[simp] theorem setCore_images (s : State) (c : Core) : (s.setCore c).images = s.images := rfl
@[simp] theorem setCore_nextHandle (s : State) (c : Core) : (s.setCore c).nextHandle = s.nextHandle := rfl
@[simp] theorem setCore_launches (s : State) (c : Core) : (s.setCore c).launches = s.launches := rfl
@[simp] theorem setCore_podBars (s : State) (c : Core) : (s.setCore c).podBars = s.podBars := rfl
@[simp] theorem setCore_crews (s : State) (c : Core) : (s.setCore c).crews = s.crews := rfl
@[simp] theorem setCore_groups (s : State) (c : Core) : (s.setCore c).groups = s.groups := rfl
@[simp] theorem setCore_engines (s : State) (c : Core) : (s.setCore c).engines = s.engines := rfl
@[simp] theorem setCore_djobs (s : State) (c : Core) : (s.setCore c).djobs = s.djobs := rfl
@[simp] theorem setCore_pins (s : State) (c : Core) : (s.setCore c).pins = s.pins := rfl
@[simp] theorem setCore_deferred (s : State) (c : Core) : (s.setCore c).deferred = s.deferred := rfl
@[simp] theorem setCore_agenda (s : State) (c : Core) : (s.setCore c).agenda = s.agenda := rfl
@[simp] theorem setCore_focus (s : State) (c : Core) : (s.setCore c).focus = s.focus := rfl
@[simp] theorem setCore_word (s : State) (c : Core) : (s.setCore c).word = s.word := rfl
@[simp] theorem setCore_seen (s : State) (c : Core) : (s.setCore c).seen = s.seen := rfl
@[simp] theorem setCore_tornAt (s : State) (c : Core) : (s.setCore c).tornAt = s.tornAt := rfl
@[simp] theorem setCore_stamp (s : State) (c : Core) : (s.setCore c).stamp = s.stamp := rfl
@[simp] theorem setCore_free (s : State) (c : Core) : (s.setCore c).free = s.free := rfl
@[simp] theorem setCore_crewNo (s : State) (c : Core) : (s.setCore c).crewNo = s.crewNo := rfl
@[simp] theorem setCore_held (s : State) (c : Core) : (s.setCore c).held = s.held := rfl
@[simp] theorem setCore_waiters (s : State) (c : Core) : (s.setCore c).waiters = s.waiters := rfl
@[simp] theorem setCore_picks (s : State) (c : Core) : (s.setCore c).picks = s.picks := rfl
@[simp] theorem setCore_kvTabs (s : State) (c : Core) : (s.setCore c).kvTabs = s.kvTabs := rfl
@[simp] theorem setCore_kvTorn (s : State) (c : Core) : (s.setCore c).kvTorn = s.kvTorn := rfl
@[simp] theorem setCore_seals (s : State) (c : Core) : (s.setCore c).seals = s.seals := rfl
@[simp] theorem setCore_fails (s : State) (c : Core) : (s.setCore c).fails = s.fails := rfl
@[simp] theorem setCore_pwait (s : State) (c : Core) : (s.setCore c).pwait = s.pwait := rfl

@[simp] theorem setQueue_nanos (s : State) (e : Nat) (js : List Job) : (s.setQueue e js).nanos = s.nanos := rfl
@[simp] theorem setQueue_tsc (s : State) (e : Nat) (js : List Job) : (s.setQueue e js).tsc = s.tsc := rfl
@[simp] theorem setQueue_pkg (s : State) (e : Nat) (js : List Job) : (s.setQueue e js).pkg = s.pkg := rfl
@[simp] theorem setQueue_sys (s : State) (e : Nat) (js : List Job) : (s.setQueue e js).sys = s.sys := rfl
@[simp] theorem setQueue_mem (s : State) (e : Nat) (js : List Job) : (s.setQueue e js).mem = s.mem := rfl
@[simp] theorem setQueue_poison (s : State) (e : Nat) (js : List Job) : (s.setQueue e js).poison = s.poison := rfl
@[simp] theorem setQueue_dev (s : State) (e : Nat) (js : List Job) : (s.setQueue e js).dev = s.dev := rfl
@[simp] theorem setQueue_bufs (s : State) (e : Nat) (js : List Job) : (s.setQueue e js).bufs = s.bufs := rfl
@[simp] theorem setQueue_tiles (s : State) (e : Nat) (js : List Job) : (s.setQueue e js).tiles = s.tiles := rfl
@[simp] theorem setQueue_gens (s : State) (e : Nat) (js : List Job) : (s.setQueue e js).gens = s.gens := rfl
@[simp] theorem setQueue_fillNo (s : State) (e : Nat) (js : List Job) : (s.setQueue e js).fillNo = s.fillNo := rfl
@[simp] theorem setQueue_ctxs (s : State) (e : Nat) (js : List Job) : (s.setQueue e js).ctxs = s.ctxs := rfl
@[simp] theorem setQueue_stats (s : State) (e : Nat) (js : List Job) : (s.setQueue e js).stats = s.stats := rfl
@[simp] theorem setQueue_images (s : State) (e : Nat) (js : List Job) : (s.setQueue e js).images = s.images := rfl
@[simp] theorem setQueue_nextHandle (s : State) (e : Nat) (js : List Job) : (s.setQueue e js).nextHandle = s.nextHandle := rfl
@[simp] theorem setQueue_launches (s : State) (e : Nat) (js : List Job) : (s.setQueue e js).launches = s.launches := rfl
@[simp] theorem setQueue_podBars (s : State) (e : Nat) (js : List Job) : (s.setQueue e js).podBars = s.podBars := rfl
@[simp] theorem setQueue_cores (s : State) (e : Nat) (js : List Job) : (s.setQueue e js).cores = s.cores := rfl
@[simp] theorem setQueue_crews (s : State) (e : Nat) (js : List Job) : (s.setQueue e js).crews = s.crews := rfl
@[simp] theorem setQueue_groups (s : State) (e : Nat) (js : List Job) : (s.setQueue e js).groups = s.groups := rfl
@[simp] theorem setQueue_djobs (s : State) (e : Nat) (js : List Job) : (s.setQueue e js).djobs = s.djobs := rfl
@[simp] theorem setQueue_pins (s : State) (e : Nat) (js : List Job) : (s.setQueue e js).pins = s.pins := rfl
@[simp] theorem setQueue_deferred (s : State) (e : Nat) (js : List Job) : (s.setQueue e js).deferred = s.deferred := rfl
@[simp] theorem setQueue_agenda (s : State) (e : Nat) (js : List Job) : (s.setQueue e js).agenda = s.agenda := rfl
@[simp] theorem setQueue_focus (s : State) (e : Nat) (js : List Job) : (s.setQueue e js).focus = s.focus := rfl
@[simp] theorem setQueue_word (s : State) (e : Nat) (js : List Job) : (s.setQueue e js).word = s.word := rfl
@[simp] theorem setQueue_seen (s : State) (e : Nat) (js : List Job) : (s.setQueue e js).seen = s.seen := rfl
@[simp] theorem setQueue_tornAt (s : State) (e : Nat) (js : List Job) : (s.setQueue e js).tornAt = s.tornAt := rfl
@[simp] theorem setQueue_stamp (s : State) (e : Nat) (js : List Job) : (s.setQueue e js).stamp = s.stamp := rfl
@[simp] theorem setQueue_free (s : State) (e : Nat) (js : List Job) : (s.setQueue e js).free = s.free := rfl
@[simp] theorem setQueue_crewNo (s : State) (e : Nat) (js : List Job) : (s.setQueue e js).crewNo = s.crewNo := rfl
@[simp] theorem setQueue_held (s : State) (e : Nat) (js : List Job) : (s.setQueue e js).held = s.held := rfl
@[simp] theorem setQueue_waiters (s : State) (e : Nat) (js : List Job) : (s.setQueue e js).waiters = s.waiters := rfl
@[simp] theorem setQueue_picks (s : State) (e : Nat) (js : List Job) : (s.setQueue e js).picks = s.picks := rfl
@[simp] theorem setQueue_kvTabs (s : State) (e : Nat) (js : List Job) : (s.setQueue e js).kvTabs = s.kvTabs := rfl
@[simp] theorem setQueue_kvTorn (s : State) (e : Nat) (js : List Job) : (s.setQueue e js).kvTorn = s.kvTorn := rfl
@[simp] theorem setQueue_seals (s : State) (e : Nat) (js : List Job) : (s.setQueue e js).seals = s.seals := rfl
@[simp] theorem setQueue_fails (s : State) (e : Nat) (js : List Job) : (s.setQueue e js).fails = s.fails := rfl
@[simp] theorem setQueue_pwait (s : State) (e : Nat) (js : List Job) : (s.setQueue e js).pwait = s.pwait := rfl

@[simp] theorem setTile_nanos (s : State) (t : Tile) : (s.setTile t).nanos = s.nanos := rfl
@[simp] theorem setTile_tsc (s : State) (t : Tile) : (s.setTile t).tsc = s.tsc := rfl
@[simp] theorem setTile_pkg (s : State) (t : Tile) : (s.setTile t).pkg = s.pkg := rfl
@[simp] theorem setTile_sys (s : State) (t : Tile) : (s.setTile t).sys = s.sys := rfl
@[simp] theorem setTile_mem (s : State) (t : Tile) : (s.setTile t).mem = s.mem := rfl
@[simp] theorem setTile_poison (s : State) (t : Tile) : (s.setTile t).poison = s.poison := rfl
@[simp] theorem setTile_dev (s : State) (t : Tile) : (s.setTile t).dev = s.dev := rfl
@[simp] theorem setTile_bufs (s : State) (t : Tile) : (s.setTile t).bufs = s.bufs := rfl
@[simp] theorem setTile_gens (s : State) (t : Tile) : (s.setTile t).gens = s.gens := rfl
@[simp] theorem setTile_fillNo (s : State) (t : Tile) : (s.setTile t).fillNo = s.fillNo := rfl
@[simp] theorem setTile_ctxs (s : State) (t : Tile) : (s.setTile t).ctxs = s.ctxs := rfl
@[simp] theorem setTile_stats (s : State) (t : Tile) : (s.setTile t).stats = s.stats := rfl
@[simp] theorem setTile_images (s : State) (t : Tile) : (s.setTile t).images = s.images := rfl
@[simp] theorem setTile_nextHandle (s : State) (t : Tile) : (s.setTile t).nextHandle = s.nextHandle := rfl
@[simp] theorem setTile_launches (s : State) (t : Tile) : (s.setTile t).launches = s.launches := rfl
@[simp] theorem setTile_podBars (s : State) (t : Tile) : (s.setTile t).podBars = s.podBars := rfl
@[simp] theorem setTile_cores (s : State) (t : Tile) : (s.setTile t).cores = s.cores := rfl
@[simp] theorem setTile_crews (s : State) (t : Tile) : (s.setTile t).crews = s.crews := rfl
@[simp] theorem setTile_groups (s : State) (t : Tile) : (s.setTile t).groups = s.groups := rfl
@[simp] theorem setTile_engines (s : State) (t : Tile) : (s.setTile t).engines = s.engines := rfl
@[simp] theorem setTile_djobs (s : State) (t : Tile) : (s.setTile t).djobs = s.djobs := rfl
@[simp] theorem setTile_pins (s : State) (t : Tile) : (s.setTile t).pins = s.pins := rfl
@[simp] theorem setTile_deferred (s : State) (t : Tile) : (s.setTile t).deferred = s.deferred := rfl
@[simp] theorem setTile_agenda (s : State) (t : Tile) : (s.setTile t).agenda = s.agenda := rfl
@[simp] theorem setTile_focus (s : State) (t : Tile) : (s.setTile t).focus = s.focus := rfl
@[simp] theorem setTile_word (s : State) (t : Tile) : (s.setTile t).word = s.word := rfl
@[simp] theorem setTile_seen (s : State) (t : Tile) : (s.setTile t).seen = s.seen := rfl
@[simp] theorem setTile_tornAt (s : State) (t : Tile) : (s.setTile t).tornAt = s.tornAt := rfl
@[simp] theorem setTile_stamp (s : State) (t : Tile) : (s.setTile t).stamp = s.stamp := rfl
@[simp] theorem setTile_free (s : State) (t : Tile) : (s.setTile t).free = s.free := rfl
@[simp] theorem setTile_crewNo (s : State) (t : Tile) : (s.setTile t).crewNo = s.crewNo := rfl
@[simp] theorem setTile_held (s : State) (t : Tile) : (s.setTile t).held = s.held := rfl
@[simp] theorem setTile_waiters (s : State) (t : Tile) : (s.setTile t).waiters = s.waiters := rfl
@[simp] theorem setTile_picks (s : State) (t : Tile) : (s.setTile t).picks = s.picks := rfl
@[simp] theorem setTile_kvTabs (s : State) (t : Tile) : (s.setTile t).kvTabs = s.kvTabs := rfl
@[simp] theorem setTile_kvTorn (s : State) (t : Tile) : (s.setTile t).kvTorn = s.kvTorn := rfl
@[simp] theorem setTile_seals (s : State) (t : Tile) : (s.setTile t).seals = s.seals := rfl
@[simp] theorem setTile_fails (s : State) (t : Tile) : (s.setTile t).fails = s.fails := rfl
@[simp] theorem setTile_pwait (s : State) (t : Tile) : (s.setTile t).pwait = s.pwait := rfl

@[simp] theorem dropTile_nanos (s : State) (t : Tile) : (s.dropTile t).nanos = s.nanos := rfl
@[simp] theorem dropTile_tsc (s : State) (t : Tile) : (s.dropTile t).tsc = s.tsc := rfl
@[simp] theorem dropTile_pkg (s : State) (t : Tile) : (s.dropTile t).pkg = s.pkg := rfl
@[simp] theorem dropTile_sys (s : State) (t : Tile) : (s.dropTile t).sys = s.sys := rfl
@[simp] theorem dropTile_mem (s : State) (t : Tile) : (s.dropTile t).mem = s.mem := rfl
@[simp] theorem dropTile_poison (s : State) (t : Tile) : (s.dropTile t).poison = s.poison := rfl
@[simp] theorem dropTile_dev (s : State) (t : Tile) : (s.dropTile t).dev = s.dev := rfl
@[simp] theorem dropTile_bufs (s : State) (t : Tile) : (s.dropTile t).bufs = s.bufs := rfl
@[simp] theorem dropTile_fillNo (s : State) (t : Tile) : (s.dropTile t).fillNo = s.fillNo := rfl
@[simp] theorem dropTile_ctxs (s : State) (t : Tile) : (s.dropTile t).ctxs = s.ctxs := rfl
@[simp] theorem dropTile_stats (s : State) (t : Tile) : (s.dropTile t).stats = s.stats := rfl
@[simp] theorem dropTile_images (s : State) (t : Tile) : (s.dropTile t).images = s.images := rfl
@[simp] theorem dropTile_nextHandle (s : State) (t : Tile) : (s.dropTile t).nextHandle = s.nextHandle := rfl
@[simp] theorem dropTile_launches (s : State) (t : Tile) : (s.dropTile t).launches = s.launches := rfl
@[simp] theorem dropTile_podBars (s : State) (t : Tile) : (s.dropTile t).podBars = s.podBars := rfl
@[simp] theorem dropTile_cores (s : State) (t : Tile) : (s.dropTile t).cores = s.cores := rfl
@[simp] theorem dropTile_crews (s : State) (t : Tile) : (s.dropTile t).crews = s.crews := rfl
@[simp] theorem dropTile_groups (s : State) (t : Tile) : (s.dropTile t).groups = s.groups := rfl
@[simp] theorem dropTile_engines (s : State) (t : Tile) : (s.dropTile t).engines = s.engines := rfl
@[simp] theorem dropTile_djobs (s : State) (t : Tile) : (s.dropTile t).djobs = s.djobs := rfl
@[simp] theorem dropTile_pins (s : State) (t : Tile) : (s.dropTile t).pins = s.pins := rfl
@[simp] theorem dropTile_deferred (s : State) (t : Tile) : (s.dropTile t).deferred = s.deferred := rfl
@[simp] theorem dropTile_agenda (s : State) (t : Tile) : (s.dropTile t).agenda = s.agenda := rfl
@[simp] theorem dropTile_focus (s : State) (t : Tile) : (s.dropTile t).focus = s.focus := rfl
@[simp] theorem dropTile_word (s : State) (t : Tile) : (s.dropTile t).word = s.word := rfl
@[simp] theorem dropTile_seen (s : State) (t : Tile) : (s.dropTile t).seen = s.seen := rfl
@[simp] theorem dropTile_tornAt (s : State) (t : Tile) : (s.dropTile t).tornAt = s.tornAt := rfl
@[simp] theorem dropTile_stamp (s : State) (t : Tile) : (s.dropTile t).stamp = s.stamp := rfl
@[simp] theorem dropTile_free (s : State) (t : Tile) : (s.dropTile t).free = s.free := rfl
@[simp] theorem dropTile_crewNo (s : State) (t : Tile) : (s.dropTile t).crewNo = s.crewNo := rfl
@[simp] theorem dropTile_held (s : State) (t : Tile) : (s.dropTile t).held = s.held := rfl
@[simp] theorem dropTile_waiters (s : State) (t : Tile) : (s.dropTile t).waiters = s.waiters := rfl
@[simp] theorem dropTile_picks (s : State) (t : Tile) : (s.dropTile t).picks = s.picks := rfl
@[simp] theorem dropTile_kvTabs (s : State) (t : Tile) : (s.dropTile t).kvTabs = s.kvTabs := rfl
@[simp] theorem dropTile_kvTorn (s : State) (t : Tile) : (s.dropTile t).kvTorn = s.kvTorn := rfl
@[simp] theorem dropTile_seals (s : State) (t : Tile) : (s.dropTile t).seals = s.seals := rfl
@[simp] theorem dropTile_fails (s : State) (t : Tile) : (s.dropTile t).fails = s.fails := rfl
@[simp] theorem dropTile_pwait (s : State) (t : Tile) : (s.dropTile t).pwait = s.pwait := rfl

@[simp] theorem putLine_nanos (s : State) (b : BufLine) : (s.putLine b).nanos = s.nanos := rfl
@[simp] theorem putLine_tsc (s : State) (b : BufLine) : (s.putLine b).tsc = s.tsc := rfl
@[simp] theorem putLine_pkg (s : State) (b : BufLine) : (s.putLine b).pkg = s.pkg := rfl
@[simp] theorem putLine_sys (s : State) (b : BufLine) : (s.putLine b).sys = s.sys := rfl
@[simp] theorem putLine_mem (s : State) (b : BufLine) : (s.putLine b).mem = s.mem := rfl
@[simp] theorem putLine_poison (s : State) (b : BufLine) : (s.putLine b).poison = s.poison := rfl
@[simp] theorem putLine_dev (s : State) (b : BufLine) : (s.putLine b).dev = s.dev := rfl
@[simp] theorem putLine_tiles (s : State) (b : BufLine) : (s.putLine b).tiles = s.tiles := rfl
@[simp] theorem putLine_gens (s : State) (b : BufLine) : (s.putLine b).gens = s.gens := rfl
@[simp] theorem putLine_fillNo (s : State) (b : BufLine) : (s.putLine b).fillNo = s.fillNo := rfl
@[simp] theorem putLine_ctxs (s : State) (b : BufLine) : (s.putLine b).ctxs = s.ctxs := rfl
@[simp] theorem putLine_stats (s : State) (b : BufLine) : (s.putLine b).stats = s.stats := rfl
@[simp] theorem putLine_images (s : State) (b : BufLine) : (s.putLine b).images = s.images := rfl
@[simp] theorem putLine_nextHandle (s : State) (b : BufLine) : (s.putLine b).nextHandle = s.nextHandle := rfl
@[simp] theorem putLine_launches (s : State) (b : BufLine) : (s.putLine b).launches = s.launches := rfl
@[simp] theorem putLine_podBars (s : State) (b : BufLine) : (s.putLine b).podBars = s.podBars := rfl
@[simp] theorem putLine_cores (s : State) (b : BufLine) : (s.putLine b).cores = s.cores := rfl
@[simp] theorem putLine_crews (s : State) (b : BufLine) : (s.putLine b).crews = s.crews := rfl
@[simp] theorem putLine_groups (s : State) (b : BufLine) : (s.putLine b).groups = s.groups := rfl
@[simp] theorem putLine_engines (s : State) (b : BufLine) : (s.putLine b).engines = s.engines := rfl
@[simp] theorem putLine_djobs (s : State) (b : BufLine) : (s.putLine b).djobs = s.djobs := rfl
@[simp] theorem putLine_pins (s : State) (b : BufLine) : (s.putLine b).pins = s.pins := rfl
@[simp] theorem putLine_deferred (s : State) (b : BufLine) : (s.putLine b).deferred = s.deferred := rfl
@[simp] theorem putLine_agenda (s : State) (b : BufLine) : (s.putLine b).agenda = s.agenda := rfl
@[simp] theorem putLine_focus (s : State) (b : BufLine) : (s.putLine b).focus = s.focus := rfl
@[simp] theorem putLine_word (s : State) (b : BufLine) : (s.putLine b).word = s.word := rfl
@[simp] theorem putLine_seen (s : State) (b : BufLine) : (s.putLine b).seen = s.seen := rfl
@[simp] theorem putLine_tornAt (s : State) (b : BufLine) : (s.putLine b).tornAt = s.tornAt := rfl
@[simp] theorem putLine_stamp (s : State) (b : BufLine) : (s.putLine b).stamp = s.stamp := rfl
@[simp] theorem putLine_free (s : State) (b : BufLine) : (s.putLine b).free = s.free := rfl
@[simp] theorem putLine_crewNo (s : State) (b : BufLine) : (s.putLine b).crewNo = s.crewNo := rfl
@[simp] theorem putLine_held (s : State) (b : BufLine) : (s.putLine b).held = s.held := rfl
@[simp] theorem putLine_waiters (s : State) (b : BufLine) : (s.putLine b).waiters = s.waiters := rfl
@[simp] theorem putLine_picks (s : State) (b : BufLine) : (s.putLine b).picks = s.picks := rfl
@[simp] theorem putLine_kvTabs (s : State) (b : BufLine) : (s.putLine b).kvTabs = s.kvTabs := rfl
@[simp] theorem putLine_kvTorn (s : State) (b : BufLine) : (s.putLine b).kvTorn = s.kvTorn := rfl
@[simp] theorem putLine_seals (s : State) (b : BufLine) : (s.putLine b).seals = s.seals := rfl
@[simp] theorem putLine_fails (s : State) (b : BufLine) : (s.putLine b).fails = s.fails := rfl
@[simp] theorem putLine_pwait (s : State) (b : BufLine) : (s.putLine b).pwait = s.pwait := rfl

@[simp] theorem dropLine_nanos (s : State) (b : BufId) (c l : Nat) : (s.dropLine b c l).nanos = s.nanos := rfl
@[simp] theorem dropLine_tsc (s : State) (b : BufId) (c l : Nat) : (s.dropLine b c l).tsc = s.tsc := rfl
@[simp] theorem dropLine_pkg (s : State) (b : BufId) (c l : Nat) : (s.dropLine b c l).pkg = s.pkg := rfl
@[simp] theorem dropLine_sys (s : State) (b : BufId) (c l : Nat) : (s.dropLine b c l).sys = s.sys := rfl
@[simp] theorem dropLine_mem (s : State) (b : BufId) (c l : Nat) : (s.dropLine b c l).mem = s.mem := rfl
@[simp] theorem dropLine_poison (s : State) (b : BufId) (c l : Nat) : (s.dropLine b c l).poison = s.poison := rfl
@[simp] theorem dropLine_dev (s : State) (b : BufId) (c l : Nat) : (s.dropLine b c l).dev = s.dev := rfl
@[simp] theorem dropLine_tiles (s : State) (b : BufId) (c l : Nat) : (s.dropLine b c l).tiles = s.tiles := rfl
@[simp] theorem dropLine_gens (s : State) (b : BufId) (c l : Nat) : (s.dropLine b c l).gens = s.gens := rfl
@[simp] theorem dropLine_fillNo (s : State) (b : BufId) (c l : Nat) : (s.dropLine b c l).fillNo = s.fillNo := rfl
@[simp] theorem dropLine_ctxs (s : State) (b : BufId) (c l : Nat) : (s.dropLine b c l).ctxs = s.ctxs := rfl
@[simp] theorem dropLine_stats (s : State) (b : BufId) (c l : Nat) : (s.dropLine b c l).stats = s.stats := rfl
@[simp] theorem dropLine_images (s : State) (b : BufId) (c l : Nat) : (s.dropLine b c l).images = s.images := rfl
@[simp] theorem dropLine_nextHandle (s : State) (b : BufId) (c l : Nat) : (s.dropLine b c l).nextHandle = s.nextHandle := rfl
@[simp] theorem dropLine_launches (s : State) (b : BufId) (c l : Nat) : (s.dropLine b c l).launches = s.launches := rfl
@[simp] theorem dropLine_podBars (s : State) (b : BufId) (c l : Nat) : (s.dropLine b c l).podBars = s.podBars := rfl
@[simp] theorem dropLine_cores (s : State) (b : BufId) (c l : Nat) : (s.dropLine b c l).cores = s.cores := rfl
@[simp] theorem dropLine_crews (s : State) (b : BufId) (c l : Nat) : (s.dropLine b c l).crews = s.crews := rfl
@[simp] theorem dropLine_groups (s : State) (b : BufId) (c l : Nat) : (s.dropLine b c l).groups = s.groups := rfl
@[simp] theorem dropLine_engines (s : State) (b : BufId) (c l : Nat) : (s.dropLine b c l).engines = s.engines := rfl
@[simp] theorem dropLine_djobs (s : State) (b : BufId) (c l : Nat) : (s.dropLine b c l).djobs = s.djobs := rfl
@[simp] theorem dropLine_pins (s : State) (b : BufId) (c l : Nat) : (s.dropLine b c l).pins = s.pins := rfl
@[simp] theorem dropLine_deferred (s : State) (b : BufId) (c l : Nat) : (s.dropLine b c l).deferred = s.deferred := rfl
@[simp] theorem dropLine_agenda (s : State) (b : BufId) (c l : Nat) : (s.dropLine b c l).agenda = s.agenda := rfl
@[simp] theorem dropLine_focus (s : State) (b : BufId) (c l : Nat) : (s.dropLine b c l).focus = s.focus := rfl
@[simp] theorem dropLine_word (s : State) (b : BufId) (c l : Nat) : (s.dropLine b c l).word = s.word := rfl
@[simp] theorem dropLine_seen (s : State) (b : BufId) (c l : Nat) : (s.dropLine b c l).seen = s.seen := rfl
@[simp] theorem dropLine_tornAt (s : State) (b : BufId) (c l : Nat) : (s.dropLine b c l).tornAt = s.tornAt := rfl
@[simp] theorem dropLine_stamp (s : State) (b : BufId) (c l : Nat) : (s.dropLine b c l).stamp = s.stamp := rfl
@[simp] theorem dropLine_free (s : State) (b : BufId) (c l : Nat) : (s.dropLine b c l).free = s.free := rfl
@[simp] theorem dropLine_crewNo (s : State) (b : BufId) (c l : Nat) : (s.dropLine b c l).crewNo = s.crewNo := rfl
@[simp] theorem dropLine_held (s : State) (b : BufId) (c l : Nat) : (s.dropLine b c l).held = s.held := rfl
@[simp] theorem dropLine_waiters (s : State) (b : BufId) (c l : Nat) : (s.dropLine b c l).waiters = s.waiters := rfl
@[simp] theorem dropLine_picks (s : State) (b : BufId) (c l : Nat) : (s.dropLine b c l).picks = s.picks := rfl
@[simp] theorem dropLine_kvTabs (s : State) (b : BufId) (c l : Nat) : (s.dropLine b c l).kvTabs = s.kvTabs := rfl
@[simp] theorem dropLine_kvTorn (s : State) (b : BufId) (c l : Nat) : (s.dropLine b c l).kvTorn = s.kvTorn := rfl
@[simp] theorem dropLine_seals (s : State) (b : BufId) (c l : Nat) : (s.dropLine b c l).seals = s.seals := rfl
@[simp] theorem dropLine_fails (s : State) (b : BufId) (c l : Nat) : (s.dropLine b c l).fails = s.fails := rfl
@[simp] theorem dropLine_pwait (s : State) (b : BufId) (c l : Nat) : (s.dropLine b c l).pwait = s.pwait := rfl

@[simp] theorem memWrite_nanos (s : State) (ks : List Nat) (xs : List Byte) : (s.memWrite ks xs).nanos = s.nanos := rfl
@[simp] theorem memWrite_tsc (s : State) (ks : List Nat) (xs : List Byte) : (s.memWrite ks xs).tsc = s.tsc := rfl
@[simp] theorem memWrite_pkg (s : State) (ks : List Nat) (xs : List Byte) : (s.memWrite ks xs).pkg = s.pkg := rfl
@[simp] theorem memWrite_sys (s : State) (ks : List Nat) (xs : List Byte) : (s.memWrite ks xs).sys = s.sys := rfl
@[simp] theorem memWrite_dev (s : State) (ks : List Nat) (xs : List Byte) : (s.memWrite ks xs).dev = s.dev := rfl
@[simp] theorem memWrite_bufs (s : State) (ks : List Nat) (xs : List Byte) : (s.memWrite ks xs).bufs = s.bufs := rfl
@[simp] theorem memWrite_tiles (s : State) (ks : List Nat) (xs : List Byte) : (s.memWrite ks xs).tiles = s.tiles := rfl
@[simp] theorem memWrite_gens (s : State) (ks : List Nat) (xs : List Byte) : (s.memWrite ks xs).gens = s.gens := rfl
@[simp] theorem memWrite_fillNo (s : State) (ks : List Nat) (xs : List Byte) : (s.memWrite ks xs).fillNo = s.fillNo := rfl
@[simp] theorem memWrite_ctxs (s : State) (ks : List Nat) (xs : List Byte) : (s.memWrite ks xs).ctxs = s.ctxs := rfl
@[simp] theorem memWrite_stats (s : State) (ks : List Nat) (xs : List Byte) : (s.memWrite ks xs).stats = s.stats := rfl
@[simp] theorem memWrite_images (s : State) (ks : List Nat) (xs : List Byte) : (s.memWrite ks xs).images = s.images := rfl
@[simp] theorem memWrite_nextHandle (s : State) (ks : List Nat) (xs : List Byte) : (s.memWrite ks xs).nextHandle = s.nextHandle := rfl
@[simp] theorem memWrite_launches (s : State) (ks : List Nat) (xs : List Byte) : (s.memWrite ks xs).launches = s.launches := rfl
@[simp] theorem memWrite_podBars (s : State) (ks : List Nat) (xs : List Byte) : (s.memWrite ks xs).podBars = s.podBars := rfl
@[simp] theorem memWrite_cores (s : State) (ks : List Nat) (xs : List Byte) : (s.memWrite ks xs).cores = s.cores := rfl
@[simp] theorem memWrite_crews (s : State) (ks : List Nat) (xs : List Byte) : (s.memWrite ks xs).crews = s.crews := rfl
@[simp] theorem memWrite_groups (s : State) (ks : List Nat) (xs : List Byte) : (s.memWrite ks xs).groups = s.groups := rfl
@[simp] theorem memWrite_engines (s : State) (ks : List Nat) (xs : List Byte) : (s.memWrite ks xs).engines = s.engines := rfl
@[simp] theorem memWrite_djobs (s : State) (ks : List Nat) (xs : List Byte) : (s.memWrite ks xs).djobs = s.djobs := rfl
@[simp] theorem memWrite_pins (s : State) (ks : List Nat) (xs : List Byte) : (s.memWrite ks xs).pins = s.pins := rfl
@[simp] theorem memWrite_deferred (s : State) (ks : List Nat) (xs : List Byte) : (s.memWrite ks xs).deferred = s.deferred := rfl
@[simp] theorem memWrite_agenda (s : State) (ks : List Nat) (xs : List Byte) : (s.memWrite ks xs).agenda = s.agenda := rfl
@[simp] theorem memWrite_focus (s : State) (ks : List Nat) (xs : List Byte) : (s.memWrite ks xs).focus = s.focus := rfl
@[simp] theorem memWrite_word (s : State) (ks : List Nat) (xs : List Byte) : (s.memWrite ks xs).word = s.word := rfl
@[simp] theorem memWrite_seen (s : State) (ks : List Nat) (xs : List Byte) : (s.memWrite ks xs).seen = s.seen := rfl
@[simp] theorem memWrite_tornAt (s : State) (ks : List Nat) (xs : List Byte) : (s.memWrite ks xs).tornAt = s.tornAt := rfl
@[simp] theorem memWrite_stamp (s : State) (ks : List Nat) (xs : List Byte) : (s.memWrite ks xs).stamp = s.stamp := rfl
@[simp] theorem memWrite_free (s : State) (ks : List Nat) (xs : List Byte) : (s.memWrite ks xs).free = s.free := rfl
@[simp] theorem memWrite_crewNo (s : State) (ks : List Nat) (xs : List Byte) : (s.memWrite ks xs).crewNo = s.crewNo := rfl
@[simp] theorem memWrite_held (s : State) (ks : List Nat) (xs : List Byte) : (s.memWrite ks xs).held = s.held := rfl
@[simp] theorem memWrite_waiters (s : State) (ks : List Nat) (xs : List Byte) : (s.memWrite ks xs).waiters = s.waiters := rfl
@[simp] theorem memWrite_picks (s : State) (ks : List Nat) (xs : List Byte) : (s.memWrite ks xs).picks = s.picks := rfl
@[simp] theorem memWrite_kvTabs (s : State) (ks : List Nat) (xs : List Byte) : (s.memWrite ks xs).kvTabs = s.kvTabs := rfl
@[simp] theorem memWrite_kvTorn (s : State) (ks : List Nat) (xs : List Byte) : (s.memWrite ks xs).kvTorn = s.kvTorn := rfl
@[simp] theorem memWrite_seals (s : State) (ks : List Nat) (xs : List Byte) : (s.memWrite ks xs).seals = s.seals := rfl
@[simp] theorem memWrite_fails (s : State) (ks : List Nat) (xs : List Byte) : (s.memWrite ks xs).fails = s.fails := rfl
@[simp] theorem memWrite_pwait (s : State) (ks : List Nat) (xs : List Byte) : (s.memWrite ks xs).pwait = s.pwait := rfl

@[simp] theorem count_nanos (s : State) (d c k : Nat) (e : Ev) : (s.count d c k e).nanos = s.nanos := rfl
@[simp] theorem count_tsc (s : State) (d c k : Nat) (e : Ev) : (s.count d c k e).tsc = s.tsc := rfl
@[simp] theorem count_pkg (s : State) (d c k : Nat) (e : Ev) : (s.count d c k e).pkg = s.pkg := rfl
@[simp] theorem count_sys (s : State) (d c k : Nat) (e : Ev) : (s.count d c k e).sys = s.sys := rfl
@[simp] theorem count_mem (s : State) (d c k : Nat) (e : Ev) : (s.count d c k e).mem = s.mem := rfl
@[simp] theorem count_poison (s : State) (d c k : Nat) (e : Ev) : (s.count d c k e).poison = s.poison := rfl
@[simp] theorem count_dev (s : State) (d c k : Nat) (e : Ev) : (s.count d c k e).dev = s.dev := rfl
@[simp] theorem count_bufs (s : State) (d c k : Nat) (e : Ev) : (s.count d c k e).bufs = s.bufs := rfl
@[simp] theorem count_tiles (s : State) (d c k : Nat) (e : Ev) : (s.count d c k e).tiles = s.tiles := rfl
@[simp] theorem count_gens (s : State) (d c k : Nat) (e : Ev) : (s.count d c k e).gens = s.gens := rfl
@[simp] theorem count_fillNo (s : State) (d c k : Nat) (e : Ev) : (s.count d c k e).fillNo = s.fillNo := rfl
@[simp] theorem count_ctxs (s : State) (d c k : Nat) (e : Ev) : (s.count d c k e).ctxs = s.ctxs := rfl
@[simp] theorem count_images (s : State) (d c k : Nat) (e : Ev) : (s.count d c k e).images = s.images := rfl
@[simp] theorem count_nextHandle (s : State) (d c k : Nat) (e : Ev) : (s.count d c k e).nextHandle = s.nextHandle := rfl
@[simp] theorem count_launches (s : State) (d c k : Nat) (e : Ev) : (s.count d c k e).launches = s.launches := rfl
@[simp] theorem count_podBars (s : State) (d c k : Nat) (e : Ev) : (s.count d c k e).podBars = s.podBars := rfl
@[simp] theorem count_cores (s : State) (d c k : Nat) (e : Ev) : (s.count d c k e).cores = s.cores := rfl
@[simp] theorem count_crews (s : State) (d c k : Nat) (e : Ev) : (s.count d c k e).crews = s.crews := rfl
@[simp] theorem count_groups (s : State) (d c k : Nat) (e : Ev) : (s.count d c k e).groups = s.groups := rfl
@[simp] theorem count_engines (s : State) (d c k : Nat) (e : Ev) : (s.count d c k e).engines = s.engines := rfl
@[simp] theorem count_djobs (s : State) (d c k : Nat) (e : Ev) : (s.count d c k e).djobs = s.djobs := rfl
@[simp] theorem count_pins (s : State) (d c k : Nat) (e : Ev) : (s.count d c k e).pins = s.pins := rfl
@[simp] theorem count_deferred (s : State) (d c k : Nat) (e : Ev) : (s.count d c k e).deferred = s.deferred := rfl
@[simp] theorem count_agenda (s : State) (d c k : Nat) (e : Ev) : (s.count d c k e).agenda = s.agenda := rfl
@[simp] theorem count_focus (s : State) (d c k : Nat) (e : Ev) : (s.count d c k e).focus = s.focus := rfl
@[simp] theorem count_word (s : State) (d c k : Nat) (e : Ev) : (s.count d c k e).word = s.word := rfl
@[simp] theorem count_seen (s : State) (d c k : Nat) (e : Ev) : (s.count d c k e).seen = s.seen := rfl
@[simp] theorem count_tornAt (s : State) (d c k : Nat) (e : Ev) : (s.count d c k e).tornAt = s.tornAt := rfl
@[simp] theorem count_stamp (s : State) (d c k : Nat) (e : Ev) : (s.count d c k e).stamp = s.stamp := rfl
@[simp] theorem count_free (s : State) (d c k : Nat) (e : Ev) : (s.count d c k e).free = s.free := rfl
@[simp] theorem count_crewNo (s : State) (d c k : Nat) (e : Ev) : (s.count d c k e).crewNo = s.crewNo := rfl
@[simp] theorem count_held (s : State) (d c k : Nat) (e : Ev) : (s.count d c k e).held = s.held := rfl
@[simp] theorem count_waiters (s : State) (d c k : Nat) (e : Ev) : (s.count d c k e).waiters = s.waiters := rfl
@[simp] theorem count_picks (s : State) (d c k : Nat) (e : Ev) : (s.count d c k e).picks = s.picks := rfl
@[simp] theorem count_kvTabs (s : State) (d c k : Nat) (e : Ev) : (s.count d c k e).kvTabs = s.kvTabs := rfl
@[simp] theorem count_kvTorn (s : State) (d c k : Nat) (e : Ev) : (s.count d c k e).kvTorn = s.kvTorn := rfl
@[simp] theorem count_seals (s : State) (d c k : Nat) (e : Ev) : (s.count d c k e).seals = s.seals := rfl
@[simp] theorem count_fails (s : State) (d c k : Nat) (e : Ev) : (s.count d c k e).fails = s.fails := rfl
@[simp] theorem count_pwait (s : State) (d c k : Nat) (e : Ev) : (s.count d c k e).pwait = s.pwait := rfl

@[simp] theorem hold_nanos (s : State) : (s.hold).nanos = s.nanos := rfl
@[simp] theorem hold_tsc (s : State) : (s.hold).tsc = s.tsc := rfl
@[simp] theorem hold_pkg (s : State) : (s.hold).pkg = s.pkg := rfl
@[simp] theorem hold_sys (s : State) : (s.hold).sys = s.sys := rfl
@[simp] theorem hold_mem (s : State) : (s.hold).mem = s.mem := rfl
@[simp] theorem hold_poison (s : State) : (s.hold).poison = s.poison := rfl
@[simp] theorem hold_dev (s : State) : (s.hold).dev = s.dev := rfl
@[simp] theorem hold_bufs (s : State) : (s.hold).bufs = s.bufs := rfl
@[simp] theorem hold_tiles (s : State) : (s.hold).tiles = s.tiles := rfl
@[simp] theorem hold_gens (s : State) : (s.hold).gens = s.gens := rfl
@[simp] theorem hold_fillNo (s : State) : (s.hold).fillNo = s.fillNo := rfl
@[simp] theorem hold_ctxs (s : State) : (s.hold).ctxs = s.ctxs := rfl
@[simp] theorem hold_stats (s : State) : (s.hold).stats = s.stats := rfl
@[simp] theorem hold_images (s : State) : (s.hold).images = s.images := rfl
@[simp] theorem hold_nextHandle (s : State) : (s.hold).nextHandle = s.nextHandle := rfl
@[simp] theorem hold_launches (s : State) : (s.hold).launches = s.launches := rfl
@[simp] theorem hold_podBars (s : State) : (s.hold).podBars = s.podBars := rfl
@[simp] theorem hold_cores (s : State) : (s.hold).cores = s.cores := rfl
@[simp] theorem hold_crews (s : State) : (s.hold).crews = s.crews := rfl
@[simp] theorem hold_groups (s : State) : (s.hold).groups = s.groups := rfl
@[simp] theorem hold_engines (s : State) : (s.hold).engines = s.engines := rfl
@[simp] theorem hold_djobs (s : State) : (s.hold).djobs = s.djobs := rfl
@[simp] theorem hold_pins (s : State) : (s.hold).pins = s.pins := rfl
@[simp] theorem hold_deferred (s : State) : (s.hold).deferred = s.deferred := rfl
@[simp] theorem hold_agenda (s : State) : (s.hold).agenda = s.agenda := rfl
@[simp] theorem hold_focus (s : State) : (s.hold).focus = s.focus := rfl
@[simp] theorem hold_word (s : State) : (s.hold).word = s.word := rfl
@[simp] theorem hold_seen (s : State) : (s.hold).seen = s.seen := rfl
@[simp] theorem hold_tornAt (s : State) : (s.hold).tornAt = s.tornAt := rfl
@[simp] theorem hold_stamp (s : State) : (s.hold).stamp = s.stamp := rfl
@[simp] theorem hold_free (s : State) : (s.hold).free = s.free := rfl
@[simp] theorem hold_crewNo (s : State) : (s.hold).crewNo = s.crewNo := rfl
@[simp] theorem hold_waiters (s : State) : (s.hold).waiters = s.waiters := rfl
@[simp] theorem hold_picks (s : State) : (s.hold).picks = s.picks := rfl
@[simp] theorem hold_kvTabs (s : State) : (s.hold).kvTabs = s.kvTabs := rfl
@[simp] theorem hold_kvTorn (s : State) : (s.hold).kvTorn = s.kvTorn := rfl
@[simp] theorem hold_seals (s : State) : (s.hold).seals = s.seals := rfl
@[simp] theorem hold_fails (s : State) : (s.hold).fails = s.fails := rfl
@[simp] theorem hold_pwait (s : State) : (s.hold).pwait = s.pwait := rfl

@[simp] theorem draw_nanos (s : State) : s.draw.1.nanos = s.nanos := rfl
@[simp] theorem draw_tsc (s : State) : s.draw.1.tsc = s.tsc := rfl
@[simp] theorem draw_pkg (s : State) : s.draw.1.pkg = s.pkg := rfl
@[simp] theorem draw_sys (s : State) : s.draw.1.sys = s.sys := rfl
@[simp] theorem draw_mem (s : State) : s.draw.1.mem = s.mem := rfl
@[simp] theorem draw_poison (s : State) : s.draw.1.poison = s.poison := rfl
@[simp] theorem draw_dev (s : State) : s.draw.1.dev = s.dev := rfl
@[simp] theorem draw_bufs (s : State) : s.draw.1.bufs = s.bufs := rfl
@[simp] theorem draw_tiles (s : State) : s.draw.1.tiles = s.tiles := rfl
@[simp] theorem draw_gens (s : State) : s.draw.1.gens = s.gens := rfl
@[simp] theorem draw_fillNo (s : State) : s.draw.1.fillNo = s.fillNo := rfl
@[simp] theorem draw_ctxs (s : State) : s.draw.1.ctxs = s.ctxs := rfl
@[simp] theorem draw_stats (s : State) : s.draw.1.stats = s.stats := rfl
@[simp] theorem draw_images (s : State) : s.draw.1.images = s.images := rfl
@[simp] theorem draw_nextHandle (s : State) : s.draw.1.nextHandle = s.nextHandle := rfl
@[simp] theorem draw_launches (s : State) : s.draw.1.launches = s.launches := rfl
@[simp] theorem draw_podBars (s : State) : s.draw.1.podBars = s.podBars := rfl
@[simp] theorem draw_cores (s : State) : s.draw.1.cores = s.cores := rfl
@[simp] theorem draw_crews (s : State) : s.draw.1.crews = s.crews := rfl
@[simp] theorem draw_groups (s : State) : s.draw.1.groups = s.groups := rfl
@[simp] theorem draw_engines (s : State) : s.draw.1.engines = s.engines := rfl
@[simp] theorem draw_djobs (s : State) : s.draw.1.djobs = s.djobs := rfl
@[simp] theorem draw_pins (s : State) : s.draw.1.pins = s.pins := rfl
@[simp] theorem draw_deferred (s : State) : s.draw.1.deferred = s.deferred := rfl
@[simp] theorem draw_agenda (s : State) : s.draw.1.agenda = s.agenda := rfl
@[simp] theorem draw_focus (s : State) : s.draw.1.focus = s.focus := rfl
@[simp] theorem draw_word (s : State) : s.draw.1.word = s.word := rfl
@[simp] theorem draw_seen (s : State) : s.draw.1.seen = s.seen := rfl
@[simp] theorem draw_tornAt (s : State) : s.draw.1.tornAt = s.tornAt := rfl
@[simp] theorem draw_stamp (s : State) : s.draw.1.stamp = s.stamp := rfl
@[simp] theorem draw_crewNo (s : State) : s.draw.1.crewNo = s.crewNo := rfl
@[simp] theorem draw_held (s : State) : s.draw.1.held = s.held := rfl
@[simp] theorem draw_waiters (s : State) : s.draw.1.waiters = s.waiters := rfl
@[simp] theorem draw_picks (s : State) : s.draw.1.picks = s.picks := rfl
@[simp] theorem draw_kvTabs (s : State) : s.draw.1.kvTabs = s.kvTabs := rfl
@[simp] theorem draw_kvTorn (s : State) : s.draw.1.kvTorn = s.kvTorn := rfl
@[simp] theorem draw_seals (s : State) : s.draw.1.seals = s.seals := rfl
@[simp] theorem draw_fails (s : State) : s.draw.1.fails = s.fails := rfl
@[simp] theorem draw_pwait (s : State) : s.draw.1.pwait = s.pwait := rfl
@[simp] theorem draw_free (s : State) : s.draw.1.free = s.free + 1 := rfl
@[simp] theorem draw_index (s : State) : s.draw.2 = s.free := rfl

end Sys2Proof.Machine
end

