-- ==== Sys2Proof/Laws/Store.lean ====
section
/-!
SUPPORT. Keyed lists, banks and memory: a read after a write to the same key gives what was written, a write leaves every
other key alone, and every memory operation keeps the canonical form.
-/

namespace Sys2Proof.Machine

variable {β : Type}

theorem lookup_put (l : List (Nat × β)) (k j : Nat) (x : β) :
    lookup (put l k x) j = if j = k then some x else lookup l j := by
  induction l with
  | nil => simp only [put, lookup]; split <;> simp_all [eq_comm]
  | cons e r ih =>
    obtain ⟨a, y⟩ := e
    unfold put
    split
    · simp only [lookup]; split <;> simp_all [eq_comm]
    · split
      · simp only [lookup]; split <;> simp_all [eq_comm]
      · simp only [lookup, ih]
        by_cases ha : a = j <;> by_cases hj : j = k <;> simp_all

@[simp] theorem lookup_put_same (l : List (Nat × β)) (k : Nat) (x : β) : lookup (put l k x) k = some x := by
  simp [lookup_put]

theorem lookup_filter (l : List (Nat × β)) (p : Nat → Bool) (k : Nat) :
    lookup (l.filter (fun e => p e.1)) k = if p k then lookup l k else none := by
  induction l with
  | nil => simp [lookup]
  | cons e r ih =>
    obtain ⟨a, y⟩ := e
    by_cases h : p a <;> simp only [List.filter_cons, h, lookup] <;> by_cases e : a = k <;> simp_all [lookup]

theorem lookup_erase (l : List (Nat × β)) (k j : Nat) : lookup (erase l k) j = if j = k then none else lookup l j := by
  have := lookup_filter l (fun i => i != k) j
  unfold erase
  rw [this]
  by_cases h : j = k <;> simp [h]

theorem lookup_none_of_lt (l : List (Nat × β)) (k j : Nat) (y : β) (h : rising ((k, y) :: l)) (hj : j ≤ k) :
    lookup l j = none := by
  induction l generalizing k y with
  | nil => rfl
  | cons e r ih =>
    obtain ⟨a, z⟩ := e
    simp only [rising, Bool.and_eq_true, decide_eq_true_eq] at h
    simp only [lookup]
    rw [if_neg (by omega)]
    exact ih a z h.2 (by omega)

/-! Banks. -/

variable {w : Nat}

theorem Bank.get_set (b : Bank w) (k j : Nat) (x : BitVec w) :
    (b.set k x).get j = if j = k then x else b.get j := by
  simp only [Bank.get, Bank.set, lookup_put]
  by_cases h : j = k <;> simp [h]

@[simp] theorem Bank.get_set_same (b : Bank w) (k : Nat) (x : BitVec w) : (b.set k x).get k = x := by
  simp [Bank.get_set]

theorem Bank.get_havoc (b : Bank w) (lo hi n k : Nat) (h : k < lo ∨ hi ≤ k) : (b.havoc lo hi n).get k = b.get k := by
  have hc : lookup (b.cells.filter (fun e => decide (e.1 < lo) || decide (hi ≤ e.1))) k = lookup b.cells k := by
    rw [lookup_filter b.cells (fun i => decide (i < lo) || decide (hi ≤ i)) k]
    rcases h with h | h <;> simp [h]
  have hf : (b.holes.filter (fun h => !(decide (lo ≤ h.lo) && decide (h.hi ≤ hi)))).find?
      (fun h => decide (h.lo ≤ k) && decide (k < h.hi)) = b.holes.find? (fun h => decide (h.lo ≤ k) && decide (k < h.hi)) := by
    rw [List.find?_filter]
    congr 1
    funext a
    by_cases h1 : a.lo ≤ k <;> by_cases h2 : k < a.hi <;> simp [h1, h2]
    omega
  simp only [Bank.get, Bank.havoc, hc, List.find?_cons]
  have : (decide (lo ≤ k) && decide (k < hi)) = false := by rcases h with h | h <;> simp <;> omega
  rw [this, hf]

/-! Memory. -/

theorem memGet_memSet (m : List (Nat × Byte)) (k j : Nat) (x : Byte) :
    memGet (memSet m k x) j = if j = k then x else memGet m j := by
  unfold memGet memSet
  split
  · rw [lookup_erase]; split <;> simp_all
  · rw [lookup_put]; split <;> simp

@[simp] theorem memGet_memSet_same (m : List (Nat × Byte)) (k : Nat) (x : Byte) : memGet (memSet m k x) k = x := by
  simp [memGet_memSet]

theorem rising_cons (k : Nat) (x : β) (l : List (Nat × β)) :
    rising ((k, x) :: l) = (rising l && l.all (fun e => decide (k < e.1))) := by
  induction l generalizing k x with
  | nil => rfl
  | cons e r ih =>
    obtain ⟨a, y⟩ := e
    rw [rising, ih]
    rw [Bool.eq_iff_iff]
    simp only [Bool.and_eq_true, List.all_eq_true, decide_eq_true_eq, List.mem_cons, forall_eq_or_imp]
    constructor
    · rintro ⟨h1, h2, h3⟩
      exact ⟨⟨h2, h3⟩, h1, fun e he => lt_trans h1 (h3 e he)⟩
    · rintro ⟨⟨h2, h3⟩, h1, _⟩
      exact ⟨h1, h2, h3⟩

theorem rising_filter (l : List (Nat × β)) (p : Nat × β → Bool) (h : rising l) : rising (l.filter p) := by
  induction l with
  | nil => rfl
  | cons e r ih =>
    obtain ⟨a, y⟩ := e
    rw [rising_cons, Bool.and_eq_true] at h
    rw [List.filter_cons]
    split
    · rw [rising_cons, ih h.1, Bool.true_and, List.all_eq_true]
      intro e he
      exact List.all_eq_true.mp h.2 e (List.mem_filter.mp he).1
    · exact ih h.1

theorem mem_put (l : List (Nat × β)) (k : Nat) (x : β) (e : Nat × β) (h : e ∈ put l k x) : e = (k, x) ∨ e ∈ l := by
  induction l with
  | nil => simpa [put] using h
  | cons a r ih =>
    obtain ⟨a, y⟩ := a
    unfold put at h
    split at h
    · rcases List.mem_cons.mp h with h | h <;> simp_all
    · split at h
      · rcases List.mem_cons.mp h with h | h <;> simp_all
      · rcases List.mem_cons.mp h with h | h
        · simp_all
        · rcases ih h with h | h <;> simp_all

theorem rising_put (l : List (Nat × β)) (k : Nat) (x : β) (h : rising l) : rising (put l k x) := by
  induction l with
  | nil => rfl
  | cons e r ih =>
    obtain ⟨a, y⟩ := e
    have hr := h
    rw [rising_cons, Bool.and_eq_true] at hr
    unfold put
    split
    · rw [rising, h, Bool.and_true, decide_eq_true_eq]; assumption
    · split
      · subst_vars; rw [rising_cons]; simpa using hr
      · rw [rising_cons, ih hr.1, Bool.true_and, List.all_eq_true]
        intro e he
        rcases mem_put r k x e he with he | he
        · subst he; simp only [decide_eq_true_eq]; omega
        · exact List.all_eq_true.mp hr.2 e he

theorem memSet_wf (m : List (Nat × Byte)) (k : Nat) (x : Byte) (h : Memory.wf m) : Memory.wf (memSet m k x) := by
  simp only [Memory.wf, Bool.and_eq_true, List.all_eq_true] at h ⊢
  unfold memSet
  split
  · exact ⟨rising_filter m _ h.1, fun e he => h.2 e (List.mem_filter.mp he).1⟩
  · refine ⟨rising_put m k x h.1, fun e he => ?_⟩
    rcases mem_put m k x e he with he | he
    · subst he; simpa using by assumption
    · exact h.2 e he

theorem memFold_wf (l : List (Nat × Byte)) (m : List (Nat × Byte)) (h : Memory.wf m) :
    Memory.wf (l.foldl (fun m e => memSet m e.1 e.2) m) := by
  induction l generalizing m with
  | nil => exact h
  | cons e r ih => exact ih _ (memSet_wf m e.1 e.2 h)

theorem memPut_wf (xs : List Byte) (m : List (Nat × Byte)) (k : Nat) (h : Memory.wf m) : Memory.wf (memPut m k xs) := by
  induction xs generalizing m k with
  | nil => exact h
  | cons x r ih => exact ih _ _ (memSet_wf m k x h)

theorem memFilter_wf (m : List (Nat × Byte)) (p : Nat × Byte → Bool) (h : Memory.wf m) : Memory.wf (m.filter p) := by
  simp only [Memory.wf, Bool.and_eq_true, List.all_eq_true] at h ⊢
  exact ⟨rising_filter m p h.1, fun e he => h.2 e (List.mem_filter.mp he).1⟩

theorem memWrite_wf (s : State) (ks : List Nat) (xs : List Byte) (h : Memory.wf s.mem) : Memory.wf (s.memWrite ks xs).mem :=
  memFold_wf _ _ h

theorem reset_memory_wf : Memory.wf State.reset.mem := rfl

/-- Equal canonical memories: two that read alike are the same list. -/
theorem memory_ext (m n : List (Nat × Byte)) (hm : Memory.wf m) (hn : Memory.wf n) (h : ∀ k, memGet m k = memGet n k) :
    m = n := by
  induction m generalizing n with
  | nil =>
    cases n with
    | nil => rfl
    | cons e r =>
      obtain ⟨a, y⟩ := e
      simp only [Memory.wf, Bool.and_eq_true, List.all_cons] at hn
      have := h a
      simp [memGet, lookup] at this
      simp [← this] at hn
  | cons e r ih =>
    obtain ⟨a, y⟩ := e
    simp only [Memory.wf, Bool.and_eq_true, List.all_cons] at hm
    have ha := h a
    cases n with
    | nil =>
      simp [memGet, lookup] at ha
      simp [ha] at hm
    | cons e2 r2 =>
      obtain ⟨b, z⟩ := e2
      simp only [Memory.wf, Bool.and_eq_true, List.all_cons] at hn
      have hb := h b
      have ry : (y != unlisted) = true := hm.2.1
      have rz : (z != unlisted) = true := hn.2.1
      have hab : a = b := by
        rcases Nat.lt_trichotomy a b with hlt | heq | hgt
        · have : lookup r2 a = none := lookup_none_of_lt r2 b a z hn.1 (by omega)
          simp [memGet, lookup, this, show b ≠ a by omega] at ha
          simp [ha] at ry
        · exact heq
        · have : lookup r b = none := lookup_none_of_lt r a b y hm.1 (by omega)
          simp [memGet, lookup, this, show a ≠ b by omega] at hb
          simp [← hb] at rz
      subst hab
      have hyz : y = z := by simpa [memGet, lookup] using ha
      subst hyz
      have h1 := hm.1; rw [rising_cons, Bool.and_eq_true] at h1
      have h2 := hn.1; rw [rising_cons, Bool.and_eq_true] at h2
      congr 1
      apply ih r2
      · simp only [Memory.wf, Bool.and_eq_true]; exact ⟨h1.1, hm.2.2⟩
      · simp only [Memory.wf, Bool.and_eq_true]; exact ⟨h2.1, hn.2.2⟩
      · intro k
        by_cases hk : k ≤ a
        · simp [memGet, lookup_none_of_lt r a k y hm.1 hk, lookup_none_of_lt r2 a k y hn.1 hk]
        · have := h k
          simpa [memGet, lookup, show a ≠ k by omega] using this

end Sys2Proof.Machine
end

