-- ==== Sys2Proof/Laws/Groups.lean ====
section
/-!
SUPPORT. Groups in the state: what replacing one leaves unchanged, what the site of a fragment is made of, and what the
operations that end an instruction can do.
-/

namespace Sys2Proof.Machine

@[simp] theorem setFrag_key (g : Group) (low : Nat) (f : Frag) : (g.setFrag low f).key = g.key := rfl

theorem group?_key {s : State} {k : Nat} {g : Group} (h : s.group? k = some g) : g.key = k := by
  simpa using List.find?_some h

theorem find?_map_replace {α : Type} (l : List α) (key : α → Nat) (g : α) (k : Nat) :
    (l.map (fun x => if key x == key g then g else x)).find? (fun x => key x == k)
      = if k = key g then (l.find? (fun x => key x == k)).map (fun _ => g) else l.find? (fun x => key x == k) := by
  induction l with
  | nil => simp
  | cons a r ih =>
    simp only [List.map_cons, List.find?_cons, ih]
    by_cases h : key a = key g
    · by_cases hk : k = key g
      · simp [h, hk]
      · have : (key g == k) = false := by simpa using Ne.symm hk
        simp [h, hk, this]
    · by_cases hk : k = key g
      · have : (key a == key g) = false := by simpa using h
        simp [hk, this]
      · simp only [beq_iff_eq, h, if_false, hk]

theorem group?_setGroup (s : State) (g : Group) (k : Nat) :
    (s.setGroup g).group? k = if k = g.key then (s.group? k).map (fun _ => g) else s.group? k :=
  find?_map_replace s.groups Group.key g k

theorem group?_setGroup_ne (s : State) (g : Group) (k : Nat) (h : k ≠ g.key) : (s.setGroup g).group? k = s.group? k := by
  rw [group?_setGroup, if_neg h]

theorem group?_setGroup_same {s : State} {g g0 : Group} {k : Nat} (h : s.group? k = some g0) (hk : g.key = k) :
    (s.setGroup g).group? k = some g := by
  rw [group?_setGroup, if_pos hk.symm, h]; rfl

theorem crew?_setCrew (s : State) (c : Crew) (k : Nat) :
    (s.setCrew c).crew? k = if k = c.id then (s.crew? k).map (fun _ => c) else s.crew? k :=
  find?_map_replace s.crews Crew.id c k

theorem crew?_id {s : State} {k : Nat} {c : Crew} (h : s.crew? k = some c) : c.id = k := by
  simpa using List.find?_some h

/-- The parts of a site are the records of the state. -/
theorem site_parts {s : State} {x : Site} (h : s.site? = some x) :
    s.group? x.g.key = some x.g ∧ x.g.frag? (lowest x.f.mask) = some x.f ∧ s.crew? x.c.id = some x.c
      ∧ x.c.id = x.g.crew ∧ s.launch? x.c.handle = some x.l := by
  unfold State.site? State.siteAt at h
  split at h
  · simp at h
  · rename_i g hg
    split at h
    · rename_i f c hf hc
      split at h
      · rename_i l hl
        have hk := group?_key hg
        have hi := crew?_id hc
        have hlow : lowest f.mask = s.focus.low := by simpa using List.find?_some hf
        simp only [Option.some.injEq] at h
        subst h
        exact ⟨by rw [hk]; exact hg, by rw [hlow]; exact hf, by rw [hi]; exact hc, hi, hl⟩
      · simp at h
    · simp at h

theorem site_group {s : State} {x : Site} (h : s.site? = some x) : s.group? x.g.key = some x.g := (site_parts h).1

/-! `OnlyGroup`. -/

theorem OnlyGroup.refl (s : State) (k : Nat) : OnlyGroup s s k := ⟨rfl, fun _ => rfl, fun _ _ => rfl⟩

theorem OnlyGroup.trans {s t u : State} {k : Nat} (h1 : OnlyGroup s t k) (h2 : OnlyGroup t u k) : OnlyGroup s u k := by
  refine ⟨?_, fun j => (h2.crews j).trans (h1.crews j), fun j hj => (h2.others j hj).trans (h1.others j hj)⟩
  have e2 := h2.rest
  rw [h1.rest] at e2
  exact e2

theorem only_setGroup (s : State) (g : Group) : OnlyGroup s (s.setGroup g) g.key :=
  ⟨rfl, fun _ => rfl, fun j hj => group?_setGroup_ne s g j hj⟩

theorem only_setGroup' (s : State) {g : Group} {k : Nat} (h : g.key = k) : OnlyGroup s (s.setGroup g) k :=
  h ▸ only_setGroup s g

theorem only_draw (s : State) (k : Nat) : OnlyGroup s s.draw.1 k := ⟨rfl, fun _ => rfl, fun _ _ => rfl⟩

theorem modGroup_some {s : State} {k : Nat} {g : Group} (h : s.group? k = some g) (f : Group → Group) :
    s.modGroup k f = s.setGroup (f g) := by
  unfold State.modGroup; rw [h]

/-- A change of the state that touches only the notes a crew keeps. -/
structure OnlyNotes (s t : State) : Prop where
  rest  : t = { s with crews := t.crews, stamp := t.stamp }
  crews : ∀ k, (t.crew? k).map Crew.plain = (s.crew? k).map Crew.plain

theorem OnlyNotes.refl (s : State) : OnlyNotes s s := ⟨rfl, fun _ => rfl⟩

theorem OnlyNotes.trans {s t u : State} (h1 : OnlyNotes s t) (h2 : OnlyNotes t u) : OnlyNotes s u := by
  refine ⟨?_, fun j => (h2.crews j).trans (h1.crews j)⟩
  have e2 := h2.rest
  rw [h1.rest] at e2
  exact e2

theorem OnlyNotes.groups {s t : State} (h : OnlyNotes s t) : t.groups = s.groups := by rw [h.rest]

theorem OnlyNotes.group? {s t : State} (h : OnlyNotes s t) (k : Nat) : t.group? k = s.group? k := by
  unfold State.group?; rw [h.groups]

theorem OnlyNotes.only {s t : State} (h : OnlyNotes s t) (k : Nat) : OnlyGroup s t k :=
  ⟨by rw [h.rest], h.crews, fun j _ => h.group? j⟩

theorem notes_setPast (s : State) {c : Crew} (h : s.crew? c.id = some c) (p : List Past) :
    OnlyNotes s (s.setCrew { c with past := p }) := by
  refine ⟨rfl, fun k => ?_⟩
  rw [crew?_setCrew]
  split
  · rename_i hk
    rw [hk, h]; rfl
  · rfl

theorem notePast_notes (s : State) (crew a : Nat) (old : List Byte) (grp : Bool) : OnlyNotes s (s.notePast crew a old grp) := by
  unfold State.notePast
  split
  · exact .refl s
  · rename_i c hc
    have hid := crew?_id hc
    rw [← hid] at hc
    split
    · have := notes_setPast s hc (old.zipIdx.map (fun e => ⟨a + e.2, e.1, s.stamp, grp⟩) ++ c.past)
      exact ⟨rfl, this.crews⟩
    · split
      · exact .refl s
      · exact notes_setPast s hc []

theorem noteRegs_notes (s : State) (crew : Nat) (old new : Group) (dst : List Opd) :
    OnlyNotes s (s.noteRegs crew old new dst) := by
  unfold State.noteRegs
  simp only
  generalize (List.filter _ _) = l
  induction l generalizing s with
  | nil => exact .refl s
  | cons k r ih => exact (notePast_notes s _ _ _ _).trans (ih _)

/-- The end of an instruction: the issuing fragment goes on to the next word, and nothing else of the package changes
before a divided group settles. -/
theorem finish_spec (s : State) (x : Site) (dst : List Opd) {g : Group} (h : s.group? x.g.key = some g) :
    ∃ t, s.finish x dst = t.rejoin x ∧ OnlyGroup s t x.g.key ∧
      t.group? x.g.key = some { g.setFrag (lowest x.f.mask) (x.after dst) with
        block := none, recount := false, faultmask := if x.f.replay.isSome then 0#32 else g.faultmask } := by
  unfold State.finish
  rw [h]
  simp only
  have hk := group?_key h
  generalize hn : (if s.watched x.c then s.noteRegs x.c.id x.g g dst else s) = n
  have hnotes : OnlyNotes s n := by
    subst hn; split
    · exact noteRegs_notes _ _ _ _ _
    · exact .refl s
  refine ⟨_, rfl, (hnotes.only _).trans (only_setGroup' n ?_), group?_setGroup_same ((hnotes.group? _).trans h) ?_⟩
  · exact hk
  · exact hk

end Sys2Proof.Machine
end

