-- ==== Sys2Proof/Laws/Operands.lean ====
section
/-!
SUPPORT. Writing registers: what a write of one operand leaves in every register, and what each kind of
register-to-register instruction can do (`alu_spec`, `alu64_spec`, `aluEv_spec`).
-/

namespace Sys2Proof.Machine

/-! Masks. -/

theorem mem_lanes (m : Word) (i : Nat) : i ∈ lanes m ↔ i < 32 ∧ m.getLsbD i := by
  simp [lanes, Config.W]

theorem lanes_nodup (m : Word) : (lanes m).Nodup := List.Nodup.filter _ (List.nodup_range)

theorem getLsbD_one_shift (i j : Nat) (hj : j < 32) : (1#32 <<< i).getLsbD j = decide (j = i) := by
  rw [BitVec.getLsbD_shiftLeft, BitVec.getLsbD_one]
  by_cases h : j = i
  · subst h; simp [hj]
  · simp only [h, decide_false, Bool.and_eq_false_imp, decide_eq_false_iff_not, Bool.and_eq_true, decide_eq_true_eq,
      Bool.not_eq_true', decide_eq_true_eq]
    omega

/-! One register of one thread. -/

theorem isReg_cases {o : Opd} (h : o.isReg) :
    (∃ n, o = .v n) ∨ (∃ n, o = .g n) ∨ (∃ n, o = .p n) ∨ (∃ n, o = .t n) := by
  cases o <;> simp_all [Opd.isReg, Opd.isV, Opd.isG, Opd.isP, Opd.isT]

theorem key32 {a b i j : Nat} (hi : i < 32) (hj : j < 32) : a * 32 + j = b * 32 + i ↔ a = b ∧ j = i := by omega

theorem key8 (a b : BitVec 3) (i j : Nat) : j * 8 + a.toNat = i * 8 + b.toNat ↔ a = b ∧ j = i := by
  have := a.isLt; have := b.isLt
  rw [BitVec.toNat_eq]
  omega

theorem pred_set (g : Group) (n m : BitVec 3) (w : Word) (j : Nat) :
    Group.pred { g with p := g.p.set n.toNat w } m j = if m = n then (m == 0#3 || w.getLsbD j) else g.pred m j := by
  simp only [Group.pred, Bank.get_set]
  by_cases h : m = n
  · simp [h]
  · rw [if_neg h, if_neg (fun e => h (BitVec.toNat_eq.mpr e))]

theorem reg_writeAt_ne (g : Group) (i j : Nat) (d o : Opd) (w : Word) (hi : i < 32) (hj : j < 32) (h : o ≠ d) :
    (g.writeAt i d w).reg j o = g.reg j o := by
  cases d <;> cases o <;> simp only [Group.writeAt, Group.reg, Group.vreg, Group.greg, Group.treg] <;>
    try (rfl)
  case v.v a b =>
    rw [Bank.get_set, if_neg]
    rw [key32 hi hj]
    rintro ⟨e, -⟩
    exact h (by rw [BitVec.toNat_eq.mpr e])
  case g.g a b =>
    rw [Bank.get_set, if_neg]
    intro e
    exact h (by rw [BitVec.toNat_eq.mpr e])
  case t.t a b =>
    rw [Bank.get_set, if_neg]
    rw [key8]
    rintro ⟨e, -⟩
    exact h (by rw [e])
  all_goals
    split
    · rfl
    · first
      | rfl
      | (rw [pred_set, if_neg (fun e => h (by rw [e]))])

theorem reg_writeAt_thread (g : Group) (i j : Nat) (d : Opd) (w : Word) (hi : i < 32) (hj : j < 32) (h : j ≠ i)
    (hd : d.isG = false) : (g.writeAt i d w).reg j d = g.reg j d := by
  cases d <;> simp only [Group.writeAt, Group.reg, Group.vreg, Group.greg, Group.treg] <;> try (rfl)
  case v a => rw [Bank.get_set, if_neg]; rw [key32 hi hj]; exact fun e => h e.2
  case g a => simp [Opd.isG] at hd
  case t a => rw [Bank.get_set, if_neg]; rw [key8]; exact fun e => h e.2
  case p a =>
    split
    · rfl
    · rw [pred_set, if_pos rfl]
      have hb : ∀ c : Bool, (if c then (g.p.get a.toNat) &&& ~~~ (1#32 <<< i) else (g.p.get a.toNat) ||| (1#32 <<< i)).getLsbD j
          = (g.p.get a.toNat).getLsbD j := by
        intro c
        cases c <;> simp only [Bool.false_eq_true, if_true, if_false, BitVec.getLsbD_or, BitVec.getLsbD_and, BitVec.getLsbD_not,
          getLsbD_one_shift _ _ hj, h, hj, decide_true, decide_false, Bool.not_false, Bool.and_true, Bool.or_false]
      rw [hb]; rfl

theorem reg_writeAt_same (g : Group) (i : Nat) (d : Opd) (w : Word) (hi : i < 32) (hd : d.isReg) (h0 : d ≠ .p 0#3) :
    (g.writeAt i d w).reg i d = asReg d w := by
  rcases isReg_cases hd with ⟨n, rfl⟩ | ⟨n, rfl⟩ | ⟨n, rfl⟩ | ⟨n, rfl⟩
  · simp [Group.writeAt, Group.reg, Group.vreg, asReg, Opd.isP]
  · simp [Group.writeAt, Group.reg, Group.greg, asReg, Opd.isP]
  · have hn : n ≠ 0#3 := fun e => h0 (by rw [e])
    have hz : (n == 0#3) = false := by simpa using hn
    simp only [Group.writeAt, Group.reg, if_neg hn, pred_set, asReg, Opd.isP, if_true, hz, Bool.false_or]
    by_cases hw : w = 0#32
    · simp [hw, wordOf, hi]
    · simp [hw, wordOf, hi]
  · simp [Group.writeAt, Group.reg, Group.treg, asReg, Opd.isP]

/-! A write for a list of threads. -/

theorem reg_writes_ne (l : List Nat) (g : Group) (d o : Opd) (f : Nat → Word) (hl : ∀ i ∈ l, i < 32) (j : Nat) (hj : j < 32)
    (h : o ≠ d) : (l.foldl (fun g i => g.writeAt i d (f i)) g).reg j o = g.reg j o := by
  induction l generalizing g with
  | nil => rfl
  | cons a r ih =>
    rw [List.foldl_cons, ih _ (fun i hi => hl i (List.mem_cons_of_mem _ hi)),
      reg_writeAt_ne g a j d o _ (hl a List.mem_cons_self) hj h]

theorem reg_writes (l : List Nat) (g : Group) (d : Opd) (f : Nat → Word) (hl : ∀ i ∈ l, i < 32) (hn : l.Nodup)
    (hd : d.isReg) (hg : d.isG = false) (h0 : d ≠ .p 0#3) (j : Nat) (hj : j < 32) :
    (l.foldl (fun g i => g.writeAt i d (f i)) g).reg j d = if j ∈ l then asReg d (f j) else g.reg j d := by
  induction l generalizing g with
  | nil => simp
  | cons a r ih =>
    have ha := hl a List.mem_cons_self
    rw [List.foldl_cons, ih _ (fun i hi => hl i (List.mem_cons_of_mem _ hi)) (List.nodup_cons.mp hn).2]
    by_cases hja : j = a
    · subst hja
      simp [(List.nodup_cons.mp hn).1, reg_writeAt_same g j d (f j) hj hd h0]
    · simp [hja, reg_writeAt_thread g a j d (f a) ha hj hja hg]

theorem reg_p0 (g : Group) (i : Nat) : g.reg i (.p 0#3) = 1#32 := by simp [Group.reg, Group.pred, wordOf]

theorem reg_writeAll (g : Group) (d : Opd) (w : Word) (hd : d.isReg) (hv : d.isV = false) (h0 : d ≠ .p 0#3) (j : Nat)
    (hj : j < 32) : (g.writeAll d w).reg j d = asReg d w := by
  rcases isReg_cases hd with ⟨n, rfl⟩ | ⟨n, rfl⟩ | ⟨n, rfl⟩ | ⟨n, rfl⟩
  · simp [Opd.isV] at hv
  · simp [Group.writeAll, Group.reg, Group.greg, asReg, Opd.isP]
  · have hn : n ≠ 0#3 := fun e => h0 (by rw [e])
    have hz : (n == 0#3) = false := by simpa using hn
    simp only [Group.writeAll, Group.reg, if_neg hn, pred_set, asReg, Opd.isP, if_true, hz, Bool.false_or]
    by_cases hw : w = 0#32
    · simp [hw, wordOf]
    · have hall : allThreads.getLsbD j = true := by
        have : ∀ j : Fin 32, allThreads.getLsbD j = true := by decide
        exact this ⟨j, hj⟩
      simp [hw, hall, wordOf]
  · have hl : ∀ i ∈ List.range Config.W, i < 32 := fun i hi => List.mem_range.mp hi
    simp only [Group.writeAll]
    rw [reg_writes (List.range Config.W) g (.t n) (fun _ => w) hl List.nodup_range hd rfl h0 j hj]
    simp [Config.W, hj]

theorem reg_writeAll_ne (g : Group) (d o : Opd) (w : Word) (h : o ≠ d) (j : Nat) (hj : j < 32) :
    (g.writeAll d w).reg j o = g.reg j o := by
  cases d
  case g n => exact reg_writeAt_ne g 0 j (.g n) o w (by omega) hj h
  case t n =>
    simp only [Group.writeAll]
    exact reg_writes_ne _ g (.t n) o (fun _ => w) (fun i hi => List.mem_range.mp hi) j hj h
  case p n =>
    simp only [Group.writeAll]
    split
    · rfl
    · cases o <;> try (rfl)
      simp only [Group.reg]
      rw [pred_set, if_neg (fun e => h (by rw [e]))]
  all_goals rfl

/-- What the write of a destination leaves in every register. -/
theorem written_of_write (x : Site) (uni : Bool) (e : Word) (d : Opd) (f : Nat → Word) (g0 : Group)
    (hd : d.isReg) (hv : uni → d.isV = false) (hg : uni = false → d.isG = false)
    (hothers : ∀ o i, i < 32 → o.isReg → o ≠ d → g0.reg i o = x.g.reg i o)
    (hleft : ∀ i, i < 32 → ExecutesFor uni e i = false → x.keeps d i → g0.reg i d = x.g.reg i d) :
    Written x uni e d f (g0.write uni e d f) := by
  cases uni
  · have hl : ∀ i ∈ lanes e, i < 32 := fun i hi => ((mem_lanes e i).mp hi).1
    refine ⟨fun i hi he h0 => ?_, fun i hi he hk => ?_, fun o i hi ho hne => ?_⟩
    · simp only [Group.write, Bool.false_eq_true, if_false]
      rw [reg_writes _ g0 d f hl (lanes_nodup e) hd (hg rfl) h0 i hi, if_pos]
      exact (mem_lanes e i).mpr ⟨hi, by simpa [ExecutesFor] using he⟩
    · simp only [Group.write, Bool.false_eq_true, if_false]
      by_cases h0 : d = .p 0#3
      · subst h0; rw [reg_p0, reg_p0]
      · rw [reg_writes _ g0 d f hl (lanes_nodup e) hd (hg rfl) h0 i hi, if_neg]
        · exact hleft i hi he hk
        · intro hm
          have := (mem_lanes e i).mp hm
          simp [ExecutesFor, this.2] at he
    · simp only [Group.write, Bool.false_eq_true, if_false]
      rw [reg_writes_ne _ g0 d o f hl i hi hne]
      exact hothers o i hi ho hne
  · by_cases h : e = 0#32
    · subst h
      refine ⟨fun i hi he h0 => ?_, fun i hi he hk => ?_, fun o i hi ho hne => ?_⟩
      · simp [ExecutesFor] at he
      · simpa [Group.write] using hleft i hi he hk
      · simpa [Group.write] using hothers o i hi ho hne
    · refine ⟨fun i hi he h0 => ?_, fun i hi he hk => ?_, fun o i hi ho hne => ?_⟩
      · simp only [Group.write, if_true, if_neg h]
        exact reg_writeAll g0 d _ hd (hv rfl) h0 i hi
      · simp [ExecutesFor, h] at he
      · simp only [Group.write, if_true, if_neg h]
        rw [reg_writeAll_ne g0 d o _ hne i hi]
        exact hothers o i hi ho hne

end Sys2Proof.Machine
end

