-- ==== Sys2Proof/Laws/Alu.lean ====
section
/-!
SUPPORT. What each kind of register-to-register instruction can do (`alu_spec`, `alu64_spec`, `aluEv_spec`): it always
answers a next state, writes its destination, and changes nothing else.
-/

namespace Sys2Proof.Machine

/-- A change of a group that touches only its register banks. -/
def BanksOnly (g g' : Group) : Prop := g' = { g with v := g'.v, g := g'.g, p := g'.p, t := g'.t }

theorem BanksOnly.refl (g : Group) : BanksOnly g g := rfl

theorem BanksOnly.trans {a b c : Group} (h1 : BanksOnly a b) (h2 : BanksOnly b c) : BanksOnly a c := by
  unfold BanksOnly at *
  rw [h1] at h2
  exact h2

theorem BanksOnly.key {a b : Group} (h : BanksOnly a b) : b.key = a.key := by rw [h]; rfl

theorem banks_writeAt (g : Group) (i : Nat) (d : Opd) (w : Word) : BanksOnly g (g.writeAt i d w) := by
  cases d <;> try rfl
  rename_i n
  unfold BanksOnly
  simp only [Group.writeAt]
  split <;> rfl

theorem banks_fold {α : Type} (l : List α) (f : Group → α → Group) (hf : ∀ g a, BanksOnly g (f g a)) (g : Group) :
    BanksOnly g (l.foldl f g) := by
  induction l generalizing g with
  | nil => rfl
  | cons a r ih => exact (hf g a).trans (ih _)

theorem banks_writeAll (g : Group) (d : Opd) (w : Word) : BanksOnly g (g.writeAll d w) := by
  cases d
  case t n => exact banks_fold _ _ (fun g i => banks_writeAt g i _ _) g
  case p n =>
    unfold BanksOnly
    simp only [Group.writeAll]
    split <;> rfl
  all_goals rfl

theorem banks_write (g : Group) (u : Bool) (e : Word) (d : Opd) (f : Nat → Word) : BanksOnly g (g.write u e d f) := by
  unfold Group.write
  split
  · split
    · exact .refl g
    · exact banks_writeAll g d _
  · exact banks_fold _ _ (fun g i => banks_writeAt g i _ _) g

theorem banks_write64 (g : Group) (u : Bool) (e : Word) (d : Opd) (f : Nat → DWord) : BanksOnly g (g.write64 u e d f) :=
  (banks_write g u e d _).trans (banks_write _ u e _ _)

/-! Temporaries that a run writes for the first time (R69). -/

theorem get_havocs {w : Nat} (l : List Nat) (b : Bank w) (n k : Nat) (h : k ∉ l) :
    (l.foldl (fun b k => b.havoc k (k + 1) n) b).get k = b.get k := by
  induction l generalizing b with
  | nil => rfl
  | cons a r ih =>
    rw [List.foldl_cons, ih _ (fun hm => h (List.mem_cons_of_mem _ hm)), Bank.get_havoc]
    have : k ≠ a := fun e => h (e ▸ List.mem_cons_self)
    omega

/-- The group after `prepTemps`: only temporaries in `dst` that the run has not written change, and only in threads of
the issuing fragment. -/
theorem prepTemps_spec (s : State) (x : Site) (whole : Bool) (dst : List Opd) (h : s.group? x.g.key = some x.g) :
    ∃ g1, (s.prepTemps x whole dst).group? x.g.key = some g1 ∧ BanksOnly x.g g1 ∧
      OnlyGroup s (s.prepTemps x whole dst) x.g.key ∧
      (∀ o i, i < 32 → o.isT = false → g1.reg i o = x.g.reg i o) ∧
      (∀ n i, i < 32 → (whole = true ∨ (tempsOf dst &&& ~~~ x.f.tw).getLsbD n.toNat = false ∨ x.f.mask.getLsbD i = false) →
        g1.reg i (.t n) = x.g.reg i (.t n)) := by
  unfold State.prepTemps
  simp only
  split
  · exact ⟨x.g, h, .refl _, .refl _ _, fun _ _ _ _ => rfl, fun _ _ _ _ => rfl⟩
  · rename_i hw
    rw [h]
    simp only
    refine ⟨_, group?_setGroup_same (by exact h) rfl, rfl, (only_draw s _).trans (only_setGroup' _ rfl), ?_, ?_⟩
    · intro o i _ ho
      cases o <;> first | rfl | simp [Opd.isT] at ho
    · intro n i hi hc
      simp only [Group.reg, Group.treg]
      rw [get_havocs]
      intro hm
      simp only [List.mem_flatMap, List.mem_filterMap, List.mem_range, mem_lanes] at hm
      obtain ⟨j, ⟨hj, hjm⟩, k, hk, hs⟩ := hm
      split at hs
      · rename_i hfresh
        simp only [Option.some.injEq] at hs
        have hn := n.isLt
        have hjk : j = i ∧ k = n.toNat := by omega
        obtain ⟨rfl, rfl⟩ := hjk
        rcases hc with hc | hc | hc
        · simp [hc] at hw
        · rw [hc] at hfresh; simp at hfresh
        · rw [hc] at hjm; simp at hjm
      · simp at hs

theorem latch_congr (g : Group) (s t : State) (src : List Opd) (h1 : t.tsc = s.tsc) (h2 : t.nanos = s.nanos) :
    g.latch t src = g.latch s src := by
  simp only [Group.latch, h1, h2]

theorem reg_latch (g : Group) (s : State) (src : List Opd) (i : Nat) (o : Opd) : (g.latch s src).reg i o = g.reg i o := by
  cases o <;> simp only [Group.latch] <;> split <;> split <;> rfl

theorem OnlyGroup.tsc {s t : State} {k : Nat} (h : OnlyGroup s t k) : t.tsc = s.tsc := by rw [h.rest]
theorem OnlyGroup.nanos {s t : State} {k : Nat} (h : OnlyGroup s t k) : t.nanos = s.nanos := by rw [h.rest]

/-- A change of the group's registers and the end of the instruction. -/
theorem commit_spec (s0 s1 : State) (x : Site) (e : Word) (dst src : List Opd) (F : Group → Group) {g1 : Group}
    (h1 : s1.group? x.g.key = some g1) (hb : BanksOnly x.g g1) (ho : OnlyGroup s0 s1 x.g.key)
    (hF : ∀ g, BanksOnly g (F g)) :
    ∃ t g, s1.commit x e dst src F = t.rejoin x ∧ t.group? x.g.key = some g ∧ Advanced x s0 e dst src g ∧
      OnlyGroup s0 t x.g.key ∧ (∀ i o, g.reg i o = (F (if e = 0#32 then g1 else g1.latch s1 src)).reg i o) := by
  unfold State.commit
  rw [modGroup_some h1]
  generalize hG : F (if e = 0#32 then g1 else g1.latch s1 src) = G
  have hlat : g1.latch s1 src = g1.latch s0 src := latch_congr g1 s0 s1 src ho.tsc ho.nanos
  have hBG : BanksOnly (if e = 0#32 then x.g else x.g.latch s0 src) G := by
    subst hG
    refine BanksOnly.trans ?_ (hF _)
    rw [hlat]
    unfold BanksOnly at hb ⊢
    split
    · exact hb
    · rw [hb]
      simp only [Group.latch]
      split <;> split <;> rfl
  have hkey : G.key = x.g.key := by
    rw [hBG]
    split
    · rfl
    · simp only [Group.latch]; split <;> split <;> rfl
  have hg : (s1.setGroup G).group? x.g.key = some G := group?_setGroup_same h1 hkey
  obtain ⟨t, ht, hot, htg⟩ := finish_spec (s1.setGroup G) x dst hg
  refine ⟨t, _, ht, htg, ?_, ho.trans ((only_setGroup' s1 hkey).trans hot), ?_⟩
  · unfold Advanced
    rw [hBG]
    split
    · rfl
    · simp only [Group.latch]
      split <;> split <;> rfl
  · intro i o
    cases o <;> rfl

/-- The mask of a site, and whether every thread that `keeps` asks about is safe from `prepTemps`. -/
theorem keeps_prep (x : Site) (u : Bool) (e : Word) (d : Opd) (dst : List Opd) (s : State) {g1 : Group}
    (hsub : ∀ n, d = .t n → (tempsOf dst &&& ~~~ x.f.tw).getLsbD n.toNat = true →
      (tempsOf [d] &&& ~~~ x.f.tw) ≠ 0#8)
    (hN : ∀ o i, i < 32 → o.isT = false → g1.reg i o = x.g.reg i o)
    (hT : ∀ n i, i < 32 → ((if u then e != 0#32 else e == x.f.mask) = true ∨
        (tempsOf dst &&& ~~~ x.f.tw).getLsbD n.toNat = false ∨ x.f.mask.getLsbD i = false) →
        g1.reg i (.t n) = x.g.reg i (.t n)) (i : Nat) (hi : i < 32) (hk : x.keeps d i) :
    (g1.latch s []).reg i d = x.g.reg i d := by
  rw [reg_latch]
  cases hd : d.isT
  · exact hN d i hi hd
  · cases d <;> simp [Opd.isT] at hd
    rename_i n
    apply hT n i hi
    rcases hk with hk | hk | hk
    · simp [Opd.isT] at hk
    · right; left
      by_contra hc
      rw [Bool.not_eq_false] at hc
      exact hsub n rfl hc hk
    · right; right; exact hk

theorem tempsOf_single (n m : BitVec 3) : (tempsOf [.t n]).getLsbD m.toNat = decide (m = n) := by
  revert n m; decide

theorem tempsOf_pair (d : Opd) (n : BitVec 3) (hd : d ≠ .t n) (hd2 : opdNext d ≠ .t n) :
    (tempsOf [d, opdNext d]).getLsbD n.toNat = false := by
  cases d <;> simp only [tempsOf, opdNext, List.foldl, BitVec.getLsbD_zero]
  rename_i m
  have h1 : m ≠ n := fun e => hd (by rw [e])
  have h2 : m + 1#3 ≠ n := fun e => hd2 (by simp only [opdNext, e])
  revert h1 h2 m n
  decide

theorem tempsOf_none (d : Opd) (hd : d.isT = false) : tempsOf [d] = 0#8 := by
  cases d <;> first | rfl | simp [Opd.isT] at hd

/-- `alu` (R18, R19, R69, R155). -/
theorem alu_spec (s : State) (h : Hdr) (d : Opd) (src : List Opd) (f : Site → Nat → Word) (hd : d.isReg)
    (hg : d.isG → uniform (d :: src)) (x : Site) (hx : s.site? = some x) :
    ∃ t g, s.alu h d src f = .next (t.rejoin x) ∧ t.group? x.g.key = some g ∧
      Written x (uniform (d :: src)) (x.emask h (d :: src)) d (f x) g ∧
      Advanced x s (x.emask h (d :: src)) [d] src g ∧ OnlyGroup s t x.g.key := by
  have hgrp := site_group hx
  unfold State.alu State.atSite
  rw [hx]
  simp only
  generalize x.emask h (d :: src) = e
  generalize hu : uniform (d :: src) = u
  obtain ⟨g1, hg1, hb1, ho1, hN, hT⟩ := prepTemps_spec s x (if u then e != 0#32 else e == x.f.mask) [d] hgrp
  obtain ⟨t, g, ht, htg, hadv, hot, hreg⟩ := commit_spec s _ x e [d] src (fun g => g.write u e d (f x)) hg1 hb1 ho1
    (fun g => banks_write g u e d (f x))
  refine ⟨t, g, by rw [ht], htg, ?_, hadv, hot⟩
  have hlat : ∀ i o, (if e = 0#32 then g1 else g1.latch (s.prepTemps x (if u then e != 0#32 else e == x.f.mask) [d]) src).reg i o
      = g1.reg i o := by
    intro i o; split
    · rfl
    · exact reg_latch _ _ _ _ _
  have hw := written_of_write x u e d (f x)
    (if e = 0#32 then g1 else g1.latch (s.prepTemps x (if u then e != 0#32 else e == x.f.mask) [d]) src) hd
    (by
      intro hut
      subst hu
      simp only [uniform, List.any_cons, Bool.not_or, Bool.and_eq_true, Bool.not_eq_true'] at hut
      cases d <;> first | rfl | (simp [opdIsV] at hut))
    (by
      intro huf
      by_contra hc
      rw [Bool.not_eq_false] at hc
      rw [hg hc] at hu
      rw [← hu] at huf
      simp at huf)
    (by
      intro o i hi ho hne
      rw [hlat]
      cases hoT : o.isT
      · exact hN o i hi hoT
      · cases o <;> simp [Opd.isT] at hoT
        rename_i n
        apply hT n i hi
        right; left
        rw [BitVec.getLsbD_and]
        have : (tempsOf [d]).getLsbD n.toNat = false := by
          cases d <;> try (simp [tempsOf]; done)
          rename_i m
          rw [tempsOf_single]
          simp only [decide_eq_false_iff_not]
          intro e; exact hne (by rw [e])
        rw [this, Bool.false_and])
    (by
      intro i hi _ hk
      rw [hlat]
      have := keeps_prep x u e d [d] s (fun n hn hc hz => by rw [hz] at hc; simp at hc) hN hT i hi hk
      rwa [reg_latch] at this)
  exact ⟨fun i hi he h0 => (hreg i d).trans (hw.result i hi he h0), fun i hi he hk => (hreg i d).trans (hw.left i hi he hk),
    fun o i hi ho hne => (hreg i o).trans (hw.others o i hi ho hne)⟩

theorem only_count {s t : State} {k : Nat} (h : OnlyGroup s t k) (d c n : Nat) (e : Ev) :
    OnlyGroup (s.count d c n e) (t.count d c n e) k := by
  refine ⟨?_, h.crews, h.others⟩
  have hr := h.rest
  rw [hr]
  rfl

theorem prepTemps_count (s : State) (x : Site) (w : Bool) (dst : List Opd) (d c n : Nat) (e : Ev) :
    (s.prepTemps x w dst).count d c n e = (s.count d c n e).prepTemps x w dst := by
  have hq : (s.count d c n e).group? x.g.key = s.group? x.g.key := rfl
  unfold State.prepTemps
  simp only [hq]
  cases (w || tempsOf dst &&& ~~~ x.f.tw == 0#8)
  · cases s.group? x.g.key <;> rfl
  · rfl

/-- `aluEv` (R151, R152): as `alu`, with the events of the executing threads counted. -/
theorem aluEv_spec (s : State) (h : Hdr) (d : Opd) (src : List Opd) (f : Site → Nat → Word × Ev) (hd : d.isReg)
    (hg : d.isG → uniform (d :: src)) (x : Site) (hx : s.site? = some x) :
    ∃ t g, s.aluEv h d src f = .next (t.rejoin x) ∧ t.group? x.g.key = some g ∧
      Written x (uniform (d :: src)) (x.emask h (d :: src)) d (fun k => (f x k).1) g ∧
      Advanced x s (x.emask h (d :: src)) [d] src g ∧
      OnlyGroup (s.count x.c.die x.ctx 0 (Ev.sum ((lanes (x.emask h (d :: src))).map (fun k => (f x k).2)))) t x.g.key := by
  have hx' : (s.count x.c.die x.ctx 0 (Ev.sum ((lanes (x.emask h (d :: src))).map (fun k => (f x k).2)))).site? = some x := hx
  obtain ⟨t, g, ht, htg, hw, hadv, hot⟩ := alu_spec _ h d src (fun x k => (f x k).1) hd hg x hx'
  refine ⟨t, g, ?_, htg, hw, ?_, hot⟩
  · rw [← ht]
    unfold State.aluEv State.alu State.atSite
    rw [hx, hx']
    simp only
    rw [prepTemps_count]
  · exact hadv

/-- One write of a destination on a group. -/
theorem write_regs (x : Site) (g0 : Group) (u : Bool) (e : Word) (d : Opd) (f : Nat → Word) (hd : d.isReg)
    (hv : u → d.isV = false) (hg : u = false → d.isG = false) (h0 : d.isP = false) (i : Nat) (hi : i < 32) :
    (ExecutesFor u e i → (g0.write u e d f).reg i d = f (if u then lowest e else i)) ∧
    (ExecutesFor u e i = false → (g0.write u e d f).reg i d = g0.reg i d) ∧
    (∀ o, o.isReg → o ≠ d → (g0.write u e d f).reg i o = g0.reg i o) := by
  have hw := written_of_write ⟨g0, { x.f with mask := 0#32 }, x.c, x.l⟩ u e d f g0 hd hv hg (fun _ _ _ _ _ => rfl)
    (fun _ _ _ _ => rfl)
  refine ⟨fun he => ?_, fun he => ?_, fun o ho hne => hw.others o i hi ho hne⟩
  · have := hw.result i hi he (by intro hp; rw [hp] at h0; simp [Opd.isP] at h0)
    simpa [asReg, h0] using this
  · exact hw.left i hi he (Or.inr (Or.inr (by simp)))

theorem isT_elim {o : Opd} (h : o.isT = true) : ∃ n, o = .t n := by
  cases o <;> simp [Opd.isT] at h
  exact ⟨_, rfl⟩

theorem opdNext_isReg (d : Opd) : (opdNext d).isReg = d.isReg := by cases d <;> rfl
theorem opdNext_isV (d : Opd) : (opdNext d).isV = d.isV := by cases d <;> rfl
theorem opdNext_isG (d : Opd) : (opdNext d).isG = d.isG := by cases d <;> rfl
theorem opdNext_isP (d : Opd) : (opdNext d).isP = d.isP := by cases d <;> rfl

theorem opdNext_ne (d : Opd) (hd : d.isReg) : opdNext d ≠ d := by
  have key : ∀ w (n : BitVec (w + 1)), n + 1#(w + 1) ≠ n := by
    intro w n h
    have h2 : 1#(w + 1) = 0#(w + 1) := by simp at h
    have h3 := congrArg BitVec.toNat h2
    have : 1 < 2 ^ (w + 1) := by rw [Nat.pow_succ]; have := Nat.two_pow_pos w; omega
    simp [Nat.mod_eq_of_lt this] at h3
  rcases isReg_cases hd with ⟨n, rfl⟩ | ⟨n, rfl⟩ | ⟨n, rfl⟩ | ⟨n, rfl⟩ <;> simp only [opdNext] <;> intro h
  · exact key 7 n (by injection h)
  · exact key 5 n (by injection h)
  · exact key 2 n (by injection h)
  · exact key 2 n (by injection h)

/-- `alu64` (R58): as `alu`, with a 64-bit value in a pair. -/
theorem alu64_spec (s : State) (h : Hdr) (d : Opd) (src : List Opd) (f : Site → Nat → DWord) (hd : d.isReg)
    (hp : d.isP = false) (hg : d.isG → uniform (d :: src)) (x : Site) (hx : s.site? = some x) :
    ∃ t g, s.alu64 h d src f = .next (t.rejoin x) ∧ t.group? x.g.key = some g ∧
      Written64 x (uniform (d :: src)) (x.emask h (d :: src)) d (f x) g ∧
      Advanced x s (x.emask h (d :: src)) [d, opdNext d] src g ∧ OnlyGroup s t x.g.key := by
  have hgrp := site_group hx
  unfold State.alu64 State.atSite
  rw [hx]
  simp only
  generalize x.emask h (d :: src) = e
  generalize hu : uniform (d :: src) = u
  obtain ⟨g1, hg1, hb1, ho1, hN, hT⟩ := prepTemps_spec s x (if u then e != 0#32 else e == x.f.mask) [d, opdNext d] hgrp
  obtain ⟨t, g, ht, htg, hadv, hot, hreg⟩ := commit_spec s _ x e [d, opdNext d] src (fun g => g.write64 u e d (f x)) hg1 hb1
    ho1 (fun g => banks_write64 g u e d (f x))
  refine ⟨t, g, by rw [ht], htg, ?_, hadv, hot⟩
  generalize hG : (if e = 0#32 then g1 else g1.latch (s.prepTemps x (if u then e != 0#32 else e == x.f.mask) [d, opdNext d]) src)
    = G at hreg
  have hlat : ∀ i o, G.reg i o = g1.reg i o := by
    intro i o; subst hG; split
    · rfl
    · exact reg_latch _ _ _ _ _
  have huv : u → d.isV = false := by
    intro hut
    subst hu
    simp only [uniform, List.any_cons, Bool.not_or, Bool.and_eq_true, Bool.not_eq_true'] at hut
    cases d <;> first | rfl | (simp [opdIsV] at hut)
  have hug : u = false → d.isG = false := by
    intro huf
    by_contra hc
    rw [Bool.not_eq_false] at hc
    rw [hg hc] at hu
    rw [← hu] at huf
    simp at huf
  have hnreg : (opdNext d).isReg := (opdNext_isReg d).trans hd
  have hnv : u → (opdNext d).isV = false := fun hut => (opdNext_isV d).trans (huv hut)
  have hng : u = false → (opdNext d).isG = false := fun hut => (opdNext_isG d).trans (hug hut)
  have hnp : (opdNext d).isP = false := (opdNext_isP d).trans hp
  have hne := opdNext_ne d hd
  have w1 := fun i hi => write_regs x G u e d (fun i => (f x i).setWidth 32) hd huv hug hp i hi
  have w2 := fun i hi => write_regs x (G.write u e d (fun i => (f x i).setWidth 32)) u e (opdNext d)
    (fun i => (f x i).extractLsb' 32 32) hnreg hnv hng hnp i hi
  have old : ∀ o i, i < 32 → (o.isT = true → (o ≠ d ∧ o ≠ opdNext d) ∨ x.keeps o i) → g1.reg i o = x.g.reg i o := by
    intro o i hi hc
    cases hoT : o.isT
    · exact hN o i hi hoT
    · have hc := hc hoT
      obtain ⟨n, rfl⟩ := isT_elim hoT
      apply hT n i hi
      rcases hc with ⟨h1, h2⟩ | hc
      · right; left
        rw [BitVec.getLsbD_and, tempsOf_pair d n (Ne.symm h1) (Ne.symm h2), Bool.false_and]
      · rcases hc with hc | hc | hc
        · simp [Opd.isT] at hc
        · right; left
          by_contra hb
          rw [Bool.not_eq_false, BitVec.getLsbD_and, Bool.and_eq_true] at hb
          have h1 : (tempsOf [.t n] &&& ~~~ x.f.tw).getLsbD n.toNat = true := by
            rw [BitVec.getLsbD_and, tempsOf_single, hb.2]; simp
          rw [hc] at h1; simp at h1
        · right; right; exact hc
  refine ⟨fun i hi he => ?_, fun i hi he hk hkn => ?_, fun o i hi ho h1 h2 => ?_⟩
  · have a := (w2 i hi).1 he
    have b := ((w2 i hi).2.2 d hd (Ne.symm hne)).trans ((w1 i hi).1 he)
    simp only [Group.reg64, hreg, Group.write64]
    rw [a, b]
    generalize f x (if u then lowest e else i) = y
    apply BitVec.eq_of_getLsbD_eq
    intro j hj
    rw [BitVec.getLsbD_append]
    by_cases hj32 : j < 32
    · simp [hj32]
    · have hsub : j - 32 < 32 := by omega
      simp [hj32, hsub, show 32 + (j - 32) = j by omega]
  · have a := ((w2 i hi).2.1 he).trans ((w1 i hi).2.2 (opdNext d) hnreg hne)
    have b := ((w2 i hi).2.2 d hd (Ne.symm hne)).trans ((w1 i hi).2.1 he)
    simp only [Group.reg64, hreg, Group.write64]
    rw [a, b, hlat, hlat, old d i hi (fun _ => Or.inr hk), old (opdNext d) i hi (fun _ => Or.inr hkn)]
  · rw [hreg]
    have a := ((w2 i hi).2.2 o ho h2).trans ((w1 i hi).2.2 o ho h1)
    simp only [Group.write64]
    rw [a, hlat, old o i hi (fun _ => Or.inl ⟨h1, h2⟩)]

end Sys2Proof.Machine
end

