-- ==== Sys2Proof/Laws/Ends.lean ====
section
/-!
SUPPORT. How an instruction ends, and what an access to memory leaves alone: where an operation finishes at its site the
instruction `Ends`; a memory instruction ends, or stops or parks its group.
-/

namespace Sys2Proof.Machine

/-- An operation that finishes at its site ends its instruction. -/
theorem finish_ends {i : Instr} {s s1 : State} {x : Site} {dst : List Opd} (hg : (s1.group? x.g.key).isSome)
    (he : exec i s = .next (s1.finish x dst)) : Ends i s x s1 dst := by
  obtain ⟨g0, hg0⟩ := Option.isSome_iff_exists.mp hg
  obtain ⟨t, ht, ho, htg⟩ := finish_spec s1 x dst hg0
  exact ⟨g0, hg0, t, _, by rw [he, ht], htg, rfl, ho⟩

theorem isSome_modGroup (s : State) (k j : Nat) (f : Group → Group) (hf : ∀ g, (f g).key = g.key) :
    ((s.modGroup k f).group? j).isSome = (s.group? j).isSome := by
  unfold State.modGroup
  split
  · rfl
  · rename_i g hg
    rw [group?_setGroup, hf, group?_key hg]
    split
    · rename_i h; subst h; simp [hg]
    · rfl

/-! What an access leaves alone. -/

theorem map_find? {α β : Type} (l : List α) (f : α → β) (p : β → Bool) : (l.map f).find? p = (l.find? (fun a => p (f a))).map f := by
  induction l with
  | nil => rfl
  | cons a r ih =>
    rw [List.map_cons, List.find?_cons, List.find?_cons, ih]
    cases p (f a) <;> rfl

theorem crew?_bare {s t : State} (h : t.crews.map Crew.bare = s.crews.map Crew.bare) (k : Nat) :
    (t.crew? k).map Crew.bare = (s.crew? k).map Crew.bare := by
  have e : ∀ u : State, (u.crew? k).map Crew.bare = (u.crews.map Crew.bare).find? (fun c => c.id == k) := fun u => by
    rw [map_find?]; rfl
  rw [e, e, h]

theorem launch?_plain {s t : State} (h : t.launches.map Launch.plain = s.launches.map Launch.plain) (k : Nat) :
    (t.launch? k).map Launch.plain = (s.launch? k).map Launch.plain := by
  have e : ∀ u : State, (u.launch? k).map Launch.plain = (u.launches.map Launch.plain).find? (fun l => l.handle == k) := fun u => by
    rw [map_find?]; rfl
  rw [e, e, h]

/-- Nothing changes but pages, buffers, the notes of stores, and what a store leaves undefined of tables in use. -/
structure PagesOnly (s t : State) : Prop where
  rest : t = { s with mem := t.mem, poison := t.poison, dev := t.dev, bufs := t.bufs, seen := t.seen, tornAt := t.tornAt,
                      stamp := t.stamp, free := t.free, launches := t.launches, crews := t.crews, podBars := t.podBars,
                      held := t.held, kvTabs := t.kvTabs, kvTorn := t.kvTorn, seals := t.seals }
  launches : t.launches.map Launch.plain = s.launches.map Launch.plain
  crews    : t.crews.map Crew.bare = s.crews.map Crew.bare
  pods     : t.podBars.map PodBar.plain = s.podBars.map PodBar.plain

theorem PagesOnly.refl (s : State) : PagesOnly s s := ⟨rfl, rfl, rfl, rfl⟩

theorem PagesOnly.trans {s t u : State} (h1 : PagesOnly s t) (h2 : PagesOnly t u) : PagesOnly s u := by
  refine ⟨?_, h2.launches.trans h1.launches, h2.crews.trans h1.crews, h2.pods.trans h1.pods⟩
  have e2 := h2.rest
  rw [h1.rest] at e2
  exact e2

theorem OnlyMemory.refl (s : State) : OnlyMemory s s := ⟨rfl, rfl, rfl, rfl⟩

theorem OnlyMemory.trans {s t u : State} (h1 : OnlyMemory s t) (h2 : OnlyMemory t u) : OnlyMemory s u := by
  refine ⟨?_, h2.launches.trans h1.launches, h2.crews.trans h1.crews, h2.pods.trans h1.pods⟩
  have e2 := h2.rest
  rw [h1.rest] at e2
  exact e2

theorem OnlyMemory.pages {s t : State} (h : OnlyMemory s t) : PagesOnly s t := by
  refine ⟨?_, h.launches, h.crews, h.pods⟩
  have h0 := h.rest
  generalize t.mem = a1 at h0; generalize t.poison = a2 at h0; generalize t.seen = a3 at h0; generalize t.tornAt = a4 at h0
  generalize t.stamp = a5 at h0; generalize t.free = a6 at h0; generalize t.launches = a7 at h0
  generalize t.crews = a8 at h0; generalize t.held = a9 at h0; generalize t.kvTabs = b1 at h0; generalize t.kvTorn = b2 at h0
  generalize t.seals = b3 at h0; generalize t.podBars = b4 at h0
  subst h0; rfl

theorem OnlyMemory.bufs {s t : State} (h : OnlyMemory s t) : t.bufs = s.bufs := by rw [h.rest]
theorem OnlyMemory.dev {s t : State} (h : OnlyMemory s t) : t.dev = s.dev := by rw [h.rest]
theorem OnlyMemory.stats {s t : State} (h : OnlyMemory s t) : t.stats = s.stats := by rw [h.rest]
theorem OnlyMemory.groups {s t : State} (h : OnlyMemory s t) : t.groups = s.groups := by rw [h.rest]
theorem OnlyMemory.group? {s t : State} (h : OnlyMemory s t) (k : Nat) : t.group? k = s.group? k := by
  unfold State.group?; rw [h.groups]
theorem PagesOnly.groups {s t : State} (h : PagesOnly s t) : t.groups = s.groups := by rw [h.rest]
theorem PagesOnly.group? {s t : State} (h : PagesOnly s t) (k : Nat) : t.group? k = s.group? k := by
  unfold State.group?; rw [h.groups]

theorem pages_fold {α : Type} (f : State → α → State) (hf : ∀ s a, PagesOnly s (f s a)) (l : List α) (s : State) :
    PagesOnly s (l.foldl f s) := by
  induction l generalizing s with
  | nil => exact .refl s
  | cons a r ih => exact (hf s a).trans (ih _)

theorem pages_putLine (s : State) (y : BufLine) : PagesOnly s (s.putLine y) := ⟨rfl, rfl, rfl, rfl⟩
theorem pages_hold (s : State) : PagesOnly s s.hold := ⟨rfl, rfl, rfl, rfl⟩
theorem only_memWrite (s : State) (ks : List Nat) (xs : List Byte) : OnlyMemory s (s.memWrite ks xs) := ⟨rfl, rfl, rfl, rfl⟩
theorem only_hold (s : State) : OnlyMemory s s.hold := ⟨rfl, rfl, rfl, rfl⟩

theorem pages_fillLine (s : State) (b : BufId) (die ctx line : Nat) : PagesOnly s (s.fillLine b die ctx line) := by
  unfold State.fillLine
  split
  · exact .refl s
  · split
    · exact pages_putLine s _
    · split
      · exact pages_putLine s _
      · exact pages_hold s
      · exact .refl s

theorem pages_load (s : State) (b : BufId) (ctx va cls : Nat) (keys : List Nat) : PagesOnly s (s.load b ctx va cls keys).1 := by
  unfold State.load
  split
  · exact pages_fold _ (fun s i => pages_fillLine s _ _ _ _) _ _
  · split <;> exact .refl s

theorem pages_store (s : State) (b : BufId) (ctx va cls : Nat) (keys : List Nat) (xs : List Byte) :
    PagesOnly s (s.store b ctx va cls keys xs) := by
  unfold State.store
  split
  · refine pages_fold _ (fun s e => ?_) _ _
    dsimp only
    split
    · exact (pages_fillLine s _ _ _ _).trans (pages_putLine _ _)
    · exact pages_fillLine s _ _ _ _
  · split
    · exact ⟨rfl, rfl, rfl, rfl⟩
    · exact (only_memWrite _ _ _).pages

/-! Stores of the device: nothing but memory and notes. -/

/-- The notes of a store: what the model keeps for others, and tables in use that the store leaves undefined (R129). -/
structure NotesOnly (s t : State) : Prop where
  only   : OnlyMemory s t
  mem    : t.mem = s.mem
  poison : t.poison = s.poison

theorem NotesOnly.refl (s : State) : NotesOnly s s := ⟨.refl s, rfl, rfl⟩
theorem NotesOnly.trans {s t u : State} (h1 : NotesOnly s t) (h2 : NotesOnly t u) : NotesOnly s u :=
  ⟨h1.only.trans h2.only, h2.mem.trans h1.mem, h2.poison.trans h1.poison⟩

/-- A map over numbered entries that leaves what `g` shows of each leaves what `g` shows of all. -/
theorem map_map_zipIdx {α β : Type} (l : List α) (f : α × Nat → α) (g : α → β) (h : ∀ a k, g (f (a, k)) = g a) (n : Nat) :
    ((l.zipIdx n).map f).map g = l.map g := by
  induction l generalizing n with
  | nil => rfl
  | cons a r ih => simp only [List.zipIdx_cons, List.map_cons, h, ih]

theorem tear_insts (l : List BarInst) (n k : Nat) : (l.map (BarInst.tear n k)).map BarInst.plain = l.map BarInst.plain := by
  rw [List.map_map]; rfl

theorem tear_plain (l : Launch) (a b c : Bool) (n : Nat) : (l.tear a b c n).plain = l.plain := by
  unfold Launch.tear Launch.plain
  cases a <;> cases b <;> cases c <;>
    simp only [if_true, if_false, Bool.false_eq_true, Bool.or_true, Bool.or_false, tear_insts, Desc.tear]

theorem tear_bare (c : Crew) (hit : Nat → Bool) (all : Option Nat) (b : Bool) (n : Nat) : (c.tear hit all b n).bare = c.bare := by
  unfold Crew.tear Crew.bare
  cases b <;> simp only [if_true, if_false, Bool.false_eq_true, tear_insts]

/-- What a store leaves undefined of the tables in use is all that it changes there (R129). -/
theorem notes_tearTables (s : State) (ctx va len : Nat) : NotesOnly s (s.tearTables ctx va len) := by
  unfold State.tearTables
  dsimp only
  split
  · refine ⟨⟨rfl, ?_, ?_, ?_⟩, rfl, rfl⟩
    · dsimp only
      rw [List.map_map]
      refine List.map_congr_left (fun l _ => ?_)
      dsimp only [Function.comp]
      split
      · exact tear_plain _ _ _ _ _
      · rfl
    · dsimp only
      rw [List.map_map]
      refine List.map_congr_left (fun c _ => ?_)
      dsimp only [Function.comp]
      split
      · split
        · exact tear_bare _ _ _ _ _
        · rfl
      · rfl
    · exact map_map_zipIdx _ _ _ (fun _ _ => by dsimp only; split <;> rfl) 0
  · exact .refl s

theorem notes_noteTorn (s : State) (ctx va len : Nat) : NotesOnly s (s.noteTorn ctx va len) := by
  unfold State.noteTorn
  split
  · exact .refl s
  · exact (notes_tearTables s ctx va len).trans ⟨⟨rfl, rfl, rfl, rfl⟩, rfl, rfl⟩

theorem notes_logSeen (s : State) (ctx va len : Nat) (grp own : Bool) : NotesOnly s (s.logSeen ctx va len grp own) := by
  unfold State.logSeen
  split <;> exact ⟨⟨rfl, rfl, rfl, rfl⟩, rfl, rfl⟩

theorem notes_noteKv (s : State) (ctx va len : Nat) : NotesOnly s (s.noteKv ctx va len) := by
  unfold State.noteKv
  split
  · exact .refl s
  · exact ⟨⟨rfl, rfl, rfl, rfl⟩, rfl, rfl⟩

theorem notes_logStore (s : State) (ctx va len : Nat) (grp : Bool) : NotesOnly s (s.logStore ctx va len grp) :=
  ((notes_noteKv s _ _ _).trans (notes_noteTorn _ _ _ _)).trans (notes_logSeen _ _ _ _ _ _)

theorem notes_touch (s : State) (ctx va len : Nat) : NotesOnly s (s.touch ctx va len) := by
  unfold State.touch
  split
  · exact ⟨only_hold s, rfl, rfl⟩
  · exact .refl s

theorem only_cohStore (s : State) (ctx va len v : Nat) : OnlyMemory s (s.cohStore ctx va len v) := by
  unfold State.cohStore
  split
  · exact (notes_logStore s _ _ _ _).only.trans (only_memWrite _ _ _)
  · exact only_hold s
  · exact .refl s

theorem only_writeRecord (s : State) (die : Nat) (r : FaultRec) : OnlyMemory s (s.writeRecord die r) := by
  unfold State.writeRecord
  split
  · exact .refl s
  · dsimp only
    split
    · split
      · split
        · exact only_cohStore _ _ _ _ _
        · exact (notes_touch _ _ _ _).only
      · exact (only_cohStore _ _ _ _ _).trans (only_cohStore _ _ _ _ _)
    · exact (notes_touch _ _ _ _).only

/-- Two states that agree in all that decides what a store of the device does to memory. -/
def SameMemory (s t : State) : Prop :=
  ∃ a1 a2 a3 a4 a5 a6 a7 a8 a9 b1 b2 b3 b4,
    t = { s with groups := a1, launches := a2, crews := a3, seen := a4, tornAt := a5, stamp := a6, free := a7, held := a8,
                 kvTabs := a9, kvTorn := b1, seals := b2, stats := b3, podBars := b4 }

theorem NotesOnly.same {s t : State} (h : NotesOnly s t) : SameMemory s t := by
  have h0 := h.only.rest
  rw [h.mem, h.poison] at h0
  exact ⟨_, _, _, _, _, _, _, _, _, _, _, _, _, h0⟩

theorem SameMemory.cohKeys {s t : State} (h : SameMemory s t) (ctx va len : Nat) : t.cohKeys ctx va len = s.cohKeys ctx va len := by
  obtain ⟨_, _, _, _, _, _, _, _, _, _, _, _, _, rfl⟩ := h
  rfl

theorem SameMemory.cohNat? {s t : State} (h : SameMemory s t) (ctx va len : Nat) : t.cohNat? ctx va len = s.cohNat? ctx va len := by
  obtain ⟨_, _, _, _, _, _, _, _, _, _, _, _, _, rfl⟩ := h
  rfl

theorem SameMemory.boot {s t : State} (h : SameMemory s t) : t.sys.boot = s.sys.boot := by
  obtain ⟨_, _, _, _, _, _, _, _, _, _, _, _, _, rfl⟩ := h
  rfl

theorem SameMemory.mem {s t : State} (h : SameMemory s t) : t.mem = s.mem := by
  obtain ⟨_, _, _, _, _, _, _, _, _, _, _, _, _, rfl⟩ := h
  rfl

theorem SameMemory.trans {s t u : State} (h1 : SameMemory s t) (h2 : SameMemory t u) : SameMemory s u := by
  obtain ⟨_, _, _, _, _, _, _, _, _, _, _, _, _, rfl⟩ := h1
  obtain ⟨_, _, _, _, _, _, _, _, _, _, _, _, _, rfl⟩ := h2
  exact ⟨_, _, _, _, _, _, _, _, _, _, _, _, _, rfl⟩

theorem SameMemory.symm {s t : State} (h : SameMemory s t) : SameMemory t s := by
  obtain ⟨_, _, _, _, _, _, _, _, _, _, _, _, _, rfl⟩ := h
  exact ⟨s.groups, s.launches, s.crews, s.seen, s.tornAt, s.stamp, s.free, s.held, s.kvTabs, s.kvTorn, s.seals, s.stats, s.podBars, rfl⟩

theorem same_memWrite {s t : State} (h : SameMemory s t) (ks : List Nat) (xs : List Byte) :
    SameMemory (s.memWrite ks xs) (t.memWrite ks xs) := by
  obtain ⟨_, _, _, _, _, _, _, _, _, _, _, _, _, rfl⟩ := h
  exact ⟨_, _, _, _, _, _, _, _, _, _, _, _, _, rfl⟩

theorem same_hold (s : State) : SameMemory s s.hold :=
  ⟨s.groups, s.launches, s.crews, s.seen, s.tornAt, s.stamp, s.free, true, s.kvTabs, s.kvTorn, s.seals, s.stats, s.podBars, rfl⟩

theorem same_cohStore {s t : State} (h : SameMemory s t) (ctx va len v : Nat) :
    SameMemory (s.cohStore ctx va len v) (t.cohStore ctx va len v) := by
  unfold State.cohStore
  rw [h.cohKeys]
  split
  · exact same_memWrite (((notes_logStore s _ _ _ _).same.symm.trans h).trans (notes_logStore t _ _ _ _).same) _ _
  · exact ((same_hold s).symm.trans h).trans (same_hold t)
  · exact h

theorem same_writeRecord {s t : State} (h : SameMemory s t) (die : Nat) (r : FaultRec) :
    SameMemory (s.writeRecord die r) (t.writeRecord die r) := by
  have ht : ∀ a b c, SameMemory (s.touch a b c) (t.touch a b c) := fun a b c =>
    ((notes_touch s a b c).same.symm.trans h).trans (notes_touch t a b c).same
  unfold State.writeRecord
  rw [h.boot]
  split
  · exact h
  · dsimp only
    rw [h.cohNat?, h.cohNat?, h.cohNat?]
    split
    · split
      · split
        · exact same_cohStore h _ _ _ _
        · exact ht _ _ _
      · exact same_cohStore (same_cohStore h _ _ _ _) _ _ _ _
    · exact ht _ _ _

/-! What an access keeps: the word, and who every group, crew and launch is. -/

/-- Where a group stands. -/
def Group.who (g : Group) : Nat × Nat × Nat × Nat := (g.crew, g.gid, g.slot, g.lane)
/-- Where a crew stands, and for which launch. -/
def Crew.seat (c : Crew) : Nat × Nat × Nat × Nat := (c.id, c.die, c.core, c.handle)

theorem key_of_who {g h : Group} (e : g.who = h.who) : g.key = h.key := by
  simp only [Group.who, Prod.mk.injEq] at e
  unfold Group.key; rw [e.1, e.2.1]

/-- The word, the clock, and who the groups, crews and launches are, are as before. -/
structure KeysKept (s t : State) : Prop where
  word     : t.word = s.word
  tsc      : t.tsc = s.tsc
  keys     : ∀ k, (t.group? k).map Group.who = (s.group? k).map Group.who
  seats    : ∀ k, (t.crew? k).map Crew.seat = (s.crew? k).map Crew.seat
  launches : ∀ k, (t.launch? k).map Launch.ctx = (s.launch? k).map Launch.ctx

theorem KeysKept.refl (s : State) : KeysKept s s := ⟨rfl, rfl, fun _ => rfl, fun _ => rfl, fun _ => rfl⟩
theorem KeysKept.trans {s t u : State} (h1 : KeysKept s t) (h2 : KeysKept t u) : KeysKept s u :=
  ⟨h2.word.trans h1.word, h2.tsc.trans h1.tsc, fun k => (h2.keys k).trans (h1.keys k), fun k => (h2.seats k).trans (h1.seats k),
    fun k => (h2.launches k).trans (h1.launches k)⟩
theorem KeysKept.isSome {s t : State} (h : KeysKept s t) (k : Nat) : (t.group? k).isSome = (s.group? k).isSome := by
  have := congrArg Option.isSome (h.keys k)
  simpa using this

theorem map_of_map {α β γ : Type} {a b : Option α} (f : α → β) (g : β → γ) (k : α → γ) (hk : ∀ x, g (f x) = k x)
    (h : a.map f = b.map f) : a.map k = b.map k := by
  have e : ∀ o : Option α, o.map k = (o.map f).map g := fun o => by
    rw [Option.map_map]; congr 1; funext x; exact (hk x).symm
  rw [e, e, h]

theorem PagesOnly.keys {s t : State} (h : PagesOnly s t) : KeysKept s t := by
  refine ⟨by rw [h.rest], by rw [h.rest], fun k => by rw [h.group?], fun k => ?_, fun k => ?_⟩
  · exact map_of_map Crew.bare Crew.seat _ (fun _ => rfl) (crew?_bare h.crews k)
  · exact map_of_map Launch.plain Launch.ctx _ (fun _ => rfl) (launch?_plain h.launches k)

theorem keys_setGroup (s : State) (g : Group) (hg : (s.group? g.key).map Group.who = some g.who ∨ s.group? g.key = none) :
    KeysKept s (s.setGroup g) := by
  refine ⟨rfl, rfl, fun j => ?_, fun _ => rfl, fun _ => rfl⟩
  rw [group?_setGroup]
  split
  · rename_i hj
    subst hj
    rcases hg with hg | hg
    · rw [hg]
      cases hs : s.group? g.key with
      | none => rw [hs] at hg; simp at hg
      | some _ => rfl
    · rw [hg]; rfl
  · rfl

theorem keys_modGroup (s : State) (k : Nat) (f : Group → Group) (hf : ∀ g, (f g).who = g.who) : KeysKept s (s.modGroup k f) := by
  unfold State.modGroup
  split
  · exact .refl s
  · rename_i g hg
    have hk : (f g).key = k := (key_of_who (hf g)).trans (group?_key hg)
    refine keys_setGroup _ _ (Or.inl ?_)
    rw [hk, hg, Option.map_some, hf]

theorem OnlyNotes.keys {s t : State} (h : OnlyNotes s t) : KeysKept s t := by
  refine ⟨by rw [h.rest], by rw [h.rest], fun k => by rw [h.group?], fun k => ?_, fun k => by unfold State.launch?; rw [h.rest]⟩
  exact map_of_map Crew.plain Crew.seat _ (fun _ => rfl) (h.crews k)

theorem keys_setCrew (s : State) (c : Crew) {c0 : Crew} (h : s.crew? c.id = some c0) (hc : c.seat = c0.seat) :
    KeysKept s (s.setCrew c) := by
  refine ⟨rfl, rfl, fun k => by simp only [State.group?, setCrew_groups], fun k => ?_, fun _ => rfl⟩
  rw [crew?_setCrew]
  split
  · rename_i hk
    rw [hk, h, Option.map_some, Option.map_some, Option.map_some, hc]
  · rfl

theorem cover_seat (c : Crew) (l : List (Nat × Nat)) : (c.cover l).seat = c.seat := by
  unfold Crew.cover; split <;> rfl

theorem cover_id (c : Crew) (l : List (Nat × Nat)) : (c.cover l).id = c.id := by
  unfold Crew.cover; split <;> rfl

theorem foldl_who {α : Type} (f : Group → α → Group) (hf : ∀ g a, (f g a).who = g.who) (l : List α) (g : Group) :
    (l.foldl f g).who = g.who := by
  induction l generalizing g with
  | nil => rfl
  | cons a r ih => rw [List.foldl_cons, ih, hf]

theorem keys_scrWrite (s : State) (crew gid a : Nat) (xs : List Byte) (grp : Bool) :
    KeysKept s (s.scrWrite crew gid a xs grp) := by
  unfold State.scrWrite
  have h1 := (notePast_notes s crew a (s.scrRead crew gid a xs.length) grp).keys
  dsimp only
  split
  · exact h1
  · rename_i c0 hc0
    have hid := crew?_id hc0
    split
    · refine h1.trans (keys_setCrew _ _ (c0 := c0) ?_ ?_)
      · rw [show _ = c0.id from cover_id c0 _, hid]; exact hc0
      · exact cover_seat c0 _
    · split
      · refine h1.trans (keys_setCrew _ _ (c0 := c0) ?_ ?_)
        · rw [show _ = c0.id from cover_id c0 _, hid]; exact hc0
        · exact cover_seat c0 _
      · refine (h1.trans (keys_setCrew _ _ (c0 := c0) ?_ ?_)).trans
          (keys_modGroup _ _ _ (fun g => foldl_who _ (fun _ _ => by rfl) _ g))
        · rw [show _ = c0.id from cover_id c0 _, hid]; exact hc0
        · exact cover_seat c0 _

theorem keys_noteLine (s : State) (crew cls a n : Nat) : KeysKept s (s.noteLine crew cls a n) := by
  unfold State.noteLine
  split
  · split
    · exact .refl s
    · rename_i c hc
      have hid := crew?_id hc
      exact keys_setCrew _ _ (c0 := c) (by rw [hid]; exact hc) rfl
  · exact .refl s

theorem keys_coverMem (s : State) (b : BufId) (ctx : Nat) (l : List (Nat × Nat)) : KeysKept s (s.coverMem b ctx l) := by
  unfold State.coverMem
  split
  · exact .refl s
  · exact ⟨rfl, rfl, fun _ => rfl, fun _ => rfl, fun _ => rfl⟩

theorem keys_coverScr (s : State) (crew : Nat) (l : List (Nat × Nat)) : KeysKept s (s.coverScr crew l) := by
  unfold State.coverScr
  split
  · rename_i c hc
    have hid := crew?_id hc
    split
    · exact .refl s
    · exact keys_setCrew _ _ (c0 := c) (by rw [cover_id, hid]; exact hc) (cover_seat _ _)
  · exact .refl s

/-- An access that, where it is done, keeps the word and the keys. -/
def AccKept (s : State) (a : Acc) : Prop := ∀ t w ev, a = .ok t w ev → KeysKept s t

theorem kept_bad (s : State) (c : BitVec 8) (n : Nat) : AccKept s (.bad c n) := fun _ _ _ e => by simp at e
theorem kept_hold (s : State) : AccKept s .hold := fun _ _ _ e => by simp at e
theorem kept_early (s : State) : AccKept s .early := fun _ _ _ e => by simp at e
theorem kept_ok {s t : State} (h : KeysKept s t) (w : DWord) (ev : Ev) : AccKept s (.ok t w ev) := fun _ _ _ e => by
  simp only [Acc.ok.injEq] at e; rw [← e.1]; exact h
theorem kept_trans {s t : State} {a : Acc} (h : KeysKept s t) (ha : AccKept t a) : AccKept s a :=
  fun u w ev e => h.trans (ha u w ev e)
theorem kept_map {s : State} {a : Acc} (h : AccKept s a) (f : DWord → DWord) : AccKept s (a.map f) := by
  unfold Acc.map
  split
  · exact kept_ok (h _ _ _ rfl) _ _
  · exact h

theorem kept_loadAt (x : Site) (s : State) (a n : Nat) (dev : Bool) : AccKept s (x.loadAt s a n dev) := by
  unfold Site.loadAt
  split
  · exact kept_bad _ _ _
  · split
    · exact kept_bad _ _ _
    · exact kept_hold _
    · exact kept_ok (pages_load _ _ _ _ _ _).keys _ _

theorem kept_storeAt (x : Site) (s : State) (a n val : Nat) (dev : Bool) : AccKept s (x.storeAt s a n val dev) := by
  unfold Site.storeAt
  split
  · exact kept_bad _ _ _
  · split
    · exact kept_bad _ _ _
    · exact kept_hold _
    · exact kept_ok (((notes_logStore _ _ _ _ _).only.pages.trans (pages_store _ _ _ _ _ _ _)).keys.trans (keys_noteLine _ _ _ _ _)) _ _

theorem kept_ldsAt (x : Site) (s : State) (a n : Nat) : AccKept s (x.ldsAt s a n) := by
  unfold Site.ldsAt
  split
  · exact kept_bad _ _ _
  · split
    · exact kept_bad _ _ _
    · split
      · exact kept_bad _ _ _
      · exact kept_ok (.refl s) _ _

theorem kept_stsAt (x : Site) (s : State) (a n val : Nat) : AccKept s (x.stsAt s a n val) := by
  unfold Site.stsAt
  split
  · exact kept_bad _ _ _
  · split
    · exact kept_bad _ _ _
    · exact kept_ok (keys_scrWrite _ _ _ _ _ _) _ _

theorem kept_scaleAt (x : Site) (s : State) (r : Rec) (e : Nat) : AccKept s (x.scaleAt s r e) := by
  unfold Site.scaleAt
  split
  · exact kept_ok (.refl s) _ _
  · split <;> exact kept_loadAt _ _ _ _ _

theorem elemBytes_kept {x : Site} {s : State} {r : Rec} {idx off : Nat} {wr : Bool} {a : Acc}
    (e : x.elemBytes s r idx off wr = .error a) : AccKept s a := by
  unfold Site.elemBytes at e
  dsimp only at e
  split at e
  · simp only [Except.error.injEq] at e; rw [← e]; exact kept_bad _ _ _
  · simp only [Except.error.injEq] at e; rw [← e]; exact kept_hold _
  · simp at e

theorem kept_elemLoadAt (x : Site) (s : State) (r : Rec) (idx e : Nat) : AccKept s (x.elemLoadAt s r idx e) := by
  unfold Site.elemLoadAt
  split
  · split
    · rename_i he; exact elemBytes_kept he
    · dsimp only
      have h1 := fun b ctx va cls keys => (pages_load s b ctx va cls keys).keys
      split
      · rename_i hs
        exact kept_ok ((h1 _ _ _ _ _).trans (kept_scaleAt _ _ _ _ _ _ _ hs)) _ _
      · exact kept_trans (h1 _ _ _ _ _) (kept_scaleAt _ _ _ _)
  · exact kept_bad _ _ _

theorem kept_codeStoreAt (x : Site) (s : State) (r : Rec) (idx e code : Nat) (ev : Ev) :
    AccKept s (x.codeStoreAt s r idx e code ev) := by
  unfold Site.codeStoreAt
  split
  · split
    · rename_i he; exact elemBytes_kept he
    · dsimp only
      apply kept_ok
      refine KeysKept.trans ?_ (keys_noteLine _ _ _ _ _)
      refine PagesOnly.keys ?_
      refine PagesOnly.trans ?_ (pages_store _ _ _ _ _ _ _)
      refine PagesOnly.trans ?_ (notes_logStore _ _ _ _ _).only.pages
      split
      · exact .refl s
      · exact pages_load _ _ _ _ _ _
  · exact kept_bad _ _ _

theorem keys_sys (s : State) (y : Sys) : KeysKept s { s with sys := y } := ⟨rfl, rfl, fun _ => rfl, fun _ => rfl, fun _ => rfl⟩

theorem keys_atomTurn {s t : State} {x : Site} {scr : Bool} {addr key len i : Nat} (h : s.atomTurn x scr addr key len i = some t) :
    KeysKept s t := by
  unfold State.atomTurn at h
  dsimp only at h
  split at h
  · rw [← Option.some.inj h]; exact keys_sys s _
  · split at h
    · rw [← Option.some.inj h]; exact keys_sys s _
    · split at h
      · simp at h
      · rw [← Option.some.inj h]; exact keys_sys s _

theorem kept_atomAt (x : Site) (s : State) (op : AtomOp) (v : FEnv) (i a b c : Nat) : AccKept s (x.atomAt s op v i a b c) := by
  unfold Site.atomAt
  dsimp only
  split
  · exact kept_bad _ _ _
  · split
    · exact kept_bad _ _ _
    · exact kept_hold _
    · split
      · exact kept_early _
      · rename_i h
        exact kept_ok ((keys_atomTurn h).trans ((notes_logStore _ _ _ _ _).only.pages.trans (pages_store _ _ _ _ _ _ _)).keys) _ _

theorem kept_atomsAt (x : Site) (s : State) (op : AtomOp) (i a b c : Nat) : AccKept s (x.atomsAt s op i a b c) := by
  unfold Site.atomsAt
  dsimp only
  split
  · exact kept_bad _ _ _
  · split
    · exact kept_bad _ _ _
    · split
      · exact kept_bad _ _ _
      · split
        · exact kept_early _
        · rename_i h
          exact kept_ok ((keys_atomTurn h).trans (keys_scrWrite _ _ _ _ _ _)) _ _

/-- The threads' accesses keep the word and the keys. -/
theorem sweep_kept (f : State → Nat → Acc) (hf : ∀ t i, AccKept t (f t i)) (l : List Nat) (w : Sweep) :
    KeysKept w.s (sweep f l w).s := by
  induction l generalizing w with
  | nil => exact .refl _
  | cons i r ih =>
    unfold sweep
    split
    · rename_i s1 v ev e
      exact (hf _ _ _ _ _ e).trans (ih { w with s := s1, vals := w.vals ++ [(i, v)], ev := w.ev.plus ev })
    · rename_i c a e
      exact ih { w with bads := w.bads ++ [(i, c, a)] }
    · exact ih { w with held := true }
    · exact ih { w with late := w.late ++ [i] }

/-- The threads that met a cause are among those of the list. -/
theorem sweep_bads (f : State → Nat → Acc) (l : List Nat) (w : Sweep) :
    ∀ b ∈ (sweep f l w).bads, b ∈ w.bads ∨ b.1 ∈ l := by
  induction l generalizing w with
  | nil => exact fun b hb => Or.inl hb
  | cons i r ih =>
    intro b hb
    unfold sweep at hb
    split at hb
    · rcases ih _ b hb with h | h
      · exact Or.inl h
      · exact Or.inr (List.mem_cons_of_mem _ h)
    · rcases ih _ b hb with h | h
      · simp only [List.mem_append, List.mem_singleton] at h
        rcases h with h | h
        · exact Or.inl h
        · right; rw [h]; exact List.mem_cons_self
      · exact Or.inr (List.mem_cons_of_mem _ h)
    all_goals
      rcases ih _ b hb with h | h
      · exact Or.inl h
      · exact Or.inr (List.mem_cons_of_mem _ h)

theorem keys_prepTemps (s : State) (x : Site) (w : Bool) (dst : List Opd) : KeysKept s (s.prepTemps x w dst) := by
  unfold State.prepTemps
  dsimp only
  split
  · exact .refl s
  · split
    · exact .refl s
    · rename_i g hg
      have hd : KeysKept s s.draw.1 := ⟨rfl, rfl, fun _ => rfl, fun _ => rfl, fun _ => rfl⟩
      refine hd.trans (keys_setGroup _ _ (Or.inl ?_))
      have hk : g.key = x.g.key := group?_key hg
      have : s.draw.1.group? x.g.key = some g := hg
      show (s.draw.1.group? g.key).map Group.who = _
      rw [hk, this]; rfl

theorem keys_count (s : State) (d c n : Nat) (e : Ev) : KeysKept s (s.count d c n e) :=
  ⟨rfl, rfl, fun _ => rfl, fun _ => rfl, fun _ => rfl⟩

theorem banks_fillNow (g : Group) (u : Bool) (d : Opd) (w : Bool) (vals : List (Nat × DWord)) :
    BanksOnly g (g.fillNow u d w vals) := by
  unfold Group.fillNow
  split
  · split
    · exact .refl g
    · dsimp only
      split
      · exact (banks_writeAll _ _ _).trans (banks_writeAll _ _ _)
      · exact banks_writeAll _ _ _
  · refine banks_fold vals _ (fun g e => ?_) g
    dsimp only
    split
    · exact (banks_writeAt _ _ _ _).trans (banks_writeAt _ _ _ _)
    · exact banks_writeAt _ _ _ _

theorem BanksOnly.who {a b : Group} (h : BanksOnly a b) : b.who = a.who := by rw [h]; rfl

theorem keys_giveBack (s : State) (x : Site) (u : Bool) (r : Ret) (vals : List (Nat × DWord)) :
    KeysKept s (s.giveBack x u r vals) := by
  unfold State.giveBack
  split
  · exact .refl s
  · refine keys_modGroup _ _ _ (fun g => ?_)
    exact (banks_fillNow g u _ _ vals).who
  · split
    · exact .refl s
    · exact keys_modGroup _ _ _ (fun g => rfl)

theorem latch_who (g : Group) (s : State) (src : List Opd) : (g.latch s src).who = g.who := by
  unfold Group.latch
  dsimp only
  split <;> split <;> rfl

/-- What an instruction does beyond its threads' accesses, if it keeps the word and who everything is. -/
def AfterKept (after : After) : Prop := ∀ x l t, KeysKept t (after x l t)

theorem kept_noMore : AfterKept noMore := fun _ _ t => .refl t

/-- What a memory instruction leaves before its end. -/
theorem keys_memRun (s : State) (x : Site) (h : Hdr) (ops : List Opd) (r : Ret) (tensor : Nat) (f : Site → State → Nat → Acc)
    (after : After) (hf : ∀ y t i, AccKept t (f y t i)) (ha : AfterKept after) :
    KeysKept s (((memDone s x h ops r tensor f after).giveBack x
      (uniform ops) r (memRun s x h ops r f).vals).modGroup x.g.key
        (fun g => if x.emask h ops = 0#32 then g else g.latch s ops)) := by
  have hl : ∀ g : Group, (if x.emask h ops = 0#32 then g else g.latch s ops).who = g.who := by
    intro g
    split
    · rfl
    · exact latch_who _ _ _
  refine KeysKept.trans ?_ (keys_modGroup _ _ _ hl)
  refine KeysKept.trans ?_ (keys_giveBack _ _ _ _ _)
  refine KeysKept.trans ?_ (keys_count _ _ _ _ _)
  refine KeysKept.trans ?_ (ha _ _ _)
  exact (keys_prepTemps s x _ _).trans (sweep_kept (f x) (hf x) _ ⟨s.prepTemps x _ _, [], [], Ev.zero, false, []⟩)

/-- A memory instruction, once its threads' accesses are made, in words of `memRun`. -/
theorem memOp_run {s : State} {h : Hdr} {ops : List Opd} {r : Ret} {tensor : Site → Nat} {f : Site → State → Nat → Acc}
    {after : After} {x : Site} (hx : s.site? = some x) (hheld : (memRun s x h ops r f).clear) :
    s.memOp h ops r tensor f after = .next ((((memDone s x h ops r (tensor x) f after).giveBack x
      (uniform ops) r (memRun s x h ops r f).vals).modGroup x.g.key
        (fun g => if x.emask h ops = 0#32 then g else g.latch s ops)).conclude x (memRun s x h ops r f).bads (retDst r)) := by
  unfold State.memOp State.atSite
  rw [hx]
  dsimp only
  have hm : sweep (f x) (lanes (x.emask h ops)) ⟨s.prepTemps x (x.f.replay.isSome ||
      (if uniform ops then x.emask h ops != 0#32 else x.emask h ops == x.f.mask)) (retDst r), [], [], Ev.zero, false, []⟩
      = memRun s x h ops r f := rfl
  simp only [Sweep.clear, Bool.and_eq_true, Bool.not_eq_true'] at hheld
  rw [hm, hheld.1, hheld.2]
  rfl

/-- A memory instruction in which no thread meets a cause ends. -/
theorem memOp_ends {i : Instr} {s : State} {h : Hdr} {ops : List Opd} {r : Ret} {tensor : Site → Nat}
    {f : Site → State → Nat → Acc} {after : After} (he : exec i s = s.memOp h ops r tensor f after)
    (hf : ∀ y t k, AccKept t (f y t k)) (ha : AfterKept after)
    (n : Nat) (hn : ∀ x, s.site? = some x → tensor x = n) : AccessEnds i s h ops r n f after := by
  intro x hx hheld hbads
  apply finish_ends
  · rw [(keys_memRun s x h ops r n f after hf ha).isSome, site_group hx]; rfl
  · rw [he, memOp_run hx hheld, hbads, hn x hx]
    rfl

/-! The stop and the park. -/

theorem refresh_group {s : State} {x : Site} {g : Group} (h : s.group? x.g.key = some g) : (x.refresh s).g = g := by
  unfold Site.refresh; rw [h]; rfl

theorem countTrap_same (s : State) (n : Nat) : ∃ l, s.countTrap n = { s with launches := l } := by
  unfold State.countTrap
  split
  · exact ⟨s.launches, rfl⟩
  · exact ⟨_, rfl⟩

theorem refresh_counted {s : State} {x : Site} {g : Group} (h : s.group? x.g.key = some g) :
    (x.refresh s).counted = ({ x with g := g } : Site).counted := by
  have hg := refresh_group h
  unfold Site.counted Site.counts
  rw [hg]
  rfl

/-- Beyond the issuing group and its launch's count, only a fault record is written, at a die. -/
structure Recorded (s t : State) (x : Site) (die : Nat) (r : FaultRec) : Prop where
  mem    : t.mem = (s.writeRecord die r).mem
  bufs   : t.bufs = s.bufs
  dev    : t.dev = s.dev
  stats  : t.stats = s.stats
  crews  : ∀ k, (t.crew? k).map Crew.bare = (s.crew? k).map Crew.bare
  others : ∀ k, k ≠ x.g.key → t.group? k = s.group? k

/-- What a stop does to the issuing group. -/
theorem stopWith_group {s : State} {x : Site} {g : Group} (h : s.group? x.g.key = some g) (t : Trap) (flags : Nat) (m : Word)
    (counted : Bool) :
    (s.stopWith x t flags m counted x.f.pc).group? x.g.key = some
      { g.setFrag (lowest x.f.mask) { (if counted then ({ x with g := g } : Site).counted else x.f) with
          replay := if m = 0#32 then x.f.replay else some m } with
        stat := .stopped (lowest x.f.mask) x.f.pc s.word, recount := false,
        faultmask := if m = 0#32 then g.faultmask else m } := by
  have hk := group?_key h
  have hg := refresh_group h
  have hc := refresh_counted h
  unfold State.stopWith
  generalize hx : x.refresh s = y at hg hc
  have hf : y.f = x.f := by rw [← hx]; rfl
  dsimp only
  obtain ⟨l, hl⟩ := countTrap_same ((s.writeRecord y.c.die (y.record s t flags m)).setGroup
    { y.g.setFrag (lowest y.f.mask) { (if counted then y.counted else y.f) with replay := if m = 0#32 then y.f.replay else some m } with
      stat := .stopped (lowest y.f.mask) x.f.pc s.word, recount := false, faultmask := if m = 0#32 then y.g.faultmask else m }) y.l.handle
  rw [hl]
  refine Eq.trans (group?_setGroup_same (s := s.writeRecord y.c.die (y.record s t flags m)) (g0 := g) ?_ ?_) ?_
  · rw [(only_writeRecord _ _ _).group?]; exact h
  · rw [hg]; exact hk
  · simp only [hg, hc, hf]

theorem stopWith_recorded {s : State} {x : Site} {g : Group} (h : s.group? x.g.key = some g) (t : Trap) (flags : Nat) (m : Word)
    (counted : Bool) (a : Nat) :
    Recorded s (s.stopWith x t flags m counted a) x (x.refresh s).c.die ((x.refresh s).record s t flags m) := by
  have hk := group?_key h
  have hg := refresh_group h
  unfold State.stopWith
  generalize x.refresh s = y at hg
  dsimp only
  generalize hG : ({ y.g.setFrag (lowest y.f.mask) { (if counted then y.counted else y.f) with replay := if m = 0#32 then y.f.replay else some m } with
      stat := .stopped (lowest y.f.mask) a s.word, recount := false, faultmask := if m = 0#32 then y.g.faultmask else m } : Group) = G
  have hGk : G.key = x.g.key := by rw [← hG, ← hk, ← hg]; rfl
  obtain ⟨l, hl⟩ := countTrap_same ((s.writeRecord y.c.die (y.record s t flags m)).setGroup G) y.l.handle
  rw [hl]
  have ho := only_writeRecord s y.c.die (y.record s t flags m)
  refine ⟨rfl, ho.bufs, ho.dev, ho.stats, crew?_bare ho.crews, fun k hne => ?_⟩
  exact (group?_setGroup_ne _ G k (by rw [hGk]; exact hne)).trans (ho.group? k)

theorem park_group {s : State} {x : Site} {g : Group} (h : s.group? x.g.key = some g) (va : Nat) (m : Word)
    (counted clone : Bool) :
    (s.park x va m counted clone).group? x.g.key = some
      { g.setFrag (lowest x.f.mask) { (if counted then ({ x with g := g } : Site).counted else x.f) with
          replay := if m = 0#32 then x.f.replay else some m, due := !counted } with
        stat := .parked (lowest x.f.mask) clone va s.word, recount := false,
        faultmask := if m = 0#32 then g.faultmask else m } := by
  have hk := group?_key h
  have hg := refresh_group h
  have hc := refresh_counted h
  unfold State.park
  generalize hx : x.refresh s = y at hg hc
  have hf : y.f = x.f := by rw [← hx]; rfl
  refine Eq.trans (group?_setGroup_same (g0 := g) ?_ ?_) ?_
  · rw [(only_writeRecord _ _ _).group?]; exact h
  · rw [hg]; exact hk
  · simp only [hg, hc, hf]

theorem park_recorded {s : State} {x : Site} {g : Group} (h : s.group? x.g.key = some g) (va : Nat) (m : Word)
    (counted clone : Bool) :
    Recorded s (s.park x va m counted clone) x (x.refresh s).c.die
      ((x.refresh s).record s (Trap.one 0x10#8 va) (flagPark + (if clone then flagClone else 0)) m) := by
  have hk := group?_key h
  have hg := refresh_group h
  unfold State.park
  generalize x.refresh s = y at hg
  dsimp only
  generalize hG : ({ y.g.setFrag (lowest y.f.mask) { (if counted then y.counted else y.f) with replay := if m = 0#32 then y.f.replay else some m, due := !counted } with
      stat := .parked (lowest y.f.mask) clone va s.word, recount := false, faultmask := if m = 0#32 then y.g.faultmask else m } : Group) = G
  have hGk : G.key = x.g.key := by rw [← hG, ← hk, ← hg]; rfl
  have ho := only_writeRecord s y.c.die (y.record s (Trap.one 0x10#8 va) (flagPark + (if clone then flagClone else 0)) m)
  refine ⟨rfl, ho.bufs, ho.dev, ho.stats, crew?_bare ho.crews, fun k hne => ?_⟩
  exact (group?_setGroup_ne _ G k (by rw [hGk]; exact hne)).trans (ho.group? k)

/-- Where the issuing group stands, as a state that kept who everything is finds it. -/
theorem refresh_record {s d : State} {x : Site} (hx : s.site? = some x) (h : KeysKept s d) (t : Trap) (fl : Nat) (m : Word) :
    (x.refresh d).c.die = x.c.die ∧ (x.refresh d).record d t fl m = x.record s t fl m := by
  obtain ⟨h1, _, h3, _, h5⟩ := site_parts hx
  have hl : x.l.handle = x.c.handle := by simpa using List.find?_some h5
  have hg : (x.refresh d).g.who = x.g.who := by
    have := h.keys x.g.key
    rw [h1] at this
    unfold Site.refresh
    cases hd : d.group? x.g.key with
    | none => rw [hd] at this; simp at this
    | some g => rw [hd] at this; simpa using this
  have hc : (x.refresh d).c.seat = x.c.seat := by
    have := h.seats x.c.id
    rw [h3] at this
    unfold Site.refresh
    cases hd : d.crew? x.c.id with
    | none => rw [hd] at this; simp at this
    | some g => rw [hd] at this; simpa using this
  have hctx : (x.refresh d).l.ctx = x.l.ctx := by
    have := h.launches x.l.handle
    rw [hl, h5] at this
    unfold Site.refresh
    rw [hl]
    cases hd : d.launch? x.c.handle with
    | none => rw [hd] at this; simp at this
    | some g => rw [hd] at this; simpa using this
  have hf : (x.refresh d).f = x.f := rfl
  generalize x.refresh d = y at hg hc hctx hf
  simp only [Group.who, Crew.seat, Prod.mk.injEq] at hg hc
  refine ⟨hc.2.1, ?_⟩
  simp only [Site.record, Site.src, Site.ctx, hg, hc, hctx, hf, h.word, h.tsc]

theorem getLsbD_maskOf (f : Nat → Bool) (i : Nat) (hi : i < 32) : (maskOf f).getLsbD i = f i := by
  unfold maskOf
  have : ∀ (l : List Nat) (m : Word), (l.foldl (fun m i => if f i then m ||| (1#32 <<< i) else m) m).getLsbD i
      = (m.getLsbD i || (l.contains i && f i)) := by
    intro l
    induction l with
    | nil => simp
    | cons a r ih =>
      intro m
      rw [List.foldl_cons, ih]
      by_cases ha : i = a
      · subst ha
        cases hf : f i <;> simp [hi]
      · have hsh : (1#32 <<< a).getLsbD i = false := by rw [getLsbD_one_shift _ _ hi]; simp [ha]
        cases hf : f a <;> simp [ha, hsh, BitVec.getLsbD_or]
  rw [this]
  simp [Config.W, hi]

theorem setFrag_replay (g : Group) (low : Nat) (y : Frag) :
    ∀ f ∈ (g.setFrag low y).frags, lowest f.mask = low → f = y := by
  intro f hf hl
  simp only [Group.setFrag, List.mem_map] at hf
  obtain ⟨z, _, hz⟩ := hf
  split at hz
  · exact hz.symm
  · rename_i hne
    rw [← hz] at hl
    simp [hl] at hne

theorem recorded_only {s n t : State} {x : Site} {d : Nat} {r : FaultRec} (h : OnlyGroup s n x.g.key) (hr : Recorded n t x d r) :
    Recorded s t x d r := by
  have hs : SameMemory s n := by
    refine ⟨n.groups, s.launches, n.crews, s.seen, s.tornAt, n.stamp, n.free, s.held, s.kvTabs, s.kvTorn, s.seals, s.stats, s.podBars, ?_⟩
    exact h.rest
  refine ⟨hr.mem.trans (same_writeRecord hs d r).mem, hr.bufs.trans (by rw [h.rest]), hr.dev.trans (by rw [h.rest]),
    hr.stats.trans (by rw [h.rest]), fun k => (hr.crews k).trans (map_of_map Crew.plain Crew.bare _ (fun _ => rfl) (h.crews k)),
    fun k hk => (hr.others k hk).trans (h.others k hk)⟩

theorem only_prepTemps (s : State) (x : Site) (w : Bool) (dst : List Opd) : OnlyGroup s (s.prepTemps x w dst) x.g.key := by
  unfold State.prepTemps
  dsimp only
  split
  · exact .refl s _
  · split
    · exact .refl s _
    · rename_i g hg
      exact (only_draw s _).trans (only_setGroup' _ (by exact group?_key (g := g) hg))

/-- What the threads that have taken their access leave is the issuing group's, and notes. -/
theorem only_partly (s : State) (x : Site) (m : Word) (dst : List Opd) : OnlyGroup s (s.partly x m dst) x.g.key := by
  unfold State.partly
  refine OnlyGroup.trans ?_ (only_prepTemps _ { x with f := { x.f with mask := m } } _ _)
  split
  · split
    · exact (noteRegs_notes _ _ _ _ _).only _
    · exact .refl s _
  · exact .refl s _

theorem keys_partly (s : State) (x : Site) (m : Word) (dst : List Opd) : KeysKept s (s.partly x m dst) := by
  unfold State.partly
  refine KeysKept.trans ?_ (keys_prepTemps _ _ _ _)
  split
  · split
    · exact (noteRegs_notes _ _ _ _ _).keys
    · exact .refl s
  · exact .refl s

/-- The end of a memory access in which some thread met a cause. `s0` is the state in which the site was found. -/
theorem conclude_faults {s0 s : State} {x : Site} (hx : s0.site? = some x) (hk : KeysKept s0 s)
    (bads : List (Nat × BitVec 8 × Nat))
    (hb : bads ≠ []) (hlt : ∀ b ∈ bads, b.1 < 32) (dst : List Opd) :
    ∃ g', (s.conclude x bads dst).group? x.g.key = some g' ∧ Faulted x s bads dst g' ∧
      Recorded s (s.conclude x bads dst) x x.c.die (faultRecord s0 x bads) := by
  unfold State.conclude
  match bads, hb with
  | (b0, c0, a0) :: r, _ =>
    dsimp only
    generalize hn : s.partly x (maskOfList (((b0, c0, a0) :: r).map (·.1))) dst = n
    have hnotes : OnlyGroup s n x.g.key := hn ▸ only_partly s x _ dst
    have hnk : KeysKept s0 n := hk.trans (hn ▸ keys_partly s x _ dst)
    have hng : (n.group? x.g.key).isSome := by rw [hnk.isSome, site_group hx]; rfl
    obtain ⟨g1, hng⟩ := Option.isSome_iff_exists.mp hng
    have hword : n.word = s.word := by rw [hnotes.rest]
    set bads := (b0, c0, a0) :: r with hbads
    have hmask : maskOfList (bads.map (·.1)) = maskOf (fun i => bads.any (fun b => b.1 == i)) := by
      unfold maskOfList
      congr 1
      funext i
      rw [List.contains_eq_any_beq, List.any_map]
      congr 1
      funext b
      simp [Bool.beq_comm]
    have hne : maskOfList (bads.map (·.1)) ≠ 0#32 := by
      intro hz
      have := getLsbD_maskOf (fun i => (bads.map (·.1)).contains i) b0 (hlt _ List.mem_cons_self)
      unfold maskOfList at hz
      rw [hz] at this
      simp [hbads] at this
    have hall : bads.all (fun b => b.2.1 == 0x10#8) = (bads.find? (fun b => b.2.1 != 0x10#8)).isNone := by
      rw [Bool.eq_iff_iff]
      simp [List.find?_eq_none]
    cases hf : bads.find? (fun b => b.2.1 != 0x10#8) with
    | none =>
      rw [hf] at hall
      dsimp only
      have hr := park_recorded (x := x.owing (maskOfList (bads.map (·.1))) dst) hng a0 (maskOfList (bads.map (·.1))) true false
      have hp := park_group (x := x.owing (maskOfList (bads.map (·.1))) dst) hng a0 (maskOfList (bads.map (·.1))) true false
      refine ⟨_, hp, ⟨?_, ?_, ?_⟩, ?_⟩
      · simp only [if_neg hne]; exact hmask
      · simp only [hall, hword]; simp [hbads]; rfl
      · intro f hf1 hf2
        have := setFrag_replay g1 (lowest x.f.mask) _ f hf1 hf2
        subst this
        simp [Site.counted, Site.owing, hne]
      · have he : faultRecord s0 x bads = (x.refresh n).record n (Trap.one 0x10#8 a0) (flagPark + 0) (maskOfList (bads.map (·.1))) := by
          rw [(refresh_record hx hnk _ _ _).2, hmask]
          unfold faultRecord
          rw [hf]
          simp [hbads]
        have hd := (refresh_record hx hnk (Trap.one 0x10#8 a0) flagPark (maskOfList (bads.map (·.1)))).1
        rw [he, ← hd]
        exact recorded_only hnotes ⟨hr.mem, hr.bufs, hr.dev, hr.stats, hr.crews, hr.others⟩
    | some b =>
      rw [hf] at hall
      obtain ⟨b1, b2, b3⟩ := b
      dsimp only
      unfold State.stop
      have hr := stopWith_recorded (x := x.owing (maskOfList (bads.map (·.1))) dst) hng (Trap.one b2 b3) 0 (maskOfList (bads.map (·.1))) true x.f.pc
      have hp := stopWith_group (x := x.owing (maskOfList (bads.map (·.1))) dst) hng (Trap.one b2 b3) 0 (maskOfList (bads.map (·.1))) true
      refine ⟨_, hp, ⟨?_, ?_, ?_⟩, ?_⟩
      · simp only [if_neg hne]; exact hmask
      · simp [hall, hword]; exact ⟨rfl, rfl⟩
      · intro f hf1 hf2
        have := setFrag_replay g1 (lowest x.f.mask) _ f hf1 hf2
        subst this
        simp [Site.counted, Site.owing, hne]
      · have he : faultRecord s0 x bads = (x.refresh n).record n (Trap.one b2 b3) 0 (maskOfList (bads.map (·.1))) := by
          rw [(refresh_record hx hnk _ _ _).2, hmask]
          unfold faultRecord
          rw [hf]
        have hd := (refresh_record hx hnk (Trap.one b2 b3) 0 (maskOfList (bads.map (·.1)))).1
        rw [he, ← hd]
        exact recorded_only hnotes ⟨hr.mem, hr.bufs, hr.dev, hr.stats, hr.crews, hr.others⟩

/-- What giving values back to registers leaves alone: everything but the issuing group. -/
theorem only_modGroup (s : State) (k : Nat) (f : Group → Group) (hf : ∀ g, (f g).key = g.key) : OnlyGroup s (s.modGroup k f) k := by
  unfold State.modGroup
  split
  · exact .refl s k
  · rename_i g hg
    exact only_setGroup' s ((hf g).trans (group?_key hg))

theorem only_giveBack (s : State) (x : Site) (u : Bool) (r : Ret) (vals : List (Nat × DWord)) :
    OnlyGroup s (s.giveBack x u r vals) x.g.key := by
  unfold State.giveBack
  split
  · exact .refl s _
  · exact only_modGroup _ _ _ (fun g => (banks_fillNow g u _ _ vals).key)
  · split
    · exact .refl s _
    · exact only_modGroup _ _ _ (fun _ => rfl)

/-- A memory instruction in which some thread meets a cause parks or stops its group. -/
theorem memOp_faults {i : Instr} {s : State} {h : Hdr} {ops : List Opd} {r : Ret} {tensor : Site → Nat}
    {f : Site → State → Nat → Acc} {after : After} (he : exec i s = s.memOp h ops r tensor f after)
    (hf : ∀ y t k, AccKept t (f y t k)) (ha : AfterKept after)
    (n : Nat) (hn : ∀ x, s.site? = some x → tensor x = n) : AccessFaults i s h ops r n f after := by
  intro x hx hheld hbads
  have hk := keys_memRun s x h ops r n f after hf ha
  have hlt : ∀ b ∈ (memRun s x h ops r f).bads, b.1 < 32 := by
    intro b hb
    rcases sweep_bads _ _ _ b hb with h | h
    · simp at h
    · exact ((mem_lanes _ _).mp h).1
  have hl : ∀ g : Group, (if x.emask h ops = 0#32 then g else g.latch s ops).key = g.key := by
    intro g
    split
    · rfl
    · exact key_of_who (latch_who _ _ _)
  have ho := (only_giveBack (memDone s x h ops r n f after) x (uniform ops) r (memRun s x h ops r f).vals).trans
    (only_modGroup _ x.g.key (fun g => if x.emask h ops = 0#32 then g else g.latch s ops) hl)
  have he' := he
  rw [memOp_run hx hheld, hn x hx] at he'
  dsimp only
  generalize memDone s x h ops r n f after = done at *
  generalize hs2 : State.modGroup _ _ _ = s2 at hk he' ho
  obtain ⟨g', hg', hF, hR⟩ := conclude_faults hx hk _ hbads hlt (retDst r)
  have hs : SameMemory done s2 :=
    ⟨s2.groups, done.launches, s2.crews, done.seen, done.tornAt, s2.stamp, s2.free, done.held, done.kvTabs, done.kvTorn,
      done.seals, done.stats, done.podBars, ho.rest⟩
  have hr := ho.rest
  refine ⟨_, g', he', hg', ⟨hF.mask, by rw [hF.stat, hk.word], hF.replay⟩, hR.bufs.trans (by rw [hr]), hR.dev.trans (by rw [hr]),
    hR.stats.trans (by rw [hr]), hR.mem.trans (same_writeRecord hs _ _).mem,
    fun k => (hR.crews k).trans (map_of_map Crew.plain Crew.bare _ (fun _ => rfl) (ho.crews k)),
    fun k hne => (hR.others k hne).trans (ho.others k hne)⟩

end Sys2Proof.Machine
end

