-- ==== Sys2Proof/Laws/Memory.lean ====
section
/-!
SUPPORT. Every operation keeps the canonical form of both memories (`State.MemInv`): one lemma per operation, named after
it. Operations that write no memory keep the two lists as they are.
-/

namespace Sys2Proof.Machine

theorem inv_of {s t : State} (h : s.MemInv) (hm : t.mem = s.mem) (hd : t.dev = s.dev) : t.MemInv := by
  unfold State.MemInv at *
  rw [hm, hd]; exact h

/-- A fold of steps that keep a property keeps it. -/
theorem fold_inv {α σ : Type} (P : σ → Prop) (f : σ → α → σ) (hf : ∀ t a, P t → P (f t a)) (l : List α) (s : σ) (h : P s) :
    P (l.foldl f s) := by
  induction l generalizing s with
  | nil => exact h
  | cons a r ih => exact ih _ (hf s a h)

/-! Memory and buffers. -/

theorem memWrite_inv {s : State} (h : s.MemInv) (ks : List Nat) (xs : List Byte) : (s.memWrite ks xs).MemInv :=
  ⟨memWrite_wf s ks xs h.1, h.2⟩

theorem fillLine_inv {s : State} (h : s.MemInv) (b : BufId) (die ctx line : Nat) : (s.fillLine b die ctx line).MemInv := by
  unfold State.fillLine
  split
  · exact h
  · split
    · exact h
    · split <;> exact h

theorem hold_inv {s : State} (h : s.MemInv) : s.hold.MemInv := h

theorem cleanTo_inv {s : State} (h : s.MemInv) (x : BufLine) (k : Nat) : (s.cleanTo x k).MemInv := memWrite_inv h _ _

theorem cleanLine_inv {s : State} (h : s.MemInv) (b : BufId) (die ctx line : Nat) : (s.cleanLine b die ctx line).MemInv := by
  unfold State.cleanLine
  split
  · exact h
  · split
    · exact h
    · split
      · split
        · exact cleanTo_inv h _ _
        · exact hold_inv h
      · have h1 := fillLine_inv h (.die die) die ctx line
        simp only
        split
        · exact h1
        · exact h1

theorem cleanWhere_inv {s : State} (h : s.MemInv) (b : BufId) (die : Nat) (t : BufLine → Bool) : (s.cleanWhere b die t).MemInv :=
  fold_inv State.MemInv _ (fun _ _ h => cleanLine_inv h _ _ _ _) _ s h

theorem dropWhere_inv {s : State} (h : s.MemInv) (b : BufId) (t : BufLine → Bool) : (s.dropWhere b t).MemInv := h

theorem load_inv {s : State} (h : s.MemInv) (b : BufId) (ctx va cls : Nat) (keys : List Nat) :
    (s.load b ctx va cls keys).1.MemInv := by
  unfold State.load
  split
  · exact fold_inv State.MemInv _ (fun _ _ h => fillLine_inv h _ _ _ _) _ s h
  · split <;> exact h

theorem store_inv {s : State} (h : s.MemInv) (b : BufId) (ctx va cls : Nat) (keys : List Nat) (xs : List Byte) :
    (s.store b ctx va cls keys xs).MemInv := by
  unfold State.store
  split
  · refine fold_inv State.MemInv _ (fun t a ht => ?_) _ s h
    have := fillLine_inv ht b (dieOfBuf b) ctx ((va + a.2) / 128)
    simp only
    split <;> exact this
  · split
    · exact ⟨h.1, memFold_wf _ _ h.2⟩
    · exact memWrite_inv h _ _

theorem tearTables_inv {s : State} (h : s.MemInv) (ctx va len : Nat) : (s.tearTables ctx va len).MemInv := by
  unfold State.tearTables
  simp only
  split <;> exact inv_of h rfl rfl

theorem noteTorn_inv {s : State} (h : s.MemInv) (ctx va len : Nat) : (s.noteTorn ctx va len).MemInv := by
  unfold State.noteTorn
  split
  · exact h
  · exact inv_of (tearTables_inv h ctx va len) rfl rfl

theorem logSeen_inv {s : State} (h : s.MemInv) (ctx va len : Nat) (grp own : Bool) : (s.logSeen ctx va len grp own).MemInv := by
  unfold State.logSeen
  split <;> exact inv_of h rfl rfl

theorem logOwn_inv {s : State} (h : s.MemInv) (ctx va len : Nat) (grp : Bool) : (s.logOwn ctx va len grp).MemInv :=
  logSeen_inv (noteTorn_inv h _ _ _) _ _ _ _ _

theorem noteKv_inv {s : State} (h : s.MemInv) (ctx va len : Nat) : (s.noteKv ctx va len).MemInv := by
  unfold State.noteKv
  split
  · exact h
  · exact inv_of h rfl rfl

theorem logStore_inv {s : State} (h : s.MemInv) (ctx va len : Nat) (grp : Bool) : (s.logStore ctx va len grp).MemInv :=
  logSeen_inv (noteTorn_inv (noteKv_inv h _ _ _) _ _ _) _ _ _ _ _

theorem cohStore_inv {s : State} (h : s.MemInv) (ctx va len x : Nat) : (s.cohStore ctx va len x).MemInv := by
  unfold State.cohStore
  split
  · exact memWrite_inv (logStore_inv h _ _ _ _) _ _
  · exact hold_inv h
  · exact h

theorem cohStoreOwn_inv {s : State} (h : s.MemInv) (ctx va len x : Nat) : (s.cohStoreOwn ctx va len x).MemInv := by
  unfold State.cohStoreOwn
  split
  · exact memWrite_inv (logOwn_inv h _ _ _ _) _ _
  · exact hold_inv h
  · exact h

theorem touch_inv {s : State} (h : s.MemInv) (ctx va len : Nat) : (s.touch ctx va len).MemInv := by
  unfold State.touch
  split
  · exact hold_inv h
  · exact h

theorem touchAll_inv {s : State} (h : s.MemInv) (ctx : Nat) (l : List (Nat × Nat)) : (s.touchAll ctx l).MemInv :=
  fold_inv State.MemInv _ (fun _ _ h => touch_inv h _ _ _) _ s h

/-! Names and pins. -/

theorem markFreed_inv {s : State} (h : s.MemInv) (ctx : Nat) (name : DWord) : (s.markFreed ctx name).MemInv := by
  unfold State.markFreed
  split
  · exact inv_of h rfl rfl
  · exact h

theorem freeAction_inv {s : State} (h : s.MemInv) (ctx : Nat) (name : DWord) : (s.freeAction ctx name).MemInv := by
  have hm := markFreed_inv h ctx name
  unfold State.freeAction
  simp only
  split
  · exact hm
  · split
    · exact hm
    · split
      · split
        · exact cohStore_inv hm _ _ _ _
        · split
          · exact cohStore_inv (cohStore_inv hm _ _ _ _) _ _ _ _
          · exact hold_inv hm
          · exact hm
      · exact touch_inv hm _ _ _

theorem release_inv {s : State} (h : s.MemInv) (ctx : Nat) (name : DWord) : (s.release ctx name).MemInv := by
  unfold State.release
  split
  · exact h
  · split
    · exact freeAction_inv (by exact inv_of h rfl rfl) _ _
    · exact h

theorem removePin_inv {s : State} (h : s.MemInv) (e : PinEnt) : (s.removePin e).MemInv := by
  unfold State.removePin
  split
  · exact release_inv (by exact inv_of h rfl rfl) _ _
  · exact h

theorem unpinReg_inv {s : State} (h : s.MemInv) (ctx gk n : Nat) : (s.unpinReg ctx gk n).MemInv := by
  unfold State.unpinReg
  split
  · exact h
  · simp only
    split
    · exact h
    · exact removePin_inv (by exact inv_of h rfl rfl) _

theorem pinReg_inv {s : State} (h : s.MemInv) (ctx gk n : Nat) (name : DWord) : (s.pinReg ctx gk n name).MemInv := by
  have hu := unpinReg_inv h ctx gk n
  unfold State.pinReg
  simp only
  split
  · exact hu
  · exact inv_of hu rfl rfl

theorem reclaimName_inv {s : State} (h : s.MemInv) (die ctx : Nat) (name : DWord) : (s.reclaimName die ctx name).1.MemInv := by
  unfold State.reclaimName
  split
  · split
    · exact h
    · split
      · exact h
      · exact inv_of h rfl rfl
  · exact freeAction_inv h _ _

/-! Barriers. -/

theorem setInst_inv {s : State} (h : s.MemInv) (crew handle : Nat) (b : BarInst) : (s.setInst crew handle b).MemInv := by
  unfold State.setInst
  split
  · exact inv_of h rfl rfl
  · split
    · exact h
    · split <;> exact inv_of h rfl rfl

theorem boundary_inv {s : State} (h : s.MemInv) (ctx lvl idx : Nat) : (s.boundary ctx lvl idx).MemInv := by
  unfold State.boundary
  split <;> exact inv_of h rfl rfl

theorem arriveCount_inv {s : State} (h : s.MemInv) (c : Crew) (l : Launch) (gk : Nat) (b : BarInst) :
    (s.arriveCount c l gk b).MemInv := by
  unfold State.arriveCount
  simp only
  have h1 : (match s.group? gk with
    | none => s
    | some g => s.setGroup { g with barPh := put g.barPh (barNo b.level b.index) b.phase }).MemInv := by
    split <;> exact inv_of h rfl rfl
  split
  · exact hold_inv h
  · split
    · exact boundary_inv (setInst_inv h1 _ _ _) _ _ _
    · exact setInst_inv h1 _ _ _

theorem barArrive_inv {s t : State} (h : s.MemInv) {c : Crew} {l : Launch} {gk : Nat} {b : BarInst} {w : Word}
    (e : s.barArrive c l gk b = some (t, w)) : t.MemInv := by
  unfold State.barArrive at e
  split at e
  · simp at e
  · simp only [Option.some.injEq, Prod.mk.injEq] at e
    rw [← e.1]
    exact arriveCount_inv h _ _ _ _

theorem barDrop_inv {s : State} (h : s.MemInv) (c : Crew) (l : Launch) (gk : Nat) (b : BarInst) : (s.barDrop c l gk b).s.MemInv := by
  unfold State.barDrop
  split
  · exact h
  · simp only
    split
    · exact setInst_inv h _ _ _
    · split
      · exact setInst_inv h _ _ _
      · exact arriveCount_inv h _ _ _ _

theorem dropAll_inv {s : State} (h : s.MemInv) (crew gid : Nat) : (s.dropAll crew gid).MemInv := by
  unfold State.dropAll
  split
  · exact h
  · split
    · exact h
    · refine fold_inv State.MemInv _ (fun t a ht => ?_) _ s h
      split
      · split
        · split
          · split
            · exact ht
            · exact barDrop_inv ht _ _ _ _
          · exact ht
        · exact ht
      · exact ht

/-! Exceptions and the end of an instruction. -/

theorem writeRecord_inv {s : State} (h : s.MemInv) (die : Nat) (r : FaultRec) : (s.writeRecord die r).MemInv := by
  unfold State.writeRecord
  split
  · exact h
  · simp only
    split
    · split
      · split
        · exact cohStore_inv h _ _ _ _
        · exact touch_inv h _ _ _
      · exact cohStore_inv (cohStore_inv h _ _ _ _) _ _ _ _
    · exact touch_inv h _ _ _

theorem countTrap_inv {s : State} (h : s.MemInv) (handle : Nat) : (s.countTrap handle).MemInv := by
  unfold State.countTrap; split <;> exact inv_of h rfl rfl

theorem countKill_inv {s : State} (h : s.MemInv) (handle : Nat) : (s.countKill handle).MemInv := by
  unfold State.countKill; split <;> exact inv_of h rfl rfl

theorem stopWith_inv {s : State} (h : s.MemInv) (x : Site) (t : Trap) (flags : Nat) (mask : Word) (counted : Bool) (resume : Nat) :
    (s.stopWith x t flags mask counted resume).MemInv := by
  unfold State.stopWith
  exact countTrap_inv (by exact inv_of (writeRecord_inv h _ _) rfl rfl) _

theorem stop_inv {s : State} (h : s.MemInv) (x : Site) (t : Trap) (mask : Word) (counted : Bool) (resume : Nat) :
    (s.stop x t mask counted resume).MemInv := stopWith_inv h _ _ _ _ _ _

theorem trap_inv {s : State} (h : s.MemInv) (x : Site) (t : Trap) : (s.trap x t).MemInv := stop_inv h _ _ _ _ _

theorem endGroup_inv {s : State} (h : s.MemInv) (gk : Nat) : (s.endGroup gk).MemInv := by
  unfold State.endGroup
  split
  · exact h
  · rename_i g _
    have h2 : ∀ a, ((s.setGroup a).dropAll g.crew g.gid).MemInv := fun a => dropAll_inv (by exact inv_of h rfl rfl) _ _
    simp only
    split
    · exact h2 _
    · exact fold_inv State.MemInv _ (fun _ _ h => unpinReg_inv h _ _ _) _ _ (h2 _)

theorem kill_inv {s : State} (h : s.MemInv) (gk handle : Nat) : (s.kill gk handle).MemInv := countKill_inv (endGroup_inv h _) _

theorem overrun_inv {s : State} (h : s.MemInv) (x : Site) (i1 i2 : Nat) : (s.overrun x i1 i2).MemInv :=
  kill_inv (countTrap_inv (writeRecord_inv h _ _) _) _ _

theorem park_inv {s : State} (h : s.MemInv) (x : Site) (va : Nat) (mask : Word) (counted clone : Bool) :
    (s.park x va mask counted clone).MemInv := by
  unfold State.park
  exact inv_of (writeRecord_inv h _ _) rfl rfl

theorem jobRecord_inv {s : State} (h : s.MemInv) (crew gid : Nat) (j : JobFault) (fl : Nat) :
    (s.jobRecord crew gid j fl).MemInv := by
  unfold State.jobRecord
  split
  · exact h
  · split
    · exact countTrap_inv (writeRecord_inv h _ _) _
    · exact h

theorem jobStop_inv {s : State} (h : s.MemInv) (crew gid : Nat) (j : JobFault) : (s.jobStop crew gid j).MemInv := by
  unfold State.jobStop
  split
  · exact h
  · split <;> exact inv_of h rfl rfl

theorem jobFault_inv {s : State} (h : s.MemInv) (crew gid : Nat) (j : JobFault) (fl : Nat) :
    (s.jobFault crew gid j fl).MemInv := jobStop_inv (jobRecord_inv h _ _ _ _) _ _ _

theorem jobPause_inv {s : State} (h : s.MemInv) (crew gid : Nat) (j : JobFault) : (s.jobPause crew gid j).MemInv := by
  unfold State.jobPause
  split
  · exact h
  · split
    · exact writeRecord_inv h _ _
    · exact h

theorem deliver_inv {s : State} (h : s.MemInv) (gk : Nat) : (s.deliver gk).MemInv := by
  unfold State.deliver
  split
  · exact h
  · split
    · simp only
      split
      · split
        · exact inv_of h rfl rfl
        · exact countTrap_inv (by exact inv_of (writeRecord_inv h _ _) rfl rfl) _
      · exact h
    · exact h

theorem modGroup_inv {s : State} (h : s.MemInv) (gk : Nat) (f : Group → Group) : (s.modGroup gk f).MemInv := by
  unfold State.modGroup
  split <;> exact inv_of h rfl rfl

theorem prepTemps_inv {s : State} (h : s.MemInv) (x : Site) (whole : Bool) (dst : List Opd) : (s.prepTemps x whole dst).MemInv := by
  unfold State.prepTemps
  simp only
  split
  · exact h
  · split <;> exact inv_of h rfl rfl

theorem notePast_inv {s : State} (h : s.MemInv) (crew a : Nat) (old : List Byte) (grp : Bool) : (s.notePast crew a old grp).MemInv := by
  have := (notePast_notes s crew a old grp).rest
  rw [this]; exact h

theorem noteRegs_inv {s : State} (h : s.MemInv) (crew : Nat) (old new : Group) (dst : List Opd) : (s.noteRegs crew old new dst).MemInv := by
  have := (noteRegs_notes s crew old new dst).rest
  rw [this]; exact h

theorem settle_inv {s : State} (h : s.MemInv) (x : Site) : (s.settle x).MemInv := by
  unfold State.settle
  split
  · exact h
  · simp only
    split
    · exact inv_of h rfl rfl
    · exact overrun_inv (by exact inv_of h rfl rfl) _ _ _

theorem resume_inv {s : State} (h : s.MemInv) (gk : Nat) : (s.resume gk).MemInv := by
  unfold State.resume
  split
  · exact h
  · split
    · split
      · split
        · simp only
          split
          · exact inv_of h rfl rfl
          · exact settle_inv (by exact inv_of h rfl rfl) _
        · exact stop_inv (by exact inv_of h rfl rfl) _ _ _ _ _
      · exact h
    · exact h

theorem finish_inv {s : State} (h : s.MemInv) (x : Site) (dst : List Opd) : (s.finish x dst).MemInv := by
  unfold State.finish
  split
  · exact h
  · rename_i g _
    have h2 : ∀ a, ((if s.watched x.c then s.noteRegs x.c.id x.g g dst else s).setGroup a).MemInv := by
      intro a
      split
      · exact inv_of (noteRegs_inv h _ _ _ _) rfl rfl
      · exact inv_of h rfl rfl
    simp only
    split
    · exact h2 _
    · exact settle_inv (h2 _) _

theorem waitFor_inv {s : State} (h : s.MemInv) (q : Queue) (x : Site) : (s.waitFor q x).MemInv := by
  unfold State.waitFor
  simp only
  split <;> exact inv_of h rfl rfl

theorem unwait_inv {s : State} (h : s.MemInv) (x : Site) : (s.unwait x).MemInv := h

theorem blockOn_inv {s : State} (h : s.MemInv) (x : Site) (b : Block) : (s.blockOn x b).MemInv := by
  unfold State.blockOn
  split <;> exact inv_of h rfl rfl

theorem gather_inv {s t : State} (h : s.MemInv) {x y : Site} (e : s.gather x = some (t, y)) : t.MemInv := by
  unfold State.gather at e
  simp only at e
  split at e
  · simp only [Option.some.injEq, Prod.mk.injEq] at e
    rw [← e.1]; exact inv_of h rfl rfl
  · simp at e

/-! Outcomes: a next state that keeps the form. -/

/-- An outcome that is a next state with canonical memories. -/
def OutInv (o : Out) : Prop := ∃ t, o = .next t ∧ t.MemInv

theorem next_inv {t : State} (h : t.MemInv) : OutInv (.next t) := ⟨t, rfl, h⟩

theorem atSite_inv {s : State} (h : s.MemInv) (k : Site → Out) (hk : ∀ x, OutInv (k x)) : OutInv (s.atSite k) := by
  unfold State.atSite
  split
  · exact next_inv h
  · exact hk _

theorem atPoint_inv {s : State} (h : s.MemInv) (x : Site) (k : State → Site → Out) (hk : ∀ t y, t.MemInv → OutInv (k t y)) :
    OutInv (s.atPoint x k) := by
  unfold State.atPoint
  split
  · rename_i t y e
    exact hk t y (gather_inv h e)
  · exact next_inv (settle_inv (by exact inv_of h rfl rfl) _)

theorem commit_inv {s : State} (h : s.MemInv) (x : Site) (e : Word) (dst src : List Opd) (f : Group → Group) :
    (s.commit x e dst src f).MemInv := finish_inv (modGroup_inv h _ _) _ _

theorem count_inv {s : State} (h : s.MemInv) (die ctx tensor : Nat) (e : Ev) : (s.count die ctx tensor e).MemInv := h

theorem alu_inv {s : State} (h : s.MemInv) (hd : Hdr) (d : Opd) (src : List Opd) (f : Site → Nat → Word) : OutInv (s.alu hd d src f) :=
  atSite_inv h _ (fun _ => next_inv (commit_inv (prepTemps_inv h _ _ _) _ _ _ _ _))

theorem alu64_inv {s : State} (h : s.MemInv) (hd : Hdr) (d : Opd) (src : List Opd) (f : Site → Nat → DWord) :
    OutInv (s.alu64 hd d src f) :=
  atSite_inv h _ (fun _ => next_inv (commit_inv (prepTemps_inv h _ _ _) _ _ _ _ _))

theorem aluEv_inv {s : State} (h : s.MemInv) (hd : Hdr) (d : Opd) (src : List Opd) (f : Site → Nat → Word × Ev) :
    OutInv (s.aluEv hd d src f) := by
  unfold State.aluEv
  apply atSite_inv h
  intro x
  apply next_inv
  apply commit_inv
  apply prepTemps_inv
  exact h

theorem uni_inv {s : State} (h : s.MemInv) (hd : Hdr) (k : Site → Word → Out) (dst : List Opd) (hk : ∀ x e, OutInv (k x e)) :
    OutInv (s.uni hd k dst) := by
  unfold State.uni State.atSite
  cases hx : s.site? with
  | none => exact next_inv h
  | some x =>
    dsimp only
    generalize x.umask hd = e
    by_cases he : e = 0#32
    · rw [if_pos he]; exact next_inv (finish_inv (prepTemps_inv h _ _ _) _ _)
    · rw [if_neg he]; exact hk _ _

/-! The crew's space, and the accesses of threads. -/

theorem setCrew_inv {s : State} (h : s.MemInv) (c : Crew) : (s.setCrew c).MemInv := h
theorem setGroup_inv {s : State} (h : s.MemInv) (g : Group) : (s.setGroup g).MemInv := h
theorem setLaunch_inv {s : State} (h : s.MemInv) (l : Launch) : (s.setLaunch l).MemInv := h
theorem draw_inv {s : State} (h : s.MemInv) : s.draw.1.MemInv := h

theorem scrWrite_inv {s : State} (h : s.MemInv) (crew gid a : Nat) (xs : List Byte) (grp : Bool) :
    (s.scrWrite crew gid a xs grp).MemInv := by
  have h1 := notePast_inv h crew a (s.scrRead crew gid a xs.length) grp
  unfold State.scrWrite
  simp only
  split
  · exact h1
  · split
    · exact setCrew_inv h1 _
    · split
      · exact setCrew_inv h1 _
      · exact modGroup_inv (setCrew_inv h1 _) _ _

theorem noteLine_inv {s : State} (h : s.MemInv) (crew cls a n : Nat) : (s.noteLine crew cls a n).MemInv := by
  unfold State.noteLine
  split
  · split
    · exact h
    · exact setCrew_inv h _
  · exact h

/-- An access that, where it is done, keeps the form. -/
def AccInv (a : Acc) : Prop := ∀ t w ev, a = .ok t w ev → t.MemInv

theorem acc_bad (c : BitVec 8) (n : Nat) : AccInv (.bad c n) := fun _ _ _ e => by simp at e
theorem acc_hold : AccInv .hold := fun _ _ _ e => by simp at e
theorem acc_early : AccInv .early := fun _ _ _ e => by simp at e
theorem acc_ok {t : State} (h : t.MemInv) (w : DWord) (ev : Ev) : AccInv (.ok t w ev) := fun _ _ _ e => by
  simp only [Acc.ok.injEq] at e; rw [← e.1]; exact h

theorem loadAt_inv {s : State} (h : s.MemInv) (x : Site) (a n : Nat) (dev : Bool) : AccInv (x.loadAt s a n dev) := by
  unfold Site.loadAt
  split
  · exact acc_bad _ _
  · split
    · exact acc_bad _ _
    · exact acc_hold
    · exact acc_ok (load_inv h _ _ _ _ _) _ _

theorem storeAt_inv {s : State} (h : s.MemInv) (x : Site) (a n val : Nat) (dev : Bool) : AccInv (x.storeAt s a n val dev) := by
  unfold Site.storeAt
  split
  · exact acc_bad _ _
  · split
    · exact acc_bad _ _
    · exact acc_hold
    · exact acc_ok (noteLine_inv (store_inv (logStore_inv h _ _ _ _) _ _ _ _ _ _) _ _ _ _) _ _

theorem ldsAt_inv {s : State} (h : s.MemInv) (x : Site) (a n : Nat) : AccInv (x.ldsAt s a n) := by
  unfold Site.ldsAt
  split
  · exact acc_bad _ _
  · split
    · exact acc_bad _ _
    · split
      · exact acc_bad _ _
      · exact acc_ok h _ _

theorem stsAt_inv {s : State} (h : s.MemInv) (x : Site) (a n val : Nat) : AccInv (x.stsAt s a n val) := by
  unfold Site.stsAt
  split
  · exact acc_bad _ _
  · split
    · exact acc_bad _ _
    · exact acc_ok (scrWrite_inv h _ _ _ _ _) _ _

theorem scaleAt_inv {s : State} (h : s.MemInv) (x : Site) (r : Rec) (e : Nat) : AccInv (x.scaleAt s r e) := by
  unfold Site.scaleAt
  split
  · exact acc_ok h _ _
  · split <;> exact loadAt_inv h _ _ _ _

theorem elemBytes_error {x : Site} {s : State} {r : Rec} {idx off : Nat} {wr : Bool} {a : Acc}
    (e : x.elemBytes s r idx off wr = .error a) : AccInv a := by
  unfold Site.elemBytes at e
  simp only at e
  split at e
  · simp only [Except.error.injEq] at e; rw [← e]; exact acc_bad _ _
  · simp only [Except.error.injEq] at e; rw [← e]; exact acc_hold
  · simp at e

theorem elemLoadAt_inv {s : State} (h : s.MemInv) (x : Site) (r : Rec) (idx e : Nat) : AccInv (x.elemLoadAt s r idx e) := by
  unfold Site.elemLoadAt
  split
  · split
    · rename_i he; exact elemBytes_error he
    · simp only
      split
      · rename_i hs
        exact acc_ok (scaleAt_inv (load_inv h _ _ _ _ _) _ _ _ _ _ _ hs) _ _
      · exact scaleAt_inv (load_inv h _ _ _ _ _) _ _ _
  · exact acc_bad _ _

theorem codeStoreAt_inv {s : State} (h : s.MemInv) (x : Site) (r : Rec) (idx e code : Nat) (ev : Ev) :
    AccInv (x.codeStoreAt s r idx e code ev) := by
  unfold Site.codeStoreAt
  split
  · split
    · rename_i he; exact elemBytes_error he
    · apply acc_ok
      apply noteLine_inv
      apply store_inv
      apply logStore_inv
      split
      · exact h
      · exact load_inv h _ _ _ _ _
  · exact acc_bad _ _

theorem sweep_inv (f : State → Nat → Acc) (hf : ∀ t i, t.MemInv → AccInv (f t i)) (l : List Nat) (w : Sweep)
    (h : w.s.MemInv) : (sweep f l w).s.MemInv := by
  induction l generalizing w with
  | nil => exact h
  | cons i r ih =>
    unfold sweep
    split
    · rename_i e
      exact ih _ (hf _ _ h _ _ _ e)
    · exact ih _ h
    · exact ih _ h
    · exact ih _ h

theorem partly_inv {s : State} (h : s.MemInv) (x : Site) (m : Word) (dst : List Opd) : (s.partly x m dst).MemInv := by
  unfold State.partly
  apply prepTemps_inv
  split
  · split
    · exact noteRegs_inv h _ _ _ _
    · exact h
  · exact h

theorem conclude_inv {s : State} (h : s.MemInv) (x : Site) (bads : List (Nat × BitVec 8 × Nat)) (dst : List Opd) :
    (s.conclude x bads dst).MemInv := by
  unfold State.conclude
  split
  · exact finish_inv h _ _
  · simp only
    split
    · exact park_inv (partly_inv h _ _ _) _ _ _ _ _
    · exact stop_inv (partly_inv h _ _ _) _ _ _ _ _

theorem awaitTurn_inv {s : State} (h : s.MemInv) (x : Site) (bads : List (Nat × BitVec 8 × Nat)) (late : List Nat) (dst : List Opd) :
    (s.awaitTurn x bads late dst).MemInv := by
  unfold State.awaitTurn
  simp only
  split
  · exact modGroup_inv (partly_inv h _ _ _) _ _
  · exact modGroup_inv (conclude_inv (partly_inv h _ _ _) _ _ _) _ _

theorem giveBack_inv {s : State} (h : s.MemInv) (x : Site) (uni : Bool) (r : Ret) (vals : List (Nat × DWord)) :
    (s.giveBack x uni r vals).MemInv := by
  unfold State.giveBack
  split
  · exact h
  · exact modGroup_inv h _ _
  · split
    · exact h
    · exact modGroup_inv h _ _

theorem coverMem_inv {s : State} (h : s.MemInv) (b : BufId) (ctx : Nat) (l : List (Nat × Nat)) : (s.coverMem b ctx l).MemInv := by
  unfold State.coverMem
  split <;> exact inv_of h rfl rfl

theorem coverScr_inv {s : State} (h : s.MemInv) (crew : Nat) (l : List (Nat × Nat)) : (s.coverScr crew l).MemInv := by
  unfold State.coverScr
  split
  · split <;> exact inv_of h rfl rfl
  · exact h

theorem memOp_inv {s : State} (h : s.MemInv) (hd : Hdr) (ops : List Opd) (r : Ret) (tensor : Site → Nat)
    (f : Site → State → Nat → Acc) (hf : ∀ x t i, t.MemInv → AccInv (f x t i)) (after : After := noMore)
    (ha : ∀ x l t, State.MemInv t → (after x l t).MemInv := by exact fun _ _ _ h => h) :
    OutInv (s.memOp hd ops r tensor f after) := by
  unfold State.memOp
  apply atSite_inv h
  intro x
  dsimp only
  generalize hs : sweep (f x) (lanes (x.emask hd ops)) _ = w
  have hw : w.s.MemInv := by
    rw [← hs]; exact sweep_inv (f x) (hf x) _ _ (prepTemps_inv h _ _ _)
  split
  · exact next_inv h
  · have h2 := ha x (w.vals.map (·.1)) _ hw
    split
    · exact next_inv (conclude_inv (modGroup_inv (giveBack_inv (count_inv h2 _ _ _ _) _ _ _ _) _ _) _ _ _)
    · exact next_inv (awaitTurn_inv (modGroup_inv (giveBack_inv (count_inv h2 _ _ _ _) _ _ _ _) _ _) _ _ _ _)

theorem accMap_inv {a : Acc} (h : AccInv a) (f : DWord → DWord) : AccInv (a.map f) := by
  unfold Acc.map
  split
  · exact acc_ok (h _ _ _ rfl) _ _
  · exact h

end Sys2Proof.Machine
end

