-- ==== Sys2Proof/Laws/MemorySteps.lean ====
section
/-!
SUPPORT. The larger operations keep the canonical form of both memories: copy engines, KV records, device jobs, accepted
launches, and the memory, control and synchronisation instructions, each of which answers a next state.
-/

namespace Sys2Proof.Machine

/-! Copy engines. -/

theorem setQueue_inv {s : State} (h : s.MemInv) (e : Nat) (jobs : List Job) : (s.setQueue e jobs).MemInv := h
theorem setJob_inv {s : State} (h : s.MemInv) (e k : Nat) (j : Job) : (s.setJob e k j).MemInv := h

/-- A step of an engine that, where it is done, keeps the form. -/
def MetInv (m : Met) : Prop := ∀ t, m = .ok t → t.MemInv

theorem met_bad (c : BitVec 8) (n : Nat) : MetInv (.bad c n) := fun _ e => by simp at e
theorem met_hold : MetInv .hold := fun _ e => by simp at e
theorem met_ok {t : State} (h : t.MemInv) : MetInv (.ok t) := fun _ e => by
  simp only [Met.ok.injEq] at e; rw [← e]; exact h

theorem putLine_inv {s : State} (h : s.MemInv) (x : BufLine) : (s.putLine x).MemInv := h

theorem engWrite_inv {s t : State} (h : s.MemInv) {die ctx va : Nat} {xs : List Byte}
    (e : s.engWrite die ctx va xs = .ok t) : t.MemInv := by
  unfold State.engWrite at e
  split at e
  · simp at e
  · simp at e
  · simp only at e
    split at e
    · simp only [Except.ok.injEq] at e
      rw [← e]; exact memWrite_inv (logStore_inv h _ _ _ _) _ _
    · simp only [Except.ok.injEq] at e
      rw [← e]; exact putLine_inv (memWrite_inv (logStore_inv h _ _ _ _) _ _) _

theorem engPut_inv {s : State} (h : s.MemInv) (die ctx va cls : Nat) (keys : List Nat) (lo w code : Nat) :
    (s.engPut die ctx va cls keys lo w code).MemInv := by
  have h1 := memWrite_inv (logStore_inv h ctx va keys.length false) keys (bitPut (keys.map (memGet s.mem)) lo w code)
  unfold State.engPut
  simp only
  split
  · refine fold_inv State.MemInv _ (fun t a ht => ?_) _ _ h1
    split
    · exact putLine_inv ht _
    · exact ht
  · exact h1

theorem placeWrite_inv {s : State} (h : s.MemInv) (die : Nat) (j : Job) (p : Place) (off : Nat) (xs : List Byte) :
    MetInv (s.placeWrite die j p off xs) := by
  unfold State.placeWrite
  split
  · exact met_ok (scrWrite_inv h _ _ _ _ _)
  · split
    · rename_i e
      exact met_ok (engWrite_inv h e)
    · exact met_bad _ _
    · exact met_hold
  · exact met_ok h

theorem engCheck_error {s : State} {die ctx va n : Nat} {wr : Bool} {cls idx : Nat} {m : Met}
    (he : s.engCheck die ctx va n wr cls idx = .error m) : MetInv m := by
  unfold State.engCheck at he
  simp only at he
  split at he
  · simp at he
  · simp only [Except.error.injEq] at he; rw [← he]; exact met_bad _ _
  · simp only [Except.error.injEq] at he; rw [← he]; exact met_hold

theorem engElemPut_inv {s : State} (h : s.MemInv) (die ctx : Nat) (r : Rec) (idx e code : Nat) :
    MetInv (s.engElemPut die ctx r idx e code) := by
  unfold State.engElemPut
  split
  · exact met_bad _ _
  · simp only
    split
    · rename_i he; exact engCheck_error he
    · exact met_ok (engPut_inv h _ _ _ _ _ _ _ _)

theorem packedPut_inv {s : State} (h : s.MemInv) (crew gid a k w code : Nat) : (s.packedPut crew gid a k w code).MemInv :=
  scrWrite_inv h _ _ _ _ _

theorem engElem_error {s : State} {die ctx : Nat} {r : Rec} {idx e : Nat} {m : Met} (he : s.engElem die ctx r idx e = .error m) :
    MetInv m := by
  unfold State.engElem at he
  split at he
  · simp only [Except.error.injEq] at he; rw [← he]; exact met_bad _ _
  · simp only at he
    split at he
    · rename_i h1; simp only [Except.error.injEq] at he; rw [← he]; exact engCheck_error h1
    · split at he
      · simp at he
      · simp only [Except.error.injEq] at he; rw [← he]; exact met_bad _ _
      · simp only [Except.error.injEq] at he; rw [← he]; exact met_hold

theorem engScale_error {s : State} {die ctx : Nat} {r : Rec} {e : Nat} {m : Met} (he : s.engScale die ctx r e = .error m) :
    MetInv m := by
  unfold State.engScale at he
  split at he
  · simp at he
  · generalize (if recSmode r = 1 then 1 else 4) = n at he
    dsimp only at he
    split at he
    · simp only [Except.error.injEq] at he; rw [← he]; exact met_bad _ _
    · split at he
      · simp at he
      · simp only [Except.error.injEq] at he; rw [← he]; exact met_bad _ _
      · simp only [Except.error.injEq] at he; rw [← he]; exact met_hold

theorem cvtStep_inv {s : State} (h : s.MemInv) (die : Nat) (j : Job) (k : Nat) : MetInv (s.cvtStep die j k) := by
  unfold State.cvtStep
  simp only
  split
  · rename_i m he
    split at he
    · split at he
      · simp at he
      · rename_i h1
        simp only [Except.error.injEq] at he; rw [← he]; exact engElem_error h1
      · simp only [Except.error.injEq] at he; rw [← he]; exact engScale_error (by assumption)
    · split at he
      · split at he
        · simp only [Except.error.injEq] at he; rw [← he]; exact met_bad _ _
        · simp at he
      · rename_i h1
        simp only [Except.error.injEq] at he; rw [← he]; exact engScale_error h1
    · simp only [Except.error.injEq] at he; rw [← he]; exact met_hold
  · split
    · apply engElemPut_inv; exact h
    · apply met_ok; apply packedPut_inv; exact h
    · exact met_hold

theorem taintJob_inv {s : State} (h : s.MemInv) (die : Nat) (j : Job) : (s.taintJob die j).MemInv := by
  unfold State.taintJob
  simp only
  split
  · refine fold_inv State.MemInv _ (fun t a ht => ?_) _ _ (fold_inv State.MemInv _ (fun t a ht => ?_) _ _ (draw_inv h))
    · split
      · exact scrWrite_inv ht _ _ _ _ _
      · split
        · rename_i e; exact engWrite_inv ht e
        · exact hold_inv ht
        · exact ht
    · split
      · split
        · rename_i e; exact engElemPut_inv ht _ _ _ _ _ _ _ e
        · exact hold_inv ht
        · exact ht
      · exact packedPut_inv ht _ _ _ _ _ _
      · exact ht
  · refine fold_inv State.MemInv _ (fun t a ht => ?_) _ _ (draw_inv h)
    split
    · rename_i e; exact placeWrite_inv ht _ _ _ _ _ _ e
    · exact hold_inv ht
    · exact ht

theorem arrival_inv {s : State} (h : s.MemInv) (crew arv off : Nat) (val : Word) (n : Nat) : (s.arrival crew arv off val n).MemInv := by
  unfold State.arrival
  split
  · exact h
  · split
    · exact setCrew_inv h _
    · split
      · exact setCrew_inv h _
      · exact h

theorem completeJob_inv {s : State} (h : s.MemInv) (e k : Nat) (j : Job) : (s.completeJob e k j).MemInv :=
  arrival_inv (setQueue_inv (taintJob_inv h _ _) _ _) _ _ _ _ _

theorem afterChunk_inv {s : State} (h : s.MemInv) (e k : Nat) (j : Job) (m : Met) (j1 : Job) (hm : MetInv m) :
    (s.afterChunk e k j m j1).MemInv := by
  unfold State.afterChunk
  split
  · exact setJob_inv (hm _ rfl) _ _ _
  · exact h
  · split
    · exact setJob_inv (jobPause_inv h _ _ _) _ _ _
    · exact jobFault_inv (completeJob_inv h _ _ _) _ _ _ _

/-- An index entry that a stream does not take stops it, and holds nothing. -/
theorem streamTake_error {s : State} {j : Job} {r : Rec} {idx w : Nat} {m : Met × Nat} (he : s.streamTake j r idx w = .error m) :
    MetInv m.1 := by
  unfold State.streamTake at he
  simp only at he
  split at he
  · rw [← Except.error.inj he]; exact met_bad _ _
  · split at he
    · rw [← Except.error.inj he]; exact met_bad _ _
    · split at he
      · split at he
        · simp at he
        · rw [← Except.error.inj he]; exact met_bad _ _
      · simp at he

/-- A stream that does not start meets a fault or waits; it has written nothing. -/
theorem streamStep_error {s : State} {die : Nat} {j : Job} {r : Rec} {idx chunk : Nat} {m : Met × Nat}
    (he : s.streamStep die j r idx chunk = .error m) : MetInv m.1 := by
  unfold State.streamStep at he
  simp only at he
  split at he
  · rw [← Except.error.inj he]; exact met_bad _ _
  · split at he
    · rw [← Except.error.inj he]; exact met_hold
    · rw [← Except.error.inj he]; exact met_bad _ _
    · exact streamTake_error he

theorem placeRead_error {s : State} {die : Nat} {j : Job} {p : Place} {off n : Nat} {m : Met}
    (he : s.placeRead die j p off n = .error m) : MetInv m := by
  unfold State.placeRead at he
  split at he
  · split at he
    · simp only [Except.error.injEq] at he; rw [← he]; exact met_bad _ _
    · simp at he
  · split at he
    · simp at he
    · simp only [Except.error.injEq] at he; rw [← he]; exact met_bad _ _
    · simp only [Except.error.injEq] at he; rw [← he]; exact met_hold
  · split at he
    · rename_i h1; simp only [Except.error.injEq] at he; rw [← he]; exact engCheck_error h1
    · split at he
      · simp at he
      · simp only [Except.error.injEq] at he; rw [← he]; exact met_hold
  · simp at he

theorem cpy_inv {s : State} (h : s.MemInv) (hd : Hdr) (form : CpyForm) (d a b : Opd) : OutInv (s.cpy hd form d a b) := by
  unfold State.cpy
  apply uni_inv h
  intro x e
  dsimp only
  split
  · exact next_inv (trap_inv h _ _)
  · split
    · exact next_inv (waitFor_inv h _ _)
    · exact next_inv (finish_inv (setQueue_inv (unwait_inv h _) _ _) _ _)

theorem engineStep_inv {s : State} (h : s.MemInv) (e k off : Nat) : OutInv (execEngineStep e k off s) := by
  unfold execEngineStep
  split
  · exact next_inv h
  · dsimp only
    split
    · exact next_inv h
    · split
      · exact next_inv h
      · split
        · exact next_inv (setJob_inv h _ _ _)
        · rename_i he
          exact next_inv (afterChunk_inv h _ _ _ _ _ (streamStep_error he))
      · split
        · exact next_inv h
        · exact next_inv (afterChunk_inv h _ _ _ _ _ (cvtStep_inv h _ _ _))
      · split
        · exact next_inv h
        · exact next_inv (afterChunk_inv h _ _ _ _ _ (placeWrite_inv h _ _ _ _ _))
      · split
        · exact next_inv h
        · split
          · rename_i he
            exact next_inv (afterChunk_inv h _ _ _ _ _ (placeRead_error he))
          · exact next_inv (afterChunk_inv h _ _ _ _ _ (placeWrite_inv h _ _ _ _ _))

theorem copyJobCompletion_inv {s : State} (h : s.MemInv) (e : Nat) : OutInv (execCopyJobCompletion e s) := by
  unfold execCopyJobCompletion
  split
  · exact next_inv h
  · split
    · exact next_inv h
    · split
      · exact next_inv (completeJob_inv h _ _ _)
      · exact next_inv h

theorem out_ite (p : Prop) [Decidable p] {a b : Out} (ha : OutInv a) (hb : OutInv b) : OutInv (if p then a else b) := by
  split <;> assumption

/-! Computations within one group step (R327). -/

/-- A computation whose value, where it gives one, has a property. -/
def TryHas {α : Type} (P : α → Prop) (r : Try α) : Prop := ∀ a, r = .ok a → P a

theorem try_ok {α : Type} {P : α → Prop} {a : α} (h : P a) : TryHas P (.ok a) := fun _ e => by
  simp only [Except.ok.injEq] at e; rw [← e]; exact h
theorem try_error {α : Type} {P : α → Prop} (e : Halt) : TryHas P (.error e) := fun _ h => by simp at h
theorem try_trap {α : Type} {P : α → Prop} (c : BitVec 8) (n : Nat) : TryHas P (tryTrap (α := α) c n) := try_error _

theorem try_bind {α β : Type} {P : β → Prop} (r : Try α) (f : α → Try β) (hf : ∀ a, r = .ok a → TryHas P (f a)) :
    TryHas P (r >>= f) := by
  intro b e
  cases r with
  | error x => simp [bind, Except.bind] at e
  | ok a => exact hf a rfl b e

theorem try_map {α β : Type} {P : β → Prop} (r : Try α) (f : α → β) (hf : ∀ a, r = .ok a → P (f a)) :
    TryHas P (r.map f) := by
  intro b e
  cases r with
  | error x => simp [Except.map] at e
  | ok a => simp only [Except.map, Except.ok.injEq] at e; rw [← e]; exact hf a rfl

theorem try_foldlM {α σ : Type} {P : σ → Prop} (f : σ → α → Try σ) (hf : ∀ t a, P t → TryHas P (f t a)) (l : List α) (s : σ)
    (h : P s) : TryHas P (l.foldlM f s) := by
  induction l generalizing s with
  | nil => exact try_ok h
  | cons a r ih =>
    rw [List.foldlM_cons]
    exact try_bind _ _ (fun t e => ih t (hf s a h t e))

theorem wr_inv {s : State} (h : s.MemInv) (ctx va n val : Nat) : TryHas State.MemInv (s.wr ctx va n val) := by
  unfold State.wr
  split
  · exact try_ok (memWrite_inv (logOwn_inv h _ _ _ _) _ _)
  · exact try_error _
  · exact try_error _

theorem grpStep_inv {s : State} (h : s.MemInv) (hd : Hdr) (dst : List Opd) (k : Site → Word → Try Out)
    (hk : ∀ x e, TryHas OutInv (k x e)) : OutInv (s.grpStep hd dst k) := by
  unfold State.grpStep
  apply uni_inv h
  intro x e
  split
  · rename_i he; exact hk _ _ _ he
  · exact next_inv h
  · exact next_inv (conclude_inv h _ _ _)
  · exact next_inv (trap_inv h _ _)

theorem noteTab_inv {s : State} (h : s.MemInv) (ctx : Nat) (c : KvCtx) : (s.noteTab ctx c).MemInv := by
  unfold State.noteTab
  simp only
  split <;> exact inv_of h rfl rfl

/-- What an issue notes of the tables in use is all that it changes there (R324). -/
theorem noteUse_only (s : State) (x : Site) (i : Instr) : ∃ k, s.noteUse x i = { s with kvTabs := k } := by
  unfold State.noteUse
  generalize s.kvRecords x i = l
  induction l generalizing s with
  | nil => exact ⟨s.kvTabs, rfl⟩
  | cons a r ih =>
    rw [List.foldl_cons]
    split
    · rename_i c _
      obtain ⟨k, hk⟩ := ih (s.noteTab x.ctx c)
      rw [hk]
      unfold State.noteTab
      dsimp only
      split <;> exact ⟨k, rfl⟩
    · exact ih s

theorem noteUse_inv {s : State} (h : s.MemInv) (x : Site) (i : Instr) : (s.noteUse x i).MemInv := by
  obtain ⟨k, hk⟩ := noteUse_only s x i
  rw [hk]
  exact inv_of h rfl rfl

theorem putFrame_inv {s : State} (h : s.MemInv) (ctx : Nat) (c : KvCtx) (f : Nat) (x : Frame) :
    TryHas State.MemInv (s.putFrame ctx c f x) := wr_inv (noteTab_inv h _ _) _ _ _ _
theorem putEntry_inv {s : State} (h : s.MemInv) (ctx : Nat) (c : KvCtx) (e : Nat) (x : PageEnt) :
    TryHas State.MemInv (s.putEntry ctx c e x) := wr_inv (noteTab_inv h _ _) _ _ _ _
theorem putMap_inv {s : State} (h : s.MemInv) (ctx : Nat) (m n : KvMap) (st : Option Nat) :
    TryHas State.MemInv (s.putMap ctx m n st) := by
  unfold State.putMap
  refine try_bind _ _ (fun s1 h1 => ?_)
  have h1 := wr_inv h _ _ _ _ _ h1
  split
  · exact try_ok h1
  · exact wr_inv h1 _ _ _ _

theorem cloneOne_inv {s : State} (h : s.MemInv) (x : Site) (at_ : Nat) (q : Head) : TryHas State.MemInv (s.cloneOne x at_ q) := by
  unfold State.cloneOne
  refine try_bind _ _ (fun c _ => try_bind _ _ (fun n _ => ?_))
  have h := draw_inv h
  dsimp only
  refine try_bind _ _ (fun t _ => try_bind _ _ (fun _ _ => try_bind _ _ (fun s1 h1 => try_bind _ _ (fun s2 h2 => try_bind _ _ (fun s3 h3 => try_bind _ _ (fun s4 h4 => ?_))))))
  exact try_ok (inv_of (wr_inv (putEntry_inv (putFrame_inv (putFrame_inv h _ _ _ _ _ h1) _ _ _ _ _ h2) _ _ _ _ _ h3) _ _ _ _ _ h4) rfl rfl)

theorem putRow_inv {s : State} (h : s.MemInv) (ctx : Nat) (f : Frame) (at_ ex : Nat) (xs : List Nat) :
    TryHas (fun a => State.MemInv a.1) (s.putRow ctx f at_ ex xs) := by
  unfold State.putRow
  exact try_bind _ _ (fun s1 h1 => try_ok (wr_inv h _ _ _ _ _ h1))

theorem appWrite_inv (x : Site) (c : KvCtx) (src : List Nat) (a : State × Ev) (q : Head) (h : a.1.MemInv) :
    TryHas (fun a => State.MemInv a.1) (State.appWrite x c src a q) := by
  unfold State.appWrite
  have rest : ∀ s1 : State, s1.MemInv → TryHas (fun a : State × Ev => State.MemInv a.1) (do
      let es := fmtBytes q.frame.fmt
      let row := q.frame.data + q.slot * c.hd * es
      let k ← s1.putRow x.ctx q.frame row q.frame.kexp ((src.drop (q.h * c.hd)).take c.hd)
      let v ← k.1.putRow x.ctx q.frame (row + 4096) q.frame.vexp ((src.drop ((c.heads + q.h) * c.hd)).take c.hd)
      let s2 ← v.1.putFrame x.ctx c q.ent.frame { q.frame with fill := q.slot + 1 }
      .ok (s2, (a.2.plus k.2).plus v.2)) := by
    intro s1 h1
    refine try_bind _ _ (fun k hk => try_bind _ _ (fun v hv => try_bind _ _ (fun s2 h2 => ?_)))
    exact try_ok (putFrame_inv (putRow_inv (putRow_inv h1 _ _ _ _ _ _ hk) _ _ _ _ _ _ hv) _ _ _ _ _ h2)
  dsimp only
  split
  · exact try_bind _ _ (fun s1 h1 => rest s1 (putEntry_inv h _ _ _ _ _ h1))
  · exact rest a.1 h

theorem parkClone_inv {s : State} (h : s.MemInv) (x : Site) (e : Word) (va : Nat) : (s.parkClone x e va).MemInv :=
  modGroup_inv (park_inv h _ _ _ _ _) _ _

theorem kvapp_inv {s : State} (h : s.MemInv) (hd : Hdr) (a b : Opd) : OutInv (execKvapp hd a b s) := by
  unfold execKvapp
  apply grpStep_inv h
  intro x e
  refine try_bind _ _ (fun c _ => try_bind _ _ (fun m _ => ?_))
  refine try_bind _ _ (fun hs _ => try_bind _ _ (fun _ _ => try_bind _ _ (fun src _ => ?_)))
  dsimp only
  split
  · have rest : TryHas OutInv (do
        let s1 ← (hs.filter Head.clones).foldlM (fun s q => s.cloneOne x c.at_ q) s
        .ok (.next (s1.parkClone x e c.at_))) := by
      refine try_bind _ _ (fun s1 h1 => ?_)
      exact try_ok (next_inv (parkClone_inv (try_foldlM _ (fun t q ht => cloneOne_inv ht _ _ _) _ _ h _ h1) _ _ _))
    split
    · exact try_error _
    · exact rest
  · refine try_bind _ _ (fun _ _ => try_bind _ _ (fun w hw => ?_))
    have h1 := try_foldlM (P := fun a => State.MemInv a.1) _ (fun t q ht => appWrite_inv x c src t q ht) _ _ h _ hw
    exact try_ok (next_inv (finish_inv (count_inv h1 _ _ _ _) _ _))

theorem shareOne_inv {s : State} (h : s.MemInv) (ctx : Nat) (cs cd : KvCtx) (t : Nat × Nat × Nat) :
    TryHas State.MemInv (State.shareOne ctx cs cd s t) := by
  unfold State.shareOne
  refine try_bind _ _ (fun f _ => try_bind _ _ (fun _ _ => try_bind _ _ (fun s1 h1 => try_bind _ _ (fun s2 h2 =>
    try_bind _ _ (fun a _ => ?_)))))
  exact putEntry_inv (putEntry_inv (putFrame_inv h _ _ _ _ _ h1) _ _ _ _ _ h2) _ _ _ _

theorem pgshare_inv {s : State} (h : s.MemInv) (hd : Hdr) (a : Opd) : OutInv (execPgshare hd a s) := by
  unfold execPgshare
  apply grpStep_inv h
  intro x e
  refine try_bind _ _ (fun cs _ => try_bind _ _ (fun cd _ => ?_))
  dsimp only
  refine try_bind _ _ (fun _ _ => try_bind _ _ (fun _ _ => try_bind _ _ (fun _ _ => try_bind _ _ (fun fs _ =>
    try_bind _ _ (fun s1 h1 => ?_)))))
  exact try_ok (next_inv (finish_inv (try_foldlM _ (fun t q ht => shareOne_inv ht _ _ _ _) _ _ h _ h1) _ _))

theorem relOne_inv {s : State} (h : s.MemInv) (ctx : Nat) (c : KvCtx) (seed : Nat) (t : Nat × Nat) :
    TryHas State.MemInv (State.relOne ctx c seed s t) := by
  unfold State.relOne
  refine try_bind _ _ (fun f _ => try_bind _ _ (fun s1 h1 => ?_))
  exact putEntry_inv (putFrame_inv h _ _ _ _ _ h1) _ _ _ _

theorem reclaims_inv {s : State} (h : s.MemInv) (die ctx : Nat) (l : List DWord) :
    (l.foldl (fun s f => (s.reclaimName die ctx f).1) s).MemInv :=
  fold_inv State.MemInv _ (fun _ _ h => reclaimName_inv h _ _ _) _ s h

theorem pgrel_inv {s : State} (h : s.MemInv) (hd : Hdr) (a : Opd) : OutInv (execPgrel hd a s) := by
  unfold execPgrel
  apply grpStep_inv h
  intro x e
  dsimp only [State.draw]
  refine try_bind _ _ (fun c _ => ?_)
  refine try_bind _ _ (fun _ _ => try_bind _ _ (fun all _ => try_bind _ _ (fun z _ => ?_)))
  have rest : ∀ (z : List DWord) (es : List (Nat × Nat)), TryHas OutInv (do
      let s1 ← es.foldlM (State.relOne x.ctx c s.free) { s with free := s.free + 1 }
      .ok (.next ((z.foldl (fun s f => (s.reclaimName x.c.die x.ctx f).1) s1).finish x []))) := fun z es =>
    try_bind _ _ (fun s1 h1 => try_ok (next_inv (finish_inv (reclaims_inv (try_foldlM (P := State.MemInv) _
      (fun t q ht => relOne_inv ht _ _ _ _) _ _ (by exact inv_of h rfl rfl) _ h1) _ _ _) _ _)))
  split
  · exact try_bind _ _ (fun a e => by simp [tryTrap] at e)
  · exact rest _ _

theorem extChange_inv {s : State} (h : s.MemInv) (hd : Hdr) (a : Opd) (st : Site → Option Nat)
    (f : Site → KvMap → Try (Option KvMap)) : OutInv (s.extChange hd a st f) := by
  unfold State.extChange
  apply grpStep_inv h
  intro x e
  refine try_bind _ _ (fun m _ => try_bind _ _ (fun n _ => ?_))
  dsimp only
  split
  · exact try_ok (next_inv (finish_inv h _ _))
  · exact try_bind _ _ (fun s1 h1 => try_ok (next_inv (finish_inv (putMap_inv h _ _ _ _ _ h1) _ _)))

theorem qclear_inv {s : State} (h : s.MemInv) (hd : Hdr) (a b : Opd) : OutInv (execQclear hd a b s) := by
  unfold execQclear
  apply grpStep_inv h
  intro x e
  refine try_bind _ _ (fun c _ => ?_)
  dsimp only
  refine try_bind _ _ (fun f _ => try_bind _ _ (fun s1 h1 => ?_))
  exact try_ok (next_inv (finish_inv (putFrame_inv h _ _ _ _ _ h1) _ _))

/-! Device jobs. -/

theorem setDjob_inv {s : State} (h : s.MemInv) (j : Nat) (x : DevJob) : (s.setDjob j x).MemInv := h

theorem devMet_inv {s : State} (h : s.MemInv) (j : Nat) (x x1 : DevJob) (m : Met) (hm : MetInv m)
    (fl : Nat) : (s.devMet j x x1 m fl).MemInv := by
  unfold State.devMet
  split
  · exact setDjob_inv (hm _ rfl) _ _
  · exact h
  · dsimp only
    split
    · exact setDjob_inv (jobPause_inv (draw_inv h) _ _ _) _ _
    · apply jobFault_inv
      split
      · apply modGroup_inv; exact inv_of h rfl rfl
      · exact setDjob_inv (draw_inv h) _ _

theorem devRead_error {s : State} {ctx va n : Nat} {m : Met} (e : s.devRead ctx va n = .error m) : MetInv m := by
  unfold State.devRead at e
  split at e
  · simp at e
  · simp only [Except.error.injEq] at e; rw [← e]; exact met_bad _ _
  · simp only [Except.error.injEq] at e; rw [← e]; exact met_hold

theorem cloneStep_inv {s : State} (h : s.MemInv) (x : DevJob) (src dst n off : Nat) : MetInv (s.cloneStep x src dst n off) := by
  unfold State.cloneStep
  split
  · rename_i e; exact devRead_error e
  · split
    · exact met_ok (memWrite_inv (logOwn_inv h _ _ _ _) _ _)
    · exact met_bad _ _
    · exact met_hold

theorem compareStep_error {s : State} {x : DevJob} {a b off n : Nat} {m : Met} (e : s.compareStep x a b off n = .error m) :
    MetInv m := by
  unfold State.compareStep at e
  split at e
  · simp at e
  · simp only [Except.error.injEq] at e; rw [← e]; exact devRead_error (by assumption)
  · simp only [Except.error.injEq] at e; rw [← e]; exact devRead_error (by assumption)

theorem keyMet_inv {s : State} {k : Nat} {m : Met} (e : s.keyMet k = some m) : MetInv m := by
  unfold State.keyMet at e
  repeat' split at e
  all_goals first
    | (simp only [Option.some.injEq] at e; rw [← e]; first | exact met_bad _ _ | exact met_hold)
    | simp at e

theorem migrateStep_inv {s : State} (h : s.MemInv) (src dst n off : Nat) : MetInv (s.migrateStep src dst n off) := by
  unfold State.migrateStep
  split
  · rename_i m e
    rcases hs : s.keyMet (src + off) with _ | a
    · rw [hs] at e; exact keyMet_inv e
    · rw [hs] at e; simp only [Option.or] at e; rw [← Option.some.inj e]; exact keyMet_inv hs
  · split
    · exact met_bad _ _
    · exact met_ok (memWrite_inv h _ _)

theorem migrateFails_inv {s : State} (h : s.MemInv) (j : Nat) (x : DevJob) (c : BitVec 8) (i : Nat) :
    (s.migrateFails j x c i).MemInv := by
  unfold State.migrateFails
  exact writeRecord_inv (by exact inv_of h rfl rfl) _ _

theorem deviceJobStep_inv {s : State} (h : s.MemInv) (d j off : Nat) : OutInv (execDeviceJobStep d j off s) := by
  unfold execDeviceJobStep
  split
  · exact next_inv h
  · split
    · exact next_inv h
    · split
      · dsimp only
        split
        · exact next_inv h
        · exact next_inv (devMet_inv h _ _ _ _ (cloneStep_inv h _ _ _ _ _) _)
      · dsimp only
        split
        · exact next_inv h
        · split
          · rename_i e; exact next_inv (setDjob_inv (migrateStep_inv h _ _ _ _ _ e) _ _)
          · exact next_inv h
          · exact next_inv (migrateFails_inv h _ _ _ _)
      · dsimp only
        split
        · exact next_inv h
        · split
          · exact next_inv (devMet_inv h _ _ _ _ (compareStep_error (by assumption)) _)
          · exact next_inv (setDjob_inv h _ _)

theorem endClonePark_inv {s : State} (h : s.MemInv) (gk : Nat) : (s.endClonePark gk).MemInv := modGroup_inv h _ _

theorem cloneClear_inv {s : State} (h : s.MemInv) (x : DevJob) (at_ : Nat) : MetInv (s.cloneClear x at_) := by
  unfold State.cloneClear
  split
  · rename_i e; exact devRead_error e
  · exact met_ok (memWrite_inv (logOwn_inv h _ _ _ _) _ _)
  · exact met_bad _ _
  · exact met_hold

theorem cloneEnd_inv {s : State} (h : s.MemInv) (j : Nat) (x : DevJob) (name : DWord) : (s.cloneEnd j x name).MemInv := by
  unfold State.cloneEnd
  exact endClonePark_inv (removePin_inv (by exact inv_of h rfl rfl) _) _

theorem cloneCompletion_inv {s : State} (h : s.MemInv) (d j : Nat) : OutInv (execCloneCompletion d j s) := by
  unfold execCloneCompletion
  split
  · exact next_inv h
  · split
    · split
      · exact next_inv h
      · split
        · rename_i e; exact next_inv (cloneEnd_inv (cloneClear_inv h _ _ _ e) _ _ _)
        · exact next_inv h
        · exact out_ite _ (next_inv (devMet_inv h _ _ _ _ (met_bad _ _) _))
            (next_inv (jobFault_inv (cloneEnd_inv h _ _ _) _ _ _ _))
    · exact next_inv h

/-! Counted tiles, memory instructions, atomics. -/

theorem consume_inv {s : State} (h : s.MemInv) (t : Tile) : (s.consume t).MemInv := by
  unfold State.consume
  split <;> exact inv_of h rfl rfl

theorem setTile_inv {s : State} (h : s.MemInv) (t : Tile) : (s.setTile t).MemInv := h

theorem fillc_inv {s : State} (h : s.MemInv) (hd : Hdr) (d a b : Opd) : OutInv (execFillc hd d a b s) := by
  unfold execFillc
  apply uni_inv h
  intro x e
  dsimp only
  split
  · exact next_inv (trap_inv h _ _)
  · split
    · exact next_inv (conclude_inv h _ _ _)
    · split
      · exact next_inv (waitFor_inv h _ _)
      · split
        · exact next_inv (conclude_inv h _ _ _)
        · exact next_inv h
        · split
          · exact next_inv (waitFor_inv h _ _)
          · exact next_inv (finish_inv (giveBack_inv (unwait_inv (by exact inv_of h rfl rfl) _) _ _ _ _) _ _)

theorem withTile_inv {s : State} (h : s.MemInv) (hd : Hdr) (ops : List Opd) (a : Opd) (k : Site → Word → Option Tile → Out)
    (hk : ∀ x e t, OutInv (k x e t)) : OutInv (s.withTile hd ops a k) := by
  unfold State.withTile
  apply atSite_inv h
  intro x
  dsimp only
  split
  · exact hk _ _ _
  · split
    · exact next_inv (trap_inv h _ _)
    · exact hk _ _ _

theorem tileAcc_inv (t : Option Tile) (off n : Nat) (k : Tile → Acc) (hk : ∀ t, AccInv (k t)) : AccInv (tileAcc t off n k) := by
  unfold tileAcc
  split
  · exact acc_hold
  · split
    · exact acc_bad _ _
    · split
      · exact acc_bad _ _
      · exact hk _

theorem ldcLast_inv {s : State} (h : s.MemInv) (last ok : Bool) (t : Option Tile) : (s.ldcLast last ok t).MemInv := by
  unfold State.ldcLast
  split
  · split
    · exact consume_inv h _
    · exact h
  · exact h

theorem ldc_inv {s : State} (h : s.MemInv) (hd : Hdr) (w : LdW) (last : Bool) (d a b : Opd) : OutInv (execLdc hd w last d a b s) := by
  unfold execLdc
  apply withTile_inv h
  intro x e t
  dsimp only
  generalize hs : sweep _ (lanes e) _ = sw
  have hw : sw.s.MemInv := by
    rw [← hs]
    exact sweep_inv _ (fun t1 i ht => tileAcc_inv _ _ _ _ (fun _ => by
      split
      · exact acc_bad _ _
      · exact acc_ok ht _ _)) _ _ h
  exact next_inv (conclude_inv (modGroup_inv (giveBack_inv (ldcLast_inv hw _ _ _) _ _ _ _) _ _) _ _ _)

theorem coverTile_inv {s : State} (h : s.MemInv) (t : Option Tile) (l : List (Nat × Nat)) : (s.coverTile t l).MemInv := by
  unfold State.coverTile
  split
  · split
    · exact h
    · exact setTile_inv h _
  · exact h

theorem stc_inv {s : State} (h : s.MemInv) (hd : Hdr) (w : StW) (d a b : Opd) : OutInv (execStc hd w d a b s) := by
  unfold execStc
  apply withTile_inv h
  intro x e t
  dsimp only
  generalize hs : sweep _ (lanes e) _ = sw
  have hw : sw.s.MemInv := by
    rw [← hs]
    refine sweep_inv _ (fun t1 i ht => tileAcc_inv _ _ _ _ (fun _ => ?_)) _ _ h
    split
    · exact acc_ok (setTile_inv (logStore_inv ht _ _ _ _) _) _ _
    · exact acc_hold
  exact next_inv (conclude_inv (coverTile_inv hw _ _) _ _ _)

theorem ld_inv {s : State} (h : s.MemInv) (hd : Hdr) (w : LdW) (d a b : Opd) : OutInv (execLd hd w d a b s) :=
  memOp_inv h _ _ _ _ _ (fun _ _ _ ht => accMap_inv (loadAt_inv ht _ _ _ _) _)

theorem st_inv {s : State} (h : s.MemInv) (hd : Hdr) (w : StW) (d a b : Opd) : OutInv (execSt hd w d a b s) :=
  memOp_inv h _ _ _ _ _ (fun _ _ _ ht => storeAt_inv ht _ _ _ _ _) _ (fun _ _ _ ht => coverMem_inv ht _ _ _)

theorem lds_inv {s : State} (h : s.MemInv) (hd : Hdr) (w : LdW) (d a b : Opd) : OutInv (execLds hd w d a b s) :=
  memOp_inv h _ _ _ _ _ (fun _ _ _ ht => accMap_inv (ldsAt_inv ht _ _ _) _)

theorem sts_inv {s : State} (h : s.MemInv) (hd : Hdr) (w : StW) (d a b : Opd) : OutInv (execSts hd w d a b s) :=
  memOp_inv h _ _ _ _ _ (fun _ _ _ ht => stsAt_inv ht _ _ _ _) _ (fun _ _ _ ht => coverScr_inv ht _ _)

theorem withRecord_inv {s : State} (h : s.MemInv) (hd : Hdr) (ops : List Opd) (idx : Nat) (dest : Bool) (k : Rec → Out)
    (hk : ∀ r, OutInv (k r)) : OutInv (s.withRecord hd ops idx dest k) := by
  unfold State.withRecord
  apply atSite_inv h
  intro x
  split
  · exact next_inv (trap_inv h _ _)
  · split
    · exact hk _
    · exact next_inv (trap_inv h _ _)

theorem ldr_inv {s : State} (h : s.MemInv) (hd : Hdr) (d a b : Opd) : OutInv (execLdr hd d a b s) :=
  withRecord_inv h _ _ _ _ _ (fun _ => memOp_inv h _ _ _ _ _ (fun _ _ _ ht => elemLoadAt_inv ht _ _ _ _))

theorem str_inv {s : State} (h : s.MemInv) (hd : Hdr) (d a b : Opd) : OutInv (execStr hd d a b s) :=
  withRecord_inv h _ _ _ _ _ (fun _ => memOp_inv h _ _ _ _ _ (fun _ _ _ ht => codeStoreAt_inv ht _ _ _ _ _ _) _
    (fun _ _ _ ht => coverMem_inv ht _ _ _))

theorem cmoCleanRange_inv {s : State} (h : s.MemInv) (x : Site) (l : Lvl) (a n : Nat) : (s.cmoCleanRange x l a n).MemInv := by
  unfold State.cmoCleanRange
  dsimp only
  split
  · exact cleanWhere_inv h _ _ _
  · exact cleanWhere_inv (cleanWhere_inv h _ _ _) _ _ _

theorem cmoDropRange_inv {s : State} (h : s.MemInv) (x : Site) (l : Lvl) (a n : Nat) : (s.cmoDropRange x l a n).MemInv := by
  unfold State.cmoDropRange
  dsimp only
  split
  · exact dropWhere_inv h _ _
  · exact dropWhere_inv (dropWhere_inv h _ _) _ _

theorem cmo_inv {s : State} (h : s.MemInv) (hd : Hdr) (a b : Opd) (f : State → Site → Nat → Nat → State)
    (hf : ∀ t x va n, t.MemInv → (f t x va n).MemInv) : OutInv (s.cmo hd a b f) := by
  unfold State.cmo
  apply uni_inv h
  intro x e
  dsimp only
  split
  · exact next_inv h
  · exact next_inv (finish_inv (hf _ _ _ _ h) _ _)

theorem fenceClean_inv {s : State} (h : s.MemInv) (x : Site) (sc : Scope) : (s.fenceClean x sc).MemInv := by
  unfold State.fenceClean
  simp only
  split
  · exact cleanWhere_inv (cleanWhere_inv h _ _ _) _ _ _
  · exact cleanWhere_inv h _ _ _

theorem fence_inv {s : State} (h : s.MemInv) (hd : Hdr) (sc : Scope) : OutInv (execFence hd sc s) :=
  uni_inv h _ _ _ (fun _ _ => next_inv (finish_inv (fenceClean_inv h _ _) _ _))

theorem pin_inv {s : State} (h : s.MemInv) (hd : Hdr) (d a : Opd) : OutInv (execPin hd d a s) := by
  unfold execPin
  apply uni_inv h
  intro x e
  dsimp only
  split
  · exact next_inv (finish_inv (unpinReg_inv h _ _ _) _ _)
  · split
    · exact next_inv (trap_inv h _ _)
    · exact next_inv (finish_inv (pinReg_inv h _ _ _ _) _ _)

theorem unpin_inv {s : State} (h : s.MemInv) (hd : Hdr) (d : Opd) : OutInv (execUnpin hd d s) :=
  uni_inv h _ _ _ (fun _ _ => next_inv (finish_inv (unpinReg_inv h _ _ _) _ _))

theorem reclaim_inv {s : State} (h : s.MemInv) (hd : Hdr) (d a : Opd) : OutInv (execReclaim hd d a s) := by
  unfold execReclaim
  apply uni_inv h
  intro x e
  dsimp only
  split
  · exact next_inv (trap_inv h _ _)
  · split
    · exact next_inv (trap_inv h _ _)
    · exact next_inv (finish_inv (giveBack_inv (reclaimName_inv h _ _ _) _ _ _ _) _ _)

theorem longLatencyWriteback_inv {s : State} (h : s.MemInv) (gk : Nat) : OutInv (execLongLatencyWriteback gk s) := by
  unfold execLongLatencyWriteback
  split
  · exact next_inv h
  · split
    · exact next_inv h
    · exact next_inv (setGroup_inv (noteRegs_inv h _ _ _ _) _)

theorem atomTurn_inv {s t : State} (h : s.MemInv) {x : Site} {scr : Bool} {addr key len i : Nat}
    (e : s.atomTurn x scr addr key len i = some t) : t.MemInv := by
  unfold State.atomTurn at e
  dsimp only at e
  split at e
  · rw [← Option.some.inj e]; exact inv_of h rfl rfl
  · split at e
    · rw [← Option.some.inj e]; exact inv_of h rfl rfl
    · split at e
      · simp at e
      · rw [← Option.some.inj e]; exact inv_of h rfl rfl

theorem atomAt_inv {s : State} (h : s.MemInv) (x : Site) (op : AtomOp) (v : FEnv) (i a b c : Nat) : AccInv (x.atomAt s op v i a b c) := by
  unfold Site.atomAt
  dsimp only
  split
  · exact acc_bad _ _
  · split
    · exact acc_bad _ _
    · exact acc_hold
    · split
      · exact acc_early
      · rename_i e
        exact acc_ok (store_inv (logStore_inv (atomTurn_inv h e) _ _ _ _) _ _ _ _ _ _) _ _

theorem atomsAt_inv {s : State} (h : s.MemInv) (x : Site) (op : AtomOp) (i ad b c : Nat) : AccInv (x.atomsAt s op i ad b c) := by
  unfold Site.atomsAt
  dsimp only
  split
  · exact acc_bad _ _
  · split
    · exact acc_bad _ _
    · split
      · exact acc_bad _ _
      · split
        · exact acc_early
        · rename_i e
          exact acc_ok (scrWrite_inv (atomTurn_inv h e) _ _ _ _ _) _ _

theorem atom_inv {s : State} (h : s.MemInv) (hd : Hdr) (op : AtomOp) (d a b : Opd) : OutInv (execAtom hd op d a b s) :=
  memOp_inv h _ _ _ _ _ (fun _ _ _ ht => atomAt_inv ht _ _ _ _ _ _ _)

theorem red_inv {s : State} (h : s.MemInv) (hd : Hdr) (op : AtomOp) (rnd : Rnd) (ftz : Bool) (a b : Opd) :
    OutInv (execRed hd op rnd ftz a b s) := memOp_inv h _ _ _ _ _ (fun _ _ _ ht => atomAt_inv ht _ _ _ _ _ _ _)

theorem atoms_inv {s : State} (h : s.MemInv) (hd : Hdr) (op : AtomOp) (d a b : Opd) : OutInv (execAtoms hd op d a b s) :=
  memOp_inv h _ _ _ _ _ (fun _ _ _ ht => atomsAt_inv ht _ _ _ _ _ _)

/-! Control. -/

theorem transfer_inv {s : State} (h : s.MemInv) (x : Site) (dst : List Opd) (t : Xfer) : (s.transfer x dst t).MemInv :=
  finish_inv h _ _

theorem br_inv {s : State} (h : s.MemInv) (hd : Hdr) (off : BitVec 16) (rec : Option (BitVec 16)) : OutInv (execBr hd off rec s) :=
  atSite_inv h _ (fun _ => next_inv (transfer_inv h _ _ _))

theorem indirect_inv {s : State} (h : s.MemInv) (hd : Hdr) (a : Opd) : OutInv (s.indirect hd a) := by
  unfold State.indirect
  apply uni_inv h
  intro x e
  dsimp only
  split
  · exact next_inv (transfer_inv h _ _ _)
  · exact next_inv (trap_inv h _ _)

theorem call_inv {s : State} (h : s.MemInv) (hd : Hdr) (d a : Opd) : OutInv (execCall hd d a s) := by
  unfold execCall
  apply uni_inv h
  intro x e
  dsimp only
  exact out_ite _ (next_inv (transfer_inv (modGroup_inv h _ _) _ _ _)) (next_inv (trap_inv h _ _))

theorem exit_inv {s : State} (h : s.MemInv) (hd : Hdr) : OutInv (execExit hd s) :=
  uni_inv h _ _ _ (fun _ _ => next_inv (transfer_inv h _ _ _))

theorem trail_inv {s : State} (h : s.MemInv) (hd : Hdr) (regs : List Opd) : OutInv (execTrail hd regs s) := by
  unfold execTrail
  apply atSite_inv h
  intro x
  dsimp only
  split
  · exact next_inv h
  · split
    · exact next_inv (endGroup_inv (setGroup_inv h _) _)
    · exact next_inv (settle_inv (setGroup_inv h _) _)

theorem illegalWord_inv {s : State} (h : s.MemInv) (c : BitVec 8) (role : Bool) : OutInv (execIllegalWord c role s) :=
  atSite_inv h _ (fun _ => next_inv (stop_inv h _ _ _ _ _))

theorem watchdogOverrun_inv {s : State} (h : s.MemInv) : OutInv (execWatchdogOverrun s) := by
  unfold execWatchdogOverrun
  apply atSite_inv h
  intro x
  split
  · exact next_inv (overrun_inv h _ _ _)
  · exact next_inv h

theorem fragmentReturn_inv {s : State} (h : s.MemInv) (gk : Nat) : OutInv (execFragmentReturn gk s) := by
  unfold execFragmentReturn
  split
  · exact next_inv h
  · split
    · exact next_inv h
    · split
      · exact next_inv (setGroup_inv h _)
      · exact next_inv h

/-! Synchronisation. -/

theorem meet_inv {s : State} (h : s.MemInv) (hd : Hdr) (dst : List Opd) (k : State → Site → Word → Out)
    (hk : ∀ t x e, t.MemInv → OutInv (k t x e)) : OutInv (s.meet hd dst k) := by
  unfold State.meet
  apply atSite_inv h
  intro x0
  apply atPoint_inv h
  intro t x ht
  exact out_ite _ (next_inv (finish_inv ht _ _)) (hk _ _ _ ht)

theorem withBar_inv {s : State} (h : s.MemInv) (x : Site) (l : BarLvl) (idx : BitVec 4) (k : BarInst → Out)
    (hk : ∀ b, OutInv (k b)) : OutInv (s.withBar x l idx k) := by
  unfold State.withBar
  dsimp only
  split
  · exact next_inv (trap_inv h _ _)
  · exact hk _

theorem writeOpt_inv {s : State} (h : s.MemInv) (x : Site) (d : Option Opd) (w : Word) : (s.writeOpt x d w).MemInv := by
  unfold State.writeOpt
  split
  · exact h
  · exact modGroup_inv h _ _

theorem barHalf_inv {s : State} (h : s.MemInv) (x : Site) (b : BarInst) (my : Option Word) (dst : List Opd) :
    OutInv (s.barHalf x b my dst) := by
  unfold State.barHalf
  exact out_ite _ (next_inv (blockOn_inv h _ _)) (next_inv (finish_inv h _ _))

theorem barArriveI_inv {s : State} (h : s.MemInv) (hd : Hdr) (d : Option Opd) (l : BarLvl) (idx : BitVec 4) :
    OutInv (execBarArrive hd d l idx s) := by
  unfold execBarArrive
  apply uni_inv h
  intro x e
  apply withBar_inv h
  intro b
  split
  · exact next_inv (trap_inv h _ _)
  · rename_i he
    exact next_inv (finish_inv (writeOpt_inv (barArrive_inv h he) _ _ _) _ _)

theorem barDropI_inv {s : State} (h : s.MemInv) (hd : Hdr) (d : Option Opd) (l : BarLvl) (idx : BitVec 4) :
    OutInv (execBarDrop hd d l idx s) := by
  unfold execBarDrop
  apply uni_inv h
  intro x e
  apply withBar_inv h
  intro b
  have hb := barDrop_inv h x.c x.l x.g.key b
  exact out_ite _ (next_inv (trap_inv hb _ _)) (next_inv (finish_inv (writeOpt_inv hb _ _ _) _ _))

theorem barWait_inv {s : State} (h : s.MemInv) (hd : Hdr) (l : BarLvl) (idx : BitVec 4) : OutInv (execBarWait hd l idx s) :=
  meet_inv h _ _ _ (fun _ _ _ ht => withBar_inv ht _ _ _ _ (fun _ => barHalf_inv ht _ _ _ _))

theorem barSync_inv {s : State} (h : s.MemInv) (hd : Hdr) (d : Option Opd) (l : BarLvl) (idx : BitVec 4) :
    OutInv (execBarSync hd d l idx s) := by
  unfold execBarSync
  apply meet_inv h
  intro t x e ht
  apply withBar_inv ht
  intro b
  dsimp only
  split
  · exact barHalf_inv ht _ _ _ _
  · split
    · exact next_inv (trap_inv ht _ _)
    · rename_i he
      exact barHalf_inv (writeOpt_inv (barArrive_inv ht he) _ _ _) _ _ _ _

theorem waitStep_inv {s : State} (h : s.MemInv) (x : Site) (all : Bool) (d a : Nat) (dl : Option Nat) (ex : Bool) :
    OutInv (s.waitStep x all d a dl ex) := by
  unfold State.waitStep
  dsimp only
  split
  · exact next_inv h
  · exact next_inv (conclude_inv h _ _ _)
  · exact out_ite _ (next_inv (finish_inv (modGroup_inv h _ _) _ _)) (next_inv (blockOn_inv h _ _))

theorem wait_inv {s : State} (h : s.MemInv) (hd : Hdr) (all : Bool) (d a b : Opd) : OutInv (s.wait hd all d a b) := by
  unfold State.wait
  apply meet_inv h
  intro t x e ht
  split
  · exact next_inv (trap_inv ht _ _)
  · exact waitStep_inv ht _ _ _ _ _ _

theorem waitEvaluation_inv {s : State} (h : s.MemInv) (gk : Nat) : OutInv (execWaitEvaluation gk s) := by
  unfold execWaitEvaluation
  split
  · exact next_inv h
  · split
    · apply waitStep_inv; exact inv_of h rfl rfl
    · exact next_inv h

theorem waitTimeout_inv {s : State} (h : s.MemInv) (gk : Nat) : OutInv (execWaitTimeout gk s) := by
  unfold execWaitTimeout
  split
  · exact next_inv h
  · split
    · split
      · apply waitStep_inv; exact inv_of h rfl rfl
      · exact next_inv h
    · exact next_inv h

theorem awAct_inv {s : State} (h : s.MemInv) (x : Site) (off : Nat) (f : Word → Word) : (s.awAct x off f).MemInv := h

theorem arrvSet_inv {s : State} (h : s.MemInv) (hd : Hdr) (d a : Opd) : OutInv (execArrvSet hd d a s) :=
  uni_inv h _ _ _ (fun _ _ => next_inv (finish_inv (awAct_inv h _ _ _) _ _))

theorem arrvStep_inv {s : State} (h : s.MemInv) (hd : Hdr) (d a : Opd) (sign : Int) : OutInv (s.arrvStep hd d a sign) := by
  unfold State.arrvStep
  apply uni_inv h
  intro x e
  exact out_ite _ (next_inv (trap_inv h _ _)) (next_inv (finish_inv (awAct_inv h _ _ _) _ _))

theorem withSlot_inv {s : State} (h : s.MemInv) (x : Site) (a : Opd) (k : Nat → Out) (hk : ∀ n, OutInv (k n)) :
    OutInv (s.withSlot x a k) := by
  unfold State.withSlot
  split
  · split
    · exact hk _
    · exact next_inv (trap_inv h _ _)
  · exact next_inv (finish_inv h _ _)

theorem ringTake_inv {s : State} (h : s.MemInv) (hd : Hdr) (d a : Opd) (prod lap : Bool) : OutInv (execRingTake hd d a prod lap s) :=
  uni_inv h _ _ _ (fun _ _ => withSlot_inv h _ _ _ (fun _ => next_inv (finish_inv (modGroup_inv h _ _) _ _)))

theorem ringGive_inv {s : State} (h : s.MemInv) (hd : Hdr) (a : Opd) (prod lap : Bool) : OutInv (execRingGive hd a prod lap s) :=
  uni_inv h _ _ _ (fun _ _ => withSlot_inv h _ _ _ (fun _ => next_inv (finish_inv (awAct_inv h _ _ _) _ _)))

theorem forget_inv {s : State} (h : s.MemInv) (gk crew vregs scratch : Nat) (e : LiveEnt) :
    (s.forget gk crew vregs scratch e).MemInv := by
  unfold State.forget
  dsimp only
  have h1 := fun f => modGroup_inv (draw_inv h) gk f
  split
  · exact h1 _
  · exact setCrew_inv (h1 _) _

theorem touchQueue_inv {s : State} (h : s.MemInv) (l : Launch) : (s.touchQueue l).MemInv := by
  unfold State.touchQueue
  split
  · exact h
  · exact touch_inv h _ _ _

theorem touchLives_inv {s : State} (h : s.MemInv) (l : Launch) : (s.touchLives l).MemInv := by
  unfold State.touchLives; exact touchAll_inv h _ _

theorem yield_inv {s : State} (h : s.MemInv) (hd : Hdr) (dl : BitVec 16) : OutInv (execYield hd dl s) := by
  unfold execYield
  apply meet_inv h
  intro t x e ht
  dsimp only
  have h2 := fun f => forget_inv (modGroup_inv (finish_inv ht x []) x.g.key f) x.g.key x.c.id x.vregs x.l.desc.scratch
    (t.liveEntry x.l x.f.pc)
  split
  · apply next_inv
    apply touchLives_inv
    apply touchQueue_inv
    split
    · exact modGroup_inv (h2 _) _ _
    · exact setCrew_inv (modGroup_inv (h2 _) _ _) _
  · exact next_inv (touchLives_inv (touchQueue_inv (h2 _) _) _)

theorem regroupTrap_inv {s : State} (h : s.MemInv) (gk lo hi : Nat) : (s.regroupTrap gk lo hi).MemInv := by
  unfold State.regroupTrap
  split
  · exact h
  · split
    · split
      · exact inv_of (stop_inv (by exact inv_of h rfl rfl) _ _ _ _ _) rfl rfl
      · exact h
    · exact h

theorem regroupDone_inv {s : State} (h : s.MemInv) (ps : List Group) (live : Word) (vregs : Nat) :
    (s.regroupDone ps live vregs).MemInv := by
  unfold State.regroupDone
  dsimp only
  refine fold_inv State.MemInv _ (fun t a ht => ?_) _ _ h
  split
  · split
    · split
      · exact modGroup_inv (finish_inv (setGroup_inv (draw_inv ht) _) _ _) _ _
      · exact draw_inv ht
    · exact draw_inv ht
  · exact endGroup_inv ht _

theorem regroup_inv {s : State} (h : s.MemInv) (hd : Hdr) (a b : Opd) : OutInv (execRegroup hd a b s) := by
  unfold execRegroup
  apply meet_inv h
  intro t x e ht
  dsimp only
  split
  · exact next_inv (trap_inv ht _ _)
  · split
    · exact next_inv (trap_inv ht _ _)
    · split
      · refine next_inv (fold_inv State.MemInv _ (fun u q hu => ?_) _ _ (blockOn_inv ht _ _))
        split
        · exact hu
        · split
          · exact regroupTrap_inv hu _ _ _
          · split
            · exact regroupTrap_inv hu _ _ _
            · exact hu
      · split
        · split
          · exact next_inv (regroupDone_inv (blockOn_inv ht _ _) _ _ _)
          · exact next_inv (fold_inv State.MemInv _ (fun _ _ hu => regroupTrap_inv hu _ _ _) _ _ (blockOn_inv ht _ _))
        · exact next_inv (blockOn_inv ht _ _)

theorem finishGroup_inv {s : State} (h : s.MemInv) (gk : Nat) : (s.finishGroup gk).MemInv := by
  unfold State.finishGroup
  split
  · exact h
  · split
    · split
      · exact finish_inv h _ _
      · exact h
    · exact h

theorem join_inv {s : State} (h : s.MemInv) (hd : Hdr) : OutInv (execJoin hd s) := by
  unfold execJoin
  apply meet_inv h
  intro t x e ht
  dsimp only
  have h1 := blockOn_inv ht x .join
  split
  · split
    · exact next_inv (fold_inv State.MemInv _ (fun _ _ hu => finishGroup_inv hu _) _ _ h1)
    · exact next_inv (setCrew_inv h1 _)
  · exact next_inv h1

/-! Launches and contexts. -/

theorem setCtx_inv {s : State} (h : s.MemInv) (c : Context) : (s.setCtx c).MemInv := h

theorem switches_inv {s : State} (h : s.MemInv) (ctx : Nat) (run : Bool) : (s.switches ctx run).MemInv := by
  unfold State.switches
  dsimp only
  split
  · exact h
  · split <;> exact inv_of h rfl rfl

theorem touchEntry_inv {s : State} (h : s.MemInv) (ctx : Nat) : (s.touchEntry ctx).MemInv := by
  unfold State.touchEntry
  split
  · exact h
  · exact touch_inv h _ _ _

theorem observe_inv {s : State} (h : s.MemInv) (ctx : Nat) : (s.observe ctx).MemInv := by
  have h := touchEntry_inv h ctx
  unfold State.observe
  dsimp only
  split
  · split
    · exact switches_inv (setCtx_inv h _) _ _
    · split
      · exact switches_inv (setCtx_inv h _) _ _
      · exact h
  · split
    · exact switches_inv (setCtx_inv h _) _ _
    · exact h

theorem refuse_inv {s : State} (h : s.MemInv) (ctx done code : Nat) : (s.refuse ctx done code).MemInv := by
  unfold State.refuse
  split
  · exact cohStore_inv (cohStore_inv h _ _ _ _) _ _ _ _
  · exact h

theorem podJoin_inv {s : State} (h : s.MemInv) (l : Launch) : (s.podJoin l).MemInv := h

theorem writeEntry_inv {s : State} (h : s.MemInv) (b : Boot) (e : LogEnt) : (s.writeEntry b e).MemInv :=
  cohStore_inv (fold_inv State.MemInv _ (fun _ _ ht => cohStore_inv ht _ _ _ _) _ s h) _ _ _ _

theorem recordLaunch_inv {s : State} (h : s.MemInv) (b : Boot) (l : Launch) (raw : BitVec 512) (cap put : Nat) :
    (s.recordLaunch b l raw cap put).MemInv := by
  unfold State.recordLaunch
  split
  · exact h
  · dsimp only
    split
    · exact inv_of (cohStore_inv (draw_inv h) _ _ _ _) rfl rfl
    · exact inv_of (writeEntry_inv (draw_inv h) _ _) rfl rfl

theorem replayAccept_inv {s : State} (h : s.MemInv) (l : Launch) (raw : BitVec 512) : (s.replayAccept l raw).MemInv := by
  unfold State.replayAccept
  split
  · dsimp only
    have h1 : ∀ y, State.MemInv { s with sys := y } := fun y => h
    split
    · exact recordLaunch_inv (h1 _) _ _ _ _ _
    · split
      · exact inv_of (touchAll_inv (h1 _) 0 _) rfl rfl
      · exact h1 _
  · split
    · exact h
    · exact touch_inv h _ _ _
  · exact h

theorem touchLaunch_inv {s : State} (h : s.MemInv) (ctx : Nat) (r : LRec) (q : Reads) : (s.touchLaunch ctx r q).MemInv :=
  touch_inv (touchAll_inv h _ _) _ _ _

theorem accept_inv {s : State} (h : s.MemInv) (ctx issuer : Nat) (child : Option Crew) (r : LRec) :
    (s.accept ctx issuer child r).1.MemInv := by
  have h := touchLaunch_inv h ctx r (s.launchReads ctx r)
  unfold State.accept
  dsimp only
  split
  · exact refuse_inv h _ _ _
  · apply replayAccept_inv
    apply cohStore_inv
    apply podJoin_inv
    split
    · exact inv_of h rfl rfl
    · exact inv_of h rfl rfl

end Sys2Proof.Machine
end

