-- ==== Sys2Proof/Tests/Slice0.lean ====
section
/-!
SUPPORT. Tests of the model: ill-formed terms that `wf` refuses, words written out from the manual's encodings, one step of
the instructions on small states, with results from the manual's tables and examples or computed by hand, and for every
statement states and operands that meet its hypotheses.
-/

section
set_option Elab.async false
open Sys2Proof Sys2Proof.Machine

/-- No guard, no hints. -/
def tstH : Hdr := ⟨false, 0, 0, 0, 0⟩

/-- Reset with a `nop` staged: one group of 32 threads on core 0, at address 0x1000. -/
def tstB : State := State.reset.withFetchWord 96 0xC40000000000000000000000

/-- The staged state with its group, crew and launch changed. -/
def tstWith (fg : Group → Group) (fc : Crew → Crew) (fl : Launch → Launch) : State :=
  { tstB with groups := tstB.groups.map fg, crews := tstB.crews.map fc, launches := tstB.launches.map fl }

/-- A condition on the issuing site. -/
def tstAt (s : State) (p : Site → Bool) : Bool :=
  match s.site? with
  | some x => p x
  | none => false

/-- A condition on the next state and its group. -/
def tstNext (i : Instr) (s : State) (p : State → Group → Bool) : Bool :=
  match exec i s with
  | .next t => (match t.group? 0 with
    | some g => p t g
    | none => false)
  | _ => false

/-- Group registers from `g1` on. -/
def tstG (l : List Word) : State :=
  tstWith (fun g => l.zipIdx.foldl (fun g e => { g with g := g.g.set (e.2 + 1) e.1 }) g) id id

/-- A uniform instruction on g1, g2 with the result in g3, which held `d`. -/
def tst3 (i : Instr) (a b d r : Word) : Bool := tstNext i (tstG [a, b, d]) (fun _ g => g.greg 3 == r)

theorem test_decode_integer1 :
    decode 0x000000080000070000340064#96 = some (.add tstH .s32 true (.v 7) (.v 3) (.si 100)) ∧
    decode 0x0101000001000410005500FF#96 = some (.sub tstH .n32 false (.g 4) (.g 5) (.ui 255)) ∧
    decode 0x020000000300000000100002#96 = some (.mul tstH .s32 false (.t 0) (.v 1) (.v 2)) ∧
    decode 0x030100000000010000200003#96 = some (.mulhi tstH .n32 (.v 1) (.v 2) (.v 3)) ∧
    decode 0x0400A008000001600014FFFF#96 = some (.mad { tstH with neg := true, prd := 2 } .s32 true (.v 1) (.sr .tid) (.si 0xFFFF)) ∧
    decode 0x050000000000010000200003#96 = some (.div tstH .s32 (.v 1) (.v 2) (.v 3)) ∧
    decode 0x060100000000010000200003#96 = some (.rem tstH .n32 (.v 1) (.v 2) (.v 3)) ∧
    decode 0x070000F00000010000200003#96 = some (.min { tstH with ru := 3, pri := 3 } .s32 (.v 1) (.v 2) (.v 3)) ∧
    decode 0x08010F000000FF000FE000FD#96 = some (.max { tstH with dly := 15 } .n32 (.v 255) (.v 254) (.v 253)) ∧
    decode 0x0900000801003F1003E00000#96 = some (.abs tstH true (.g 63) (.g 62)) ∧
    decode 0x0A0200000000040000600008#96 = some (.lea tstH .x4 (.v 4) (.v 6) (.v 8)) ∧
    decode 0x0B0000000000010000200003#96 = some (.and tstH (.v 1) (.v 2) (.v 3)) ∧
    decode 0x0C0000000000010000200003#96 = some (.or tstH (.v 1) (.v 2) (.v 3)) ∧
    decode 0x0D0000000000010000200003#96 = some (.xor tstH (.v 1) (.v 2) (.v 3)) := by decide +kernel

theorem test_decode_integer2 :
    decode 0x0E0000000000019567891234#96 = some (.not tstH (.v 1) (.li 0x12345678)) ∧
    decode 0x0F000000000001000025001F#96 = some (.shl tstH (.v 1) (.v 2) (.ui 31)) ∧
    decode 0x10000000000001000025003F#96 = some (.shr tstH .s32 (.v 1) (.v 2) (.ui 63)) ∧
    decode 0x110000000000010000250001#96 = some (.rot tstH (.v 1) (.v 2) (.ui 1)) ∧
    decode 0x120100000000010000250810#96 = some (.bfx tstH .n32 (.v 1) (.v 2) (.ui 0x810)) ∧
    decode 0x130000000000010000250810#96 = some (.bfi tstH (.v 1) (.v 2) (.ui 0x810)) ∧
    decode 0x140000000000010000200000#96 = some (.bitPop tstH (.v 1) (.v 2)) ∧
    decode 0x140100000000010000200000#96 = some (.bitClz tstH (.v 1) (.v 2)) ∧
    decode 0x140200000000010000200000#96 = some (.bitRev tstH (.v 1) (.v 2)) ∧
    decode 0x150020020200010000510009#96 = some (.cmp { tstH with prd := 2 } .s32 .lt (.p 1) (.v 5) (.g 9)) ∧
    decode 0x160000000200012000220003#96 = some (.plog tstH .and (.p 1) (.p 2) (some (.p 3))) ∧
    decode 0x1700000B0000010000200003#96 = some (.sel tstH true 3 (.v 1) (.v 2) (.v 3)) ∧
    decode 0x180000000100049567891234#96 = some (.mov tstH .b32 (.g 4) (.li 0x12345678)) := by decide +kernel

theorem test_decode_threads :
    decode 0x190200000000030000258001#96 = some (.xmov tstH .down (.v 3) (.v 2) (.ui 0x8001)) ∧
    decode 0x1A0100020100030000200000#96 = some (.lsred tstH .fadd ⟨.rn, .mode, false, false⟩ (.g 3) (.v 2)) ∧
    decode 0x1B0A00000000030000200000#96 = some (.lscan tstH .xor ⟨.mode, .mode, false, false⟩ (.v 3) (.v 2)) ∧
    decode 0x1C0200000100032000200000#96 = some (.vote tstH .uni (.g 3) (.p 2)) ∧
    decode 0x1D0000000100092000200000#96 = some (.ballot tstH (.g 9) (.p 2) none) ∧
    decode 0x1E0000000000030000220001#96 = some (.cmprs tstH (.v 3) (.v 2) (.p 1)) ∧
    decode 0x1F0000000000030000220001#96 = some (.expnd tstH (.v 3) (.v 2) (.p 1)) := by decide +kernel

theorem test_decode_float1 :
    decode 0x200000060000030000100002#96 = some (.fadd tstH .f32 ⟨.rp, .mode, false, false⟩ (.v 3) (.v 1) (.v 2)) ∧
    decode 0x210100010000030000100002#96 = some (.fsub tstH .f16x2 ⟨.mode, .den, false, false⟩ (.v 3) (.v 1) (.v 2)) ∧
    decode 0x220200020000080000154000#96 = some (.fmul tstH .bf16x2 ⟨.rn, .mode, false, false⟩ (.v 8) (.v 1) (.ui 0x4000)) ∧
    decode 0x2300B2040000040000100002#96 = some (.fma ⟨true, 3, 2, 0, 0⟩ .f32 ⟨.rz, .mode, false, false⟩ (.v 4) (.v 1) (.v 2)) ∧
    decode 0x240000004000030000100002#96 = some (.fmin tstH .f32 ⟨.mode, .mode, true, false⟩ (.v 3) (.v 1) (.v 2)) ∧
    decode 0x250000008000030000100002#96 = some (.fmax tstH .f32 ⟨.mode, .ftz, false, false⟩ (.v 3) (.v 1) (.v 2)) ∧
    decode 0x260000070200030000100002#96 = some (.fcmp tstH .f32 .ord (.p 3) (.v 1) (.v 2)) ∧
    decode 0x2700000002000300001503FF#96 = some (.fcls tstH (.p 3) (.v 1) (.ui 0x3FF)) ∧
    decode 0x280200000000030000100000#96 = some (.fabs tstH .bf16x2 (.v 3) (.v 1)) ∧
    decode 0x290100000000030000100000#96 = some (.fneg tstH .f16x2 (.v 3) (.v 1)) ∧
    decode 0x2A0000080000030000100002#96 = some (.fdiv tstH ⟨.rm, .mode, false, false⟩ (.v 3) (.v 1) (.v 2)) ∧
    decode 0x2B000000C000030000100000#96 = some (.sqrt tstH ⟨.mode, .ftz, true, false⟩ (.v 3) (.v 1)) ∧
    decode 0x2C000000C000030000100000#96 = some (.rcp tstH ⟨.mode, .ftz, true, false⟩ (.v 3) (.v 1)) ∧
    decode 0x2D000000C000030000100000#96 = some (.rsqrt tstH ⟨.mode, .ftz, true, false⟩ (.v 3) (.v 1)) := by decide +kernel

theorem test_decode_float2 :
    decode 0x2E000000C000030000100000#96 = some (.exp2 tstH ⟨.mode, .ftz, true, false⟩ (.v 3) (.v 1)) ∧
    decode 0x2F000000C000030000100000#96 = some (.log2 tstH ⟨.mode, .ftz, true, false⟩ (.v 3) (.v 1)) ∧
    decode 0x30000000C000030000100000#96 = some (.sin tstH ⟨.mode, .ftz, true, false⟩ (.v 3) (.v 1)) ∧
    decode 0x31000000C000030000100000#96 = some (.cos tstH ⟨.mode, .ftz, true, false⟩ (.v 3) (.v 1)) ∧
    decode 0x32000000C000030000100000#96 = some (.tanh tstH ⟨.mode, .ftz, true, false⟩ (.v 3) (.v 1)) ∧
    decode 0x33000000C000030000100000#96 = some (.frnd tstH ⟨.mode, .ftz, true, false⟩ (.v 3) (.v 1)) ∧
    decode 0x403000000000050000200000#96 = some (.cvt tstH .e4m3 .f32 ⟨.mode, .mode, false, false⟩ false (.v 5) (.v 2)) ∧
    decode 0x412000001000050000200003#96 = some (.cvt2 tstH true ⟨.mode, .mode, false, false⟩ true (.v 5) (.v 2) (.v 3)) ∧
    decode 0x420000000000061000A00000#96 = some (.decv tstH (.v 6) (.g 10)) ∧
    decode 0x43000000200006000014FFFE#96 = some (.scl tstH ⟨.mode, .mode, false, true⟩ (.v 6) (.v 1) (.si 0xFFFE)) := by decide +kernel

theorem test_decode_memory1 :
    decode 0x500400000000050000840040#96 = some (.ld tstH .b32 (.v 5) (.v 8) (.si 64)) ∧
    decode 0x51010000000005000084FFFC#96 = some (.st tstH .b16 (.v 5) (.v 8) (.si 0xFFFC)) ∧
    decode 0x520500000000040000840040#96 = some (.lds tstH .b64 (.v 4) (.v 8) (.si 64)) ∧
    decode 0x530000000500410000840040#96 = some (.sts tstH .b8 (.ui 0x41) (.v 8) (.si 64)) ∧
    decode 0x540050000000068000000005#96 = some (.ldr { tstH with prd := 5 } (.v 6) (.rc 0) (.v 5)) ∧
    decode 0x55000000000006800FF50005#96 = some (.str tstH (.v 6) (.rc 255) (.ui 5)) ∧
    decode 0x560010000100151000010014#96 = some (.fillc { tstH with prd := 1 } (.g 21) (.g 0) (.g 20)) ∧
    decode 0x570400002000021000640080#96 = some (.ldc tstH .b32 true (.v 2) (.g 6) (.si 128)) ∧
    decode 0x580300000000021000640080#96 = some (.stc tstH .b64 (.v 2) (.g 6) (.si 128)) ∧
    decode 0x590D00000000040000A00006#96 = some (.atom tstH .pmax (.v 4) (.v 10) (.v 6)) ∧
    decode 0x5A0D50000000021001600006#96 = some (.atoms { tstH with prd := 5 } .pmax (.v 2) (.g 22) (.v 6)) ∧
    decode 0x5B0A0000A000000000A00006#96 = some (.red tstH .fadd .rz true (.v 10) (.v 6)) ∧
    decode 0x5C0000008000001000451000#96 = some (.cmoClean tstH .l2 (.g 4) (.ui 4096)) ∧
    decode 0x5C0100004000001000451000#96 = some (.cmoInval tstH .l1 (.g 4) (.ui 4096)) := by decide +kernel

theorem test_decode_memory2 :
    decode 0x5C0200010000001000451000#96 = some (.cmoCleaninval tstH .mem (.g 4) (.ui 4096)) ∧
    decode 0x5D00000C0000000000000000#96 = some (.fence tstH .sys) ∧
    decode 0x5E000000C000000000451000#96 = some (.pf tstH .cis (.v 4) (.ui 4096)) ∧
    decode 0x5F0000000700001001400000#96 = some (.pin tstH (.pin 0) (.g 20)) ∧
    decode 0x600000000700000000000000#96 = some (.unpin tstH (.pin 0)) ∧
    decode 0x610000000100031001400000#96 = some (.reclaim tstH (.g 3) (.g 20)) ∧
    decode 0x620000000A00101001050000#96 = some (.cpy tstH (.aw 0x010) (.g 16) (.ui 0)) ∧
    decode 0x620100000A00101003850005#96 = some (.cpyCvt tstH (.aw 0x010) (.g 56) (.ui 5)) ∧
    decode 0x620200000A00101001010003#96 = some (.cpyFill tstH (.aw 0x010) (.g 16) (.g 3)) := by decide +kernel

theorem test_decode_synchronisation1 :
    decode 0x700000000100035000F50000#96 = some (.barArrive tstH (some (.g 3)) .core 15) ∧
    decode 0x700100000000005000150004#96 = some (.barWait tstH .pod 1) ∧
    decode 0x700200000000005000250002#96 = some (.barSync tstH none .die 2) ∧
    decode 0x700300000000005000150003#96 = some (.barDrop tstH none .pkg 1) ∧
    decode 0x7100000002000110010501F4#96 = some (.waitAny tstH (.p 1) (.g 16) (.ui 500)) ∧
    decode 0x71010000020003100301003D#96 = some (.waitAll tstH (.p 3) (.g 48) (.g 61)) ∧
    decode 0x720000000A00101001800000#96 = some (.arrvSet tstH (.aw 0x010) (.g 24)) ∧
    decode 0x720100000A00105000100000#96 = some (.arrvAdd tstH (.aw 0x010) (.ui 1)) ∧
    decode 0x720200000A00105000100000#96 = some (.arrvExpect tstH (.aw 0x010) (.ui 1)) ∧
    decode 0x73000000020001BF00350002#96 = some (.ringTake tstH (.p 1) (.ring 15 3) false true) ∧
    decode 0x73010000000000B1FFF50001#96 = some (.ringGive tstH (.ring 1 0xFFF) true false) ∧
    decode 0x740000000000005025700000#96 = some (.yield tstH 599) ∧
    decode 0x750200000000081000200000#96 = some (.trail tstH [.v 8, .g 2]) ∧
    decode 0x760000000000005000F50001#96 = some (.regroup tstH (.ui 0xF) (.ui 1)) := by decide +kernel

theorem test_decode_synchronisation2 :
    decode 0x770000000000000000000000#96 = some (.join tstH) ∧
    decode 0x780000000100081001400000#96 = some (.fork tstH (.g 8) (.g 20)) := by decide +kernel

theorem test_decode_control :
    decode 0x8000A0000000004FFFD40002#96 = some (.br { tstH with neg := true, prd := 2 } 0xFFFD (some 2)) ∧
    decode 0x810000000100064000800000#96 = some (.call tstH (.g 6) (.si 8)) ∧
    decode 0x820000000000001000600000#96 = some (.ret tstH (.g 6)) ∧
    decode 0x830000000000001000800000#96 = some (.jmp tstH (.g 8)) ∧
    decode 0x840000000000000000000000#96 = some (.exit tstH) := by decide +kernel

theorem test_decode_matrix :
    decode 0x900000000000005000050000#96 = some (.mcb tstH (.ui 0) (.ui 0)) ∧
    decode 0x910000080000001001080002#96 = some (.msort tstH true (.g 16) (.rc 2)) ∧
    decode 0x9200000C0000001001480001#96 = some (.mparts tstH true true false (.g 20) (.rc 1)) ∧
    decode 0x9300000A0800001000880003#96 = some (.mloopDense tstH true false true false false (.rc 0) (.g 8) (.rc 3)) ∧
    decode 0x930100050800001000880003#96 = some (.mloopAttn tstH false true false ⟨true, false⟩ (.rc 0) (.g 8) (.rc 3)) ∧
    decode 0x940000000000000000000000#96 = some (.mfence tstH) ∧
    decode 0x950000000000000000000000#96 = some (.mringPop tstH) ∧
    decode 0x950100000100090000000000#96 = some (.mringStat tstH (.g 9)) ∧
    decode 0x960000000000001003C00000#96 = some (.epcfg tstH (.g 60)) ∧
    decode 0x970000040A00205000100000#96 = some (.eprun tstH .set (some (.aw 0x020)) (some (.ui 1))) ∧
    decode 0x980000000000055002000000#96 = some (.mreadPerm tstH (.v 5) (.ui 32)) ∧
    decode 0x980100000000045002000000#96 = some (.mreadWs tstH (.v 4) (.ui 32)) := by decide +kernel

theorem test_decode_kv1 :
    decode 0xA00000000000001000850400#96 = some (.kvapp tstH (.g 8) (.ui 0x400)) ∧
    decode 0xA10000000000001001000000#96 = some (.pgshare tstH (.g 16)) ∧
    decode 0xA20000000000001001400000#96 = some (.pgrel tstH (.g 20)) ∧
    decode 0xA30000000000001000610020#96 = some (.extset tstH (.g 6) (.g 32)) ∧
    decode 0xA3000004000000100041000C#96 = some (.extsetRm tstH (.g 4) (.g 12)) ∧
    decode 0xA30000080000001000400000#96 = some (.extsetClr tstH (.g 4)) ∧
    decode 0xA40000000000001000410009#96 = some (.qclear tstH (.g 4) (.g 9)) ∧
    decode 0xA50000000000001003C1003E#96 = some (.segbegin tstH (.g 60) (.g 62)) ∧
    decode 0xA6000000000000100381003E#96 = some (.segseal tstH (.g 56) (.g 62)) ∧
    decode 0xA70000000200011001010008#96 = some (.link tstH (.p 1) (.g 16) (.g 8)) ∧
    decode 0xA70000080200011001810008#96 = some (.linkVfy tstH (.p 1) (.g 24) (.g 8)) ∧
    decode 0xA80000000100011001810008#96 = some (.unlink tstH (.g 1) (.g 24) (.g 8)) ∧
    decode 0xA90000040A00101002050001#96 = some (.kvgath tstH .set (some (.aw 0x010)) (.g 32) (some (.ui 1))) ∧
    decode 0xAA0000000000041000A00006#96 = some (.ropeq tstH (.v 4) (.g 10) (.v 6)) := by decide +kernel

theorem test_decode_kv2 :
    decode 0xAB00000001001E1001000000#96 = some (.repset tstH (.g 30) (.g 16)) ∧
    decode 0xAC000000020002100041000C#96 = some (.ovlcommit tstH (.p 2) (.g 4) (.g 12)) := by decide +kernel

theorem test_decode_system :
    decode 0xB00000000000031000A00001#96 = some (.rngc tstH (.v 3) (.g 10) (.v 1)) ∧
    decode 0xB10000000000050000400003#96 = some (.gumbel tstH (.v 5) (.v 4) (.v 3)) ∧
    decode 0xB200000001001E1001000000#96 = some (.latexp tstH (.g 30) (.g 16)) ∧
    decode 0xB30000000100091001800000#96 = some (.accept tstH (.g 9) (.g 24)) ∧
    decode 0xC00000000100041000C00000#96 = some (.launch tstH (.g 4) (.g 12)) ∧
    decode 0xC10000000000005000700000#96 = some (.trap tstH 7) ∧
    decode 0xC200000001000A6001000000#96 = some (.srd tstH (.g 10) (.sr .tsclo) none) ∧
    decode 0xC30000000600171000610007#96 = some (.swr tstH (.sr .specdepth) (.g 6) (some (.g 7))) ∧
    decode 0xC40000000000000000000000#96 = some (.nop tstH) := by decide +kernel
/-! ## One step -/

def tg1 : Opd := .g 1
def tg2 : Opd := .g 2
def tg3 : Opd := .g 3
def tg4 : Opd := .g 4
def tv (n : BitVec 8) : Opd := .v n
def tstM : FMod := ⟨.mode, .mode, false, false⟩

theorem test_add : tst3 (.add tstH .s32 true tg3 tg1 tg2) 0x7FFFFFFF 1 0 0x7FFFFFFF ∧
    tst3 (.add tstH .n32 false tg3 tg1 tg2) 0xFFFFFFFF 2 0 1 := by decide +kernel
theorem test_sub : tst3 (.sub tstH .n32 true tg3 tg1 tg2) 3 5 0 0 ∧ tst3 (.sub tstH .s32 false tg3 tg1 tg2) 3 5 0 0xFFFFFFFE := by
  decide +kernel
theorem test_mul : tst3 (.mul tstH .s32 true tg3 tg1 tg2) 0x10000 0xFFFF0000 0 0x80000000 ∧
    tst3 (.mul tstH .n32 false tg3 tg1 tg2) 0x10001 0x10001 0 0x20001 := by decide +kernel
theorem test_mulhi : tst3 (.mulhi tstH .n32 tg3 tg1 tg2) 0xFFFFFFFF 0xFFFFFFFF 0 0xFFFFFFFE ∧
    tst3 (.mulhi tstH .s32 tg3 tg1 tg2) 0xFFFFFFFF 1 0 0xFFFFFFFF := by decide +kernel
theorem test_mad : tst3 (.mad tstH .s32 false tg3 tg1 tg2) 3 4 5 17 ∧
    tst3 (.mad tstH .n32 true tg3 tg1 tg2) 0x10000 0x10000 1 0xFFFFFFFF := by decide +kernel
theorem test_div : tst3 (.div tstH .s32 tg3 tg1 tg2) 0x80000000 0xFFFFFFFF 0 0x80000000 ∧
    tst3 (.div tstH .s32 tg3 tg1 tg2) 0xFFFFFFFB 0 0 0x80000000 := by decide +kernel
theorem test_rem : tst3 (.rem tstH .s32 tg3 tg1 tg2) 0xFFFFFFF9 2 0 0xFFFFFFFF ∧
    tst3 (.rem tstH .n32 tg3 tg1 tg2) 7 0 0 7 := by decide +kernel
theorem test_min_max : tst3 (.min tstH .s32 tg3 tg1 tg2) 0xFFFFFFFF 1 0 0xFFFFFFFF ∧
    tst3 (.max tstH .n32 tg3 tg1 tg2) 0xFFFFFFFF 1 0 0xFFFFFFFF := by decide +kernel
theorem test_abs : tst3 (.abs tstH true tg3 tg1) 0x80000000 0 0 0x7FFFFFFF ∧
    tst3 (.abs tstH false tg3 tg1) 0x80000000 0 0 0x80000000 := by decide +kernel
theorem test_lea : tstNext (.lea tstH .x4 (.g 4) (.g 2) tg1) (tstG [0xFFFFFFFF, 2, 1]) (fun _ g =>
    g.greg 4 == 0xFFFFFFFE && g.greg 5 == 0) := by decide +kernel
theorem test_logic : tst3 (.and tstH tg3 tg1 tg2) 0xC 0xA 0 8 ∧ tst3 (.or tstH tg3 tg1 tg2) 0xC 0xA 0 0xE ∧
    tst3 (.xor tstH tg3 tg1 tg2) 0xC 0xA 0 6 ∧ tst3 (.not tstH tg3 (.li 0x12345678)) 0 0 0 0xEDCBA987 := by decide +kernel
theorem test_shl : tst3 (.shl tstH tg3 tg1 tg2) 3 31 0 0x80000000 ∧ tst3 (.shl tstH tg3 tg1 tg2) 3 32 0 0 := by decide +kernel
theorem test_shr : tst3 (.shr tstH .s32 tg3 tg1 tg2) 0x80000000 63 0 0xFFFFFFFF ∧
    tst3 (.shr tstH .n32 tg3 tg1 tg2) 0x80000000 31 0 1 := by decide +kernel
theorem test_rot : tst3 (.rot tstH tg3 tg1 tg2) 0x80000001 33 0 3 := by decide +kernel
-- R161 works this one out
theorem test_bfx : tst3 (.bfx tstH .s32 tg3 tg1 (.ui 0xC04)) 0x8F30 0 0 0xFFFFF8F3 ∧
    tst3 (.bfx tstH .n32 tg3 tg1 (.ui 0xC04)) 0x8F30 0 0 0x8F3 := by decide +kernel
theorem test_bfi : tst3 (.bfi tstH tg3 tg1 (.ui 0x804)) 0xAB 0 0xFFFFFFFF 0xFFFFFABF := by decide +kernel
theorem test_bit : tst3 (.bitPop tstH tg3 tg1) 0xF0F 0 0 8 ∧ tst3 (.bitClz tstH tg3 tg1) 1 0 0 31 ∧
    tst3 (.bitRev tstH tg3 tg1) 1 0 0 0x80000000 := by decide +kernel
theorem test_cmp : tstNext (.cmp tstH .s32 .lt (.p 1) tg1 tg2) (tstG [0xFFFFFFFF, 1]) (fun _ g => g.p.get 1 == 0xFFFFFFFF) ∧
    tstNext (.cmp tstH .n32 .lt (.p 1) tg1 tg2) (tstG [0xFFFFFFFF, 1]) (fun _ g => g.p.get 1 == 0) := by decide +kernel

/-- Vector registers v1[i] = i and v2[i] = 100 + i, predicate p1 for the odd threads. -/
def tstV : State := tstWith (fun g => { g with
  v := ⟨(List.range 64).map (fun k => (32 + k, BitVec.ofNat 32 (if k < 32 then k else 68 + k))), []⟩,
  p := Bank.set (Bank.zero 32) 1 0xAAAAAAAA }) id id

theorem test_plog : tstNext (.plog tstH .not (.p 2) (.p 1) none) tstV (fun _ g => g.p.get 2 == 0x55555555) ∧
    tstNext (.plog tstH .and (.p 2) (.p 1) (some (.p 0))) tstV (fun _ g => g.p.get 2 == 0xAAAAAAAA) := by decide +kernel
theorem test_sel : tstNext (.sel tstH true 1 (tv 3) (tv 1) (tv 2)) tstV (fun _ g => g.vreg 3 0 == 0 && g.vreg 3 1 == 101) ∧
    tstNext (.sel tstH false 1 (tv 3) (tv 1) (tv 2)) tstV (fun _ g => g.vreg 3 0 == 100 && g.vreg 3 1 == 1) := by decide +kernel
theorem test_mov_guarded : tstNext (.mov { tstH with prd := 1 } .b32 (tv 3) (tv 2)) tstV (fun _ g =>
    g.vreg 3 0 == 0 && g.vreg 3 31 == 131) := by decide +kernel
theorem test_mov_b64 : tstNext (.mov tstH .b64 (.g 4) (.si 0xFFFE)) tstB (fun _ g =>
    g.greg 4 == 0xFFFFFFFE && g.greg 5 == 0xFFFFFFFF) := by decide +kernel
-- the example of R169: half the width down
theorem test_xmov : tstNext (.xmov tstH .down (tv 3) (tv 1) (.ui 0x8001)) tstV (fun _ g =>
    g.vreg 3 0 == 16 && g.vreg 3 15 == 31 && g.vreg 3 16 == 16 && g.vreg 3 31 == 31) := by decide +kernel
theorem test_lsred : tstNext (.lsred tstH .iadd tstM tg3 (tv 1)) tstV (fun _ g => g.greg 3 == 496) ∧
    tstNext (.lsred tstH .smax tstM (tv 3) (tv 2)) tstV (fun _ g => g.vreg 3 0 == 131) := by decide +kernel
theorem test_lscan : tstNext (.lscan tstH .iadd tstM (tv 3) (tv 1)) tstV (fun _ g =>
    g.vreg 3 0 == 0 && g.vreg 3 4 == 10 && g.vreg 3 31 == 496) := by decide +kernel
theorem test_vote : tstNext (.vote tstH .any tg3 (.p 1)) tstV (fun _ g => g.greg 3 == 1) ∧
    tstNext (.vote tstH .uni tg3 (.p 1)) tstV (fun _ g => g.greg 3 == 0) := by decide +kernel
theorem test_ballot : tstNext (.ballot tstH tg3 (.p 1) none) tstV (fun _ g => g.greg 3 == 0xAAAAAAAA) := by decide +kernel
theorem test_cmprs : tstNext (.cmprs tstH (tv 3) (tv 2) (.p 1)) tstV (fun _ g =>
    g.vreg 3 0 == 101 && g.vreg 3 15 == 131 && g.vreg 3 16 == 0) := by decide +kernel
theorem test_expnd : tstNext (.expnd tstH (tv 3) (tv 2) (.p 1)) tstV (fun _ g =>
    g.vreg 3 1 == 100 && g.vreg 3 31 == 115 && g.vreg 3 0 == 0) := by decide +kernel
theorem test_nop : tstNext (.nop tstH) tstB (fun t g => g.frags.map (·.pc) == [0x100C] && t.mem == tstB.mem) := by decide +kernel

-- floating values: 1.5 is 0x3FC00000, 2.0 is 0x40000000
theorem test_fadd : tst3 (.fadd tstH .f32 tstM tg3 tg1 tg2) 0x3FC00000 0x40000000 0 0x40600000 ∧
    tst3 (.fadd tstH .f32 tstM tg3 tg1 tg2) 0x7F800000 0xFF800000 0 0x7FC00000 := by decide +kernel
theorem test_fsub : tst3 (.fsub tstH .f32 tstM tg3 tg1 tg2) 0x3FC00000 0x3FC00000 0 0 := by decide +kernel
-- the manual's example: 1.5 and the largest BF16, times 2.0
theorem test_fmul : tst3 (.fmul tstH .bf16x2 ⟨.rn, .mode, false, false⟩ tg3 tg1 (.ui 0x4000)) 0x7F7F3FC0 0 0 0x7F804040 := by
  decide +kernel
theorem test_fma : tst3 (.fma tstH .f32 tstM tg3 tg1 tg2) 0x3FC00000 0x40000000 0x3F800000 0x40800000 := by decide +kernel
theorem test_fmin_fmax : tst3 (.fmin tstH .f32 tstM tg3 tg1 tg2) 0x80000000 0 0 0x80000000 ∧
    tst3 (.fmax tstH .f32 tstM tg3 tg1 tg2) 0x80000000 0 0 0 := by decide +kernel
theorem test_fcmp : tstNext (.fcmp tstH .f32 .un (.p 1) tg1 tg2) (tstG [0x7FC00000, 0]) (fun _ g => g.p.get 1 == 0xFFFFFFFF) ∧
    tstNext (.fcmp tstH .f32 .eq (.p 1) tg1 tg2) (tstG [0x80000000, 0]) (fun _ g => g.p.get 1 == 0xFFFFFFFF) := by decide +kernel
theorem test_fabs_fneg : tst3 (.fabs tstH .f32 tg3 tg1) 0xBFC00000 0 0 0x3FC00000 ∧
    tst3 (.fneg tstH .f16x2 tg3 tg1) 0x3C00BC00 0 0 0xBC003C00 := by decide +kernel
theorem test_fdiv : tst3 (.fdiv tstH tstM tg3 tg1 tg2) 0x3F800000 0 0 0x7F800000 ∧
    tst3 (.fdiv tstH tstM tg3 tg1 tg2) 0x40400000 0x40000000 0 0x3FC00000 := by decide +kernel
theorem test_sqrt : tst3 (.sqrt tstH tstM tg3 tg1) 0x40800000 0 0 0x40000000 ∧
    tst3 (.sqrt tstH tstM tg3 tg1) 0xBF800000 0 0 0x7FC00000 := by decide +kernel
theorem test_rcp : tst3 (.rcp tstH tstM tg3 tg1) 0x40800000 0 0 0x3E800000 := by decide +kernel
theorem test_rsqrt : tst3 (.rsqrt tstH tstM tg3 tg1) 0x40800000 0 0 0x3F000000 := by decide +kernel
theorem test_exp2_log2 : tst3 (.exp2 tstH tstM tg3 tg1) 0x40400000 0 0 0x41000000 ∧
    tst3 (.log2 tstH tstM tg3 tg1) 0x41000000 0 0 0x40400000 := by decide +kernel
theorem test_sin_cos_tanh : tst3 (.sin tstH tstM tg3 tg1) 0x80000000 0 0 0x80000000 ∧
    tst3 (.cos tstH tstM tg3 tg1) 0 0 0 0x3F800000 ∧ tst3 (.tanh tstH tstM tg3 tg1) 0xFF800000 0 0 0xBF800000 := by decide +kernel
theorem test_frnd : tst3 (.frnd tstH tstM tg3 tg1) 0x40200000 0 0 0x40000000 := by decide +kernel
theorem test_scl : tst3 (.scl tstH tstM tg3 tg1 (.si 0xFFFF)) 0x3FC00000 0 0 0x3F400000 := by decide +kernel
-- the manual's example: 1.5 as E4M3
theorem test_cvt : tst3 (.cvt tstH .e4m3 .f32 tstM false tg3 tg1) 0x3FC00000 0 0 0x3C ∧
    tst3 (.cvt tstH .s8 .f32 tstM false tg3 tg1) 0x43960000 0 0 0x7F := by decide +kernel
theorem test_cvt2 : tst3 (.cvt2 tstH true tstM false tg3 tg1 tg2) 0x3FC00000 0x40000000 0 0x40003FC0 := by decide +kernel
-- the example of R252: the value 2.5 with index 7
theorem test_pmax_key : pmaxKey 0x40200000 7 = (0xC0200000FFFFFFF8, Ev.zero) := by decide +kernel
/-! Ill-formed terms: for each check of `wf`, terms that it refuses, beside a well-formed one. -/

def tstIll (l : List Instr) : Bool := l.all (fun i => !i.wf)
def tstSat : FMod := ⟨.mode, .mode, false, true⟩
theorem smoke_ordinary : (Instr.add tstH .s32 true (.t 7) (.v 1) (.sr .tid)).wf ∧ tstIll [.add tstH .s32 false (.p 1) (.v 1) (.v 2), .sub tstH .s32 false (.v 1) (.p 1) (.v 2),
    .mul tstH .s32 false (.v 1) (.v 2) (.rc 0), .mulhi tstH .s32 (.g 1) (.v 1) (.g 2), .mad tstH .s32 false (.g 1) (.g 1) (.v 2), .div tstH .s32 (.si 1) (.v 1) (.v 2),
    .rem tstH .s32 (.v 1) (.li 1) (.v 2), .min tstH .s32 (.sr .tid) (.v 1) (.v 2), .max tstH .s32 (.v 1) (.v 2) (.aw 0), .abs tstH false (.g 1) (.v 1),
    .and tstH (.v 1) (.v 2) (.pin 0), .or tstH (.v 1) (.v 2) (.ring 0 0), .xor tstH (.g 1) (.v 2) (.g 1), .shl tstH (.p 1) (.v 2) (.g 1), .shr tstH .s32 (.v 1) (.p 2) (.g 1),
    .rot tstH (.v 1) (.v 2) (.p 1), .bfx tstH .s32 (.ui 1) (.v 2) (.g 1), .bfi tstH (.v 1) (.rc 2) (.g 1), .bitPop tstH (.g 1) (.v 2), .bitClz tstH (.p 1) (.v 2),
    .bitRev tstH (.v 1) (.p 2)] := by decide +kernel
theorem smoke_pairs : tstIll [.lea tstH .x8 (.v 1) (.g 2) (.v 1), .lea tstH .x8 (.v 2) (.g 3) (.v 1), .lea tstH .x8 (.g 2) (.g 4) (.v 1), .mov tstH .b64 (.v 1) (.g 2),
    .mov tstH .b64 (.v 2) (.g 3), .mov tstH .b64 (.g 2) (.v 2), .mov tstH .b32 (.v 2) (.p 1), .not tstH (.p 1) (.li 5), .not tstH (.g 1) (.v 5)] := by decide +kernel
theorem smoke_predicates : tstIll [.cmp tstH .s32 .un (.p 1) (.v 1) (.v 2), .cmp tstH .s32 .ord (.p 1) (.v 1) (.v 2), .cmp tstH .s32 .lt (.v 1) (.v 1) (.v 2),
    .cmp tstH .s32 .lt (.p 1) (.p 1) (.v 2), .plog tstH .not (.p 1) (.p 2) (some (.p 3)), .plog tstH .and (.p 1) (.p 2) none, .plog tstH .and (.v 1) (.p 2) (some (.p 3)),
    .plog tstH .and (.p 1) (.p 2) (some (.v 3)), .sel tstH true 0 (.v 1) (.v 2) (.v 3), .sel tstH false 1 (.g 1) (.v 2) (.v 3)] := by decide +kernel
theorem smoke_threads : tstIll [.xmov tstH .idx (.g 1) (.v 2) (.v 3), .xmov tstH .up (.v 1) (.v 2) (.v 3), .xmov tstH .up (.v 1) (.g 2) (.g 3), .xmov tstH .down (.v 1) (.v 2) (.ui 0x8010),
    .xmov tstH .xor (.g 1) (.v 2) (.g 3), .lsred tstH .iadd ⟨.rm, .mode, false, false⟩ (.v 1) (.v 2), .lsred tstH .fadd tstM (.t 1) (.v 2), .lscan tstH .iadd tstM (.g 1) (.v 2),
    .lscan tstH .smin tstSat (.v 1) (.v 2), .vote tstH .all (.v 1) (.p 1), .vote tstH .all (.p 1) (.v 1), .ballot tstH (.v 1) (.p 1) none, .ballot tstH (.g 1) (.p 1) (some (.g 2)),
    .cmprs tstH (.v 1) (.v 2) (.v 3), .cmprs tstH (.g 1) (.v 2) (.p 3), .expnd tstH (.v 1) (.g 2) (.p 3)] := by decide +kernel
theorem smoke_floating : tstIll [.fadd tstH .f32 tstM (.v 1) (.si 2) (.v 3), .fsub tstH .f32 tstM (.v 1) (.ui 2) (.v 3), .fmul tstH .f32 tstM (.p 1) (.v 2) (.v 3),
    .fma tstH .f32 tstM (.g 1) (.v 2) (.g 3), .fmin tstH .f32 tstSat (.v 1) (.v 2) (.v 3), .fmax tstH .f32 ⟨.rz, .mode, false, false⟩ (.v 1) (.v 2) (.v 3),
    .fcmp tstH .f32 .lt (.v 1) (.v 2) (.v 3), .fcmp tstH .f32 .lt (.p 1) (.si 2) (.v 3), .fcls tstH (.p 1) (.v 2) (.ui 0x400), .fcls tstH (.p 1) (.v 2) (.v 3), .fabs tstH .f32 (.v 1) (.ui 2),
    .fneg tstH .f32 (.g 1) (.v 2), .fdiv tstH tstM (.v 1) (.v 2) (.si 3), .sqrt tstH tstM (.p 1) (.v 2), .rcp tstH tstM (.v 1) (.li 2), .rsqrt tstH tstSat (.v 1) (.v 2), .exp2 tstH tstSat (.v 1) (.v 2),
    .log2 tstH tstSat (.v 1) (.v 2), .sin tstH tstSat (.v 1) (.v 2), .cos tstH tstSat (.v 1) (.v 2), .tanh tstH tstSat (.v 1) (.v 2), .frnd tstH tstSat (.v 1) (.v 2), .scl tstH tstM (.v 1) (.v 2) (.ui 3),
    .cvt tstH .f32 .f32 tstM false (.v 1) (.v 2), .cvt tstH .f32 .s32 tstM false (.v 1) (.si 2), .cvt2 tstH false tstM false (.v 1) (.v 2) (.ui 3), .decv tstH (.g 3) (.g 10), .decv tstH (.v 3) (.g 11)] := by
  decide +kernel
theorem smoke_memory : tstIll [.ld tstH .b64 (.v 1) (.g 2) (.si 0), .ld tstH .b32 (.t 1) (.g 2) (.si 0), .ld tstH .b32 (.v 1) (.g 3) (.si 0), .ld tstH .b32 (.v 1) (.g 2) (.ui 0), .ld tstH .b32 (.g 1) (.v 2) (.si 0),
    .st tstH .b64 (.v 1) (.g 2) (.si 0), .st tstH .b32 (.p 1) (.g 2) (.si 0), .st tstH .b32 (.v 1) (.t 2) (.si 0), .lds tstH .b64 (.t 1) (.v 2) (.si 0), .lds tstH .b32 (.v 1) (.si 2) (.si 0), .sts tstH .b32 (.v 1) (.ui 2) (.si 0),
    .sts tstH .b64 (.t 1) (.v 2) (.si 0), .ldr tstH (.t 1) (.rc 0) (.v 1), .ldr tstH (.v 1) (.g 0) (.v 1), .ldr tstH (.g 1) (.rc 0) (.v 1), .str tstH (.v 1) (.rc 0) (.si 1), .str tstH (.rc 1) (.rc 0) (.v 1),
    .atom tstH .pmax (.v 1) (.g 2) (.v 4), .atom tstH .cas (.v 1) (.g 2) (.v 3), .atom tstH .add (.v 1) (.g 2) (.t 3), .atoms tstH .pmax (.t 1) (.v 2) (.v 4), .atoms tstH .add (.v 1) (.ui 2) (.v 4),
    .red tstH .xchg .mode false (.g 2) (.v 4), .red tstH .cas .mode false (.g 2) (.v 4), .red tstH .add .rz false (.g 2) (.v 4), .red tstH .add .mode true (.g 2) (.v 4), .red tstH .add .mode false (.g 3) (.v 4)] := by
  decide +kernel
theorem smoke_tilesAndNames : tstIll [.fillc tstH (.v 1) (.g 2) (.ui 1), .fillc tstH (.g 1) (.g 3) (.ui 1), .fillc tstH (.g 1) (.g 2) (.si 1), .ldc tstH .b32 false (.t 1) (.g 2) (.si 1), .ldc tstH .b32 false (.v 1) (.v 2) (.si 1),
    .ldc tstH .b64 true (.v 1) (.g 2) (.si 1), .stc tstH .b32 (.v 1) (.v 2) (.si 1), .stc tstH .b32 (.v 1) (.g 2) (.t 1), .cmoClean tstH .l1 (.v 2) (.ui 1), .cmoInval tstH .l1 (.g 3) (.ui 1), .cmoCleaninval tstH .l1 (.g 2) (.si 1),
    .pf tstH .mem (.g 2) (.ui 1), .pf tstH .l1 (.v 1) (.ui 1), .pin tstH (.g 1) (.g 2), .pin tstH (.pin 1) (.g 3), .unpin tstH (.g 1), .reclaim tstH (.v 1) (.g 2), .cpy tstH (.g 1) (.g 8) (.ui 0), .cpy tstH (.aw 0) (.g 12) (.ui 0),
    .cpyCvt tstH (.aw 0) (.g 8) (.si 5), .cpyFill tstH (.aw 0) (.g 8) (.v 1)] := by decide +kernel
theorem smoke_synchronisation : tstIll [.barArrive tstH (some (.v 1)) .core 0, .barArrive tstH none .quad 8, .barWait tstH .die 8, .barSync tstH none .pkg 4, .barDrop tstH none .pod 2, .waitAny tstH (.v 1) (.g 8) (.g 1), .waitAny tstH (.p 1) (.g 52) (.g 1),
    .waitAll tstH (.p 1) (.g 8) (.v 1), .arrvSet tstH (.g 1) (.g 2), .arrvAdd tstH (.aw 0) (.v 2), .arrvExpect tstH (.aw 0) (.si 2), .ringTake tstH (.v 1) (.ring 0 0) false false, .ringTake tstH (.p 1) (.aw 0) false false,
    .ringGive tstH (.aw 0) false false, .trail tstH [.v 1, .v 2, .v 3, .v 4], .trail tstH [.t 1], .regroup tstH (.v 1) (.g 2), .regroup tstH (.g 1) (.si 2), .fork tstH (.v 1) (.g 2), .fork tstH (.g 1) (.g 3)] := by decide +kernel
theorem smoke_control : (Instr.br tstH 4 none).wf ∧ tstIll [.br tstH 4 (some 6), .br { tstH with prd := 1 } 4 none, .br { tstH with neg := true } 4 none, .call tstH (.g 3) (.si 1), .call tstH (.g 2) (.g 3), .ret tstH (.g 3), .jmp tstH (.v 2)] := by
  decide +kernel
theorem smoke_matrix : tstIll [.mcb tstH (.g 3) (.g 1), .mcb tstH (.ui 3) (.v 1), .msort tstH false (.g 6) (.rc 0), .msort tstH false (.g 8) (.g 0), .mparts tstH true true false (.g 62) (.rc 0), .mloopDense tstH true true false true true (.g 0) (.g 8) (.rc 1),
    .mloopDense tstH true true false false false (.rc 0) (.g 12) (.rc 1), .mloopAttn tstH true true false ⟨false, true⟩ (.g 0) (.g 8) (.rc 1), .mringStat tstH (.v 1), .epcfg tstH (.g 2), .eprun tstH .none (some (.aw 0)) none, .eprun tstH .set (some (.aw 0)) none,
    .eprun tstH .set none (some (.g 1)), .eprun tstH .add (some (.aw 0)) (some (.g 1)), .eprun tstH .add (some (.g 0)) none, .mreadPerm tstH (.g 1) (.g 2), .mreadWs tstH (.v 1) (.g 2)] := by decide +kernel
theorem smoke_contexts : tstIll [.kvapp tstH (.g 2) (.g 1), .kvapp tstH (.g 8) (.v 1), .pgshare tstH (.g 12), .pgrel tstH (.g 10), .extset tstH (.g 3) (.g 8), .extset tstH (.g 2) (.g 10), .extsetRm tstH (.g 2) (.g 10), .extsetClr tstH (.g 3), .qclear tstH (.g 2) (.ui 1),
    .segbegin tstH (.g 10) (.g 2), .segseal tstH (.g 12) (.g 2), .link tstH (.g 1) (.g 8) (.g 2), .link tstH (.p 1) (.g 12) (.g 2), .linkVfy tstH (.p 1) (.g 8) (.g 3), .unlink tstH (.v 1) (.g 2) (.g 1), .unlink tstH (.g 1) (.g 2) (.ui 1), .kvgath tstH .none (some (.aw 0)) (.g 8) none,
    .kvgath tstH .set (some (.aw 0)) (.g 8) none, .kvgath tstH .add none (.g 8) none, .kvgath tstH .add (some (.aw 0)) (.g 12) none, .ropeq tstH (.v 1) (.g 2) (.v 2), .ropeq tstH (.g 2) (.g 2) (.v 2), .repset tstH (.g 1) (.g 12), .ovlcommit tstH (.g 1) (.g 2) (.g 4)] := by
  decide +kernel
theorem smoke_system : tstIll [.rngc tstH (.v 1) (.g 3) (.v 1), .rngc tstH (.v 1) (.g 2) (.si 1), .gumbel tstH (.v 1) (.v 2) (.ui 1), .gumbel tstH (.g 1) (.v 2) (.g 1), .latexp tstH (.g 1) (.g 10), .accept tstH (.g 1) (.g 12), .launch tstH (.v 1) (.g 2), .launch tstH (.g 1) (.g 3),
    .srd tstH (.v 1) (.sr .tid) none, .srd tstH (.g 1) (.g 2) none, .srd tstH (.g 1) (.sr .tid) (some (.v 1)), .swr tstH (.g 1) (.g 2) none, .swr tstH (.sr .fpmode) (.v 2) none, .swr tstH (.sr .fpmode) (.g 2) (some (.si 1))] := by decide +kernel
/-! ## States for the rest -/

def tstGroup (s : State) (f : Group → Group) : State := { s with groups := s.groups.map f }
def tstCrew (s : State) (f : Crew → Crew) : State := { s with crews := s.crews.map f }
def tstLaunch (s : State) (f : Launch → Launch) : State := { s with launches := s.launches.map f }
def tstReg (s : State) (l : List (Nat × Word)) : State :=
  tstGroup s (fun g => l.foldl (fun g e => { g with g := g.g.set e.1 e.2 }) g)
def tstScr (s : State) (at_ n v : Nat) : State :=
  tstCrew s (fun c => { c with scr := (leBytes n v).zipIdx.foldl (fun b e => b.set (at_ + e.2) e.1) c.scr })

/-- Beside the coherent page at 0: a streamed page at 2 MiB, a device page at 4 MiB, none at 6 MiB, a read-only page at
8 MiB (R401). -/
def tstP : State :=
  { tstB with mem := memPut (memPut (memPut tstB.mem 0x4008 (leBytes 8 (leafTo 1024 + 2 ^ 60))) 0x4010
      (leBytes 8 (leafTo 1536 + 2 ^ 61))) 0x4020 (leBytes 8 (2 ^ 63 + 2 ^ 62 + 2 ^ 55 + 2048)) }

/-- `tstP` with an address in the pair g2, g3, data in g4 and g5. -/
def tstA (va : Nat) (x : Word) : State := tstReg tstP [(2, BitVec.ofNat 32 va), (4, x)]

/-- A request of four bytes of context 0. -/
def tstReq (va : Nat) (wr : Bool) : Req := ⟨0, va, 4, wr, false, true, none⟩

/-- What the checks of a request answer: class, or 16 and the cause. -/
def tstChk (s : State) (r : Req) : Nat :=
  match tstB.site? with
  | some x => (match s.check (x.buf s) r with
    | .ok c _ => c
    | .cause c => 0x1000 + c.toNat
    | .hold => 0x2000)
  | none => 0x3000

/-- A memory instruction's run at the state's site: 0 no fault, 1 some thread faults, 2 held. -/
def tstMem (s : State) (ops : List Opd) (r : Ret) (f : Site → State → Nat → Acc) : Nat :=
  match s.site? with
  | some x =>
    let m := memRun s x tstH ops r f
    if m.held then 2 else if m.bads.isEmpty then 0 else 1
  | none => 3

/-- A record: format, base, extent (R238). -/
def tstRec (enc base extent : Nat) : Rec := BitVec.ofNat 320 (base + 2 ^ 64 * extent + 2 ^ 112 * enc)
/-! ## One step: memory -/

theorem test_st : tstNext (.st tstH .b32 tg4 tg2 (.si 4)) (tstA 0x10000 0xA1B2C3D4) (fun t _ =>
    memGet t.mem 0x210004 == 0xD4 && memGet t.mem 0x210007 == 0xA1 && memGet t.mem 0x210008 == 0) := by decide +kernel
theorem test_ld_pending : tstNext (.ld tstH .s8 tg4 tg2 (.si 0)) ((tstA 0x10000 0).cohStore 0 0x10000 1 0x80) (fun t g =>
    g.out.map (·.cells) == [[(Cell.g 4, 0xFFFFFF80#32)]] && t.mem == ((tstA 0x10000 0).cohStore 0 0x10000 1 0x80).mem) := by decide +kernel
theorem test_st_misaligned : tstNext (.st tstH .b32 tg4 tg2 (.si 2)) (tstA 0x10000 1) (fun t g =>
    g.stat == .stopped 0 0x1000 tstB.word && t.bufs.isEmpty) := by decide +kernel
theorem test_ld_parks : tstNext (.ld tstH .b32 tg4 tg2 (.si 0)) (tstA 0x600000 0) (fun _ g =>
    g.stat == .parked 0 false 0x600000 tstB.word && g.faultmask == 1) := by decide +kernel
theorem test_st_streamed : tstNext (.st tstH .b32 tg4 tg2 (.si 0)) (tstA 0x200000 7) (fun t _ =>
    t.mem == tstP.mem && t.bufs.map (·.dirty) == [0xF#128]) := by decide +kernel
theorem test_sts_lds : tstNext (.sts tstH .b16 tg4 tg2 (.si 0)) (tstA 0x10 0x1234) (fun t _ =>
    (t.crews.map (fun c => (c.scr.get 0x10, c.scr.get 0x11, c.scr.get 0x12))) == [(0x34#8, 0x12#8, 0#8)]) ∧
    tstNext (.lds tstH .n16 tg4 tg2 (.si 0)) (tstScr (tstA 0x10 0) 0x10 2 0xFFFE) (fun _ g => g.greg 4 == 0xFFFE) := by decide +kernel
theorem test_lds_bounds : tstNext (.lds tstH .b32 tg4 tg2 (.si 0)) (tstA 4096 0) (fun _ g =>
    g.stat == .stopped 0 0x1000 tstB.word) := by decide +kernel
theorem test_atom : tstNext (.atom tstH .add tg4 tg2 (.si 0xFFFF)) ((tstA 0x10000 0).cohStore 0 0x10000 4 5) (fun t g =>
    memGet t.mem 0x210000 == 4 && g.out.map (·.cells) == [[(Cell.g 4, 5#32)]]) := by decide +kernel
theorem test_atoms : tstNext (.atoms tstH .xchg tg4 tg2 (.si 9)) (tstScr (tstA 0x10 0) 0x10 4 5) (fun t g =>
    g.greg 4 == 5 && t.crews.map (fun c => c.scr.get 0x10) == [9#8]) := by decide +kernel
theorem test_red : tstNext (.red tstH .nmax .mode false tg2 (.ui 9)) ((tstA 0x10000 0).cohStore 0 0x10000 4 5) (fun t _ =>
    memGet t.mem 0x210000 == 9) := by decide +kernel
theorem test_ldr_str : tstNext (.ldr tstH tg4 (.rc 0) (.ui 1)) (tstCrew ((tstA 0 0).cohStore 0 0x10000 4 0x3C000000)
      (fun c => { c with recs := [tstRec 1 0x10000 4] })) (fun _ g => g.out.map (·.cells) == [[(Cell.g 4, 0x3F800000#32)]]) ∧
    tstNext (.str tstH tg4 (.rc 0) (.ui 1)) (tstCrew (tstA 0 0x3F800000) (fun c => { c with recs := [tstRec 1 0x10000 4] }))
      (fun t _ => memGet t.mem 0x210002 == 0 && memGet t.mem 0x210003 == 0x3C) := by decide +kernel
theorem test_ldr_bad_record : tstNext (.ldr tstH tg4 (.rc 0) (.ui 0)) (tstCrew tstP (fun c => { c with recs := [tstRec 14 0 4] }))
    (fun _ g => g.stat == .stopped 0 0x1000 tstB.word) := by decide +kernel
theorem test_fillc_ldc_stc : tstNext (.fillc tstH tg4 tg2 (.ui 0x0102)) ((tstA 0x10000 0).cohStore 0 0x10000 4 5) (fun t g =>
    t.tiles.map (fun y => (y.slot, y.gen, y.readers, y.lines, y.read 0 2)) == [(0, 1, 2, 1, [5#8, 0#8])]
      && g.out.map (·.cells) == [[(Cell.g 4, 0x8000#32)]]) := by decide +kernel
theorem test_ldc_stale : tstNext (.ldc tstH .b32 true tg4 tg2 (.si 0)) (tstA 0x8000 0) (fun _ g =>
    g.stat == .stopped 0 0x1000 tstB.word) := by decide +kernel
theorem test_stc : tstNext (.stc tstH .b8 tg4 tg2 (.si 3)) { tstA 0x8000 7 with tiles := [⟨0, 0, 0, 1, 1, 2, 1, [], [], 0⟩] } (fun t _ =>
    t.tiles.map (fun y => y.read 2 3) == [[0#8, 7#8, 0#8]]) := by decide +kernel
/-- A dirty line of the streamed page in the L1 buffer of lane 0. -/
def tstD : State := { tstA 0x200000 7 with bufs := [⟨.l1 0 0, 0, 0x4000, 7, 0xF, 0⟩] }
theorem test_cmo_clean : tstNext (.cmoClean tstH .mem tg2 (.ui 128)) tstD (fun t _ =>
    memGet t.mem 0x400000 == 7 && (t.line? (.l1 0 0) 0 0x4000).map (·.dirty) == some 0#128) := by decide +kernel
theorem test_cmo_inval : tstNext (.cmoInval tstH .l1 tg2 (.ui 1)) tstD (fun t _ => t.bufs.isEmpty && memGet t.mem 0x400000 == 0) := by
  decide +kernel
theorem test_cmo_cleaninval : tstNext (.cmoCleaninval tstH .mem tg2 (.ui 1)) tstD (fun t _ =>
    t.line? (.l1 0 0) 0 0x4000 == none && memGet t.mem 0x400000 == 7) := by decide +kernel
theorem test_fence : tstNext (.fence tstH .pkg) tstD (fun t _ => memGet t.mem 0x400000 == 7) ∧
    tstNext (.fence tstH .core) tstD (fun t _ => memGet t.mem 0x400000 == 0) := by decide +kernel
theorem test_pf : tstNext (.pf tstH .l1 tg2 (.ui 128)) (tstA 0x600000 0) (fun t g =>
    t.mem == tstP.mem && g.stat == .run && g.frags.map (·.pc) == [0x100C]) := by decide +kernel
theorem test_pin_unpin : tstNext (.pin tstH (.pin 1) tg2) (tstReg tstP [(2, 0x2A), (3, 0x10000000)]) (fun t g =>
    g.pinOf 1 == 0x100000000000002A && t.pinned 0 0x100000000000002A) ∧
    tstNext (.unpin tstH (.pin 1)) tstP (fun t g => g.pinOf 1 == 0 && t.pins.isEmpty) := by decide +kernel
theorem test_reclaim : tstNext (.reclaim tstH tg4 tg2) (tstReg tstP [(2, 0x2A), (3, 0x10000000)]) (fun _ g =>
    g.out.map (·.cells) == [[(Cell.g 4, 0#32)]]) := by decide +kernel
theorem test_cpy : tstNext (.cpy tstH (.aw 0x10) (.g 8) (.ui 5)) (tstReg tstP [(8, 0x10000), (10, 0x20000), (12, 256)]) (fun t _ =>
    (t.queue 5).map (fun j => (j.src, j.dst, j.len, j.left)) == [(.mem 0x10000, .mem 0x20000, 256, 256)]) := by decide +kernel
theorem test_cpy_bad_engine : tstNext (.cpyFill tstH (.aw 0x10) (.g 8) tg2) (tstReg tstP [(2, 6)]) (fun t g =>
    g.stat == .stopped 0 0x1000 tstB.word && (t.queue 0).isEmpty) := by decide +kernel
/-! ## Witnesses: states and operands that meet the hypotheses of the statements -/

theorem witness_IntegerResults : wfBin (.v 1) (.v 2) (.si 0xFFFF) ∧ wfBin (.g 63) (.g 0) (.sr .crewx) ∧ wfBin (.t 7) (.v 255) (.ui 0) ∧
    tstAt tstB (fun _ => true) := by decide +kernel
theorem witness_LogicAndShiftResults : wfBin (.v 1) (.v 2) (.ui 63) ∧ tstAt tstB (fun _ => true) := by decide +kernel
theorem witness_BitFieldResults : (Instr.not tstH (.v 1) (.li 5)).wf ∧ wfUn (.v 1) (.v 2) ∧ wfBin (.v 1) (.v 2) (.ui 0x3F1F) := by
  decide +kernel
theorem witness_CompareSelectMoveResults : (Instr.lea tstH .x8 (.v 254) (.g 62) (.v 1)).wf ∧
    (Instr.cmp tstH .n32 .ge (.p 7) (.v 1) (.si 0x8000)).wf ∧ (Instr.plog tstH .not (.p 1) (.p 0) none).wf ∧
    (Instr.plog tstH .xor (.p 1) (.p 0) (some (.p 7))).wf ∧ (Instr.sel tstH false 0 (.v 1) (.v 2) (.ui 1)).wf ∧
    (Instr.mov tstH .b32 (.g 1) (.li 0xFFFFFFFF)).wf ∧ (Instr.mov tstH .b64 (.v 254) (.g 62)).wf ∧
    tstAt tstV (fun _ => true) := by decide +kernel
theorem witness_AcrossThreadsResults : (Instr.xmov tstH .idx (.g 1) (.v 2) (.g 3)).wf ∧ (Instr.xmov tstH .up (.v 1) (.v 2) (.ui 0x800F)).wf ∧
    (Instr.vote tstH .all (.p 1) (.p 2)).wf ∧ (Instr.vote tstH .any (.g 1) (.p 0)).wf ∧ (Instr.vote tstH .uni (.g 1) (.p 7)).wf ∧
    (Instr.ballot tstH (.g 1) (.p 7) none).wf ∧ (Instr.ballot tstH (.g 1) (.p 7) (some (.ui 3))).wf ∧
    (Instr.cmprs tstH (.v 1) (.v 2) (.p 1)).wf ∧ (Instr.expnd tstH (.v 1) (.v 2) (.p 1)).wf ∧ tstAt tstV (fun _ => true) := by
  decide +kernel
theorem witness_ReduceAndScanResults : (Instr.lsred tstH .fadd ⟨.rm, .den, true, true⟩ (.g 1) (.v 2)).wf ∧
    (Instr.lscan tstH .iadd tstM (.v 1) (.v 2)).wf ∧ tstAt tstV (fun x => (x.vmask { tstH with prd := 1 }).getLsbD 31) := by decide +kernel
theorem witness_FloatArithmeticResults : wfFBin (.v 1) (.v 2) (.ui 0x3F80) ∧ (Instr.fmin tstH .f16x2 ⟨.mode, .ftz, true, false⟩ (.v 1) (.v 2) (.v 3)).wf ∧
    (Instr.fmax tstH .f32 tstM (.v 1) (.v 2) (.v 3)).wf ∧ wfFUn (.t 1) (.sr .gid) := by decide +kernel
theorem witness_FloatFunctionResults : wfFUn (.v 1) (.v 2) ∧ (⟨.mode, .den, true, false⟩ : FMod).nf ∧
    (⟨.rm, .den, true, false⟩ : FMod).sat = false ∧ (Instr.scl tstH ⟨.rm, .den, true, true⟩ (.v 1) (.v 2) (.si 1)).wf := by decide +kernel
theorem witness_FloatTestAndConversionResults : (Instr.fcmp tstH .bf16x2 .ord (.p 1) (.v 2) (.v 3)).wf ∧
    (Instr.fcls tstH (.p 1) (.v 2) (.ui 0x3FF)).wf ∧ (Instr.cvt tstH .s4 .n32 tstM true (.v 1) (.v 2)).wf ∧
    (Instr.cvt2 tstH false tstM false (.v 1) (.v 2) (.v 3)).wf := by decide +kernel

/-- `decv` over a block whose first byte is `w`, at address `p`. -/
def tstDecv (p w : Nat) : State := tstScr (tstReg tstB [(10, BitVec.ofNat 32 p)]) p 1 w
theorem witness_StreamDecodeAndSampling : (Instr.decv tstH (.v 3) (.g 10)).wf ∧
    tstAt (tstDecv 4096 0) (fun x => x.vmask tstH != 0 && (x.g.reg 0 (.g 10)).toNat == 4096 && !x.inWindow 4096 1) ∧
    tstAt (tstDecv 4095 1) (fun x => x.inWindow 4095 1 && (scrByte x.c x.g 4095).toNat == 1 && !x.inWindow 4096 1) ∧
    (tstDecv 4095 1).scrOpen 0 4095 = false ∧
    tstAt (tstDecv 4031 16) (fun x => (List.range 65).all (fun k => x.inWindow (4031 + k) 1 && !(tstDecv 4031 16).scrOpen 0 (4031 + k))) ∧
    tstAt (tstDecv 4095 17) (fun x => x.inWindow 4095 1 && (scrByte x.c x.g 4095).toNat == 17) ∧
    (Instr.rngc tstH (.v 3) (.g 62) (.v 1)).wf ∧ (Instr.gumbel tstH (.v 3) (.v 1) (.v 2)).wf := by decide +kernel
theorem test_decv : tstNext (.decv tstH (.v 3) (.g 10)) (tstScr (tstDecv 0 1) 1 4 5) (fun _ g =>
    g.vreg 3 0 == 0xFFFFFFFF && g.vreg 3 1 == 0xFFFFFFFF && g.vreg 3 31 == 0xFFFFFFFE && g.greg 10 == 5 && g.greg 11 == 0xFFFFFFFE) ∧
    tstNext (.decv tstH (.v 3) (.g 10)) (tstDecv 0 17) (fun _ g => g.greg 10 == 0xFFFFFFFF) := by decide +kernel

def tstOk {ε α : Type} (t : Except ε α) : Bool :=
  match t with
  | .ok _ => true
  | .error _ => false

/-- The staged state with the depth of its context, and a block at g8. -/
def tstBlk (depth : Word) (l : List Word) : State :=
  { tstReg tstP (l.zipIdx.map (fun e => (e.2 + 8, e.1))) with ctxs := [⟨0, true, true, 4096, depth, 0, 0, 0, 0⟩] }

/-- A lattice at 0: the header's low half, and nodes by their low words, with token 1 (R358). -/
def tstLat (s : State) (hdr : Nat) (nodes : List Nat) : State :=
  tstScr s 0 (32 + 16 * nodes.length) (hdr + (nodes.zipIdx.map (fun e => (e.1 + 2 ^ 32) * 2 ^ (256 + 128 * e.2))).sum)

def tstProbs (s : State) : State := (tstCrew s (fun c => { c with recs := [tstRec 0 0x10000 8, tstRec 0 0x10100 8] })).cohStore 0 0x10000 8
  0x3F80000000000000

/-- A block of `accept` for node `k`, with two elements of records 0 and 1. -/
def tstAcc (depth : Word) (k : Word) (nodes : List Nat) : State :=
  tstProbs (tstLat (tstBlk depth [0, k, 0, 2, 0x100, 0, 0, 0]) (0xFF00 + nodes.length) nodes)

/-- Six levels of two nodes, each with both parents: 64 paths. -/
def tstMany : List Nat := (List.range 12).map (fun k => 2 ^ 26 * (k / 2 + 1) + (if k < 2 then 0 else
  2 * 2 ^ 12 + 2 ^ 14 * (2 * (k / 2 - 1)) + 2 ^ 20 * (2 * (k / 2 - 1) + 1)))

theorem witness_LatticeInstructions_bad : tstAt (tstLat tstB 0 []) (fun x => x.umask tstH != 0 &&
    (match (tstLat tstB 0 []).lattice x 0 with
     | .error (.trap t) => t.cause == 0x38#8
     | _ => false)) := by decide +kernel
theorem witness_LatticeInstructions_latexp :
    (let s := tstLat (tstBlk 63 [0, 0, 256, 0]) 0xFF01 [2 ^ 26]
     tstAt s (fun x => match s.lattice x 0 with
       | .ok q => x.inWindow 0 4096 && !(latticeRows q (s.depth x.ctx)).full
       | _ => false)) ∧
    (let s := tstLat (tstBlk 63 [0, 0, 256, 0]) 0xFF0C tstMany
     tstAt s (fun x => match s.lattice x 0 with
       | .ok q => (latticeRows q (s.depth x.ctx)).full
       | _ => false)) := by decide +kernel
/-- Candidate, first candidate, and deeper than the depth, for node `k` of a lattice whose records are good. -/
def tstCand (s : State) (k : Nat) : Option (Bool × Bool × Bool) :=
  match s.site? with
  | some x =>
    (match s.lattice x 0 with
     | .ok q => if tstOk (x.probRec 0 [.f32]) && tstOk (x.probRec 1 [.f32, .f16, .bf16]) && decide (k < q.nodes.length) then
         some (q.cand k, (List.range k).all (fun j => !q.cand j), decide (s.depth x.ctx < (q.node k).depth)) else none
     | _ => none)
  | none => none
theorem witness_LatticeInstructions_accept : tstCand (tstAcc 0 0 [2 ^ 26]) 0 = some (true, true, true) ∧
    tstCand (tstAcc 1 0 [2 ^ 26 + 2]) 0 = some (false, true, false) ∧
    tstCand (tstAcc 1 1 [2 ^ 26, 2 ^ 26]) 1 = some (true, false, false) ∧
    tstCand (tstAcc 63 0 [2 ^ 26]) 0 = some (true, true, false) := by decide +kernel
theorem witness_LatticeInstructions_test : tstAt (tstAcc 63 0 [2 ^ 26]) (fun x =>
    match (tstAcc 63 0 [2 ^ 26]).lattice x 0, x.probRec 0 [.f32], x.probRec 1 [.f32] with
    | .ok q, .ok rp, .ok rq =>
      (match (List.range 2).foldlM (x.probAt rp rq 0 1 0 0) ⟨tstAcc 63 0 [2 ^ 26], [], [], 0, 0⟩ with
       | .ok pr => decide ((q.node 0).tok < 2) && tstOk ((tstAcc 63 0 [2 ^ 26]).acceptTest x q 0 0 2 rp rq 0 0 pr)
       | _ => false)
    | _, _, _ => false) := by decide +kernel
theorem test_accept : tstNext (.accept tstH (.g 5) (.g 8)) (tstAcc 63 0 [2 ^ 26]) (fun t g => g.greg 5 == 1 &&
    t.crews.map (fun c => (c.scr.get 1, c.scr.get 32)) == [(0#8, 1#8)]) ∧
    tstNext (.accept tstH (.g 5) (.g 8)) (tstAcc 1 1 [2 ^ 26, 2 ^ 26]) (fun _ g => g.greg 5 == 5) := by decide +kernel
theorem test_latexp : tstNext (.latexp tstH (.g 5) (.g 8)) (tstLat (tstBlk 63 [0, 0x100, 4, 0]) 0xFF01 [2 ^ 26]) (fun t g =>
    g.greg 5 == 1 && t.crews.all (fun c => c.scr.get 0x100 == 0)) := by decide +kernel
/-- The staged word, a `nop`. -/
def tstRec0 (s : State) : State := tstCrew s (fun c => { c with recs := [tstRec 0 0x10000 8] })

theorem witness_MemoryAccesses :
    tstMem (tstA 0x1FFFFC 5) [tg4, tg2, .si 0] (.late tg4 false) (fun x s1 i => x.loadAt s1 (x.addr (tstA 0x1FFFFC 5) i tg2 (.si 0)) 4 true) = 0 ∧
    tstMem (tstA 0x200000 5) [tg4, tg2, .si 0] .none (fun x s1 i => x.storeAt s1 (x.addr (tstA 0x200000 5) i tg2 (.si 0)) 4 5 true) = 0 ∧
    tstMem (tstA 0xFFC 5) [tg4, tg2, .si 0] (.now tg4 false) (fun x s1 i => x.ldsAt s1 (x.saddr (tstA 0xFFC 5) i tg2 (.si 0)) 4) = 0 ∧
    tstMem (tstA 0xFFF 5) [tg4, tg2, .si 0] .none (fun x s1 i => x.stsAt s1 (x.saddr (tstA 0xFFF 5) i tg2 (.si 0)) 1 5) = 0 ∧
    tstMem (tstA 0x10000 5) [tg4, tg2, tg3] (.late tg4 false) (fun x s1 i =>
      x.atomAt s1 .add (FEnv.ofMode 0) i (x.read64 (tstA 0x10000 5) i tg2).toNat 1 0) = 0 ∧
    tstMem (tstA 0x10 5) [tg4, tg2, tg3] (.now tg4 false) (fun x s1 i => x.atomsAt s1 .add i (x.read (tstA 0x10 5) i tg2).toNat 1 0) = 0 ∧
    (tstAt (tstRec0 tstP) fun x => match x.record? 0 with
      | some r => recOk r true false && recOk r false false && encOf (recEnc r) == some .f32
      | none => false) ∧
    tstMem (tstRec0 tstP) [tg4, .rc 0, .ui 1] (.late tg4 false) (fun x s1 _ => x.elemLoadAt s1 (tstRec 0 0x10000 8) 0 1) = 0 ∧
    tstMem (tstRec0 tstP) [tg4, .rc 0, .ui 1] .none (fun x s1 _ => x.codeStoreAt s1 (tstRec 0 0x10000 8) 0 1 5 Ev.zero) = 0 := by
  decide +kernel
theorem witness_MemoryFaults :
    tstMem (tstA 0x600000 5) [tg4, tg2, .si 0] (.late tg4 false) (fun x s1 i => x.loadAt s1 (x.addr (tstA 0x600000 5) i tg2 (.si 0)) 4 true) = 1 ∧
    tstMem (tstA 0x800000 5) [tg4, tg2, .si 0] .none (fun x s1 i => x.storeAt s1 (x.addr (tstA 0x800000 5) i tg2 (.si 0)) 4 5 true) = 1 ∧
    tstMem (tstA 0x1000 5) [tg4, tg2, .si 0] (.now tg4 false) (fun x s1 i => x.ldsAt s1 (x.saddr (tstA 0x1000 5) i tg2 (.si 0)) 4) = 1 ∧
    tstMem (tstA 0xFFE 5) [tg4, tg2, .si 0] .none (fun x s1 i => x.stsAt s1 (x.saddr (tstA 0xFFE 5) i tg2 (.si 0)) 4 5) = 1 ∧
    tstMem (tstA 0x200000 5) [tg4, tg2, tg3] (.late tg4 false) (fun x s1 i =>
      x.atomAt s1 .add (FEnv.ofMode 0) i (x.read64 (tstA 0x200000 5) i tg2).toNat 1 0) = 1 ∧
    (tstAt (tstCrew tstP (fun c => { c with recs := [tstRec 14 0 8] })) fun x =>
      x.emask tstH [tg4, .rc 0, .ui 1] != 0 && (x.record? 0).all (fun r => !recOk r false false)) := by decide +kernel
theorem witness_DirectAccess : tstChk tstP (tstReq 0x1FFFFC false) = 0 ∧ tstChk tstP (tstReq 0x1FFFFC true) = 0 ∧
    tstChk tstP (tstReq 0x400000 false) = 2 ∧ tstChk tstP (tstReq 0x5FFFFC true) = 2 ∧ tstChk tstP (tstReq 0x600000 false) = 0x1010 ∧
    tstChk tstP (tstReq 0x800000 true) = 0x1011 ∧ 2 ∈ [1, 2, 4, 8] ∧ 0x10001 % 2 ≠ 0 := by decide +kernel
theorem witness_StreamedAccess : tstChk tstP (tstReq 0x200000 false) = 1 ∧ tstChk tstP (tstReq 0x3FFFFC true) = 1 := by decide +kernel
theorem witness_ScratchpadAccess : tstB.site?.isSome ∧ (tstAt tstB fun x => tstB.crew? x.c.id == some x.c
    && tstB.group? (x.c.id * 32 + x.g.gid) == some x.g && x.region 0x1000 4 == .none && x.region 0xFFC 4 != .none
    && x.region 0x300003FC 4 != .none && x.region 0x40007FFC 4 != .none && x.region 0x40008000 4 == .none
    && decide (x.l.desc.scratch ≤ 0x30000000)) := by decide +kernel
theorem witness_Atomics : tstChk tstP ⟨0, 0x10000, 4, true, true, false, none⟩ = 0 ∧ tstChk tstP ⟨0, 0x1FFFF8, 8, true, true, false, none⟩ = 0 ∧
    0x1FFFF8 % atomBytes .pmax = 0 ∧ tstP.sys.rplPlay = [] ∧ fp32.isNan 0x7F800000 = false ∧ fp32.isNan 0x7F800001 := by decide +kernel
/-- A group with one outstanding write of v1 in threads 0 and 31, and of g5. -/
def tstOut : State := tstGroup tstB (fun g => { g with out := [⟨[.v 1], [(.v 1 0, 7), (.v 1 31, 8)], 0xFFFFFFFF, true⟩,
  ⟨[.g 5], [(.g 5, 9)], 0xFFFFFFFF, true⟩] })
theorem witness_LongLatencyWrites : (tstOut.group? 0).map (fun g => g.out.length) = some 2 ∧
    (([Cell.v 1 0, Cell.v 1 31] : List Cell).Nodup) := by decide +kernel
theorem test_longLatencyWriteback : tstNext (.longLatencyWriteback 0) tstOut (fun _ g =>
    g.vreg 1 0 == 7 && g.vreg 1 31 == 8 && g.vreg 1 1 == 0 && g.out.length == 1) := by decide +kernel
/-- A live tile of one line, with handle 0x8000. -/
def tstTile (readers : Nat) : State := { tstA 0x8000 7 with tiles := [⟨0, 0, 0, 1, 1, readers, 1, [(0, 5#8)], [], 0⟩] }
theorem witness_CountedTiles : (tstAt (tstA 0x10000 7) fun x => x.umask tstH != 0 &&
      tstOk ((tstA 0x10000 7).fillBytes x.c.die x.ctx [0x10000]) && ((tstA 0x10000 7).fillSlot x.c.die 128).isSome) ∧
    (tstAt (tstTile 2) fun x => ((tstTile 2).tile? x.ctx x.l.handle 0x8000).isSome && x.emask tstH [tg4, tg2, .si 124] != 0) ∧
    (tstAt (tstTile 2) fun x => ((tstTile 2).tile? x.ctx x.l.handle 0x8001).isNone) := by decide +kernel
theorem test_ldc_last : tstNext (.ldc tstH .b32 true tg4 tg2 (.si 0)) (tstTile 1) (fun t _ => t.tiles.isEmpty) ∧
    tstNext (.ldc tstH .b32 true tg4 tg2 (.si 0)) (tstTile 2) (fun t g => t.tiles.map (·.readers) == [1] &&
      g.out.map (·.cells) == [[(Cell.g 4, 5#32)]]) := by decide +kernel
theorem witness_MaintenanceAndFences : (tstAt tstD fun x => x.umask tstH != 0 && !cmoHeld tstD x.ctx 0x200000 128
    && (tstD.line? (x.buf tstD) 0 0x4000).isSome) ∧ keyOf tstD 0 0x200000 = some 0x400000 := by decide +kernel
theorem witness_BufferSteps : (tstD.line? (.l1 0 0) 0 0x4000).isSome ∧ tstD.line? (.l1 0 1) 0 0x4000 = none ∧
    ({ tstD with bufs := [⟨.die 0, 0, 0x4000, 7, 1, 0⟩] } : State).line? (.die (dieOfBuf (.die 0))) 0 0x4000 =
      some ⟨.die 0, 0, 0x4000, 7, 1, 0⟩ ∧ keyOf tstD 0 (0x4000 * 128) = some 0x400000 := by decide +kernel
theorem test_bufferFill : tstNext (.bufferFill (.die 0) 0 0x4001) tstD (fun t _ =>
    (t.line? (.die 0) 0 0x4001).map (·.dirty) == some 0#128) := by decide +kernel
theorem test_bufferClean_bufferDrop : tstNext (.bufferClean (.die 0) 0 0x4000) { tstD with bufs := [⟨.die 0, 0, 0x4000, 7, 1, 0⟩] }
      (fun t _ => memGet t.mem 0x400000 == 7 && t.bufs.map (·.dirty) == [0#128]) ∧
    tstNext (.bufferDrop (.l1 0 0) 0 0x4000) tstD (fun t _ => t.bufs.length == 1) := by decide +kernel
def tstName : DWord := 0x100000000000002A
/-- A name in g2, g3 that a pin of another group holds. -/
def tstPinned (d : List DeferEnt) : State :=
  { tstReg tstP [(2, 0x2A), (3, 0x10000000)] with pins := [⟨0, .reg 5 0, tstName⟩], deferred := d }
theorem witness_PinsAndReclaim : (tstAt (tstPinned []) fun x => x.umask tstH != 0 && x.read64 (tstPinned []) 0 tg2 == tstName) ∧
    tstName.toNat / 2 ^ 60 ∉ [0, 15] ∧ (0xF00000000000002A : DWord).toNat / 2 ^ 60 ∈ [0, 15] ∧ (tstPinned []).pinned 0 tstName ∧
    tstP.pinned 0 tstName = false ∧ (tstPinned [⟨0, 0, tstName⟩]).deferred.contains ⟨0, 0, tstName⟩ ∧
    4096 ≤ ((tstPinned (List.replicate 4096 ⟨0, 0, 1⟩)).deferredOn 0).length ∧
    (tstPinned (List.replicate 4096 ⟨0, 0, 1⟩)).deferred.contains ⟨0, 0, tstName⟩ = false ∧
    ((tstPinned (List.replicate 4095 ⟨0, 0, 1⟩)).deferredOn 0).length < 4096 := by decide +kernel

/-- A copy block at g8: 256 bytes of coherent memory, engine in g1. -/
def tstCpy (eng ctl : Word) (q : List Engine) : State :=
  { tstReg tstP [(1, eng), (8, 0x10000), (10, 0x20000), (12, 256), (13, ctl)] with engines := q }
def tstCheck (s : State) (form : CpyForm) (eng : Nat) : Nat :=
  match s.site? with
  | some x => (match cpyCheck x form 8 eng 0 s.stamp x.f.pc s.word with
    | .ok _ => 0
    | .error t => t.cause.toNat)
  | none => 1
/-- A plain copy job of one chunk. -/
def tstJob : Job :=
  { kind := .copy, crew := 0, gid := 0, ctx := 0, handle := 1, pc := 0x1000, word := 0, src := .mem 0x10000, dst := .mem 0x20000,
    len := 128, arv := 2, awOff := 16, awVal := 0, bytes := 128, moved := [], left := 128, paused := false, pauseAt := 0,
    failed := false, issued := 0 }
theorem witness_CopyCommands : tstCheck (tstCpy 5 0 []) .plain 5 = 0 ∧ tstCheck (tstCpy 5 0 []) .fill 5 = 0 ∧
    tstCheck (tstRec0 (tstCpy 5 0 [])) .cvt 5 = 0 ∧ tstCheck (tstCpy 6 0 []) .plain 6 = 0x11 ∧ tstCheck (tstCpy 5 3 []) .fill 5 = 0x11 ∧
    ((tstCpy 5 0 [⟨5, List.replicate 64 tstJob⟩]).queue 5).length = 64 ∧ ((tstCpy 5 0 []).queue 5).length < 64 ∧
    (tstAt (tstCpy 5 0 []) fun x => x.umask tstH != 0) := by decide +kernel
def tstQ (j : Job) : State := { tstP with engines := [⟨0, [j]⟩] }
def tstCvtJob : Job :=
  { tstJob with kind := .cvt, src := .elems (tstRec 1 0x10000 256) 0 0, dst := .elems (tstRec 0 0x20000 512) 0 0 }
def tstStrmJob : Job := { tstJob with kind := .stream (tstRec 5 0x10000 256 + 2 ^ 264 * 0x30000) 0 0 }
def tstMet (m : Met) : Bool :=
  match m with
  | .ok _ => true
  | _ => false
/-- A chunk of a copy moves from `src` to `dst` in the state. -/
def tstMoves (s : State) (j : Job) (src dst : Place) : Bool :=
  match s.placeRead 0 j src 0 128 with
  | .ok xs => (match s.placeWrite 0 j dst 0 xs with
    | .ok _ => true
    | _ => false)
  | _ => false
def tstPauses (s : State) (j : Job) (src : Place) : Bool :=
  match s.placeRead 0 j src 0 128 with
  | .error (.bad c _) => c == 0x10#8
  | _ => false
theorem witness_CopySteps :
    (((tstQ tstJob).queue 0)[0]? = some tstJob ∧ tstJob.chunkAt 0 ∧ tstJob.chunkLen 0 = 128) ∧
    tstMoves (tstQ tstJob) tstJob tstJob.src tstJob.dst ∧ tstMoves (tstQ tstJob) tstJob (.scr 3968) (.mem 0x1FFF80) ∧
    tstPauses (tstQ tstJob) tstJob (.mem 0x600000) ∧ tstMet ((tstQ tstCvtJob).cvtStep 0 tstCvtJob 0) ∧
    tstOk (((tstQ tstStrmJob).cohStore 0 0x30000 8 (2 ^ 47)).streamStep 0 tstStrmJob (tstRec 5 0x10000 256 + 2 ^ 264 * 0x30000) 0 0) ∧
    (tstQ { tstJob with left := 0, moved := [0] }).taints { tstJob with left := 0, moved := [0] } = [] ∧
    ((tstQ tstJob).crew? 0).isSome := by decide +kernel
theorem test_engineStep : tstNext (.engineStep 0 0 0) ((tstQ tstJob).cohStore 0 0x10000 4 0xA1B2C3D4) (fun t _ =>
    memGet t.mem 0x220003 == 0xA1 && (t.queue 0).map (·.left) == [0]) := by decide +kernel
theorem test_copyJobCompletion : tstNext (.copyJobCompletion 0) (tstQ { tstJob with left := 0, moved := [0] }) (fun t _ =>
    (t.queue 0).isEmpty && t.crews.map (fun c => c.awGet 16) == [128#32]) := by decide +kernel
/-! Barriers, waits, rings, yields, meetings, control transfers. -/

/-- Barrier 3 of the core level, with its instance. -/
def tstBar (members : Word) (b : BarInst) : State :=
  tstLaunch (tstCrew tstB (fun c => { c with insts := [b] })) (fun l => { l with bars := [⟨0, 3, b.expect, members⟩] })
/-- Two fragments, of the low and the high threads: the second waits at the point of the first where `at_`. -/
def tstSplit (s : State) (at_ : Bool) : State :=
  tstGroup s (fun g => { g with frags := [{ Frag.start 0x0000FFFF 0x1000 with pos := 1, count := 2 },
    { Frag.start 0xFFFF0000 0x1000 with pos := 1, count := 5, atPoint := at_ }] })
def tstGather (s : State) (p : State → Site → Bool) : Bool :=
  match s.site? with
  | some x => (match s.gather x with
    | some (t, y) => p t y
    | none => false)
  | none => false
def tstPh (w : Word) (s : State) : State := tstGroup s (fun g => { g with barPh := [(barNo 0 3, w)] })
def tstOn (b : Block) (s : State) : State := tstGroup s (fun g => { g with block := some b })
/-- The point's hypotheses at barrier 3: the instance, the phase kept, and whether it is the phase now. -/
def tstPoint (s : State) (same : Bool) : Bool := tstGather s (fun t y => y.umask tstH != 0 && y.l.member y.g.gid 0 3 &&
  (match t.inst? y.c y.l 0 3 with
   | some b => decide (lookup y.g.barPh (barNo 0 3) = some (phaseNow t y b)) == same
   | none => false))
theorem witness_Barriers :
    (tstAt (tstBar 1 ⟨0, 3, 7, 2, 1, 0, [9], []⟩) fun x => x.umask tstH != 0 && x.l.member x.g.gid 0 3 &&
      (match (tstBar 1 ⟨0, 3, 7, 2, 1, 0, [9], []⟩).inst? x.c x.l 0 3 with
       | some b => b.level == 0 && b.index == 3 && !b.dropped.contains 0 && !b.arrived.contains 0 && b.expect != 0 &&
           ((tstBar 1 ⟨0, 3, 7, 2, 1, 0, [9], []⟩).barArrive x.c x.l x.g.key b).isSome &&
           !((tstBar 1 ⟨0, 3, 7, 2, 1, 0, [9], []⟩).barDrop x.c x.l x.g.key b).bad
       | none => false)) ∧
    (∀ b ∈ [(⟨0, 3, 7, 2, 1, 0, [0], []⟩ : BarInst), ⟨0, 3, 7, 2, 1, 1, [], [0]⟩, ⟨0, 3, 7, 0, 0, 0, [], []⟩],
      tstAt (tstBar 1 b) fun x => x.umask tstH != 0 && x.l.member x.g.gid 0 3 &&
        ((tstBar 1 b).inst? x.c x.l 0 3 == some b) && ((tstBar 1 b).barArrive x.c x.l x.g.key b).isNone) ∧
    (tstAt (tstBar 2 ⟨0, 3, 7, 2, 1, 0, [], []⟩) fun x => x.umask tstH != 0 && !x.l.member x.g.gid 0 3) ∧
    (tstAt (tstSplit (tstBar 1 ⟨0, 3, 7, 2, 1, 0, [], []⟩) false) fun x =>
      ((tstSplit (tstBar 1 ⟨0, 3, 7, 2, 1, 0, [], []⟩) false).gather x).isNone) ∧
    tstPoint (tstPh 7 (tstBar 1 ⟨0, 3, 7, 2, 1, 0, [0], []⟩)) true ∧ tstPoint (tstPh 6 (tstBar 1 ⟨0, 3, 7, 2, 1, 0, [], []⟩)) false ∧
    tstPoint (tstOn (.bar (barNo 0 3)) (tstPh 6 (tstBar 1 ⟨0, 3, 7, 2, 1, 0, [], []⟩))) false := by decide +kernel
theorem test_bar_arrive_last : tstNext (.barArrive tstH (some tg4) .core 3) (tstBar 1 ⟨0, 3, 0xFFFFFFFF, 2, 1, 1, [9], [9]⟩)
    (fun t g => g.greg 4 == 0xFFFFFFFF && t.crews.map (·.insts) == [[⟨0, 3, 0, 1, 0, 0, [], [9]⟩]]) := by decide +kernel
theorem test_bar_arrive_twice : tstNext (.barArrive tstH none .core 3) (tstBar 1 ⟨0, 3, 7, 2, 1, 0, [0], []⟩)
    (fun t g => g.stat == .stopped 0 0x1000 t.word && t.launches.map (·.traps) == [1]) := by decide +kernel
theorem test_bar_drop : tstNext (.barDrop tstH (some tg4) .core 3) (tstBar 1 ⟨0, 3, 7, 3, 1, 0, [9], []⟩)
    (fun t g => g.greg 4 == 7 && t.crews.map (·.insts) == [[⟨0, 3, 7, 3, 2, 1, [0, 9], [0]⟩]]) := by decide +kernel
theorem test_bar_wait : tstNext (.barWait tstH .core 3) (tstPh 7 (tstBar 1 ⟨0, 3, 7, 2, 1, 0, [0], []⟩))
      (fun _ g => g.block == some (.bar (barNo 0 3)) && g.frags.map (fun f => (f.pc, f.count)) == [(0x1000, 1)]) ∧
    tstNext (.barWait tstH .core 3) (tstPh 6 (tstBar 1 ⟨0, 3, 7, 2, 1, 0, [], []⟩))
      (fun _ g => g.block == none && g.frags.map (·.pc) == [0x100C]) := by decide +kernel
theorem test_bar_sync : tstNext (.barSync tstH none .core 3) (tstBar 1 ⟨0, 3, 7, 1, 0, 0, [], []⟩)
      (fun _ g => g.block == none && g.frags.map (·.pc) == [0x100C]) ∧
    tstNext (.barSync tstH none .core 3) (tstSplit (tstBar 1 ⟨0, 3, 7, 2, 0, 0, [], []⟩) true)
      (fun t g => g.block == some (.bar (barNo 0 3)) && g.frags.map (fun f => (f.mask, f.count)) == [(0xFFFFFFFF, 6)] &&
        t.crews.map (·.insts) == [[⟨0, 3, 7, 2, 1, 0, [0], []⟩]]) := by decide +kernel

/-- A wait block at g8 of one condition. -/
def tstCondAt (s : State) (ctl val opr : Word) : State := tstReg s [(8, ctl), (9, val), (10, opr)]
/-- The check and an evaluation: 0 held, 1 not held, 2 the check fails, 3 an access faults. -/
def tstFired (s : State) : Nat :=
  match s.site? with
  | some x => (match s.gather x with
    | some (t, y) => (match waitCheck t y 8 with
      | some _ => 2
      | none => (match condFired t y ((condBlock y.g 8).filter (fun c => c.kind != 0)) with
        | .ok 0 => 1
        | .ok _ => 0
        | .error _ => 3))
    | none => 4)
  | none => 4
theorem witness_Waits : tstFired (tstCondAt (tstBar 1 ⟨0, 3, 7, 2, 1, 0, [0], []⟩) 0x10000003 7 0) = 0 ∧
    tstFired (tstCondAt (tstBar 1 ⟨0, 3, 7, 2, 1, 0, [0], []⟩) 0x10000003 8 0) = 1 ∧
    tstFired (tstCondAt tstB 0x25000000 0 0x3BC) = 0 ∧ tstFired (tstCondAt tstB 0x22000000 0 0x3FC) = 1 ∧
    tstFired (tstCondAt tstP 0x30000000 0 0x10000) = 0 ∧ tstFired (tstCondAt tstP 0x30000000 0 0x600000) = 3 ∧
    tstFired (tstCondAt tstB 0x40000005 0 0) = 0 ∧ tstFired (tstCondAt tstB 0x60000000 1 0) = 1 ∧
    tstFired (tstCondAt tstB 0x50000000 0 1) = 1 ∧ tstFired (tstCondAt tstB 0x70000000 0 0) = 2 ∧
    (∀ w ∈ [some 0, some 10, none], ((tstOn (.wait w true 1 8 0) (tstCondAt tstB 0x60000000 1 0)).blocked? 0).isSome) := by decide +kernel
theorem test_wait_any : tstNext (.waitAny tstH (.p 1) (.g 8) (.g 30)) (tstReg (tstCondAt tstB 0x22000000 0 16) [(12, 0), (11, 0x20000000), (30, 3)])
    (fun _ g => g.pred 1 0 && g.greg 20 == 2 && g.frags.map (·.pc) == [0x100C]) := by decide +kernel
theorem test_wait_all : tstNext (.waitAll tstH (.p 1) (.g 8) (.g 30)) (tstReg (tstCondAt tstB 0x22000000 0 16) [(12, 0), (11, 0x20000000), (30, 3)])
    (fun t g => g.block == some (.wait (some 30) true 1 8 t.word)) := by decide +kernel
theorem test_waitEvaluation : tstNext (.waitEvaluation 0) (tstOn (.wait (some 30) false 1 8 0) (tstCondAt tstB 0x20000000 0 16))
    (fun _ g => g.block == none && g.pred 1 0 && g.greg 20 == 1) := by decide +kernel
theorem test_waitTimeout : tstNext (.waitTimeout 0) (tstOn (.wait (some 0) true 1 8 0) (tstCondAt tstB 0x22000000 0 16))
    (fun _ g => g.block == none && !g.pred 1 0 && g.greg 20 == 0) := by decide +kernel

theorem witness_ArrivalWordsAndRings : tstAt (tstReg tstB [(2, 0x3FFFFFFF)]) (fun x => x.umask tstH != 0 &&
    decide ((x.read tstB (lowest (x.umask tstH)) tg2).toNat < 2 ^ 30) && x.c.ringSlot? 15 63 == some 504 && x.c.ringSlot? 0 64 == none) ∧
    tstAt (tstReg tstB [(2, 0x40000000)]) (fun x => decide (2 ^ 30 ≤ (x.read (tstReg tstB [(2, 0x40000000)]) 0 tg2).toNat)) := by
  decide +kernel
def tstAw (off : Nat) (w : Word) (s : State) : State := tstCrew s (fun c => c.awSet off w)
theorem test_arrv_set : tstNext (.arrvSet tstH (.aw 16) tg2) (tstReg tstB [(2, 0x80000005)])
    (fun t _ => t.crews.map (fun c => (c.awGet 16, c.awGet 20)) == [(0x80000005, 0)]) := by decide +kernel
theorem test_arrv_add : tstNext (.arrvAdd tstH (.aw 16) tg2) (tstAw 16 0xFFFFFFFE (tstReg tstB [(2, 2)]))
    (fun t _ => t.crews.map (fun c => c.awGet 16) == [0]) := by decide +kernel
theorem test_arrv_expect : tstNext (.arrvExpect tstH (.aw 16) tg2) (tstAw 16 5 (tstReg tstB [(2, 5)]))
    (fun t _ => t.crews.map (fun c => c.awGet 16) == [0x80000000]) := by decide +kernel
theorem test_ring_take : tstNext (.ringTake tstH (.p 1) (.ring 0 2) false false) (tstAw 16 0x80000000 tstB) (fun _ g => g.pred 1 0) ∧
    tstNext (.ringTake tstH (.p 1) (.ring 0 2) true true) (tstAw 20 0x80000000 tstB) (fun _ g => g.pred 1 0) := by decide +kernel
theorem test_ring_give : tstNext (.ringGive tstH (.ring 0 2) true false) (tstAw 16 3 tstB)
    (fun t _ => t.crews.map (fun c => (c.awGet 16, c.awGet 20)) == [(0x80000000, 0)]) := by decide +kernel

/-- A crew that is to leave. -/
def tstLeave (s : State) : State := tstCrew s (fun c => { c with pending := some .switch })
/-- The staged kernel with a live-mask entry for address 0x1000: v0 to v7, and 32 bytes from 16 (R120). -/
def tstLive : State := tstLaunch { tstB with mem := memPut tstB.mem 0x208000 (leBytes 24 (0x1000 + 2 ^ 64 + 2 ^ 100 + 2 ^ 133)) } (fun l =>
  { l with desc := { l.desc with liveCnt := 1 } })
theorem witness_Yields : (tstGather tstLive fun t y => y.umask tstH != 0 && y.c.pending == none &&
      !t.outranked y (t.queuePrio y.l) && t.liveEntry y.l y.f.pc == ⟨1, 16, 32, false, false, false⟩) ∧
    (tstGather (tstLeave tstB) fun _ y => y.umask tstH != 0 && y.c.pending == some .switch) := by decide +kernel
theorem test_yield : tstNext (.yield tstH 599) (tstReg (tstScr tstLive 16 4 9) [(2, 7)]) (fun t g => g.wdog == 600 && g.greg 2 == 7 &&
      g.frags.map (fun f => (f.pc, f.count)) == [(0x100C, 0)] && g.vreg 7 31 == 0 &&
      (g.v.holes.any fun q => decide (q.lo ≤ 256 ∧ 256 < q.hi)) && (t.crews.all fun c => c.scr.get 16 == 9 &&
        c.scr.get 47 == 0 && (c.scr.holes.any fun q => decide (q.lo ≤ 48 ∧ 48 < q.hi)))) ∧
    tstNext (.yield tstH 599) (tstLeave tstB) (fun _ g => g.stat == .held && g.frags.map (fun f => (f.pc, f.count)) == [(0x1018, 1)]) := by
  decide +kernel

/-- A group of the threads in `m`, with member mask 1 in g2 and the live blocks in g3. -/
def tstMeet (m live : Word) : State := tstGroup (tstReg tstB [(2, 1), (3, live)]) (fun g =>
  { g with frags := g.frags.map (fun f => { f with mask := m }), v := (g.v.set 34 5).set 37 6, p := g.p.set 1 0x20 })
def tstMeetAt (m live : Word) : State := { tstMeet m live with focus := ⟨0, lowest m⟩ }
theorem witness_RegroupAndJoin : tstGather (tstMeetAt 0x80000024 0xFFFFFFFF) (fun t y => y.umask tstH != 0 && y.g.stat == .run &&
      decide (y.vregs ≤ 256) && y.f.mask != 0 && (y.read t (lowest (y.umask tstH)) tg2).getLsbD y.g.gid &&
      (t.groups.all fun q => q.crew != y.c.id || q.key == y.g.key) && (t.groups.map Group.key) == [0] && y.c.pending == none &&
      y.c.children == 0) ∧
    (tstGather (tstCrew tstB (fun c => { c with children := 1 })) fun _ y => y.c.children != 0 && y.c.pending == none) := by decide +kernel
theorem test_regroup : tstNext (.regroup tstH tg2 tg3) (tstMeetAt 0x80000024 1) (fun _ g => g.frags.map (fun f => (f.mask, f.pc)) == [(7, 0x100C)] &&
    g.vreg 1 0 == 5 && g.vreg 1 1 == 6 && g.vreg 1 2 == 0) := by decide +kernel
theorem test_join : tstNext (.join tstH) tstB (fun _ g => g.block == none && g.frags.map (·.pc) == [0x100C]) ∧
    tstNext (.join tstH) (tstCrew tstB (fun c => { c with children := 1 })) (fun t g => g.block == some .join &&
      t.crews.map (·.pending) == [some .join]) := by decide +kernel

theorem witness_ControlTransfers : tstAt (tstReg tstB [(2, 0x100C)]) (fun x => x.umask tstH != 0 &&
      (let ta := (x.read64 (tstReg tstB [(2, 0x100C)]) 0 tg2).toNat
       decide (ta < 2 ^ 56 ∧ (x.l.desc.entry : Int) % 12 = (ta : Int) % 12))) ∧
    (0x1000 : Int) % 12 ≠ (0x1001 : Int) % 12 ∧ (0x1000 : Int) % 12 = (4 : Int) % 12 := by decide +kernel
def tstXf (i : Instr) (s : State) (t : Option Xfer) : Bool :=
  tstNext i s (fun _ g => g.frags.map (fun f => (f.pc, f.xfer)) == [(0x100C, t)])
theorem test_br : tstXf (.br tstH (-1) none) tstB (some (.goto 0xFF4)) ∧
    tstXf (.br { tstH with prd := 1 } 4 (some 6)) (tstGroup tstB (fun g => { g with p := g.p.set 1 3 }))
      (some (.split 3 0x1030 0x1018 0x1048)) ∧ tstXf (.br { tstH with prd := 1 } 4 none) tstB (some (.goto 0x1018)) := by decide +kernel
theorem test_jmp_ret : tstXf (.jmp tstH tg2) (tstReg tstB [(2, 4)]) (some (.goto 4)) ∧
    tstXf (.ret tstH tg2) (tstReg tstB [(2, 4)]) (some (.goto 4)) := by decide +kernel
theorem test_call : tstXf (.call tstH (.g 4) (.si 0x7FFF)) tstB (some (.goto (0x1000 + 12 * 0x7FFF))) ∧
    tstNext (.call tstH (.g 4) tg2) (tstReg tstB [(2, 0x1000)]) (fun _ g => g.greg 4 == 0x1018 && g.greg 5 == 0) := by decide +kernel
theorem test_exit : tstXf (.exit tstH) tstB (some .exit) := by decide +kernel
def tstGoes (t : Option Xfer) (s : State) : State := tstGroup s (fun g => { g with frags := g.frags.map (fun f => { f with xfer := t }) })
theorem witness_Trailer : (tstAt tstOut fun x => (x.g.out.any fun p => p.inRun && p.frag &&& x.f.mask != 0 && p.regs.any (· != .g 5))) ∧
    (tstAt (tstGoes (some (.split 3 0x1030 0x1018 0x1048)) tstB) fun x => x.g.frags == [x.f] && x.g.spilled == [] && x.f.stack == [] &&
      !x.f.atPoint && x.g.out == [] && x.f.mask &&& 3 != 0 && x.f.mask &&& ~~~ 3 != 0) ∧
    (tstAt (tstGoes (some .exit) tstB) fun x => x.f.xfer == some .exit) ∧ (tstAt tstB fun x => x.f.xfer == none) := by decide +kernel
theorem test_trail : tstNext (.trail tstH [.g 5]) tstOut (fun _ g => g.frags.map (·.pc) == [0x1000]) ∧
    tstNext (.trail tstH [.g 5, .v 1]) tstOut (fun _ g => g.frags.map (fun f => (f.pc, f.pos)) == [(0x100C, 0)]) := by decide +kernel
theorem test_trail_split : tstNext (.trail tstH []) (tstGoes (some (.split 3 0x1030 0x1018 0x1048)) tstB) (fun _ g =>
    g.frags.map (fun f => (f.mask, f.pc, f.stack)) == [(3, 0x1030, [(0x1048, 1)]), (0xFFFFFFFC, 0x1018, [(0x1048, 1)])]) := by decide +kernel
theorem test_trail_exit : tstNext (.trail tstH []) (tstGoes (some .exit) tstB) (fun _ g => g.stat == .ended) := by decide +kernel
/-- Two fragments that wait at the reconvergence address of one split. -/
def tstMeets : Group := { stageGroup 0 0 with frags := [{ Frag.start 3 0x1048 with stack := [(0x1048, 1)], count := 9 },
  { Frag.start 12 0x1048 with stack := [(0x1048, 1)], count := 4 }] }
theorem witness_Fragments : (tstMeets.settle.frags.map fun f => (f.mask, f.count)) = [(15, 9)] ∧ tstMeets.spilled = [] ∧
    ((tstGroup tstB (fun g => { g with spilled := g.frags, frags := [] })).group? 0).map (fun g => (g.spilled.length, g.frags.length)) =
      some (1, 0) := by decide +kernel
theorem test_fragmentReturn : tstNext (.fragmentReturn 0) (tstGroup tstB (fun g => { g with spilled := g.frags, frags := List.replicate 7 (Frag.start 1 0) }))
    (fun _ g => g.frags.length == 8 && g.spilled == []) := by decide +kernel
/-! Exceptions. -/

theorem witness_TrapStops : tstAt tstB (fun x => x.g.crew == 0 && x.l.traps == 0) := by decide +kernel
def tstQueue (put get : Nat) : State := ((tstB.cohStore 0 0 4 put).cohStore 0 4 4 get)
theorem witness_FaultRecords : tstB.sys.boot.isSome ∧ ([(4095, 0, true), (5000, 4999, true), (4096, 0, false)] : List (Nat × Nat × Bool)).all (fun q =>
    (tstQueue q.1 q.2.1).cohNat? 0 0 4 == some q.1 && (tstQueue q.1 q.2.1).cohNat? 0 4 4 == some q.2.1 &&
    decide ((q.1 + 2 ^ 32 - q.2.1) % 2 ^ 32 < 4096) == q.2.2 && (tstQueue q.1 q.2.1).cohNat? 0 8 4 == some 0) := by decide +kernel
theorem test_trap : tstNext (.trap tstH 0x1F) { tstQueue 3 3 with word := 0xC1 <<< 88, tsc := 77 } (fun t g =>
    g.stat == .stopped 0 0x1018 (0xC1 <<< 88) && t.cohNat? 0 0 4 == some 4 && t.cohNat? 0 (64 + 192 + 51) 1 == some 0x40 &&
    t.cohNat? 0 (64 + 192) 8 == some 0x1F && t.cohNat? 0 (64 + 192 + 40) 8 == some 0x1000 && t.cohNat? 0 (64 + 192 + 56) 8 == some 77) := by
  decide +kernel
theorem witness_DecodeAndSoftwareTraps : tstAt tstB (fun x => x.umask tstH != 0 && x.umask { tstH with neg := true } == 0) := by decide +kernel
theorem test_illegalWord : tstNext (.illegalWord 0x01 true) (tstQueue 0 0) (fun t g => g.stat == .stopped 0 0x1000 t.word &&
    g.frags.map (·.count) == [0] && t.launches.map (·.traps) == [1] && t.cohNat? 0 (64 + 50) 2 == some 0x0102) := by decide +kernel
def tstDog (n : Nat) : State := tstGroup tstB (fun g => { g with wdog := n })
theorem witness_WatchdogOverrun : tstAt (tstDog 1) (fun x => decide (x.counted.count ≤ x.g.wdog)) ∧
    tstAt (tstDog 0) (fun x => decide (x.g.wdog < x.counted.count)) := by decide +kernel
theorem test_watchdogOverrun : tstNext .watchdogOverrun (tstDog 0) (fun t g => g.stat == .ended && t.launches.map (fun l => (l.traps, l.killed)) == [(1, 1)]) := by
  decide +kernel

/-- A group stopped at its word, to resume at `a`. -/
def tstStop (a : Nat) (s : State) : State := tstGroup s (fun g => { g with stat := .stopped 0 a 0 })
theorem witness_StoppedGroups : ([0x100C, 0x1000, 0x1001] : List Nat).all (fun a => match (tstStop a tstB).group? 0 with
    | some g => g.stat == .stopped 0 a 0 && ((tstB.crew? g.crew).bind (fun c => tstB.launch? c.handle)).isSome &&
        (g.all.find? (fun f => lowest f.mask == 0)).isSome
    | none => false) ∧ (0x1000 : Int) % 12 = (0x100C : Int) % 12 ∧ (0x1000 : Int) % 12 ≠ (0x1001 : Int) % 12 := by decide +kernel
theorem test_debugResume : tstNext (.debugResume 0) (tstStop 0x100C tstB) (fun _ g => g.stat == .run && g.frags.map (·.pc) == [0x100C]) ∧
    tstNext (.debugResume 0) (tstStop 0x1001 tstB) (fun t g => g.stat == .stopped 0 0x1000 0 && t.launches.map (·.traps) == [1]) := by decide +kernel
theorem test_debugKill : tstNext (.debugKill 0) (tstStop 0x1000 tstB) (fun t g => g.stat == .ended && t.launches.map (·.killed) == [1]) := by decide +kernel
theorem test_debugWindowWrite : tstNext (.debugWindowWrite 0 0x84 5) (tstStop 0x1000 tstB) (fun _ g => g.vreg 1 1 == 5 && g.vreg 1 0 == 0) ∧
    tstNext (.debugWindowWrite 0 0x8800 0x100C) (tstStop 0x1000 tstB) (fun _ g => g.stat == .stopped 0 0x100C 0) := by decide +kernel
def tstPark (s : State) : State := tstGroup s (fun g => { g with stat := .parked 0 false 0x600000 0 })
/-- The leaf that maps 6 MiB. -/
def tstLeaf : Leaf := ⟨0x4018, BitVec.ofNat 64 (leafTo 3072)⟩
/-- A unit with a job of `op`. -/
def tstCasc (op : CascOp) : CascJob :=
  { op := op, gid := 0, pc := 0x1000, word := 0, opened := 0, issued := 0, got := [], gotAt := [], wrote := [], fault := none, failAt := 0, paused := false }
def tstUnit (f : CascUnit → CascUnit) (s : State) : State := tstCrew s (fun c => { c with hasUnit := true, unit := f c.unit })
def tstDev (kind : DevKind) (left : Nat) (paused : Bool) : DevJob :=
  { die := 0, kind := kind, crew := 0, gid := 0, ctx := 0, pc := 0x1000, word := 0, moved := [], left := left, paused := paused,
    pauseAt := 0, issued := 0 }
theorem witness_ParkServices : ((tstPark tstB).group? 0).map (·.stat) = some (.parked 0 false 0x600000 0) ∧
    ((tstQ { tstJob with paused := true }).queue 0)[0]? = some { tstJob with paused := true } ∧
    ({ tstB with djobs := [tstDev (.migrate 0 0 64) 64 true] } : State).djob? 0 0 = some (tstDev (.migrate 0 0 64) 64 true) ∧
    ((tstUnit (fun u => { u with jobs := [{ tstCasc .pop with paused := true }] }) tstB).crew? 0).map (fun c => c.unit.jobs.map (·.paused)) =
      some [true] := by decide +kernel
theorem test_parkService : tstNext (.parkService (.group 0) (some tstLeaf)) (tstPark tstP) (fun t g => g.stat == .run &&
      (t.cohNat? 0 0x600000 4).isSome) ∧
    tstNext (.parkService (.group 0) none) (tstPark tstP) (fun t g => g.stat == .stopped 0 0x1000 0 && t.launches.map (·.traps) == [1]) := by
  decide +kernel
def tstCause (silent : Bool) : JobFault := ⟨0x28, 0x1000, 0, 0, 0, 0, 0, silent⟩
def tstCaused (silent : Bool) (s : State) : State := tstGroup s (fun g => { g with jobFaults := [tstCause silent] })
theorem witness_JobFaultDelivery : ([tstCaused true tstB, tstCaused false tstB] : List State).all (fun s => match s.group? 0 with
      | some g => s.deliverable g && g.stat == .run && g.frags != [] && g.all.all (fun f => f.replay == none) && g.jobFaults.length == 1
      | none => false) ∧
    (match (tstStop 0x1000 (tstCaused false tstB)).group? 0 with
      | some g => !(tstStop 0x1000 (tstCaused false tstB)).deliverable g
      | none => false) = true := by decide +kernel
theorem test_jobFaultDelivery : tstNext (.jobFaultDelivery 0) (tstCaused false tstB) (fun t g => g.stat == .stopped 0 0x1000 0 &&
    t.launches.map (·.traps) == [1] && g.jobFaults == []) := by decide +kernel

/-! The Cascade unit. -/

/-- A dense record of 64 columns (R238). -/
def tstDense (enc base extent : Nat) : Rec := tstRec enc base extent + BitVec.ofNat 320 (2 ^ 240 * 64 + 2 ^ 208 * 256)
/-- Records 0: INT32, 1: dense FP16, 2: dense BF16, 3: K4 weights, 4: FP8; a block at g8, `slots` in the ring. -/
def tstC (l : List Word) (slots : List Slot) (jobs : List CascJob) : State :=
  tstUnit (fun u => { u with slots := slots ++ u.slots.drop slots.length, jobs := jobs })
    (tstCrew (tstLaunch (tstReg tstP (l.zipIdx.map (fun e => (e.2 + 8, e.1)))) (fun l => { l with desc := { l.desc with cbCnt := 2 } }))
      (fun c => { c with recs := [tstRec 7 0x20000 0x4000, tstDense 1 0x10000 0x4000, tstDense 2 0x14000 0x4000, tstRec 10 0x18000 0x4000,
        tstRec 3 0x1C000 0x4000] }))
/-- The issue's hypotheses on the window. -/
def tstWin (s : State) (p : Site → Bool) : Bool := tstAt s (fun x => x.umask tstH != 0 && decide (x.c.unit.pending < 16) &&
  (x.c.unit.jobs.head?.all (fun j => j.op.isJob)) && p x)
theorem witness_CascadeInstructions_jobs :
    tstWin (tstC [0x10000, 0, 15] [] []) (fun x => x.l.desc.cbCnt == 2 && x.blk (.g 8) 0 % 32 == 0 && x.blk (.g 8) 2 == 15) ∧
    tstWin (tstC [0, 0, 0x3F0000, 0] [] []) (fun x => let q := x.recRef 3
      !operandBad q (x.record? 3).isSome [.k4, .k3, .k2, .tern] false && recSmode q.r == 0 && bits (x.blk (.g 8) 2) 21 16 == 63) ∧
    tstWin (tstC [0, 64, 0x3F0000, 0] [] []) (fun x => let q := x.recRef 4
      !operandBad q (x.record? 4).isSome [.f16, .bf16, .e4m3, .e5m2, .s8] false && !headFails x.c.unit true false &&
      (List.range 64).all (fun r => !outside x ((x.blk (.g 8) 0 + r * 64) * 8) 512) && outside x ((4097 - 64) * 8) 512) ∧
    tstWin (tstC [0, 0, 0, 0, 1, 0, 0, 0] [⟨1, false⟩] []) (fun x => headFails x.c.unit true false && !headFails x.c.unit false false) ∧
    tstWin (tstC [0, 0, 0, 0, 65536, 0, 0, 0] [] []) (fun x => let ra := x.recRef 1
      !operandBad ra (x.record? 1).isSome denseEncs true && recCols ra.r == 64 && !headFails x.c.unit true (intPair ra.r (x.recRef 2).r)) ∧
    tstWin (tstC [] [⟨2, false⟩] []) (fun x => !tailFails x.c.unit) ∧ tstWin (tstC [] [] [tstCasc (.mcb 0 0)]) (fun x => tailFails x.c.unit) ∧
    (tstAt (tstC [] [] (List.replicate 16 (tstCasc (.mcb 0 0)))) fun x => x.c.unit.pending == 16) := by decide +kernel
/-- A tile of one line, its handle in g9, for the counted forms. -/
theorem witness_CascadeInstructions_counted : tstWin { tstC [0, 0x8000, 0x10000, 0] [] [] with tiles := [⟨0, 0, 0, 1, 1, 1, 1, [], [], 0⟩] }
    (fun x => (({ tstC [0, 0x8000, 0x10000, 0] [] [] with tiles := [⟨0, 0, 0, 1, 1, 1, 1, [], [], 0⟩] } : State).tile? x.ctx x.l.handle
      (x.blk (.g 8) 1)).any (fun t => decide (2 * 64 * 4 ≤ t.lines * 1024))) := by decide +kernel
/-- A configuration of 2 × 3 elements into record 0. -/
def tstEpc : BitVec 128 := BitVec.ofNat 128 (2 ^ 26 + 2 * 2 ^ 20)
def tstEp (s : State) : State := tstUnit (fun u => { u with epc := tstEpc }) s
theorem witness_CascadeInstructions_eprun : tstWin (tstEp (tstC [] [⟨2, true⟩] [])) (fun x => let v := x.c.unit.project.epc.toNat
      epDrec v == 0 && recOk (x.recRef 0).r true false && bits v 19 12 == 0 && bits v 6 2 == 0 && epBias v == 0 && epScl v == 0 &&
      !epDsp v && x.inWindow 0 0 && !tailFails x.c.unit && epRows v == 2 && epCols v == 3) ∧
    tstWin (tstUnit (fun u => { u with epc := tstEpc + 2 ^ 11 + 2 ^ 7 + 2 ^ 9 }) (tstC [] [⟨2, true⟩] [])) (fun x =>
      let v := x.c.unit.project.epc.toNat
      epDsp v && epScl v == 1 && epBias v == 1 && x.inWindow (bits v 51 32) 12 && x.inWindow (bits v 71 52) 12 &&
      (List.range 6).all (fun k => !outside x (8 * epOrigin v + k * 32) 32)) := by decide +kernel
theorem witness_CascadeInstructions_debug : tstAt (tstReg tstB [(2, 63)]) (fun x => x.vmask tstH != 0 && x.c.unit.pending == 0 &&
      (x.read (tstReg tstB [(2, 63)]) 0 tg2).toNat == 63) ∧ tstAt (tstC [] [] [tstCasc (.mcb 0 0)]) (fun x => x.c.unit.pending != 0) := by
  decide +kernel
/-- The operations of a crew's window after an instruction. -/
def tstOps (i : Instr) (s : State) (l : List CascOp) : Bool := tstNext i s (fun t _ => t.crews.map (fun c => c.unit.jobs.map (·.op)) == [l])
theorem test_mcb : tstOps (.mcb tstH (.ui 1) (.g 10)) (tstC [0, 0, 15] [] []) [.mcb 15 0x8020] ∧
    tstNext (.mcb tstH (.ui 2) (.g 10)) (tstC [0, 0, 15] [] []) (fun t _ => t.launches.map (·.traps) == [1]) := by decide +kernel
theorem test_msort : tstOps (.msort tstH false (.g 8) (.rc 3)) (tstC [5, 0, 0x10A02, 0] [] []) [.msort 5 2 10 2 none 0 ⟨tstRec 10 0x18000 0x4000, 3⟩] := by
  decide +kernel
theorem test_mparts : tstOps (.mparts tstH true false false (.g 8) (.rc 4)) (tstC [7, 64, 0x05020003, 0] [] [])
    [.mparts true false false 7 64 5 3 3 ⟨tstRec 3 0x1C000 0x4000, 4⟩] := by decide +kernel
theorem test_mloop_dense : tstOps (.mloopDense tstH true true false false false (.rc 1) (.g 8) (.rc 2)) (tstC [1, 2, 3, 4, 5, 0, 0, 0] [] [])
    [.mloop true true false false none 1 2 3 4 5 0 ⟨tstDense 1 0x10000 0x4000, 1⟩ ⟨tstDense 2 0x14000 0x4000, 2⟩ none] := by decide +kernel
/-- Record 0 as a mask record of 64 blocks a row. -/
def tstMaskRec : Rec := tstRec 0 0x20000 0x4000 + BitVec.ofNat 320 (2 ^ 240 * 64 + 2 ^ 208 * 8)
theorem test_mloop_attn : tstOps (.mloopAttn tstH true false false ⟨false, false⟩ (.rc 1) (.g 8) (.rc 2))
    (tstCrew (tstC [1, 2, 3, 4, 5, 1, 16, 32] [] []) (fun c => { c with recs := c.recs.set 0 tstMaskRec }))
    [.mloop true false false false none 1 2 3 4 5 0 ⟨tstDense 1 0x10000 0x4000, 1⟩ ⟨tstDense 2 0x14000 0x4000, 2⟩
      (some ⟨⟨tstMaskRec, 0⟩, true, 16, 32⟩)] := by decide +kernel
theorem test_mfence : tstNext (.mfence tstH) { tstB with stamp := 9 } (fun _ g => g.opening == 9) := by decide +kernel
theorem test_mring_stat : tstNext (.mringStat tstH tg4) (tstC [] [⟨1, true⟩, ⟨2, false⟩] [tstCasc (.mcb 0 0), tstCasc .pop])
    (fun _ g => g.greg 4 == 0x11C0) := by decide +kernel
theorem test_mring_pop : tstNext (.mringPop tstH) (tstC [] [⟨2, false⟩] []) (fun t _ => t.crews.map (fun c => (c.unit.tail, c.unit.slot 0)) == [(1, ⟨0, false⟩)]) := by
  decide +kernel
theorem test_epcfg : tstNext (.epcfg tstH (.g 8)) (tstC [1, 2, 3, 4] [] []) (fun t _ => t.crews.map (·.unit.epc) == [0x00000004000000030000000200000001]) := by
  decide +kernel
theorem test_eprun : tstOps (.eprun tstH .set (some (.aw 16)) (some tg4)) (tstReg (tstEp (tstC [] [⟨2, true⟩] [])) [(4, 9)])
    [.eprun 1 16 9 tstEpc ⟨tstRec 7 0x20000 0x4000, 0⟩] := by decide +kernel
theorem test_mread_perm : tstNext (.mreadPerm tstH (.v 3) tg2) (tstUnit (fun u => { u with perm := u.perm.set 63 (7 * 2 ^ 32) }) (tstReg tstB [(2, 63)]))
    (fun _ g => g.vreg 3 1 == 7 && g.vreg 3 0 == 0) := by decide +kernel
theorem test_mread_ws : tstNext (.mreadWs tstH (.v 4) tg2) (tstUnit (fun u => { u with ws := u.ws.set 63 (-5) }) (tstReg tstB [(2, 62)]))
    (fun _ g => g.vreg 4 1 == 0xFFFFFFFB && g.vreg 5 1 == 0xFFFFFFFF && g.vreg 4 2 == 0) := by decide +kernel

/-- A job alone in the window of crew 0. -/
def tstAlone (j : CascJob) : State := tstC [] [⟨2, true⟩] [j]
def tstMcb : CascJob := tstCasc (.mcb 3 0x10000)
/-- A read of a region: 0 read, 1 held, and the cause. -/
def tstGot (s : State) (j : CascJob) (k : Nat) : Nat :=
  match s.crew? 0 with
  | some c => (match s.cascGet c 0 j k 0 with
    | .ok _ => 0
    | .error (.bad c _) => c.toNat
    | .error _ => 1)
  | none => 2
def tstEpJob : CascJob := tstCasc (.eprun 1 16 9 tstEpc ⟨tstRec 7 0x20000 0x4000, 0⟩)
def tstLoop : CascJob := tstCasc (.mloop true true false false none 0 0 0 0 0 0 ⟨tstDense 1 0x10000 0x4000, 1⟩ ⟨tstDense 2 0x14000 0x4000, 2⟩ none)
def tstCb : Nat := 2 ^ 200 + 127 * 2 ^ 192 + 5
theorem witness_CascadeSteps : tstGot (tstAlone tstMcb) tstMcb 0 = 0 ∧ tstGot (tstAlone tstMcb) (tstCasc (.mcb 0 0x600000)) 0 = 0x10 ∧
    0 ∈ tstMcb.op.regions ∧ tstMcb.codes 0 = none ∧ tstEpJob.op.regions = [] ∧ (5 < epRows tstEpc.toNat * epCols tstEpc.toNat) ∧
    (tstAlone tstEpJob).crews.map (fun c => (consumersBefore c.unit.jobs 0, c.unit.slot 0)) = [(0, ⟨2, true⟩)] ∧
    (tstAlone tstEpJob).seen = [] ∧ (tstAlone tstEpJob).crews.all (fun y => y.past.isEmpty) ∧
    ({ tstMcb with got := [(0, [tstCb])] } : CascJob).done ∧ cbOk tstCb ∧ cbOk 0 = false ∧ tstMcb.done = false ∧
    ({ tstEpJob with wrote := [0, 1, 2, 3, 4, 5] } : CascJob).done ∧ tstLoop.done ∧
    (tstAlone tstLoop).crews.map (fun c => c.unit.slots.length) = [8] := by decide +kernel
theorem test_cascadeRead : tstNext (.cascadeRead 0 0 0) ((tstAlone tstMcb).cohStore 0 0x10000 32 tstCb) (fun t _ =>
    t.crews.map (fun c => c.unit.jobs.map (·.got)) == [[[(0, [tstCb])]]]) := by decide +kernel
theorem test_cascadeCompletion : tstNext (.cascadeCompletion 0) (tstAlone { tstMcb with got := [(0, [tstCb])] }) (fun t _ =>
      t.crews.map (fun c => (c.unit.jobs.length, c.unit.cbs.get 3)) == [(0, BitVec.ofNat 256 tstCb)]) ∧
    tstNext (.cascadeCompletion 0) (tstAlone { tstMcb with got := [(0, [0])] }) (fun _ g => g.jobFaults.map (·.cause) == [0x31]) := by decide +kernel
theorem test_epilogueWrite : tstNext (.epilogueWrite 0 0 4) (tstUnit (fun u => { u with ring := u.ring.set 65 77 }) (tstAlone tstEpJob)) (fun t _ =>
    t.cohNat? 0 (0x20000 + 16) 4 == some 77 && t.crews.map (fun c => c.unit.jobs.map (·.wrote)) == [[[4]]]) := by decide +kernel
theorem witness_SummationByParts : ∀ k ∈ List.replicate 64 15, (levelIdx .k4 16 k).isSome := by decide +kernel
/-! KV frames, maps, segments, gathers. -/

/-- A context record with one layer, one head, HD 2, FP16 (R317): frame table at 0x120000, spare list at 0x160000. -/
def tstKvRec (rot mapv etab spcnt : Nat) : Nat :=
  2 ^ 456 * rot + 2 ^ 392 * mapv + 2 ^ 328 * 0x120000 + 2 ^ 288 * 8 + 2 ^ 232 * etab + 2 ^ 192 * 32 + 2 ^ 136 * 0x160000
    + 2 ^ 112 * spcnt + 2 ^ 96 * 4 + 2 ^ 80 + 2 ^ 72 + 2 ^ 64 * 2 + 2 ^ 62
def tstFr (refc fill data : Nat) (q : Bool) : Nat := (⟨0, refc, fill, q, 1, 0, 0, data⟩ : Frame).toNat
/-- Bytes of the coherent page, placed in memory. -/
def tstPut (l : List (Nat × Nat × Nat)) (s : State) : State :=
  { s with mem := l.foldl (fun m e => memPut m (e.1 + 0x200000) (leBytes e.2.1 e.2.2)) s.mem }
/-- The context A at 0x100000 with its map at 0x110000 of one extent, its entries at 0x130000, frames 0 to 2, two spare frames,
and a rotation table of 16 positions at 0x140000. -/
def tstRecA : Nat × Nat × Nat := (0x100000, 64, tstKvRec 0x140000 0x110000 0x130000 2)
def tstMapA : Nat × Nat × Nat := (0x110000, 32, 3 + 2 ^ 32 + 2 ^ 128 * (⟨0, 1, 2, 0, 0⟩ : Extent).toNat)
def tstFr0 : Nat × Nat × Nat := (0x120000, 16, tstFr 1 3 0x20000 false)
def tstFr1 : Nat × Nat × Nat := (0x120010, 16, tstFr 2 1 0x40000 false)
def tstFr2 : Nat × Nat × Nat := (0x120020, 16, tstFr 0 0 0x60000 false)
def tstE0 : Nat × Nat × Nat := (0x130000, 4, 2 ^ 31)
def tstE1 : Nat × Nat × Nat := (0x130004, 4, 2 ^ 31 + 2 ^ 30 + 1)
def tstSpare : Nat × Nat × Nat := (0x160000, 8, 3 + 2 ^ 32 * 2)
def tstRot : Nat × Nat × Nat := (0x140000, 6, 16 + 2 ^ 32)
/-- The context B at 0x100040 over the same frame table, with an empty map at 0x150000 and entries at 0x170000. -/
def tstRecB : Nat × Nat × Nat := (0x100040, 64, tstKvRec 0 0x150000 0x170000 0)
def tstKvAt (s : State) (l : List Word) : State := tstReg s (l.zipIdx.map (fun e => (e.2 + 8, e.1)))
/-- What a computation gives: 0 a value, 1 a hold, else the cause. -/
def tstTry {α : Type} (t : Try α) : Nat :=
  match t with
  | .ok _ => 0
  | .error .hold => 1
  | .error (.acc c _) => c.toNat
  | .error (.trap t) => t.cause.toNat
/-- A condition on the issuing site and its context records. -/
def tstTryAt {α : Type} (s : State) (k : Site → Try α) : Nat :=
  match s.site? with
  | some x => tstTry (k x)
  | none => 99
def tstTrue (b : Bool) : Try Unit := if b then .ok () else tryTrap 0xFF#8 0

theorem witness_KvRecords : extentsOk [⟨1, 1, 4095, 0, 0⟩, ⟨2, 1, 1, 5, 65520⟩] ∧ extentsOk [⟨1, 1, 65535, 0, 2 ^ 32 - 16 * 65535⟩] ∧
    tstTry ((⟨0x11000, 3, [⟨0, 1, 1, 0, 0⟩], List.replicate 31 0⟩ : KvMap).insert ⟨7, 1, 2, 4, 2 ^ 32 - 32⟩) = 0 ∧
    tstTry ((⟨0x11000, 3, (List.range 32).map (fun k => ⟨0, 1, 1, 0, 16 * k⟩), []⟩ : KvMap).insert ⟨7, 1, 1, 4, 512⟩) = 0x29 ∧
    tstTry ((⟨0x11000, 3, [], []⟩ : KvMap).insert ⟨7, 1, 1, 4, 2 ^ 32 - 15⟩) = 0x11 ∧
    tstTry (resolve (kvFields 0 (tstKvRec 0 0 0 0)) ⟨0, 0, [⟨0, 1, 2, 0, 0⟩], []⟩ 31 0 0) = 0 ∧
    tstTry (resolve (kvFields 0 (tstKvRec 0 0 0 0)) ⟨0, 0, [⟨0, 1, 2, 0, 0⟩], []⟩ 32 0 0) = 0x11 ∧
    tstTry (resolve (kvFields 0 (tstKvRec 0 0 0 0)) ⟨0, 0, [⟨0, 1, 2, 31, 0⟩], []⟩ 16 0 0) = 0x11 ∧
    tstTry (tstB.wr 0 0x1FFFF0 16 (2 ^ 128 - 1)) = 0 := by decide +kernel
theorem witness_KvWholeOrNothing : tstB.site?.isSome := by decide +kernel
def tstExtS : State := tstKvAt (tstPut [tstMapA] tstB) [0x110000, 0, 0, 0, 32, 5, 0x20001, 9]
theorem witness_KvMaps_maps : tstTryAt tstExtS (fun x => do
      let m ← tstExtS.kvMap x.ctx (x.gpair 8)
      let n ← m.insert (x.extentAt 12)
      tstTrue (n != m && x.umask tstH != 0)
      let t ← tstExtS.putMap x.ctx m n (some 32)
      t.putMap x.ctx n (n.remove 0) (some 0)) = 0 := by decide +kernel
theorem test_extset : tstNext (.extset tstH (.g 8) (.g 12)) tstExtS (fun t g => memGet t.mem 0x310004 == 2 &&
    leNat (memBytes t.mem 0x310020 16) == (⟨9, 2, 1, 5, 32⟩ : Extent).toNat && memGet t.mem 0x310000 == 3 && g.frags.map (·.pc) == [0x100C]) := by
  decide +kernel
def tstFrS (q : Bool) : State := tstKvAt (tstPut [tstRecA, (0x120010, 16, tstFr 2 1 0x40000 q)] tstB) [0x100000]
theorem witness_KvMaps_qclear : tstTryAt (tstFrS false) (fun x => do
      let c ← (tstFrS false).kvCtx x.ctx (x.gpair 8)
      let f ← (tstFrS false).frame x.ctx c 1
      (tstFrS false).putFrame x.ctx c 1 { f with q := false }) = 0 := by decide +kernel
theorem test_qclear : tstNext (.qclear tstH (.g 8) (.g 1)) (tstReg (tstFrS true) [(1, 1)]) (fun t _ =>
    leNat (memBytes t.mem 0x320010 16) == tstFr 2 1 0x40000 false) := by decide +kernel
/-- An overlay at 0x180000 of one entry, frame 2 to entry 4, with an empty map at 0x150000. -/
def tstOvl : State := tstKvAt (tstPut [tstRecA, (0x110000, 4, 3), tstFr2,
  (0x180000, 32, 2 ^ 200 * 0x190000 + 2 ^ 136 * 0x150000 + 2 ^ 96 * 3 + 2 ^ 64 + 2 ^ 32 * 4), (0x190000, 4, 2 ^ 31 + 2)] tstB) [0x100000, 0, 0x180000, 0]
theorem witness_KvMaps_ovlcommit : tstTryAt tstOvl (fun x => do
      let c ← tstOvl.kvCtx x.ctx 0x100000
      let w ← tstOvl.rd x.ctx 0x180000 32
      let o := ovlFields w
      let ver ← tstOvl.rd x.ctx c.mapv 4
      let l ← tstOvl.ovlWords x.ctx c o
      tstTrue (o.clean && o.state == 0 && decide (o.tgt + o.nent ≤ c.ecnt) && o.nmap != c.mapv && ver == o.bver && !repeated (l.map (·.2)))
      let _ ← tstOvl.kvMap x.ctx o.nmap
      let t ← l.foldlM (State.ovlInstall x.ctx c) tstOvl
      t.wr x.ctx (c.at_ + 49) 7 o.nmap) = 0 := by decide +kernel
theorem test_ovlcommit : tstNext (.ovlcommit tstH (.p 1) (.g 8) (.g 10)) tstOvl (fun t g => g.pred 1 0 && memGet t.mem 0x380000 == 1 &&
    leNat (memBytes t.mem 0x330010 4) == 2 ^ 31 + 2 && leNat (memBytes t.mem 0x32002A 2) == 1 && memGet t.mem 0x350000 == 4 &&
    leNat (memBytes t.mem 0x300031 7) == 0x150000) := by decide +kernel
/-- A map with a second extent of segment 1, whose record stands at 0x150000 + 64 and governs 3 tokens, the last sensitive. -/
def tstRep : State := tstKvAt (tstPut [tstRecA, (0x110000, 48, 3 + 2 ^ 33 + 2 ^ 128 * (⟨0, 1, 1, 0, 0⟩ : Extent).toNat + 2 ^ 256 * (⟨1, 1, 1, 1, 16⟩ : Extent).toNat),
  (0x150040, 64, (⟨0, 0, 0x170000, 0x180000, 0x100000, 0, 1, 1, 3, 1, 2, true⟩ : Segment).toNat), (0x170000, 1, 4)] tstB) [0x100000, 0, 0x150000, 0, 1, 0x100, 2, 0]
theorem witness_KvMaps_repset : tstTryAt tstRep (fun x => do
      let c ← tstRep.kvCtx x.ctx (x.gpair 8)
      let m ← tstRep.kvMap x.ctx c.mapv
      let ps ← tstRep.repairSet x.ctx (x.gpair 10) 1 m.ext.tail
      tstTrue (x.inWindow 0x100 8 && ps == [16, 18])) = 0 := by decide +kernel
theorem test_repset : tstNext (.repset tstH (.g 4) (.g 8)) tstRep (fun t g => g.greg 4 == 2 &&
    t.crews.all (fun c => c.scr.get 0x100 == 16 && c.scr.get 0x104 == 18)) := by decide +kernel
theorem test_unlink : tstNext (.unlink tstH (.g 4) (.g 8) (.g 1)) (tstReg tstRep [(8, 0x110000), (1, 16)]) (fun t g => g.greg 4 == 1 &&
    leNat (memBytes t.mem 0x310000 8) == 3 + 2 ^ 32) := by decide +kernel

/-- Position `p` of layer 0 for `kvapp`: position 3 appends in place, 17 clones frame 1. -/
def tstApp (p : Word) : State := tstKvAt (tstPut [tstRecA, tstMapA, tstFr0, tstFr1, tstFr2, tstE0, tstE1, tstSpare] tstB) [0x100000, 0, p, 0]
def tstHeads (p : Nat) (spare : Bool) : Nat := tstTryAt (tstApp (BitVec.ofNat 32 p)) (fun x => do
  let s := tstApp (BitVec.ofNat 32 p)
  let c ← s.kvCtx x.ctx (x.gpair 8)
  let m ← s.kvMap x.ctx c.mapv
  let hs ← (List.range c.heads).mapM (s.appHead x.ctx c m p 0)
  let src ← s.appSource x 0 (2 * c.heads * c.hd)
  let cl := hs.filter Head.clones
  tstTrue (!repeated (hs.map (·.ent.frame)) && cl.isEmpty == !spare && decide (cl.length ≤ c.spcnt))
  let s1 ← cl.foldlM (fun s q => s.cloneOne x c.at_ q) s
  if spare then .ok s1 else (hs.foldlM (State.appWrite x c src) (s, Ev.zero)).map (·.1))
/-- Shares entry 0 of A with entry 31 of B. -/
def tstShare : State := tstKvAt (tstPut [tstRecA, tstRecB, tstFr0, tstE0] tstB) [0x100000, 0, 0x100040, 0, 0, 31, 1, 0]
def tstRel : State := tstKvAt (tstPut [tstRecA, tstFr1, tstE1] tstB) [0x100000, 0, 1, 2]
theorem witness_KvSharing_append : tstHeads 3 false = 0 := by decide +kernel
theorem witness_KvSharing_clone : tstHeads 17 true = 0 := by decide +kernel
theorem witness_KvSharing_counts : tstTryAt tstShare (fun x => do
      let cs ← tstShare.kvCtx x.ctx (x.gpair 8)
      let cd ← tstShare.kvCtx x.ctx (x.gpair 10)
      tstTrue (cs.ftab == cd.ftab && decide (0 + 1 ≤ cs.ecnt) && decide (31 + 1 ≤ cd.ecnt) && cs.at_ != cd.at_)
      let f ← tstShare.shareCheck x.ctx cs cd 0 31
      State.shareOne x.ctx cs cd tstShare (0, 31, f)) = 0 ∧
    tstTryAt tstRel (fun x => do
      let c ← tstRel.kvCtx x.ctx (x.gpair 8)
      let f ← tstRel.relCheck x.ctx c 1
      let g ← tstRel.relCheck x.ctx c 2
      tstTrue (f == some 1 && g == none && (tstRel.deferredOn x.c.die).isEmpty)
      State.relOne x.ctx c 0 tstRel.draw.1 (1, 1)) = 0 := by decide +kernel
theorem test_kvapp : tstNext (.kvapp tstH (.g 8) (.ui 0x40)) (tstScr (tstApp 3) 0x40 16 (0x3F800000 + 2 ^ 96 * 0xC0000000)) (fun t g =>
    leNat (memBytes t.mem 0x22000C 4) == 0x3C00 && leNat (memBytes t.mem 0x22100C 4) == 0xC0000000 &&
    leNat (memBytes t.mem 0x320000 16) == tstFr 1 4 0x20000 false && g.frags.map (·.pc) == [0x100C]) := by decide +kernel
theorem test_kvapp_clone : tstNext (.kvapp tstH (.g 8) (.ui 0x40)) (tstApp 17) (fun t g => g.stat == .parked 0 true 0x100000 t.word && t.djobs.length == 1 &&
    leNat (memBytes t.mem 0x330004 4) == 2 ^ 31 + 2 ^ 29 + 2 && leNat (memBytes t.mem 0x32001A 2) == 1 && memGet t.mem 0x30000E == 1) := by
  decide +kernel
theorem test_pgshare : tstNext (.pgshare tstH (.g 8)) tstShare (fun t _ => leNat (memBytes t.mem (0x370000 + 124) 4) == 2 ^ 31 + 2 ^ 30 &&
    leNat (memBytes t.mem 0x330000 4) == 2 ^ 31 + 2 ^ 30 && leNat (memBytes t.mem 0x32000A 2) == 2) := by decide +kernel
theorem test_pgrel : tstNext (.pgrel tstH (.g 8)) tstRel (fun t _ => leNat (memBytes t.mem 0x330004 8) == 0 &&
    leNat (memBytes t.mem 0x32001A 2) == 1) := by decide +kernel

/-- A segment record at 0x190000 for entries of A, with its block of registers. -/
def tstSeg (r : Segment) (l : List Word) : State := tstKvAt (tstPut [tstRecA, tstRecB, tstFr0, tstE0, (0x190000, 64, r.toNat)] tstB) l
def tstFree : Segment := ⟨0, 0, 0, 0, 0, 0, 0, 0, 0, 5, 0, true⟩
def tstOpen : Segment := ⟨0, 0, 0, 0, 0x100000, 0, 1, 1, 0, 5, 1, true⟩
def tstSealed : Segment := ⟨0, 0, 0, 0x180000, 0x100000, 0, 1, 1, 3, 5, 2, true⟩
def tstBegin : State := tstSeg tstFree [0x190000, 0, 0x100000, 0, 31, 0x10001]
def tstSeal : State := tstSeg tstOpen [0x190000, 0, 3, 0, 0x180000, 0, 0, 0, 77, 0]
def tstLink : State := tstSeg tstSealed [0x100040, 0, 0x190000, 0, 16, 2, 0, 0, 0x150000, 0]
def tstLinkOpen : State := tstSeg tstOpen [0x100040, 0, 0x190000, 0, 16, 2, 0, 0, 0x150000, 0]
def tstLinkVfy : State := tstReg tstLink [(14, 0x1A0000)]
def tstVfy (v : Option Bool) : State := tstOn (.vfy 0 v (.p 1) (.g 8) (.g 16) 0) tstLinkVfy
theorem witness_SegmentsAndLinks_open : tstTryAt tstBegin (fun x => do
      let r ← tstBegin.segment x.ctx (x.gpair 8)
      let c ← tstBegin.kvCtx x.ctx (x.gpair 10)
      tstTrue (r.clean && r.state == 0 && r.id != 0 && decide (c.layers * c.heads ≤ 1) && decide (31 + 0 * 1 + c.layers * c.heads ≤ c.ecnt))
      tstBegin.wr x.ctx r.at_ 64 { r with state := 1 }.toNat) = 0 ∧
    tstTryAt tstSeal (fun x => do
      let r ← tstSeal.segment x.ctx (x.gpair 8)
      let c ← tstSeal.kvField x.ctx r.sctx
      let fs ← (usedOffsets r c).mapM (tstSeal.sealCheck x.ctx c r 3)
      tstTrue (r.state == 1 && x.g.greg 11 == 0 && x.gpair 12 != 0 && x.gpair 12 % 4 == 0)
      let t ← fs.foldlM (State.sealFrame x.ctx c r.id) tstSeal
      t.wr x.ctx r.at_ 64 { r with state := 2 }.toNat) = 0 := by decide +kernel
theorem witness_SegmentsAndLinks_link : tstTryAt tstLink (fun x => do
      let q ← tstLink.linkChecks x false (.g 8) (.g 16)
      let m ← q.m.insert ⟨q.r.id, q.r.stride, q.r.len, q.j, q.pos⟩
      let t ← q.maps.foldlM (State.shareOne x.ctx q.src q.d) tstLink
      t.putMap x.ctx q.m m (some q.pos)) = 0 := by decide +kernel
theorem witness_SegmentsAndLinks_vfy : tstTryAt tstLinkVfy (fun x => do
      let q ← tstLinkVfy.linkChecks x true (.g 8) (.g 16)
      tstTrue (x.g.block == none && q.arr == 0x1A0000 && q.r.ntok == 3)) = 0 ∧
    ([none, some false, some true] : List (Option Bool)).all (fun v => match (tstVfy v).siteAt 0 0 with
      | some x => x.g.block == some (.vfy 0 v (.p 1) (.g 8) (.g 16) 0) && x.g.stat == .run && x.c.stat == .resident
      | none => false) ∧
    tstTryAt (tstOn (.vfy 0 (some true) (.p 1) (.g 8) (.g 16) 0) tstLinkOpen) (fun x => tstLinkOpen.linkChecks x true (.g 8) (.g 16)) = 0x11 := by
  decide +kernel
def tstCmp (left : Nat) (bad : Bool) (v : Option Bool) : State := { tstVfy v with djobs := [tstDev (.compare 0x190000 0x180000 0x1A0000 12 bad) left false] }
theorem witness_SegmentsAndLinks_compare : (tstCmp 0 false none).djob? 0 0 = some (tstDev (.compare 0x190000 0x180000 0x1A0000 12 false) 0 false) ∧
    (tstCmp 0 false none).storedSince 0 0x180000 12 0 = false := by decide +kernel
theorem test_segbegin : tstNext (.segbegin tstH (.g 8) (.g 12)) tstBegin (fun t _ =>
    leNat (memBytes t.mem 0x390000 64) == { tstFree with sctx := 0x100000, ebase := 31, len := 1, stride := 1, state := 1 }.toNat) := by decide +kernel
theorem test_segseal : tstNext (.segseal tstH (.g 8) (.g 16)) tstSeal (fun t _ =>
    leNat (memBytes t.mem 0x390000 64) == { tstOpen with ntok := 3, toka := 0x180000, digest := 77, state := 2 }.toNat &&
    leNat (memBytes t.mem 0x32000C 4) == 5) := by decide +kernel
theorem test_link : tstNext (.link tstH (.p 1) (.g 8) (.g 16)) tstLink (fun t g => g.pred 1 0 && leNat (memBytes t.mem 0x350000 8) == 2 ^ 32 &&
    leNat (memBytes t.mem 0x350010 16) == (⟨5, 1, 1, 2, 16⟩ : Extent).toNat && leNat (memBytes t.mem 0x370008 4) == 2 ^ 31 + 2 ^ 30 &&
    leNat (memBytes t.mem 0x32000A 2) == 2) := by decide +kernel
theorem test_link_vfy : tstNext (.linkVfy tstH (.p 1) (.g 8) (.g 16)) tstLinkVfy (fun t g => t.djobs.map (·.left) == [12] &&
    g.block == some (.vfy 0 none (.p 1) (.g 8) (.g 16) t.word)) := by decide +kernel
theorem test_linkVfyDecision : tstNext (.linkVfyDecision 0) (tstVfy (some false)) (fun t g => !g.pred 1 0 && g.block == none &&
    memGet t.mem 0x350004 == 0) := by decide +kernel
theorem test_tokenComparisonCompletion : tstNext (.tokenComparisonCompletion 0 0) (tstCmp 0 true none) (fun t g => t.djobs == [] &&
    g.block == some (.vfy 0 (some false) (.p 1) (.g 8) (.g 16) 0)) := by decide +kernel

/-- A gather of a token at position `p`, to the tiles 0x100 and 0x200 on engine 5. -/
def tstGath (p : Word) : State := tstKvAt (tstPut [tstRecA, tstMapA, tstFr0, tstE0, tstRot] tstB) [0x100000, 0, p, 1, 0, 0x100, 0x200, 0x50007]
def tstTok (frame slot : Nat) : GatherTok :=
  { frame := frame, slot := slot, data := 0x20000, pos := 2, entryAddr := 0x120000, fmt := 1, kexp := 0, vexp := 0, freed := false }
def tstGatherJob (toks : List GatherTok) : Gather :=
  { rcd := 0x100000, layer := 0, head := 0, toks := toks, koff := 0x100, voff := 0x200, hd := 2, rot := 0x140000, tensor := 7,
    name := mapName 0x110000 }
def tstGJob (left : Nat) : Job := { tstJob with kind := .gather (tstGatherJob [tstTok 0 2]), left := left, len := 8, bytes := 16, dst := .scr 0x100 }
def tstGS (left : Nat) (s : State) : State := { s with engines := [⟨0, [tstGJob left]⟩], pins := [⟨0, .gather 0, mapName 0x110000⟩] }
/-- The rows of slot 2: a NaN in the keys or not. -/
def tstRows (k : Nat) : State := tstPut [tstFr0, tstRot, (0x20008, 4, k), (0x21008, 4, 0x40003C00), (0x140020, 8, 0x3F800000)] tstB
theorem witness_Gathers_issue : tstTryAt (tstGath 2) (fun x => do
      let c ← (tstGath 2).kvCtx x.ctx (x.gpair 8)
      let m ← (tstGath 2).kvMap x.ctx c.mapv
      let r ← (tstGath 2).rotHeader x.ctx c
      let _ ← (tstGath 2).gatherTok x.ctx c m (some r.2) 2 0 0
      tstTrue (c.rot != 0 && ((tstGath 2).queue 5).isEmpty)
      gatherTileChecks x 0x100 0x200 8) = 0 ∧
    64 ≤ (({ tstB with engines := [⟨5, List.replicate 64 (tstGJob 1)⟩] } : State).queue 5).length := by decide +kernel
def tstRow (va : Nat) (s : State) : Bool := tstOk (s.cohRead 0 va 4) && tstOk (s.rotEntries (tstGJob 1) (tstGatherJob [tstTok 0 2]) 2)
theorem witness_Gathers_steps : ((tstGS 1 (tstRows 0x3C00)).queue 0)[0]? = some (tstGJob 1) ∧ tstRow 0x20008 (tstGS 1 (tstRows 0x3C00)) ∧
    tstRow 0x21008 (tstGS 1 (tstRows 0x7C00)) ∧ nonFinite (fromFrame 1 0 0x7C00).1 ∧ nonFinite (fromFrame 1 0 0x3C00).1 = false ∧
    (tstGS 1 (tstRows 0x3C00)).seen = [] ∧ (tstGJob 1).moved.contains 0 = false := by decide +kernel
def tstRope : State := tstGroup (tstKvAt (tstPut [tstRecA, tstRot, (0x140010, 8, 2 ^ 32 * 0x3F800000)] tstB) [0x100000]) (fun g =>
  { g with v := ((g.v.set 64 0x40000000).set 96 0x40400000).set 131 16 })
theorem witness_Gathers_ropeq : tstTryAt tstRope (fun x => do
      let c ← tstRope.kvCtx x.ctx (x.gpair 8)
      let r ← tstRope.rotHeader x.ctx c
      tstTrue (c.rot != 0 && x.emask tstH [.v 2, .v 4] != 0 && r == (1, 16))
      tstRope.rd x.ctx (c.rot + 16 + 8 * 15) 8) = 0 ∧ fp32.isNan (fp32.mul FEnv.unit 0x3F800000 0).1 = false := by decide +kernel
theorem test_kvgath : tstNext (.kvgath tstH .add (some (.aw 16)) (.g 8) none) (tstGath 2) (fun t g => (t.queue 5).map (fun j => (j.left, j.bytes)) == [(1, 16)] &&
    t.pins == [⟨0, .gather 0, mapName 0x110000⟩] && g.frags.map (·.pc) == [0x100C]) := by decide +kernel
theorem test_gatherTokenStep : tstNext (.gatherTokenStep 0 0 0) (tstGS 1 (tstRows 0x3C00)) (fun t _ => (t.queue 0).map (·.left) == [0] &&
      t.crews.all (fun c => leNat ((List.range 4).map (fun i => c.scr.get (0x100 + i))) == 0x3F800000 &&
        leNat ((List.range 4).map (fun i => c.scr.get (0x204 + i))) == 0x40000000)) ∧
    tstNext (.gatherTokenStep 0 0 0) (tstGS 1 (tstRows 0x7C00)) (fun t g => (t.queue 0).isEmpty && g.jobFaults.map (·.cause) == [0x28] &&
      memGet t.mem 0x320009 == 0x1D) := by decide +kernel
theorem test_gatherCompletion : tstNext (.gatherCompletion 0) (tstGS 0 tstB) (fun t _ => t.pins == [] && (t.queue 0).isEmpty &&
    t.crews.map (fun c => c.awGet 16) == [16#32]) := by decide +kernel
/-- Threads 0 to 2 rotate a pair by position 0; thread 3 names a position beyond the table. -/
theorem test_ropeq : tstNext (.ropeq tstH (.v 2) (.g 8) (.v 4)) { tstRope with groups := tstRope.groups.map (fun g =>
      { g with frags := g.frags.map (fun f => { f with mask := 15 }) }) } (fun _ g => g.vreg 2 0 == 0xC0400000 && g.vreg 3 0 == 0x40000000 &&
    g.stat == .stopped 0 0x1000 0 && g.faultmask == 8) := by decide +kernel

/-- A clone of two tokens of HD 2 in FP16, a comparison and a migration. -/
def tstClone : DevKind := .clone 0x20000 0x24000 8 0x130004 (frameName 1)
def tstJobs (l : List DevJob) : State := { tstB with djobs := l }
theorem witness_DeviceJobs : cloneChunk 8 0 = 8 ∧ cloneChunk 4096 8064 = 128 ∧ cloneChunk 8 128 = 0 ∧
    tstOk ((tstJobs []).cohRead 0 0x20000 8) ∧ tstOk ((tstJobs []).cohKeys 0 0x25000 8) ∧ compareChunk 0x18004 0x19000 12 0 = 12 ∧
    compareChunk 0x18078 0x19000 12 8 = 4 ∧ tstOk ((tstJobs []).cohRead 0 0x18078 8) ∧
    (tstJobs [tstDev tstClone 16 false]).djob? 0 0 = some (tstDev tstClone 16 false) ∧
    (tstJobs [tstDev tstClone 0 false]).djob? 0 0 = some (tstDev tstClone 0 false) ∧
    (tstJobs [tstDev (.migrate 0x300000 0x400000 65536) 0 false]).djob? 0 0 = some (tstDev (.migrate 0x300000 0x400000 65536) 0 false) := by
  decide +kernel
theorem test_deviceJobStep : tstNext (.deviceJobStep 0 0 4096) (tstPut [(0x21000, 8, 0x1122334455667788)] (tstJobs [tstDev tstClone 16 false])) (fun t _ =>
      leNat (memBytes t.mem 0x225000 8) == 0x1122334455667788 && t.djobs.map (·.left) == [8]) ∧
    tstNext (.deviceJobStep 0 0 0) (tstPut [(0x180000, 4, 1)] (tstCmp 12 false none)) (fun t _ => t.djobs.map (fun j => (j.left, j.kind)) ==
      [(0, .compare 0x190000 0x180000 0x1A0000 12 true)]) ∧
    tstNext (.deviceJobStep 0 0 65408) { tstJobs [tstDev (.migrate 0x300000 0x400000 65536) 65536 false] with mem := memPut tstB.mem 0x30FFFF [5#8] } (fun t _ =>
      memGet t.mem 0x40FFFF == 5 && t.djobs.map (·.left) == [65408]) := by decide +kernel
theorem test_cloneCompletion : tstNext (.cloneCompletion 0 0) (tstGroup (tstPut [(0x130004, 4, 2 ^ 31 + 2 ^ 29 + 2)] { tstJobs [tstDev tstClone 0 false] with
      pins := [⟨0, .clone 0, frameName 1⟩] }) (fun g => { g with stat := .parked 0 true 0x10000 0 })) (fun t g => g.stat == .run && t.pins == [] &&
    leNat (memBytes t.mem 0x330004 4) == 2 ^ 31 + 2) := by decide +kernel
theorem test_migrationInstallComplete : tstNext (.migrationInstallComplete 0 0 tstLeaf) (tstJobs [tstDev (.migrate 0x300000 0x400000 65536) 0 false]) (fun t _ =>
    t.djobs == [] && (t.cohNat? 0 0x600000 4).isSome) := by decide +kernel
/-! Launches, special registers, schedulers, contexts, the system, the step. -/

/-- A launch record at 0x10000, its descriptor at 0x10040, its done area at 0x10080 (R116, R371). -/
def tstDesc : Nat := 0x1000 + 2 ^ 104 + 2 ^ 112 * splitDefault + 2 ^ 128 * 8 + 2 ^ 144 * 999
def tstLRec (cx pre : Nat) : Nat := 0x10040 + 2 ^ 192 * 0x10080 + 2 ^ 288 * cx + 2 ^ 320 + 2 ^ 352 + 2 ^ 384 * pre
def tstLa (ctx cx pre : Nat) : State := tstLaunch (tstKvAt (tstPut [(0x10000, 64, tstLRec cx pre), (0x10040, 64, tstDesc)] tstB) [0x10000, 0])
  (fun l => { l with ctx := ctx })
/-- The code of an acceptance of context 0. -/
def tstCode (s : State) (child : Option Crew) : Nat := match s.launchRec 0 0x10000 with
  | .ok r => s.launchCode 0 child r (s.launchReads 0 r)
  | _ => 99
theorem witness_Launches : tstCode (tstLa 0 3 0) none = 0 ∧ tstCode (tstLa 0 3 0) (tstLa 0 3 0).crews.head? = 0 ∧ tstCode (tstLa 0 0 0) none = 2 ∧
    tstCode (tstLa 0 3 9) none = 3 ∧ tstCode { tstLa 0 3 0 with ctxs := [] } none = 6 ∧
    tstCode (tstLa 0 3 0) ((tstLa 0 3 0).crews.head?.map (fun c => { c with children := 16 })) = 5 ∧
    tstCode (tstPut [(0x10018, 8, 0x600000)] (tstLa 0 3 0)) none = 9 ∧ (tstLa 0 3 0).doneOk 0 0x10080 ∧
    tstCode { tstLa 0 3 0 with launches := List.replicate 256 (stageLaunch 7 0) } none = 4 ∧
    tstAt (tstLa 1 3 0) (fun x => x.umask tstH != 0 && x.ctx == 1) ∧
    tstTryAt (tstReg (tstLa 0 3 0) [(8, 0x10020)]) (fun x => tstB.launchRec x.ctx (x.gpair 8)) = 0x13 ∧
    tstTryAt (tstReg (tstLa 0 3 0) [(8, 0x600000)]) (fun x => tstB.launchRec x.ctx (x.gpair 8)) = 0x10 := by decide +kernel
theorem test_launch : tstNext (.launch tstH tg4 (.g 8)) (tstPut [(0, 1, 1)] (tstLa 0 3 0)) (fun t g => g.greg 4 == 2 && t.nextHandle == 3 &&
    t.launches.map (fun l => (l.handle, l.cx, l.desc.vregs)) == [(1, 1, 256), (2, 3, 8)] && leNat (memBytes t.mem 0x210084 4) == 2) := by decide +kernel
theorem test_fork : tstNext (.fork tstH tg4 (.g 8)) (tstLa 0 0 0) (fun t g => g.greg 4 == 0 && t.launches.length == 1 &&
    leNat (memBytes t.mem 0x210080 12) == 2 + 2 ^ 64 * 2) ∧
    tstNext (.fork tstH tg4 (.g 8)) (tstLa 0 3 0) (fun t _ => t.crews.map (·.children) == [1]) := by decide +kernel

def tstCtx (f : Context → Context) (s : State) : State := { s with ctxs := s.ctxs.map f }
theorem witness_SpecialRegisters : tstAt (tstReg tstB [(2, 65536), (3, 1024)]) (fun x => x.umask tstH != 0 && x.ctx == 0 &&
      decide (x.c.core < 512) && decide (x.c.lin < x.l.cx * x.l.cy * x.l.cz) && decide (x.l.cx * x.l.cy * x.l.cz ≤ 2 ^ 32)) ∧
    tstB.validEntry 0 = none ∧ ((tstPut [(0, 1, 1)] tstB).validEntry 0).isSome ∧ (((tstPut [(0, 1, 1)] tstB).observe 0).ctx? 0).isSome ∧ (depthWrite 0 0x84013F00).isSome ∧ depthWrite 0 0xC0000000 = none ∧
    (depthWrite 0 0x40003F00).isSome ∧ (depthWrite 5 0).isSome ∧ depthWrite 0 0x00004000 = none ∧ (0x77 : Word).getLsbD 3 = false := by decide +kernel
theorem test_srd : tstNext (.srd tstH tg4 (.sr .tsclo) none) { tstB with tsc := 0x1122334455667788 } (fun _ g => g.greg 4 == 0x55667788 && g.greg 5 == 0x11223344) ∧
    tstNext (.srd tstH tg4 (.sr .ybound) (some (.ui 0))) (tstCtx (fun c => { c with ybound := 2048 }) (tstPut [(0, 1, 1)] tstB)) (fun _ g => g.greg 4 == 2048) := by decide +kernel
theorem test_swr : tstNext (.swr tstH (.sr .fpmode) tg2 none) (tstReg tstB [(2, 0x57)]) (fun _ g => g.fpmode == 0x57) ∧
    tstNext (.swr tstH (.sr .specdepth) tg2 (some (.ui 0))) (tstPut [(0, 1, 1)] (tstReg tstB [(2, 0x40000700)])) (fun t _ => t.ctxs.map (·.depth) == [7]) := by decide +kernel
theorem test_specdepthSetPending : tstNext (.specdepthSetPending 0 0x82050300) (tstCtx (fun c => { c with depth := 9 }) tstB) (fun t _ =>
    t.ctxs.map (·.depth) == [0x82050309]) := by decide +kernel
theorem test_specdepthApplyImmediate : tstNext (.specdepthApplyImmediate 0 0x40000300) (tstCtx (fun c => { c with depth := 9 }) tstB) (fun t _ =>
    t.ctxs.map (·.depth) == [3]) := by decide +kernel
theorem test_specdepthCancel : tstNext (.specdepthCancel 0 0) (tstCtx (fun c => { c with depth := 0x82050309 }) tstB) (fun t _ =>
    t.ctxs.map (·.depth) == [9]) := by decide +kernel

/-- A launch of `cx` crews and one register block, none placed, S0 ready; no crew but those given. -/
def tstOffer (cx : Nat) (crews : List Crew) (ready : Word) : State :=
  tstLaunch { tstB with crews := crews, groups := [], sys := { tstB.sys with ready := ready } } (fun l =>
    { l with next := 0, cx := cx, desc := { l.desc with vregs := 8, recCnt := 0 } })
def tstCand1 : Cand := ⟨1, 0, none, 0, 0⟩
theorem witness_Schedulers_offer : (tstOffer 1 [] (2 ^ 30)).cands = [tstCand1] ∧ ((tstOffer 1 [] (2 ^ 30)).placed? tstCand1).isSome ∧
    (tstOffer 1 [] 0).cands = [tstCand1] ∧ ((tstOffer 1 [] 0).placed? tstCand1).isNone := by decide +kernel
/-- Two launches: the second is offered after the first. -/
theorem witness_Schedulers_order : ({ tstOffer 1 [] (2 ^ 30) with launches := [(tstOffer 1 [] 0).launches.headD (stageLaunch 1 0),
      { (tstOffer 1 [] 0).launches.headD (stageLaunch 1 0) with handle := 2 }] } : State).cands = [tstCand1, ⟨2, 0, none, 0, 1⟩] ∧
    tstCand1.before ⟨2, 0, none, 0, 1⟩ := by decide +kernel
theorem witness_Schedulers_spot : (tstAt tstB fun x => (tstB.spot? 0 { x.l with desc := { x.l.desc with vregs := 8 }, split := 0x4163 } [0, 1] none).isNone) ∧
    (tstAt (tstGroup { tstB with cores := [⟨0, splitDefault, false, false⟩] } id) fun x =>
      (({ tstB with cores := [⟨0, splitDefault, false, false⟩] } : State).spot? 0 { x.l with desc := { x.l.desc with vregs := 8 } } [0, 1] none).isSome) ∧
    ((tstOffer 1 [] (2 ^ 30)).launch? 1).map (fun l => ((tstOffer 1 [] (2 ^ 30)).offer l [0]).1) = some 0 := by decide +kernel
theorem witness_Schedulers_back : tstAt tstB (fun x => tstB.crew? x.c.id == some x.c && !tstB.imageTorn 0 { x.c with stat := .saved .switch, slots := 2 }) := by
  decide +kernel
/-- A core with a crew on it that an offered crew shares, with room in total. -/
def tstShared : State := { tstB with cores := [⟨0, splitDefault, false, false⟩], sys := { tstB.sys with ready := 2 ^ 30 },
                                     launches := tstB.launches ++ [{ stageLaunch 2 0 with next := 0, desc := { stageDesc with vregs := 8 } }] }
theorem witness_Schedulers_wait : (tstShared.cands.find? (fun q => q.handle == 2 && q.lin == 0)).isSome ∧
    (match tstShared.launch? 2 with
     | some l => (tstShared.coresOf l).contains 0 && (tstShared.resident 0 none).length == 1 && (tstShared.core 0).split == l.split &&
         !(tstShared.core 0).drain && !l.matrix && tstShared.roomInTotal 0 l 1
     | none => false) = true := by decide +kernel
def tstEnded (s : State) : State := tstGroup s (fun g => { g with stat := .ended, frags := [] })
theorem witness_Schedulers_end : (tstAt tstB fun x => tstB.crewQuiet x.c && x.c.stat == .resident) ∧
    (tstEnded tstB).groupsOf 0 = (tstEnded tstB).groups ∧ (tstEnded tstB).groups.all (fun g => g.stat == .ended) ∧
    ((tstLaunch tstB (fun l => { l with retired := 1 })).launch? 1).map (fun l => (l.ended, l.retired, l.cx * l.cy * l.cz, l.stats)) = some (false, 1, 1, 0) ∧
    ((tstLaunch tstB (fun l => { l with parent := some 0 })).launch? 1).map (·.parent) = some (some 0) := by decide +kernel
theorem test_crewOffer : (match exec (.crewOffer 1 0) (tstOffer 1 [] (2 ^ 30)) with
    | .next t => t.crews.map (fun c => (c.id, c.lin, c.core)) == [(1, 0, 0)] && t.groups.map (fun g => (g.gid, g.lane, g.wdog)) == [(0, 0, 4096)] &&
        t.launches.map (·.next) == [1]
    | _ => false) = true := by decide +kernel
theorem test_placementWaitExpiry_none : tstNext (.placementWaitExpiry 2 0 0) { tstShared with groups := tstShared.groups.map (fun g => { g with lane := 0 }) }
    (fun t _ => t.cores.map (·.drain) == [false]) := by decide +kernel
theorem test_crewRetire : tstNext (.crewRetire 0) (tstEnded tstB) (fun t _ => t.crews.map (·.stat) == [.retired] && t.launches.map (·.retired) == [1]) ∧
    tstNext (.crewRetire 0) tstB (fun t _ => t.crews.map (·.stat) == [.resident]) := by decide +kernel
theorem test_launchEnd : tstNext (.launchEnd 1) (tstLaunch tstB (fun l => { l with retired := 1, traps := 3, killed := 2, done := 0x10080 })) (fun t _ =>
    leNat (memBytes t.mem 0x210080 32) == 1 + 2 ^ 32 + 2 ^ 96 * 3 + 2 ^ 128 * 2 && t.launches.map (·.ended) == [true]) := by decide +kernel

/-- Context 1 with the entry `w`; the staged launch belongs to it. -/
def tstCtx1 (w : Nat) (known : List Context) : State := tstLaunch (tstPut [(64, 64, w)] { tstB with ctxs := tstB.ctxs ++ known }) (fun l => { l with ctx := 1 })
def tstK : Context := ⟨1, true, false, 2048, 5, 0, 0, 0, 0⟩
def tstSwitch : State := tstLeave (tstGroup (tstCtx (fun c => { c with savecap := 3 }) tstB) (fun g => { g with stat := .held }))
theorem witness_ContextSwitches : (tstCtx1 1 []).validEntry 1 = some 1 ∧ (tstCtx1 3 []).validEntry 1 = some 3 ∧ (tstCtx1 0 []).validEntry 1 = none ∧
    (tstCtx1 3 [tstK]).ctx? 1 = some tstK ∧ (tstCtx1 3 []).ctx? 1 = none ∧ ((tstCtx1 3 [tstK]).crews.map Crew.id).Nodup ∧
    (tstAt (tstCtx1 3 [tstK]) fun x => x.c.stat == .resident && x.l.ctx == 1) ∧
    (tstAt tstSwitch fun x => tstSwitch.leaving x.c == some .switch && tstSwitch.arenaRoom x.l == some 0 && x.c.pending == some .switch) ∧
    (tstAt tstB fun x => x.c.pending == none && (tstB.arenaRoom x.l).isNone) ∧ (tstSwitch.bufs.all (fun y => y.dirty == 0)) ∧
    (tstSwitch.groups.map Group.key).Nodup ∧ (tstAt (tstQ tstJob) fun x => !(tstQ tstJob).crewQuiet x.c) := by decide +kernel
theorem test_contextValidObserved : tstNext (.contextValidObserved 1) (tstCtx1 (1 + 2 ^ 256 * 1024) []) (fun t _ => (t.ctx? 1).map (fun c => (c.valid, c.run, c.ybound)) ==
    some (true, false, 1024)) := by decide +kernel
theorem test_contextSwitchOut : tstNext (.contextSwitchOut 1) (tstCtx1 1 [{ tstK with run := true }]) (fun t _ => t.crews.map (·.pending) == [some .switch] &&
    (t.ctx? 1).map (fun c => (c.run, c.ybound, c.depth)) == some (false, 2048, 5)) := by decide +kernel
theorem test_contextSwitchIn : tstNext (.contextSwitchIn 1) (tstLeave (tstGroup (tstCtx1 3 [tstK]) (fun g => { g with stat := .held }))) (fun t g =>
    g.stat == .run && t.crews.map (·.pending) == [none]) := by decide +kernel
theorem test_contextSwitchComplete : tstNext (.contextSwitchComplete 0) tstSwitch (fun t g => t.crews.map (fun c => (c.stat, c.slot0, c.slots)) ==
    [(.saved .switch, 0, 2)] && g.stat == .held) := by decide +kernel

def tstSys (f : Sys → Sys) : State := { tstB with sys := f tstB.sys }
theorem witness_SystemEvents : tstB.hostReach 0x210000 4 = false ∧ (tstSys (fun y => { y with ready := 2 ^ 30 })).hostReach 0x210000 4 ∧
    Memory.wf tstB.mem ∧ Memory.wf tstB.dev ∧ funcBit (.hbm 0) = some 0 ∧ tstB.sys.ready = 0 ∧ tstB.sys.fail = 0 ∧ tstB.sys.bootReq = false ∧ tstB.sys.started = false ∧
    lookup tstB.sys.lanes 17 = none ∧ lookup (tstSys (fun y => { y with lanes := [(3, 8)] })).sys.lanes 3 = some 8 ∧
    (tstSys (fun y => { y with ready := 2 ^ 30 })).bootRead 0x9000 = some 0 ∧ bootOk 0x3000 0 = false ∧ 5 ≠ tstB.pkg ∧
    32 * 40000000000 - 32 < deviceBytes := by decide +kernel
theorem test_hostAccess : tstNext (.hostAccess .device 0x210000 (some [1, 2])) (tstSys (fun y => { y with ready := 2 ^ 30 })) (fun t _ =>
    memBytes t.mem 0x210000 3 == [1, 2, 0]) := by decide +kernel
theorem test_reset : (match exec .reset (tstSys (fun y => { y with ready := 5, started := true })) with
    | .next t => t.groups == [] && t.launches == [] && t.sys.ready == 0 && !t.sys.started && t.nextHandle == 1
    | _ => false) = true := by decide +kernel
theorem test_functionTrainingEnd : tstNext (.functionTrainingEnd (.hbm 3) true) tstB (fun t _ => t.sys.ready == 8 && t.sys.fail == 0) ∧
    tstNext (.functionTrainingEnd (.port 2) true) tstB (fun t _ => t.sys.links == 4 && t.sys.lanes == [(2, 8)]) := by decide +kernel
theorem test_bootStart : tstNext (.bootStart 0) (tstSys (fun y => { y with ready := 2 ^ 30, bootLo := 0x9000 })) (fun t _ => t.sys.fail == 0x80000000 && !t.sys.started) ∧
    tstNext (.bootStart 7) tstB (fun t _ => t.sys.bootHi == 7 && t.sys.bootReq) := by decide +kernel
/-- A boot record at device address 0x9000 whose launch record is the one at 0x10000 (R417). -/
def tstBoot : State :=
  { tstLa 0 3 0 with launches := [], crews := [], groups := [], ctxs := [], sys := { Sys.reset with ready := 2 ^ 30, bootLo := 0x9000 },
                     mem := memPut (tstLa 0 3 0).mem 0x9000 (leBytes 64 (2 ^ 32 * 0x4C4C4557 + 2 ^ 16 + 2 ^ 128 * 0x1000 + 2 ^ 200 * 0x10000)) }
theorem test_boot : (match exec (.bootStart 0) tstBoot with
    | .next t => t.sys.started && t.sys.ready == 0xC0000000 && t.launches.map (fun l => (l.handle, l.ctx, l.cx)) == [(2, 0, 3)] &&
        (t.ctx? 0).map (·.run) == some true
    | _ => false) = true := by decide +kernel
theorem test_managementRegisterWrite : tstNext (.managementRegisterWrite 0x10 9) tstB (fun t _ => t.sys.bootLo == 9) ∧
    tstNext (.managementRegisterWrite 0x18 9) tstB (fun t _ => t.sys == tstB.sys) := by decide +kernel
theorem test_flitCrcRetry : tstNext (.flitCrcRetry 3) tstB (fun t _ => t.sys == tstB.sys) := by decide +kernel
theorem test_portDegrade : tstNext (.portDegrade 3 0) (tstSys (fun y => { y with lanes := [(3, 8)], links := 8 })) (fun t _ => t.sys.lanes == [(3, 0)] && t.sys.links == 0) := by
  decide +kernel
theorem test_packageUnreachable : tstNext (.packageUnreachable 5) tstB (fun t _ => t.sys.lost == [5]) := by decide +kernel
theorem test_hostUnreachable : tstNext .hostUnreachable tstB (fun t _ => t.sys.hostLost) := by decide +kernel
theorem test_patrolScrub : tstNext (.patrolScrub 7 .uncorrectable) tstB (fun t _ => t.poison == [7] && t.sys.uec == 1 && t.sys.cec == 0) ∧
    tstNext (.patrolScrub 7 .corrected) (tstSys (fun y => { y with cec := 0xFFFFFFFF })) (fun t _ => t.poison == [] && t.sys.cec == 0xFFFFFFFF) := by decide +kernel

/-- The staged word, with the turn that issues it. -/
def tstTurn (w : IWord) (f : Frag → Frag) : State :=
  tstGroup { State.reset.withFetchWord 96 w.toNat with agenda := [.issue 0 0] } (fun g => { g with frags := g.frags.map f })
/-- How the issuing site stands: fetched word, its decoding, and the checks before issue. -/
def tstIssue (s : State) : Nat :=
  match s.site? with
  | none => 9
  | some x =>
    if !x.ready || s.deliverable x.g then 8
    else
      match s.fetchWord x x.f.pc with
      | .bad _ _ => 7
      | .hold => 6
      | .word _ w =>
        match decodeFor (x.l.roleNow x.g) w with
        | .illegal _ _ => 5
        | .instr i =>
          if runBroken x.f i then 4
          else if isClosing i && (match s.fetchWord x (x.f.pc + 12) with
            | .word _ v => !isTrail v
            | _ => true) then 3
          else if (s.beyond x i).isSome then 2
          else if x.g.interlocked i || x.g.replayDue (lowest x.f.mask) i then 1
          else if isPoint i then (if (s.gather x).isSome then 10 else 11)
          else 0
theorem witness_StepRunsDecoded : tstIssue (tstTurn 0xC40000000000000000000000 id) = 0 ∧ tstIssue (tstTurn 0xFF0000000000000000000000 id) = 5 ∧
    tstIssue (tstTurn 0xC40000000000000000000000 (fun f => { f with pos := 23 })) = 4 ∧
    tstIssue (tstTurn 0xC40000000000000000000000 (fun f => { f with pc := 0x200000 })) = 7 ∧
    tstIssue { (tstTurn 0x800010000000004000440006 id) with mem := memPut (tstTurn 0x800010000000004000440006 id).mem 0x201017 [0] } = 3 ∧
    tstIssue (tstTurn 0x800010000000004000440006 id) = 0 ∧
    tstIssue (tstLaunch (tstTurn 0x150020020200010000510009 id) (fun l => { l with desc := { l.desc with vregs := 5 } })) ≠ 0 ∧
    tstIssue (tstTurn 0x740000000000005025700000 id) = 10 ∧
    tstIssue (tstSplit (tstTurn 0x740000000000005025700000 id) false) = 11 ∧ isEvent .hostUnreachable ∧ isEvent (.nop tstH) = false := by decide +kernel
/-- One step of the staged word of `mov g4, 0x12345678` (R25, R65). -/
theorem test_step_mov : (match step (State.reset.withFetchWord 96 0x180000000100049567891234) with
    | .next t => (t.group? 0).map (fun g => (g.greg 4, g.frags.map (fun f => (f.pc, f.count, f.pos)))) == some (0x12345678, [(0x100C, 1, 2)])
    | _ => false) = true := by decide +kernel
theorem test_step_pass : (match step { tstB with agenda := [.pass 30] } with
    | .next t => t.nanos == 30 && t.tsc == 30 && t.agenda == []
    | _ => false) = true := by decide +kernel
theorem witness_EveryStepKeepsMemory : Memory.wf tstB.mem ∧ Memory.wf tstB.dev ∧ (match step tstB with
    | .next _ => true
    | _ => false) = true := by decide +kernel
theorem witness_GuardedOff : tstAt tstB (fun x => x.umask { tstH with neg := true } == 0) ∧ ∀ n, Opd.p 1 ≠ .t n := by decide +kernel

/-! More hypotheses: exact values, poison, pages on the move, queues with waiters, several groups. -/

theorem witness_ExactValues : fp32.finite 0x3F800000 ∧ fp16.finite 0x8000 ∧ bf16.isNan 0x7FC0 ∧ fp32.isNan 0x3F800000 = false ∧
    fp32.val 0x7F800000 = .inf false ∧ fp32.val 0xFF800000 = .inf true ∧ fp32.units 0x80000000 = 0 ∧ fp32.units 0x3F800000 = 2 ^ 149 ∧
    e4m3.inf = false ∧ e4m3.finite 0x7E ∧ e5m2.val 0x7C = .inf false ∧ e4m3.isNan 0x7F := by decide +kernel
theorem test_cvt_fp16_overflow : (cvtIF fp16 { FEnv.unit with rnd := 0 } 70000).1 = 0x7C00 ∧
    (cvtFF fp32 e4m3 FEnv.unit 0x43E00000).1 = 0x7E := by decide +kernel

/-- Poison on the granule at 128 of the crew's space. -/
def tstPoison (s : State) : State := tstCrew s (fun c => { c with poison := [4] })
theorem witness_PoisonedStream : (tstPoison (tstDecv 128 1)).scrPoison 0 128 1 ∧ (tstPoison (tstDecv 127 1)).scrPoison 0 127 1 = false ∧
    (tstPoison (tstDecv 127 1)).scrPoison 0 128 4 ∧ tstAt (tstPoison (tstDecv 127 1)) (fun x =>
      (List.range 5).all (fun k => x.inWindow (127 + k) 1) && (scrByte x.c x.g 127).toNat == 1) := by decide +kernel
theorem test_lds_poison : tstNext (.lds tstH .b32 tg4 tg2 (.si 0)) (tstPoison (tstA 128 0)) (fun _ g =>
      g.stat == .stopped 0 0x1000 tstB.word) ∧
    tstNext (.sts tstH .b32 tg4 tg2 (.si 0)) (tstPoison (tstA 128 7)) (fun t _ => t.crews.map (·.poison) == [[4]]) := by decide +kernel
theorem witness_LatticeMarks : tstAt (tstAcc 63 0 [2 ^ 26]) (fun x => (tstAcc 63 0 [2 ^ 26]).crew? x.c.id == some x.c &&
    (tstAcc 63 0 [2 ^ 26]).group? (x.c.id * 32 + x.g.gid) == some x.g) := by decide +kernel

/-- Elements of COH records: FP16 in rows with interleave, E4M3 under exp8 and FP32 factors. -/
def tstIlv : Rec := tstRec 1 0x10000 256 + BitVec.ofNat 320 (2 ^ 240 * 8 + 2 ^ 208 * 16 + 2 ^ 203)
theorem witness_RecordElements : encOf (recEnc (tstRec 1 0x10000 4)) = some .f16 ∧ 4 * 8 < 2 * 16 + 16 ∧
    tstChk tstP ⟨0, 0x10002, 2, false, false, false, some 0⟩ = 0 ∧ tstChk tstP ⟨0, 0x10002, 2, true, false, false, some 0⟩ = 0 ∧
    tstChk tstP ⟨0, 0x10100, 1, false, false, false, none⟩ = 0 ∧ tstChk tstP ⟨0, 0x10100, 4, false, false, false, none⟩ = 0 ∧
    encFloat .e4m3 = some e4m3 ∧ encFloat .tern = none ∧ encCode .s8 = false ∧ encCode .k4 := by decide +kernel

/-- A page on the move at 6 MiB, of class STR (R403). -/
def tstMov : State :=
  { tstD with mem := memPut tstD.mem 0x4018 (leBytes 8 (leafTo 2048 + 2 ^ 60 + 2 ^ 57)),
              bufs := [⟨.l1 0 0, 0, 0xC000, 7, 0xF, 0⟩, ⟨.die 0, 0, 0x4000, 9, 1, 0⟩] }
theorem witness_HeldMaintenance : cmoHeld tstMov 0 0x600000 128 ∧ translate tstMov 0 0x600000 = .hold ∧
    tstMov.lineBelow (.l1 0 0) 0 0xC000 = none ∧ keyOf tstMov 0 0x600000 = some 0x800000 := by decide +kernel
theorem test_held : tstNext (.cmoClean tstH .l1 tg2 (.ui 1)) (tstReg tstMov [(2, 0x600000)]) (fun t g => g.frags.map (·.pc) == [0x1000] &&
      t.bufs == tstMov.bufs) ∧
    tstNext (.bufferClean (.l1 0 0) 0 0xC000) tstMov (fun t _ => t.held && t.bufs == tstMov.bufs) := by decide +kernel
theorem witness_BufferFills : tstMov.line? (.l1 0 0) 0 0x4000 = none ∧ tstMov.strLine 0 0x4000 ∧ tstMov.strLine 0 0 = false ∧
    (tstMov.lineBelow (.l1 0 0) 0 0x4000).isSome ∧ (tstD.lineBelow (.l1 0 0) 0 0x4000).isSome ∧
    (match translate tstMov 0 (0x4000 * 128) with
     | .page p => p.key == 0x400000
     | _ => false) = true := by decide +kernel
theorem test_fill_below : tstNext (.bufferFill (.l1 0 0) 0 0x4000) tstMov (fun t _ =>
      (t.line? (.l1 0 0) 0 0x4000).map (fun y => (y.value, y.dirty)) == some (9, 0)) ∧
    tstNext (.bufferClean (.l1 0 0) 0 0x4000) { tstD with poison := [0x20000] } (fun t _ => t.mem == tstD.mem &&
      (t.line? (.die 0) 0 0x4000).map (fun y => (y.value, y.dirty, y.poison)) == some (7, 0xF, 1)) := by decide +kernel

/-- Context 0 with a free queue of capacity 4 at 0x12000. -/
def tstFreeQ (put get : Nat) : State :=
  { tstPut [(0x12000, 16, put + 2 ^ 32 * get + 2 ^ 64 * 4 + 2 ^ 96 * 6)] tstB with ctxs := [⟨0, true, true, 4096, 0, 0x12000, 0, 0, 0⟩] }
theorem witness_FreeActions : ((tstFreeQ 5 3).ctx? 0).map (·.freeq) = some 0x12000 ∧ tstOk ((tstFreeQ 5 3).cohRead 0 0x12000 16) ∧
    tstOk ((tstFreeQ 5 3).cohKeys 0 0x12000 16) ∧ tstOk ((tstFreeQ 5 3).cohKeys 0 (0x12010 + 8) 8) ∧
    (match (tstFreeQ 5 1).cohKeys 0 0x1200C 4 with
     | .ok l => decide l.Nodup
     | _ => false) = true := by decide +kernel
theorem test_freeAction : leNat (memBytes ((tstFreeQ 5 3).freeAction 0 tstName).mem 0x212018 8) = tstName.toNat ∧
    leNat (memBytes ((tstFreeQ 5 3).freeAction 0 tstName).mem 0x212000 4) = 6 ∧
    leNat (memBytes ((tstFreeQ 5 1).freeAction 0 tstName).mem 0x21200C 4) = 7 ∧
    leNat (memBytes ((tstFreeQ 5 1).freeAction 0 tstName).mem 0x212000 4) = 5 := by decide +kernel
/-- The last pin of a deferred name goes. -/
theorem test_unpin_last : tstNext (.unpin tstH (.pin 0)) { tstFreeQ 5 3 with
      pins := [⟨0, .reg 0 0, tstName⟩], deferred := [⟨0, 0, tstName⟩]
      groups := (tstFreeQ 5 3).groups.map (fun g => { g with pins := [(0, tstName)] }) } (fun t _ => t.deferred == [] &&
    leNat (memBytes t.mem 0x212000 4) == 6) := by decide +kernel

/-- A second group of the crew, that waits at a queue. -/
def tstQueued (q : Queue) (s : State) : State :=
  { s with groups := s.groups ++ s.groups.map (fun g => { g with gid := 1 }), waiters := [⟨q, 1, 0, 0x1000⟩] }
theorem witness_Queues : ([.fill 0, .engine 5, .window 0] : List Queue).all (fun q => tstAt (tstQueued q tstP) fun x =>
      (tstQueued q tstP).ahead q x && !tstP.ahead q x) := by decide +kernel
theorem test_waits_behind : tstNext (.cpy tstH (.aw 0x10) (.g 8) (.ui 5)) (tstQueued (.engine 5) (tstCpy 5 0 [])) (fun t g =>
    (t.queue 5).isEmpty && g.frags.map (·.pc) == [0x1000] && t.waiters == [⟨.engine 5, 1, 0, 0x1000⟩, ⟨.engine 5, 0, 0, 0x1000⟩]) := by decide +kernel

/-- Other groups of the crew, by gid, role, block and mask; the first of register block 0 holds 7 and 8 in v1. -/
def tstWithGroups (l : List (Nat × Nat × Block × Word)) (s : State) : State :=
  { s with groups := s.groups ++ l.map (fun e => { stageGroup 0 e.2.1 with
      gid := e.1, block := some e.2.2.1, frags := [{ Frag.start e.2.2.2 0x1000 with pos := 1, tw := 0xFF }]
      v := ((stageGroup 0 e.2.1).v.set 32 7).set 33 8 }) }
def tstRole : Nat := (tstB.groups.map (·.role)).headD 9
/-- A group that arrives, of threads 2, 5 and 31, with the members `m`. -/
def tstArrive (m : Word) (l : List (Nat × Nat × Block × Word)) : State := tstWithGroups l (tstReg (tstMeetAt 0x80000024 1) [(2, m)])
def tstMeeting (role : Nat) : State := tstArrive 3 [(1, role, .regroup 0x1000 3 1 tstB.word, 3)]
def tstClash : State := tstArrive 1 [(1, tstRole, .regroup 0x2008 3 1 0, 3), (2, tstRole, .regroup 0x3010 5 1 0, 3), (3, tstRole, .regroup 0x2008 8 1 0, 3)]
def tstClashes (s : State) (m : Word) : Nat := match s.site? with
  | some x => (clashes m 1 x.f.pc x.g (s.groupsOf 0)).length
  | none => 9
theorem witness_RegroupAndJoin_several : tstClashes (tstMeeting tstRole) 3 = 0 ∧ tstClashes tstClash 1 = 2 ∧
    ([tstMeeting tstRole, tstMeeting (tstRole + 1), tstClash] : List State).all (fun s => s.groups.all (fun q => q.frags.length == 1 &&
      q.spilled.isEmpty && q.frags.all (fun f => f.stack.isEmpty)) && decide (s.groups.map Group.key).Nodup) ∧
    ((tstMeeting tstRole).group? 1).bind Group.atRegroup = some (0x1000, 3, 1, tstB.word) ∧
    (tstClash.siteAt 1 0).isSome := by decide +kernel
theorem test_regroup_several : tstNext (.regroup tstH tg2 tg3) (tstMeeting tstRole) (fun t g =>
      g.frags.map (fun f => (f.mask, f.pc)) == [(31, 0x100C)] && (List.range 5).map (g.vreg 1) == [5, 6, 0, 7, 8] &&
      (t.group? 1).map (·.stat) == some .ended) ∧
    tstNext (.regroup tstH tg2 tg3) (tstMeeting (tstRole + 1)) (fun t _ => t.groups.map (·.stat) ==
      [.stopped 2 0x1000 tstB.word, .stopped 0 0x1000 tstB.word] && t.launches.map (·.traps) == [2]) := by decide +kernel
theorem test_regroup_clash : tstNext (.regroup tstH tg2 tg3) tstClash (fun t _ => t.groups.map (·.stat) ==
    [.stopped 2 0x1000 tstB.word, .stopped 0 0x1000 0, .stopped 0 0x1000 0, .run] && t.launches.map (·.traps) == [3]) := by decide +kernel
theorem test_join_several : tstNext (.join tstH) (tstWithGroups [(1, tstRole, .join, 3)] tstB) (fun t _ =>
      t.groups.all (fun g => g.block == none && g.frags.map (·.pc) == [0x100C])) ∧
    tstNext (.join tstH) (tstWithGroups [(1, tstRole, .bar 0, 3)] tstB) (fun _ g => g.block == some .join) := by decide +kernel

theorem witness_StoppedGroups_runs : ([(0x100C, true), (0xFF4, true), (0x1018, false), (0xFE8, false)] : List (Nat × Bool)).all (fun q =>
    match (tstStop q.1 tstB).site? with
    | some x => (tstB.inRun x.c.die x.ctx x.f q.1 == q.2) && (q.1 : Int) % 12 == (0x1000 : Int) % 12
    | none => false) := by decide +kernel
theorem test_debugResume_runs : tstNext (.debugResume 0) (tstStop 0x100C tstB) (fun _ g => g.frags.map (fun f => (f.pos, f.tw)) == [(2, 0xFF)]) ∧
    tstNext (.debugResume 0) (tstStop 0x2020 tstB) (fun _ g => g.frags.map (fun f => (f.pc, f.pos, f.tw)) == [(0x2020, 0, 0)]) := by decide +kernel

theorem witness_CascadeInstructions_ctb : tstWin (tstC [0, 0, 0, 0, 1, 0, 0, 0] [] []) (fun x =>
      !operandBad (x.recRef 1) (x.record? 1).isSome denseEncs true && !operandBad (x.recRef 2) (x.record? 2).isSome denseEncs true &&
      recCols (x.recRef 1).r == 64 && recCols (x.recRef 2).r == 64) ∧
    tstWin (tstCrew (tstC [1, 2, 3, 4, 5, 1, 16, 32] [] []) (fun c => { c with recs := c.recs.set 0 tstMaskRec })) (fun x =>
      !maskBad (x.recRef 0)) := by decide +kernel
theorem test_mloop_ctb : tstNext (.mloopDense tstH true true false true true (.rc 1) (.g 8) (.rc 2)) (tstC [0, 0, 0, 0, 1, 0, 0, 0] [] [])
    (fun t g => g.stat == .stopped 0 0x1000 tstB.word && t.cohNat? 0 (64 + 51) 1 == some 0x11) := by decide +kernel
/-- A read that a translation fault pauses, and one that another cause ends. -/
theorem test_cascadeRead_met : tstNext (.cascadeRead 0 0 0) (tstAlone (tstCasc (.mcb 0 0x600000))) (fun t g =>
      t.crews.map (fun c => c.unit.jobs.map (fun j => (j.paused, j.fault))) == [[(true, none)]] && t.cohNat? 0 (64 + 50) 2 == some 0x1009 &&
      t.launches.map (·.traps) == [0] && g.stat == .run) ∧
    tstNext (.cascadeRead 0 0 0) (tstAlone (tstCasc (.mcb 0 0x400000))) (fun t _ =>
      t.crews.map (fun c => c.unit.jobs.map (fun j => (j.paused, j.fault.isSome))) == [[(false, true)]] && t.launches.map (·.traps) == [1]) := by
  decide +kernel
theorem witness_CascadeSteps_met : tstGot (tstAlone tstMcb) (tstCasc (.mcb 0 0x400000)) 0 > 1 ∧
    ({ tstCasc (.mcb 0 0x400000) with fault := some 0x11 } : CascJob).done := by decide +kernel

def tstBusy (prio : Nat) : State :=
  { tstPut [(0x13001, 1, prio)] tstB with
    ctxs := [⟨0, true, true, 4096, 0, 0, 0x13000, 0, 0⟩], sys := { tstB.sys with ready := 2 ^ 30 }
    launches := tstB.launches ++ [{ stageLaunch 2 1 with next := 0, queue := 1, desc := { stageDesc with vregs := 8 } }]
    crews := (List.range 64).map (fun k => { stageCrew k 1 1 with core := k }) }
theorem witness_Yields_replaced : (tstGather (tstBusy 7) fun t y => y.umask tstH != 0 && y.c.pending == none && t.outranked y (t.queuePrio y.l)) ∧
    (tstGather (tstBusy 0) fun t y => !t.outranked y (t.queuePrio y.l)) := by decide +kernel
theorem test_yield_replaced : tstNext (.yield tstH 599) (tstBusy 7) (fun t g => g.stat == .held &&
    (t.crew? 0).map (·.pending) == some (some .prio)) := by decide +kernel

theorem witness_KvMaps_repairs : tstRep.sealTorn 0 0x150040 0x170000 1 = false ∧ ({ tstRep with seals := [⟨0, 0x150040, 0x170000, 1, true⟩] } : State).sealTorn 0 0x150040 0x170000 1 ∧
    tstTryAt tstRep (fun x => do
      let r ← tstRep.segment x.ctx (0x150000 + 64 * 1)
      tstTrue (r.id == 1 && decide (2 ≤ r.state))
      tstRep.extentRepair x.ctx 0x150000 2 ⟨1, 1, 1, 1, 16⟩ none) = 0 := by decide +kernel
theorem test_sealed : ((tstPut [] tstB).sealed 0 0x190000 0x180000 0x170000 9).seals = [⟨0, 0x190000, 0x180000, 36, false⟩, ⟨0, 0x190000, 0x170000, 2, false⟩] := by decide +kernel
/-- Entry 1 of A, whose frame's count falls to 0, beside a full deferred list, its name pinned. -/
def tstRelLast (n : Nat) : State := { tstPut [(0x120010, 16, tstFr 1 1 0x40000 false)] tstRel with
  pins := [⟨0, .reg 5 0, frameName 1⟩], deferred := List.replicate n ⟨0, 0, 1⟩ }
theorem witness_KvSharing_release : ([0, 4096] : List Nat).all (fun n => tstTryAt (tstRelLast n) (fun x => do
      let u := (tstRelLast n).draw.1
      let c ← u.kvCtx x.ctx (x.gpair 8)
      let low ← u.unused x.ctx c 0 [1]
      tstTrue (low == [1] && (low.map frameName).all (fun f => u.pinned x.ctx f && !u.deferred.contains ⟨x.c.die, x.ctx, f⟩) &&
        (u.deferredOn x.c.die).length == n)
      State.relOne x.ctx c 0 u (1, 1)) == 0) ∧
    tstTryAt tstRel (fun x => do
      let c ← tstRel.kvCtx x.ctx (x.gpair 8)
      let low ← tstRel.unused x.ctx c 0 [1, 1]
      tstTrue (low == [1])) = 0 ∧ lowerBy 0 1 2 2 = 0 := by decide +kernel
theorem test_pgrel_last : tstNext (.pgrel tstH (.g 8)) (tstRelLast 0) (fun t _ => t.deferred == [⟨0, 0, frameName 1⟩] &&
      leNat (memBytes t.mem 0x32001A 2) == 0) ∧
    tstNext (.pgrel tstH (.g 8)) (tstRelLast 4096) (fun t g => g.stat == .stopped 0 0x1000 tstB.word && leNat (memBytes t.mem 0x32001A 2) == 1) := by
  decide +kernel
theorem witness_SegmentsAndLinks_torn : (tstCmp 0 false none).sealTorn 0 0x190000 0x180000 12 = false := by decide +kernel
theorem witness_Gathers_quarantine : (match (tstGS 1 (tstRows 0x7C00)).quarantineSet (tstGJob 1) 0x120000 with
    | .ok _ => true
    | _ => false) = true ∧ 0x120000 % 16 = 0 ∧ ((tstGS 1 (tstRows 0x7C00)).group? 0).map (·.stat) = some .run ∧
    (tstAt (tstQueued (.engine 5) (tstGath 2)) fun x => (tstQueued (.engine 5) (tstGath 2)).ahead (.engine 5) x) := by decide +kernel

/-- A migration from the memory of a lost package, and one of a poisoned granule. -/
def tstMigrate (src : Nat) (poison : List Nat) : State := { tstJobs [tstDev (.migrate src 0x400000 65536) 65536 false] with
  poison := poison, sys := { tstB.sys with ready := 2 ^ 29, lost := [5] } }
theorem witness_DeviceJobs_met : (tstMigrate 0x300000 [0x18001]).keyMet 0x300020 = none ∧ 0x18001 = (0x300000 + 32) / 32 ∧
    (match (tstMigrate (6 * 2 ^ 51) []).keyMet (6 * 2 ^ 51) with
     | some (.bad c _) => c == 0x14
     | _ => false) = true ∧
    (match (tstJobs []).cohRead 0 0x600000 4, tstMov.cohRead 0 0x600000 4 with
     | .error (some c), .error none => c == 0x10
     | _, _ => false) = true ∧
    (match (tstJobs []).cohRead 0 0x130004 4, (tstJobs []).cohKeys 0 0x130004 4 with
     | .ok _, .ok ks => ks.length == 4
     | _, _ => false) = true := by decide +kernel

/-- A state with one turn. -/
def tstDo (t : Turn) (s : State) : State := { s with agenda := [t] }
def tstStep (t : Turn) (s : State) (p : State → Bool) : Bool := match step (tstDo t s) with
  | .next u => p u
  | _ => false
theorem test_ybound : tstStep (.ybound 0 1024) tstB (fun t => t.ctxs.map (·.ybound) == [1024]) ∧
    tstStep (.ybound 0 1023) tstB (fun t => t.ctxs.map (·.ybound) == [4096]) := by decide +kernel
theorem test_config : tstStep (.config 0x0C 9) tstB (fun t => t.sys.bootLo == 9) ∧ tstStep (.config 0x10 9) tstB (fun t => t.sys.bootHi == 9) := by decide +kernel
theorem witness_SystemEvents_turns : (tstSys (fun y => { y with ready := 2 ^ 29 })).outsideReach true (2 ^ 51) 4 ∧ tstB.outsideReach true (2 ^ 51) 4 = false ∧
    tstB.eccHere (.mem 7) ∧ tstB.eccHere (.mem (2 ^ 46)) ∧ tstB.eccHere (.mem (6145 * 2 ^ 46)) ∧ tstB.eccHere (.mem (deviceBytes / 32)) = false ∧ tstD.eccHere (.line (.l1 0 0) 0 0x4000 3) ∧ tstB.eccHere (.scr 0 127) ∧ tstB.eccHere (.scr 0 128) = false ∧
    (tstTile 1).eccHere (.tile 0 0 3) := by decide +kernel
theorem test_errors : tstStep (.error (.scr 0 4) true) tstB (fun t => t.crews.map (·.poison) == [[4]] && t.sys.uec == 1) ∧
    tstStep (.error (.line (.l1 0 0) 0 0x4000 3) true) tstD (fun t => t.bufs.map (·.poison) == [8]) ∧
    tstStep (.error (.mem 7) false) tstB (fun t => t.poison == [] && t.sys.cec == 1) := by decide +kernel
theorem test_outside : tstStep (.outside true 0x210000 [5] [0x10800]) (tstSys (fun y => { y with ready := 3 * 2 ^ 29 })) (fun t =>
    memGet t.mem 0x210000 == 5 && t.poison == [0x10800]) := by decide +kernel
/-- A boot whose Wellhead launch is refused, and one whose launch record is not of context 0. -/
def tstBootBad (w : Nat) : State := { tstBoot with mem := memPut tstBoot.mem 0x210000 (leBytes 64 w) }
theorem witness_SystemEvents_boot : (tstBoot.bootRead 0x9000).any (bootOk 0x9000) ∧ ((tstLa 0 3 0).wellRec 0x10000).isSome := by decide +kernel
theorem test_boot_refused : ([tstLRec 0 0, tstLRec 3 0 + 2 ^ 272] : List Nat).all (fun w => match exec (.bootStart 0) (tstBootBad w) with
    | .next t => t.sys.fail == 0x80000000 && !t.sys.started && t.launches.isEmpty
    | _ => false) := by decide +kernel
/-- A lane issues its one ready candidate; of two, the one of higher priority. -/
theorem test_lane : tstStep (.lane 0 0) tstB (fun t => (t.group? 0).map (fun g => g.frags.map (·.pc)) == some [0x100C]) ∧
    tstStep (.lane 0 1) tstB (fun t => t.groups == tstB.groups) ∧
    tstStep (.lane 0 0) { tstB with groups := tstB.groups ++ tstB.groups.map (fun g => { g with gid := 1, prio := 3 }) } (fun t =>
      t.groups.map (fun g => g.frags.map (·.pc)) == [[0x1000], [0x100C]] && t.picks.map (·.age) == [1, 0]) := by decide +kernel
theorem witness_StepRunsDecoded_lane : (firstReady [⟨0, 0, 0, 0, 0, 0, 0, 0⟩, ⟨1, 0, 192, 0, 0, 0, 0, 1⟩]).map (·.gk) = some 1 ∧
    firstReady ((tstB.laneFrags 0 1).foldl State.tryFrag (tstB, [])).2 = none ∧
    (firstReady ((tstB.laneFrags 0 0).foldl State.tryFrag (tstB, [])).2).isSome ∧ tstB.kvTorn = [] ∧ tstB.held = false := by decide +kernel

/-- A tile in every slot of die 0. -/
def tstTiles : List Tile := (List.range Config.tileSlots).map (fun k => ⟨0, k, 0, 1, 1, 1, 1, [], [], k⟩)
theorem witness_CountedTiles_full (s : State) (hs : s.tiles = tstTiles) : s.fillSlot 0 1 = none := by
  unfold State.fillSlot
  rw [List.find?_eq_none]
  intro k hk
  have h : s.tiles.any (fun t => t.die == 0 && t.slot == k) = true := by
    rw [hs, tstTiles, List.any_map, List.any_eq_true]
    exact ⟨k, hk, by simp⟩
  simp [State.slotFits, h]
/-- A pod barrier of index 1, and the links not ready. -/
def tstPod (links : Word) : State :=
  tstLaunch { tstB with podBars := [⟨0, 0x4000, ⟨4, 1, 7, 2, 1, 0, [9], []⟩, 0⟩], sys := { tstB.sys with ready := links } } (fun l =>
    { l with bars := [⟨4, 1, 2, 1⟩] })
theorem witness_Barriers_pod : ([0, 2 ^ 29] : List Word).all (fun w => tstAt (tstPod w) (fun x => x.l.member x.g.gid 4 1 &&
    (match (tstPod w).inst? x.c x.l 4 1 with
     | some b => b.level == 4 && b.index == 1 && !b.dropped.contains 0 && !b.arrived.contains 0 && b.expect == 2
     | none => false))) := by decide +kernel
theorem test_pod_arrival : tstNext (.barArrive tstH (some tg4) .pod 1) (tstPod 0) (fun t _ => t.held) ∧
    tstNext (.barArrive tstH (some tg4) .pod 1) (tstPod (2 ^ 29)) (fun t g => g.greg 4 == 7 && t.podBars.map (·.inst.phase) == [8]) := by decide +kernel
theorem witness_CopySteps_whole : (tstQ tstJob).taints tstJob = [] ∧ (tstQ tstCvtJob).cvtTaints { tstCvtJob with len := 8 } = [] := by decide +kernel

/-! Hypotheses of the clauses on divided groups, failing streams, poison, changed maps, and the unit's other jobs. -/

/-- The low threads of a divided group, with a transfer; the high ones wait at 0x1048. -/
def tstTwo (t : Option Xfer) : State := tstGroup tstB (fun g => { g with frags := [
  { Frag.start 0x0000FFFF 0x1000 with stack := [(0x1048, 1)], xfer := t, count := 4 },
  { Frag.start 0xFFFF0000 0x1048 with stack := [(0x1048, 1)], count := 9 }] })
/-- What a trailer leaves of a group's fragments. -/
def tstTrail (s : State) (l : List (Word × Nat × List (Nat × Nat))) : Bool :=
  tstNext (.trail tstH []) s (fun _ g => g.frags.map (fun f => (f.mask, f.pc, f.stack)) == l)
theorem witness_Trailer_divided : tstAt (tstTwo (some (.goto 0x1048))) (fun x =>
    x.g.frags.map (fun f => (lowest f.mask, f.stack, f.xfer)) == [(0, [(0x1048, 1)], some (.goto 0x1048)), (16, [(0x1048, 1)], none)] &&
    x.g.frags.head? == some x.f && x.g.spilled == [] && x.g.out == [] && x.g.frags.all (fun f => !f.atPoint)) := by decide +kernel
theorem test_trail_if_then : tstTrail (tstGoes (some (.split 3 0x1048 0x1018 0x1048)) tstB)
      [(3, 0x1048, [(0x1048, 1)]), (0xFFFFFFFC, 0x1018, [(0x1048, 1)])] ∧
    tstTrail (tstGoes (some (.split 3 0x1048 0x1048 0x1048)) tstB) [(0xFFFFFFFF, 0x1048, [])] := by decide +kernel
theorem test_trail_fuses : tstTrail (tstTwo (some (.goto 0x1048))) [(0xFFFFFFFF, 0x1048, [])] ∧
    tstTrail (tstTwo (some .exit)) [(0xFFFF0000, 0x1048, [])] := by decide +kernel
/-- The high threads wait at a whole-group point inside the division instead. -/
def tstStuck : State := tstGroup (tstTwo (some (.goto 0x1048))) (fun g =>
  { g with frags := g.frags.map (fun f => if f.pc = 0x1048 then { f with pc := 0x1030, atPoint := true } else f) })
theorem test_trail_deadlock : tstNext (.trail tstH []) tstStuck (fun t g => g.stat == .ended && t.launches.map (·.traps) == [1]) := by
  decide +kernel
/-- Nine fragments of one thread each; `n` of them wait, and the divisions are as deep as their number. -/
def tstNine (n : Nat) : Group := { stageGroup 0 0 with frags := (List.range 9).map (fun k =>
  { Frag.start (BitVec.ofNat 32 (2 ^ k)) 0x1048 with stack := List.replicate (k + 1) (if k < n then 0x1048 else 0x2000, 1) }) }
theorem witness_Fragments_spill : ((tstNine 3).spill fun _ => false).spilled.map (·.mask) = [4] ∧ ((tstNine 0).spill fun _ => false).spilled.map (·.mask) = [256] ∧
    ((tstNine 3).spill fun _ => false).frags.length = 8 := by decide +kernel

theorem witness_CopySteps_stream : ([(0x30000, 2 ^ 47, 0), (0x30000, 2 ^ 40 * 7 + 255, 7), (0x600000, 2 ^ 47, 0)] : List (Nat × Nat × Nat)).map (fun q =>
    match ((tstQ tstStrmJob).cohStore 0 0x30000 8 q.2.1).streamStep 0 tstStrmJob (tstRec 5 0x10000 256 + 2 ^ 264 * BitVec.ofNat 320 q.1) 0 0 with
    | .error (.bad c _, n) => (c.toNat, n)
    | .error _ => (1, 0)
    | .ok j => (0, j.len)) = [(0, 128), (0x30, 7), (0x11, 0)] := by decide +kernel
/-- The map of the clauses on changed slots, and an extent at the end of the positions. -/
def tstMap1 : KvMap := ⟨0x11000, 3, [⟨0, 1, 1, 0, 0⟩], List.replicate 31 0⟩
theorem witness_KvRecords_slots : extentsOk tstMap1.ext ∧ tstMap1.ext.length + tstMap1.rest.length = 32 ∧ (∀ z ∈ tstMap1.rest, z < 2 ^ 128) ∧
    (match tstMap1.insert ⟨7, 1, 2, 4, 2 ^ 32 - 32⟩ with
     | .ok n => changedSlots tstMap1 n (some (2 ^ 32 - 32)) == (1, 2)
     | .error _ => false) = true ∧ changedSlots tstMap1 (tstMap1.remove 0) (some 0) = (0, 1) := by decide +kernel
theorem test_sealWord : sealWord (2 ^ 512 - 1) 3 0x180000 0 77 = 2 ^ 512 - 1 - (2 ^ 64 - 1 - 77) * 2 ^ 448 - (2 ^ 56 - 1) * 2 ^ 392
    - (2 ^ 56 - 1 - 0x180000) * 2 ^ 328 - (2 ^ 32 - 1 - 3) * 2 ^ 160 - 1 := by decide +kernel
theorem witness_KvMaps_match : tstTryAt tstExtS (fun x => do
    let m ← tstExtS.kvMap x.ctx (x.gpair 8)
    tstTrue (m.ext.map (·.start) == [0] && x.g.greg 12 == 32)) = 0 := by decide +kernel
/-- The first element of the source of `kvapp` poisoned. -/
def tstAppBad : State := tstCrew (tstApp 3) (fun c => { c with poison := [2] })
theorem witness_KvSharing_poison : tstAppBad.scrPoison 0 0x40 4 ∧ (tstApp 3).scrPoison 0 0x40 4 = false := by decide +kernel
theorem test_kvapp_poison : tstNext (.kvapp tstH (.g 8) (.ui 0x40)) tstAppBad (fun t g => g.stat == .stopped 0 0x1000 t.word &&
    leNat (memBytes t.mem 0x320000 16) == tstFr 1 3 0x20000 false) := by decide +kernel

/-- `msort` of one group of K4 weights: the level indexes 0, 1, 2, … -/
def tstSortJob : CascJob := { tstCasc (.msort 5 1 10 2 none 0 ⟨tstRec 10 0x18000 0x4000, 3⟩) with got := [(0, 9 :: List.range 64)] }
def tstPartsJob : CascJob := { tstCasc (.mparts true false false 7 64 5 1 3 ⟨tstRec 3 0x1C000 0x4000, 4⟩) with got := [(0, [0])] }
def tstAttnJob : CascJob := { tstCasc (.mloop true false false false none 1 2 3 4 0 0 ⟨tstDense 1 0x10000 0x4000, 1⟩
  ⟨tstDense 2 0x14000 0x4000, 2⟩ (some ⟨⟨tstMaskRec, 0⟩, true, 16, 32⟩)) with got := [(0, [1])] }
theorem witness_CascadeSteps_jobs : [tstSortJob, tstPartsJob, tstAttnJob].all (fun j => j.done && j.fault == none && (tstAlone j).seen == [] &&
    (tstAlone j).crews.all (fun c => c.unit.jobs == [j] && decide (c.unit.head < 8) && c.unit.slots.length == 8)) := by decide +kernel
theorem test_msort_done : tstNext (.cascadeCompletion 0) (tstAlone tstSortJob) (fun t _ => t.crews.all (fun c =>
    entG (c.unit.perm.get 2).toNat == 9 && entCb (c.unit.perm.get 2).toNat == 10 && c.unit.perm.get 3 == 0 && c.unit.jobs == [])) := by
  decide +kernel

theorem witness_GuardedOff_points : tstGather tstB (fun _ y => y.umask { tstH with neg := true } == 0 && y.g.frags == [y.f]) := by decide +kernel
theorem witness_CascadeInstructions_off : tstAt tstB (fun x => x.vmask { tstH with neg := true } == 0 && x.c.unit.pending == 0) := by decide +kernel
theorem witness_RegroupAndJoin_pending : tstGather (tstLeave (tstCrew tstB (fun c => { c with children := 1 }))) (fun _ y =>
    y.c.children != 0 && y.c.pending == some .switch) := by decide +kernel
theorem test_join_switch : tstNext (.join tstH) (tstLeave (tstCrew tstB (fun c => { c with children := 1 }))) (fun t g =>
    g.block == some .join && t.crews.map (·.pending) == [some .join]) := by decide +kernel
theorem witness_BufferSteps_below : ({ tstD with bufs := [⟨.l1 0 0, 0, 0xC000, 7, 1, 0⟩] } : State).lineBelow (.l1 0 0) 0 0xC000 = none ∧
    (({ tstD with bufs := [⟨.l1 0 0, 0, 0xC000, 7, 1, 0⟩] } : State).line? (.l1 0 0) 0 0xC000).any (fun y => y.dirty != 0) := by decide +kernel
theorem witness_StepRunsDecoded_records : tstAt tstExtS (fun x => tstExtS.kvRecords x (.extset tstH (.g 8) (.g 12)) == []) ∧
    tstAt (tstApp 3) (fun x => (tstApp 3).kvRecords x (.kvapp tstH (.g 8) (.ui 0x40)) != []) := by decide +kernel
/-- A group that was waiting when its crew left, and one parked. -/
theorem witness_Schedulers_blocked : (tstGroup tstB (fun g => { g with block := some .join })).groups.all (·.blocked) ∧
    (tstGroup (tstPark tstB) (fun g => { g with block := some .join })).groups.all (fun g => !g.blocked) := by decide +kernel
/-- Every core of die 0 holds a crew; a launch of priority 3, on queue 5 and of another split, waits for an empty one. -/
def tstAbove : State :=
  { tstPut [(5, 1, 3)] tstShared with
    launches := tstShared.launches.map (fun l => if l.handle = 2 then { l with queue := 5, split := 0x4163 } else l)
    crews := tstB.crews ++ (List.range 63).flatMap (fun k => tstB.crews.map (fun c => { c with id := k + 1, core := k + 1 })) }
theorem witness_Yields_outranked : tstGather tstAbove (fun t y => y.umask tstH != 0 && y.c.pending == none && t.outranked y 0 &&
    t.outranked y (t.queuePrio y.l)) := by decide +kernel

/-- A crew in the middle of core 0's scratchpad: the offered one fits it in total, but in no free run; it has failed so since time 0. -/
def tstFailing (ns : Nat) : State := { tstCrew tstShared (fun c => { c with base := 0x40000 }) with
  nanos := ns, fails := [⟨2, 0, 0, 0⟩],
  launches := tstShared.launches.map (fun l => if l.handle = 2 then { l with desc := { l.desc with scratch := 0x50000 } } else l) }
theorem witness_Schedulers_due : ([999999, 1000000] : List Nat).all (fun ns => (tstFailing ns).fails.all (tstFailing ns).stillFails &&
    (tstFailing ns).placeWait 0 == 1000000) ∧ ((tstFailing 5).keepFails.fails == (tstFailing 5).fails) ∧
    ({ tstFailing 5 with crews := [] } : State).keepFails.fails = [] := by decide +kernel
theorem test_placementWaitExpiry : tstNext (.placementWaitExpiry 2 0 0) (tstFailing 1000000) (fun t _ => t.cores.map (·.drain) == [true]) ∧
    tstNext (.placementWaitExpiry 2 0 0) (tstFailing 999999) (fun t _ => t.cores.map (·.drain) == [false]) := by decide +kernel
theorem test_noteFails : (match (tstFailing 7).launch? 2, (tstFailing 7).cands.find? (fun q => q.handle == 2) with
    | some l, some q => ({ tstFailing 7 with fails := [] } : State).noteFails l q == { tstFailing 7 with fails := [⟨2, 0, 0, 7⟩] } &&
        (tstFailing 7).noteFails l q == tstFailing 7
    | _, _ => false) = true := by decide +kernel
theorem test_setWait : (tstB.setWait 1 100000).placeWait 1 = 100000 ∧ (tstB.setWait 1 99999).placeWait 1 = 1000000 ∧
    (tstB.setWait 1 100000).placeWait 0 = 1000000 := by decide +kernel

theorem test_spill_fresh : ((tstNine 3).spill (fun f => f.mask == 4)).spilled.map (·.mask) = [2] ∧
    ((tstNine 1).spill (fun f => f.mask == 1)).spilled.map (·.mask) = [256] := by decide +kernel

/-- The fragment of the low threads stopped at 0x1000, to resume where the other one of its split waits. -/
def tstResume : State := tstGroup tstB (fun g => { g with stat := .stopped 0 0x1018 0, frags :=
  [{ Frag.start 0xFFFF 0x1000 with stack := [(0x1018, 1)], count := 3 }, { Frag.start 0xFFFF0000 0x1018 with stack := [(0x1018, 1)], count := 7 }] })
theorem witness_StoppedGroups_fuse : (match tstResume.group? 0 with
    | some g => (match g.frags with
      | [f, q] => lowest f.mask != lowest q.mask && f.stack == q.stack && q.pc == 0x1018 && q.xfer == none && !q.atPoint && f.pc != 0x1018
      | _ => false)
    | none => false) = true ∧ (0x1000 : Int) % 12 = (0x1018 : Int) % 12 := by decide +kernel
theorem test_debugResume_fuse : tstNext (.debugResume 0) tstResume (fun _ g => g.stat == .run &&
    g.frags.map (fun f => (f.mask, f.pc, f.stack, f.count)) == [(0xFFFFFFFF, 0x1018, [], 7)]) := by decide +kernel

theorem witness_StoppedGroups_window : (tstStop 0x1000 tstB).groups.length = 1 ∧ (tstAt tstB fun x => x.c.stat == .resident && decide (x.g.lane < 32) &&
    decide (x.g.slot < 8)) := by decide +kernel
theorem test_windowRead : (tstAt tstB fun x => let s := tstStop 0x1000 (tstReg tstB [(4, 9)])
    let a := 0x00F000000000 + x.c.core % 64 * 0x2000000 + x.g.lane * 0x100000 + x.g.slot * 0x20000
    s.windowRead 0 (a + 0x8010) == 9 && s.windowGroup 1 a == none && s.windowGroup 0 (a + 0x20000) == none &&
    (match step { s with agenda := [.window 0 (a + 0x8010) 5] } with
     | .next t => (t.group? 0).any (fun g => g.greg 4 == 5)
     | _ => false)) := by decide +kernel

/-- A pin register pinned again with its own name, deferred and held by nothing else: the name is freed, and pinned anew. -/
def tstRepin : State := { tstGroup (tstReg tstP [(2, 0x2A), (3, 0x10000000)]) (fun g => { g with pins := [(1, tstName)] }) with
  pins := [⟨0, .reg 0 1, tstName⟩], deferred := [⟨0, 0, tstName⟩] }
theorem test_pin_again : tstNext (.pin tstH (.pin 1) (.g 2)) tstRepin (fun t g => t.deferred == [] && t.pins == [⟨0, .reg 0 1, tstName⟩] &&
    g.pins == [(1, tstName)]) := by decide +kernel

theorem witness_Waits_launch : ((tstCondAt tstB 0x50000000 0 1).named? 0 1).isSome ∧ (tstCondAt tstB 0x50000000 0 9).named? 0 9 = none ∧
    tstFired (tstLaunch (tstCondAt tstB 0x50000000 0 1) (fun l => { l with ended := true, met := true })) = 0 := by decide +kernel
theorem witness_Barriers_points : (tstGather (tstBar 2 ⟨0, 3, 7, 2, 1, 0, [], []⟩) fun _ y => y.umask tstH != 0 && !y.l.member y.g.gid 0 3) ∧
    (tstGather (tstBar 1 ⟨0, 3, 7, 2, 1, 0, [0], []⟩) fun t y => y.g.block == none && (match t.inst? y.c y.l 0 3 with
      | some b => (t.barArrive y.c y.l y.g.key b).isNone
      | none => false)) := by decide +kernel
theorem test_bar_points : tstNext (.barWait tstH .core 3) (tstBar 2 ⟨0, 3, 7, 2, 1, 0, [], []⟩) (fun _ g => g.stat == .stopped 0 0x1000 tstB.word) ∧
    tstNext (.barSync tstH none .core 3) (tstBar 1 ⟨0, 3, 7, 2, 1, 0, [0], []⟩) (fun _ g => g.stat == .stopped 0 0x1000 tstB.word) := by decide +kernel

theorem witness_FaultRecords_wrapped : (tstQueue 2 0xFFFFFFFE).cohNat? 0 0 4 = some 2 ∧ (tstQueue 2 0xFFFFFFFE).cohNat? 0 4 4 = some 0xFFFFFFFE := by
  decide +kernel
theorem test_record_wrapped : tstNext (.trap tstH 0x1F) (tstQueue 2 0xFFFFFFFE) (fun t _ => t.cohNat? 0 0 4 == some 3) := by decide +kernel

/-- The other crew's seal of the same array leaves the mark that the first one has (R343). -/
theorem test_seal_by_record : let s : State := { tstP with seals := [⟨0, 0x190000, 0x180000, 36, true⟩] }
    (s.sealed 0 0x190040 0x180000 0 9).sealTorn 0 0x190000 0x180000 36 ∧
    (s.sealed 0 0x190040 0x180000 0 9).sealTorn 0 0x190040 0x180000 36 = false := by decide +kernel

/-- Launch 1 replays an atomic of thread 1 on the word at 0x10000, which one of thread 0 there follows. -/
def tstReplay (l : List AtomEnt) : State := { tstReg tstP [(2, 0x10000), (4, 1)] with sys := { tstP.sys with rplPlay := [⟨0, 0, 0, 1, 0, [], [], l⟩] } }
def tstEnt (who seq : Nat) : AtomEnt := ⟨false, 0x10000, 0x210000, 4, who, seq⟩
def tstAtomRun (s : State) : Nat × List Nat × List Nat :=
  match s.site? with
  | some x =>
    let w := memRun s x tstH [.v 1, tg2, tg4] (.late (.v 1) false) (fun x s1 i =>
      x.atomAt s1 .add (FEnv.ofMode x.g.fpmode) i (x.read64 s i tg2).toNat (x.atomB s .add i tg4).1 (x.atomB s .add i tg4).2)
    (if w.held then 1 else 0, w.late, w.vals.map (·.1))
  | none => (2, [], [])
theorem witness_MemoryFaults_early : tstAtomRun (tstReplay [tstEnt 1 4, tstEnt 0 7]) = (0, [0], List.range' 1 31) ∧
    tstAtomRun (tstGroup (tstReplay [tstEnt 5 4, tstEnt 0 7]) (fun g => { g with frags := g.frags.map (fun f => { f with mask := 1 }) })) =
      (0, [0], []) := by decide +kernel
theorem test_atom_early : tstNext (.atom tstH .add (.v 1) tg2 tg4) (tstReplay [tstEnt 1 4, tstEnt 0 7]) (fun t g =>
    leNat (memBytes t.mem 0x210000 4) == 31 && g.frags.map (fun f => (f.pc, f.replay, f.early)) == [(0x1000, some 1#32, true)] &&
    t.sys.rplPlay.map (fun e => e.atoms.length) == [1]) := by decide +kernel

theorem witness_CopySteps_stored : (tstQ tstCvtJob).cvtStored { tstCvtJob with len := 8 } = [] ∧
    (tstGS 0 (tstRows 0)).storedBytes (tstGJob 0) = [] ∧ (tstTok 0 2).freed = false := by decide +kernel
/-- The map at 0x11000 and what a removal and an insertion store of it. -/
theorem witness_KvMaps_stores : (4 :: List.range' 16 16).map (fun k => keyOf tstP 0 (0x11000 + k)) = (4 :: List.range' 16 16).map (fun k => some (0x211000 + k)) ∧
    (let n := tstMap1.remove 0
     changedSlots tstMap1 n (some 0) = (0, 1) ∧ tstOk (tstP.putMap 0 tstMap1 n (some 0)) ∧
       (match tstP.wr 0 0x11010 16 (n.toNat >>> 128) with
        | .ok u => keyOf u 0 0x11004 == some 0x211004
        | .error _ => false) = true) := by decide +kernel
theorem test_putMap : (match tstP.putMap 0 ⟨0x11000, 3, [], []⟩ ⟨0x11000, 4, [⟨7, 1, 2, 4, 16⟩], List.replicate 31 0⟩ (some 16) with
    | .ok t => leNat (memBytes t.mem 0x211000 32) == 2 ^ 32 + 2 ^ 128 * (Extent.toNat ⟨7, 1, 2, 4, 16⟩)
    | .error _ => false) = true := by decide +kernel
theorem test_tear_ownSplit : (({ stageLaunch 1 0 with ownSplit := true, split := 0x4163 } : Launch).tear true false false 3).split = 0x4163 ∧
    (({ stageLaunch 1 0 with roleTorn := none } : Launch).tear false true false 3).roleTorn = some 3 := by decide +kernel

end
end

section
/-!
The fields of the instruction word (R53) and its modifiers (R65): `fieldsOf` and `Fields.toWord` are inverse, a MIN or MOD that
numbers the values of a list names one value, and each reader of a modifier accepts exactly the MOD that the encoder gives.
-/

namespace Sys2Proof

theorem bv_eq_append_iff {v w : Nat} {x : BitVec (v + w)} {hi : BitVec v} {lo : BitVec w} :
    x = hi ++ lo ↔ x.extractLsb' w v = hi ∧ x.extractLsb' 0 w = lo :=
  ⟨fun h => by rw [h]; exact ⟨BitVec.extractLsb'_append_eq_left, BitVec.extractLsb'_append_eq_right⟩,
   fun ⟨hh, hl⟩ => by rw [← hh, ← hl]; exact BitVec.extractLsb'_append_extractLsb'.symm⟩

theorem ofBool_getLsbD {w : Nat} (x : BitVec w) (i : Nat) : BitVec.ofBool (x.getLsbD i) = x.extractLsb' i 1 := by
  apply BitVec.eq_of_getLsbD_eq
  intro j hj
  obtain rfl : j = 0 := by omega
  simp

theorem extract_one_eq {w : Nat} {x : BitVec w} {i : Nat} {b : Bool} :
    x.extractLsb' i 1 = BitVec.ofBool b ↔ x.getLsbD i = b := by
  rw [← ofBool_getLsbD, BitVec.ofBool_eq_iff_eq]

theorem extract_extract {n s w t v : Nat} {x : BitVec n} (h : t + v ≤ w) :
    (x.extractLsb' s w).extractLsb' t v = x.extractLsb' (s + t) v := by
  apply BitVec.eq_of_getLsbD_eq
  intro j hj
  have : t + j < w := by omega
  simp [hj, this, Nat.add_assoc]

/-! The fields of a word (R53). -/

theorem extract_fields (maj min : BitVec 8) (neg : Bool) (prd : BitVec 3) (dly : BitVec 4) (ru pri : BitVec 2) (md : BitVec 8)
    (d a b : BitVec 20) :
    let w := maj ++ min ++ (BitVec.ofBool neg ++ prd ++ dly ++ ru ++ pri) ++ md ++ d ++ a ++ b
    w.extractLsb' 88 8 = maj ∧ w.extractLsb' 80 8 = min ∧ w.extractLsb' 79 1 = BitVec.ofBool neg ∧ w.extractLsb' 76 3 = prd ∧
      w.extractLsb' 72 4 = dly ∧ w.extractLsb' 70 2 = ru ∧ w.extractLsb' 68 2 = pri ∧ w.extractLsb' 60 8 = md ∧
      w.extractLsb' 40 20 = d ∧ w.extractLsb' 20 20 = a ∧ w.extractLsb' 0 20 = b := by
  simp (disch := decide) only [BitVec.extractLsb'_append_eq_of_le, BitVec.extractLsb'_append_eq_of_add_le, Nat.reduceSub,
    BitVec.extractLsb'_eq_self, and_true]
  exact ⟨BitVec.extractLsb'_eq_self, BitVec.extractLsb'_eq_self⟩

theorem fieldsOf_toWord (f : Fields) : fieldsOf f.toWord = f := by
  obtain ⟨maj, min, ⟨neg, prd, dly, ru, pri⟩, md, d, a, b⟩ := f
  obtain ⟨hmaj, hmin, hneg, hprd, hdly, hru, hpri, hmd, hd, ha, hb⟩ := extract_fields maj min neg prd dly ru pri md d a b
  simp only [fieldsOf, Fields.mk.injEq, Hdr.mk.injEq]
  exact ⟨hmaj, hmin, ⟨extract_one_eq.mp hneg, hprd, hdly, hru, hpri⟩, hmd, hd, ha, hb⟩

theorem append_extracts (w : IWord) :
    w.extractLsb' 88 8 ++ w.extractLsb' 80 8 ++
      (w.extractLsb' 79 1 ++ w.extractLsb' 76 3 ++ w.extractLsb' 72 4 ++ w.extractLsb' 70 2 ++ w.extractLsb' 68 2) ++
      w.extractLsb' 60 8 ++ w.extractLsb' 40 20 ++ w.extractLsb' 20 20 ++ w.extractLsb' 0 20 = w := by
  have join (s₁ s₂ l₁ l₂ : Nat) (h : s₂ = s₁ + l₁) :
      w.extractLsb' s₂ l₂ ++ w.extractLsb' s₁ l₁ = w.extractLsb' s₁ (l₂ + l₁) :=
    BitVec.extractLsb'_append_extractLsb'_eq_extractLsb' h
  simp (disch := rfl) only [join]
  exact BitVec.extractLsb'_eq_self

theorem toWord_fieldsOf (w : IWord) : (fieldsOf w).toWord = w := by
  simp only [fieldsOf, Fields.toWord, ofBool_getLsbD]
  exact append_extracts w

/-! Values by their number in a list. -/

/-- A list that numbers every value of its type once, in at most eight bits. -/
structure Listed {α : Type} (l : List α) : Prop where
  nodup    : l.Nodup
  complete : ∀ x, x ∈ l
  short    : l.length ≤ 2 ^ 8

theorem itys_listed : Listed itys := ⟨by decide, fun x => by cases x <;> decide, by decide⟩
theorem scales_listed : Listed scales := ⟨by decide, fun x => by cases x <;> decide, by decide⟩
theorem rels_listed : Listed rels := ⟨by decide, fun x => by cases x <;> decide, by decide⟩
theorem plogOps_listed : Listed plogOps := ⟨by decide, fun x => by cases x <;> decide, by decide⟩
theorem movWs_listed : Listed movWs := ⟨by decide, fun x => by cases x <;> decide, by decide⟩
theorem xmovOps_listed : Listed xmovOps := ⟨by decide, fun x => by cases x <;> decide, by decide⟩
theorem scanOps_listed : Listed scanOps := ⟨by decide, fun x => by cases x <;> decide, by decide⟩
theorem voteOps_listed : Listed voteOps := ⟨by decide, fun x => by cases x <;> decide, by decide⟩
theorem rnds_listed : Listed rnds := ⟨by decide, fun x => by cases x <;> decide, by decide⟩
theorem ftzs_listed : Listed ftzs := ⟨by decide, fun x => by cases x <;> decide, by decide⟩
theorem ftys_listed : Listed ftys := ⟨by decide, fun x => by cases x <;> decide, by decide⟩
theorem fmts_listed : Listed fmts := ⟨by decide, fun x => by cases x <;> decide, by decide⟩
theorem ldWs_listed : Listed ldWs := ⟨by decide, fun x => by cases x <;> decide, by decide⟩
theorem stWs_listed : Listed stWs := ⟨by decide, fun x => by cases x <;> decide, by decide⟩
theorem atomOps_listed : Listed atomOps := ⟨by decide, fun x => by cases x <;> decide, by decide⟩
theorem barLvls_listed : Listed barLvls := ⟨by decide, fun x => by cases x <;> decide, by decide⟩
theorem arvs_listed : Listed arvs := ⟨by decide, fun x => by cases x <;> decide, by decide⟩

section
variable {α : Type} [DecidableEq α] {l : List α} {i : Instr} {k : α → Option Instr}

theorem getElem?_listed (h : Listed l) {w : Nat} (hl : l.length ≤ 2 ^ w) {n : BitVec w} {x : α} :
    l[n.toNat]? = some x ↔ n = (noIn l x).setWidth w := by
  have hi : l.idxOf x < l.length := List.idxOf_lt_length_iff.mpr (h.complete x)
  have hx : l[l.idxOf x]? = some x := by rw [List.getElem?_eq_getElem hi, List.getElem_idxOf]
  have hno : ((noIn l x).setWidth w).toNat = l.idxOf x := by
    have hs := h.short
    rw [BitVec.toNat_setWidth, noIn, BitVec.toNat_ofNat]
    change l.idxOf x % 2 ^ 8 % 2 ^ w = _
    rw [Nat.mod_eq_of_lt (by omega), Nat.mod_eq_of_lt (by omega)]
  rw [← BitVec.toNat_inj, hno]
  constructor
  · intro hn
    exact (List.getElem?_inj (List.getElem?_eq_some_iff.mp hn).1 h.nodup).mp (hn.trans hx.symm)
  · intro hn
    rw [hn, hx]

theorem pickAt_eq_some (h : Listed l) {w : Nat} (hl : l.length ≤ 2 ^ w) {n : BitVec w} :
    pickAt l n.toNat k = some i ↔ ∃ x, n = (noIn l x).setWidth w ∧ k x = some i := by
  simp only [pickAt, Option.bind_eq_some_iff, getElem?_listed h hl]

/-- A MIN that numbers the values of a list. -/
theorem pickMin_eq_some (h : Listed l) {n : BitVec 8} : pickAt l n.toNat k = some i ↔ ∃ x, n = noIn l x ∧ k x = some i := by
  simpa only [BitVec.setWidth_eq] using pickAt_eq_some h h.short

end

/-! Modifiers (R65). -/

variable {md : BitVec 8} {i : Instr}

theorem whenZ_eq_some {x : BitVec 8} {o : Option Instr} : whenZ x o = some i ↔ x = 0#8 ∧ o = some i :=
  Option.ite_none_right_eq_some

theorem satOf_eq_some {k : Bool → Option Instr} : satOf md k = some i ↔ ∃ s, md = satMd s ∧ k s = some i := by
  unfold satOf satMd
  simp only [bv_eq_append_iff (v := 1) (w := 7), extract_one_eq, Option.ite_none_right_eq_some]
  constructor
  · rintro ⟨h0, hk⟩; exact ⟨_, ⟨rfl, h0⟩, hk⟩
  · rintro ⟨_, ⟨rfl, h0⟩, hk⟩; exact ⟨h0, hk⟩

theorem relOf_eq_some {k : Rel → Option Instr} : relOf md k = some i ↔ ∃ r, md = relMd r ∧ k r = some i := by
  unfold relOf relMd
  simp only [bv_eq_append_iff (v := 4) (w := 4), Option.ite_none_right_eq_some,
    pickAt_eq_some (w := 4) rels_listed (by decide)]
  constructor
  · rintro ⟨h0, r, hr, hk⟩; exact ⟨r, ⟨hr, h0⟩, hk⟩
  · rintro ⟨r, ⟨hr, h0⟩, hk⟩; exact ⟨h0, r, hr, hk⟩

theorem selOf_eq_some {k : Bool → BitVec 3 → Option Instr} :
    selOf md k = some i ↔ ∃ n p, md = selMd n p ∧ k n p = some i := by
  unfold selOf selMd
  simp (disch := decide) only [bv_eq_append_iff (v := 4) (w := 4), bv_eq_append_iff (v := 1) (w := 3),
    Option.ite_none_right_eq_some, extract_extract, Nat.reduceAdd, extract_one_eq]
  constructor
  · rintro ⟨h0, hk⟩; exact ⟨_, _, ⟨⟨rfl, rfl⟩, h0⟩, hk⟩
  · rintro ⟨_, _, ⟨⟨rfl, rfl⟩, h0⟩, hk⟩; exact ⟨h0, hk⟩

theorem vmodOf_eq_some {k : FMod → Bool → Option Instr} :
    vmodOf md k = some i ↔ ∃ m o, md = vMd m o ∧ k m o = some i := by
  unfold vmodOf vMd
  simp (disch := decide) only [pickAt_eq_some (w := 3) rnds_listed (by decide), pickAt_eq_some (w := 2) ftzs_listed (by decide),
    bv_eq_append_iff (v := 7) (w := 1), bv_eq_append_iff (v := 6) (w := 1), bv_eq_append_iff (v := 5) (w := 1),
    bv_eq_append_iff (v := 3) (w := 2), extract_extract, Nat.reduceAdd, extract_one_eq]
  constructor
  · rintro ⟨r, hr, z, hz, hk⟩; exact ⟨⟨r, z, _, _⟩, _, ⟨⟨⟨⟨hr, hz⟩, rfl⟩, rfl⟩, rfl⟩, hk⟩
  · rintro ⟨⟨r, z, _, _⟩, _, ⟨⟨⟨⟨hr, hz⟩, rfl⟩, rfl⟩, rfl⟩, hk⟩; exact ⟨r, hr, z, hz, hk⟩

theorem fmodOf_eq_some {k : FMod → Option Instr} : fmodOf md k = some i ↔ ∃ m, md = vMd m false ∧ k m = some i := by
  simp only [fmodOf, vmodOf_eq_some, Option.ite_none_left_eq_some, Bool.exists_bool, Bool.not_eq_true, true_and,
    Bool.true_eq_false, false_and, and_false, or_false]

theorem lvlOf_eq_some {k : Lvl → Option Instr} : lvlOf md k = some i ↔ ∃ l, md = lvlMd l ∧ k l = some i := by
  have hl : ∀ l, (md.extractLsb' 0 2 = 0#2 ∧ md.extractLsb' 5 3 = 0#3 ∧ md.extractLsb' 2 3 ≠ 0#3) ∧
      lvls[(md.extractLsb' 2 3).toNat - 1]? = some l ↔ md = lvlMd l := by
    intro l; cases l <;> revert md <;> decide
  simp only [lvlOf, Option.ite_none_right_eq_some, pickAt, Option.bind_eq_some_iff, ← hl, and_assoc, exists_and_left]

theorem scopeOf_eq_some {k : Scope → Option Instr} : scopeOf md k = some i ↔ ∃ s, md = scopeMd s ∧ k s = some i := by
  have hs : ∀ s, (md.extractLsb' 0 5 = 0#5 ∧ md.extractLsb' 5 3 ≠ 0#3) ∧ scopes[(md.extractLsb' 5 3).toNat - 1]? = some s ↔
      md = scopeMd s := by
    intro s; cases s <;> revert md <;> decide
  simp only [scopeOf, Option.ite_none_right_eq_some, pickAt, Option.bind_eq_some_iff, ← hs, and_assoc, exists_and_left]

theorem lastOf_eq_some {k : Bool → Option Instr} : lastOf md k = some i ↔ ∃ l, md = lastMd l ∧ k l = some i := by
  have hl : ∀ l, md &&& 0xFD#8 = 0#8 ∧ md.getLsbD 1 = l ↔ md = lastMd l := by
    intro l; cases l <;> revert md <;> decide
  simp only [lastOf, Option.ite_none_right_eq_some, ← hl, and_assoc, exists_and_left, exists_eq_left']

theorem mrOf_eq_some {k : Rnd → Bool → Option Instr} : mrOf md k = some i ↔ ∃ r z, md = mrMd r z ∧ k r z = some i := by
  have h0 : md &&& 0xE1#8 = 0#8 ↔ md.extractLsb' 5 3 = 0#3 ∧ md.extractLsb' 0 1 = 0#1 := by revert md; decide
  unfold mrOf mrMd
  simp (disch := decide) only [h0, pickAt_eq_some (w := 3) rnds_listed (by decide), bv_eq_append_iff (v := 7) (w := 1),
    bv_eq_append_iff (v := 6) (w := 1), bv_eq_append_iff (v := 3) (w := 3), extract_extract, Nat.reduceAdd, extract_one_eq,
    Option.ite_none_right_eq_some]
  constructor
  · rintro ⟨⟨h5, h0⟩, r, hr, hk⟩; exact ⟨r, _, ⟨⟨⟨h5, hr⟩, rfl⟩, h0⟩, hk⟩
  · rintro ⟨r, _, ⟨⟨⟨h5, hr⟩, rfl⟩, h0⟩, hk⟩; exact ⟨⟨h5, h0⟩, r, hr, hk⟩

theorem arvOf?_eq_some {k : Arv → Option Instr} : arvOf? md k = some i ↔ ∃ v, md = arvMd v ∧ k v = some i := by
  unfold arvOf? arvMd
  simp only [bv_eq_append_iff (v := 2) (w := 6), Option.ite_none_right_eq_some,
    pickAt_eq_some (w := 2) arvs_listed (by decide)]
  constructor
  · rintro ⟨h0, v, hv, hk⟩; exact ⟨v, ⟨hv, h0⟩, hk⟩
  · rintro ⟨v, ⟨hv, h0⟩, hk⟩; exact ⟨h0, v, hv, hk⟩

/-- Layout X of the matrix instructions, flag by flag. -/
theorem eq_flags_iff {a b c d e : Bool} : md = flags a b c d e ↔
    md.extractLsb' 0 3 = 0#3 ∧ md.getLsbD 7 = a ∧ md.getLsbD 6 = b ∧ md.getLsbD 5 = c ∧ md.getLsbD 4 = d ∧ md.getLsbD 3 = e := by
  unfold flags
  simp (disch := decide) only [bv_eq_append_iff (v := 5) (w := 3), bv_eq_append_iff (v := 4) (w := 1),
    bv_eq_append_iff (v := 3) (w := 1), bv_eq_append_iff (v := 2) (w := 1), bv_eq_append_iff (v := 1) (w := 1), extract_extract,
    Nat.reduceAdd, extract_one_eq]
  tauto

theorem getLsbD_flags (o c p q t : Bool) : (flags o c p q t).getLsbD 7 = o ∧ (flags o c p q t).getLsbD 6 = c ∧
    (flags o c p q t).getLsbD 5 = p ∧ (flags o c p q t).getLsbD 4 = q ∧ (flags o c p q t).getLsbD 3 = t :=
  (eq_flags_iff.mp rfl).2

theorem exists_flags (h : md.extractLsb' 0 3 = 0#3) : ∃ o c p q t, md = flags o c p q t :=
  ⟨_, _, _, _, _, eq_flags_iff.mpr ⟨h, rfl, rfl, rfl, rfl, rfl⟩⟩

theorem exists_flags3 (h : md.extractLsb' 0 5 = 0#5) : ∃ o c p, md = flags o c p false false := by
  obtain ⟨h0, h4, h3⟩ : md.extractLsb' 0 3 = 0#3 ∧ md.getLsbD 4 = false ∧ md.getLsbD 3 = false := by revert md; decide
  exact ⟨_, _, _, eq_flags_iff.mpr ⟨h0, rfl, rfl, rfl, h4, h3⟩⟩

theorem flags3_low (o c p : Bool) : (flags o c p false false).extractLsb' 0 5 = 0#5 := by revert o c p; decide

end Sys2Proof
end

section
/-!
Operand fields (R56, R57, R62): a field reads as an operand exactly where it is that operand's field, and each way of reading D,
A and B accepts exactly the fields that the encoder gives.
-/

namespace Sys2Proof

theorem cls_clsOf_valOf (x : BitVec 20) : cls (clsOf x) (valOf x) = x :=
  (BitVec.extractLsb'_append_extractLsb'_eq_extractLsb' rfl).trans BitVec.extractLsb'_eq_self

@[simp] theorem clsOf_cls (c : BitVec 4) (v : BitVec 16) : clsOf (cls c v) = c := BitVec.extractLsb'_append_eq_left

@[simp] theorem valOf_cls (c : BitVec 4) (v : BitVec 16) : valOf (cls c v) = v := BitVec.extractLsb'_append_eq_right

theorem eq_cls_iff {x : BitVec 20} {c : BitVec 4} {v : BitVec 16} : x = cls c v ↔ clsOf x = c ∧ valOf x = v :=
  ⟨fun h => by simp [h], fun ⟨hc, hv⟩ => by rw [← hc, ← hv, cls_clsOf_valOf]⟩

theorem SReg.no_lt (r : SReg) : r.no < 25 := by cases r <;> decide

theorem sregs_getElem?_no (r : SReg) : sregs[r.no]? = some r := by cases r <;> rfl

theorem no_of_sregs {n : Nat} {r : SReg} (h : sregs[n]? = some r) : n = r.no :=
  (List.getElem?_inj (List.getElem?_eq_some_iff.mp h).1 (by decide)).mp (h.trans (sregs_getElem?_no r).symm)

/-- A field that holds an operand other than a long immediate (R56). -/
def Reads (x : BitVec 20) (o : Opd) : Prop := o.isLi = false ∧ x = o.field

/-- Fields A and B that hold one source: a long immediate in both, or an operand in A (R57). -/
def ReadsLong (x y : BitVec 20) (o : Opd) : Prop := x = o.field ∧ y = o.upper

/-- A field that holds an optional operand: zero where there is none, so that the zero field is no operand (R62). -/
def ReadsOpt (x : BitVec 20) (o : Option Opd) : Prop := x = optField o ∧ ∀ y ∈ o, y.isLi = false ∧ y.field ≠ 0#20

theorem opdOf_field {o : Opd} (h : o.isLi = false) : opdOf o.field = some o := by
  cases o with
  | li x => simp [Opd.isLi] at h
  | sr r => simp [opdOf, Opd.field, Nat.mod_eq_of_lt (r.no_lt.trans (by decide : 25 < 65536)), sregs_getElem?_no]
  | ring k s =>
    simp only [opdOf, Opd.field, clsOf_cls, valOf_cls]
    exact congrArg some (congrArg₂ Opd.ring BitVec.extractLsb'_append_eq_left BitVec.extractLsb'_append_eq_right)
  | v n | g n | p n | t n | pin n | rc n => simp [opdOf, Opd.field, regOpd]; omega
  | si x | ui x | aw x => simp [opdOf, Opd.field]

/-- A register operand is read from the class and the number that its field holds. -/
theorem reads_of_regOpd {x : BitVec 20} {o : Opd} {w : Nat} (mkOpd : BitVec w → Opd)
    (hli : ∀ n, (mkOpd n).isLi = false) (hf : ∀ n, (mkOpd n).field = cls (clsOf x) (n.setWidth 16))
    (h : regOpd (2 ^ w) (valOf x) (mkOpd ((valOf x).setWidth w)) = some o) : Reads x o := by
  obtain ⟨hlt, h⟩ := Option.ite_none_right_eq_some.mp h
  obtain rfl := Option.some.inj h
  refine ⟨hli _, ?_⟩
  rw [hf, eq_cls_iff]
  refine ⟨rfl, BitVec.eq_of_toNat_eq ?_⟩
  simp only [BitVec.toNat_setWidth]
  rw [Nat.mod_eq_of_lt hlt, Nat.mod_eq_of_lt (valOf x).isLt]

theorem reads_of_opdOf {x : BitVec 20} {o : Opd} (h : opdOf x = some o) : Reads x o := by
  have hx := cls_clsOf_valOf x
  unfold opdOf at h
  dsimp only at h
  split at h
  case h_12 => simp at h
  all_goals
    rename_i hc
    replace hc := (BitVec.toNat_eq_nat.mp hc).2
  · exact reads_of_regOpd Opd.v (fun _ => rfl) (fun _ => by rw [hc]; rfl) h
  · exact reads_of_regOpd Opd.g (fun _ => rfl) (fun _ => by rw [hc]; rfl) h
  · exact reads_of_regOpd Opd.p (fun _ => rfl) (fun _ => by rw [hc]; rfl) h
  · exact reads_of_regOpd Opd.t (fun _ => rfl) (fun _ => by rw [hc]; rfl) h
  · obtain rfl := Option.some.inj h
    exact ⟨rfl, by rw [← hx, hc]; simp [Opd.field]⟩
  · obtain rfl := Option.some.inj h
    exact ⟨rfl, by rw [← hx, hc]; simp [Opd.field]⟩
  · obtain ⟨r, hr, rfl⟩ := Option.map_eq_some_iff.mp h
    exact ⟨rfl, by rw [← hx, hc]; simp [Opd.field, ← no_of_sregs hr]⟩
  · exact reads_of_regOpd Opd.pin (fun _ => rfl) (fun _ => by rw [hc]; rfl) h
  · exact reads_of_regOpd Opd.rc (fun _ => rfl) (fun _ => by rw [hc]; rfl) h
  · obtain rfl := Option.some.inj h
    exact ⟨rfl, by rw [← hx, hc]; simp [Opd.field]⟩
  · obtain rfl := Option.some.inj h
    exact ⟨rfl, by rw [← hx, hc, Opd.field, BitVec.extractLsb'_append_extractLsb']; simp⟩

theorem opdOf_eq_some {x : BitVec 20} {o : Opd} : opdOf x = some o ↔ Reads x o :=
  ⟨reads_of_opdOf, fun ⟨hl, hx⟩ => by rw [hx, opdOf_field hl]⟩

theorem clsOf_field_eq_nine {o : Opd} : clsOf o.field = 9#4 ↔ o.isLi := by
  cases o <;> simp [Opd.field, Opd.isLi]

/-- Only a vector register can have the zero field, so a field of another class is not taken for an absent operand. -/
theorem field_ne_zero {o : Opd} (h : o.isV = false) : o.field ≠ 0#20 := by
  intro h0
  have hc : clsOf o.field = 0#4 := h0 ▸ rfl
  cases o <;> simp [Opd.isV, Opd.field] at h hc

/-! Operands in D, A and B. -/

variable {f : Fields} {i : Instr}

theorem Fields.dab_eq_some {k : Opd → Opd → Opd → Instr} :
    f.dab k = some i ↔ ∃ d a b, Reads f.d d ∧ Reads f.a a ∧ Reads f.b b ∧ k d a b = i := by
  simp only [Fields.dab, Option.bind_eq_some_iff, Option.map_eq_some_iff, opdOf_eq_some]
  exact ⟨fun ⟨d, hd, a, ha, b, hb, hk⟩ => ⟨d, a, b, hd, ha, hb, hk⟩, fun ⟨d, a, b, hd, ha, hb, hk⟩ => ⟨d, hd, a, ha, b, hb, hk⟩⟩

theorem Fields.da_eq_some {k : Opd → Opd → Instr} :
    f.da k = some i ↔ ∃ d a, Reads f.d d ∧ Reads f.a a ∧ f.b = 0#20 ∧ k d a = i := by
  simp only [Fields.da, Option.ite_none_right_eq_some, Option.bind_eq_some_iff, Option.map_eq_some_iff, opdOf_eq_some]
  exact ⟨fun ⟨hb, d, hd, a, ha, hk⟩ => ⟨d, a, hd, ha, hb, hk⟩, fun ⟨d, a, hd, ha, hb, hk⟩ => ⟨hb, d, hd, a, ha, hk⟩⟩

theorem Fields.ab_eq_some {k : Opd → Opd → Instr} :
    f.ab k = some i ↔ ∃ a b, f.d = 0#20 ∧ Reads f.a a ∧ Reads f.b b ∧ k a b = i := by
  simp only [Fields.ab, Option.ite_none_right_eq_some, Option.bind_eq_some_iff, Option.map_eq_some_iff, opdOf_eq_some]
  exact ⟨fun ⟨hd, a, ha, b, hb, hk⟩ => ⟨a, b, hd, ha, hb, hk⟩, fun ⟨a, b, hd, ha, hb, hk⟩ => ⟨hd, a, ha, b, hb, hk⟩⟩

theorem Fields.a1_eq_some {k : Opd → Instr} : f.a1 k = some i ↔ ∃ a, f.d = 0#20 ∧ Reads f.a a ∧ f.b = 0#20 ∧ k a = i := by
  simp only [Fields.a1, Option.ite_none_right_eq_some, Option.map_eq_some_iff, opdOf_eq_some]
  exact ⟨fun ⟨⟨hd, hb⟩, a, ha, hk⟩ => ⟨a, hd, ha, hb, hk⟩, fun ⟨a, hd, ha, hb, hk⟩ => ⟨⟨hd, hb⟩, a, ha, hk⟩⟩

theorem Fields.d1_eq_some {k : Opd → Instr} : f.d1 k = some i ↔ ∃ d, Reads f.d d ∧ f.a = 0#20 ∧ f.b = 0#20 ∧ k d = i := by
  simp only [Fields.d1, Option.ite_none_right_eq_some, Option.map_eq_some_iff, opdOf_eq_some]
  exact ⟨fun ⟨⟨ha, hb⟩, d, hd, hk⟩ => ⟨d, hd, ha, hb, hk⟩, fun ⟨d, hd, ha, hb, hk⟩ => ⟨⟨ha, hb⟩, d, hd, hk⟩⟩

theorem Fields.zero_eq_some {j : Instr} : f.zero j = some i ↔ f.d = 0#20 ∧ f.a = 0#20 ∧ f.b = 0#20 ∧ j = i := by
  simp only [Fields.zero, Option.ite_none_right_eq_some, Option.some.injEq, and_assoc]

theorem Fields.daLong_eq_some {k : Opd → Opd → Instr} :
    f.daLong k = some i ↔ ∃ d a, Reads f.d d ∧ ReadsLong f.a f.b a ∧ k d a = i := by
  unfold Fields.daLong
  split
  · rename_i h9
    simp only [Option.map_eq_some_iff, opdOf_eq_some]
    constructor
    · rintro ⟨d, hd, rfl⟩
      refine ⟨d, _, hd, ⟨?_, ?_⟩, rfl⟩
      · rw [Opd.field, eq_cls_iff]; exact ⟨h9.1, BitVec.extractLsb'_append_eq_right.symm⟩
      · rw [Opd.upper, eq_cls_iff]; exact ⟨h9.2, BitVec.extractLsb'_append_eq_left.symm⟩
    · rintro ⟨d, a, hd, ⟨ha, hb⟩, rfl⟩
      refine ⟨d, hd, congrArg (k d) ?_⟩
      cases a with
      | li x =>
        rw [ha, hb]
        simp only [Opd.field, Opd.upper, valOf_cls]
        exact congrArg Opd.li BitVec.extractLsb'_append_extractLsb'
      | _ => exact absurd (clsOf_field_eq_nine.mp (ha ▸ h9.1)) (by simp [Opd.isLi])
  · rename_i h9
    rw [Fields.da_eq_some]
    constructor
    · rintro ⟨d, a, hd, ⟨hl, ha⟩, hb, rfl⟩
      refine ⟨d, a, hd, ⟨ha, ?_⟩, rfl⟩
      cases a with
      | li x => simp [Opd.isLi] at hl
      | _ => exact hb
    · rintro ⟨d, a, hd, ⟨ha, hb⟩, rfl⟩
      cases a with
      | li x => exact absurd ⟨by rw [ha]; exact clsOf_cls _ _, by rw [hb]; exact clsOf_cls _ _⟩ h9
      | _ => exact ⟨d, _, hd, ⟨rfl, ha⟩, hb, rfl⟩

theorem optOf_eq_some {y : BitVec 20} {k : Option Opd → Option Instr} :
    optOf y k = some i ↔ ∃ o, ReadsOpt y o ∧ k o = some i := by
  unfold optOf ReadsOpt
  split
  · rename_i h0
    constructor
    · exact fun hk => ⟨none, ⟨h0, by simp⟩, hk⟩
    · rintro ⟨_ | o, ⟨ho, hy⟩, hk⟩
      · exact hk
      · exact absurd (ho.symm.trans h0) (hy o rfl).2
  · rename_i h0
    simp only [Option.bind_eq_some_iff, opdOf_eq_some]
    constructor
    · rintro ⟨o, ⟨hl, ho⟩, hk⟩
      exact ⟨some o, ⟨ho, by rintro _ ⟨⟩; exact ⟨hl, ho ▸ h0⟩⟩, hk⟩
    · rintro ⟨_ | o, ⟨ho, hy⟩, hk⟩
      · exact absurd ho h0
      · exact ⟨o, ⟨(hy o rfl).1, ho⟩, hk⟩

theorem Fields.uiA_eq_some {k : BitVec 16 → Instr} :
    f.uiA k = some i ↔ ∃ v, f.d = 0#20 ∧ f.a = cls 5#4 v ∧ f.b = 0#20 ∧ k v = i := by
  simp only [Fields.uiA, Option.ite_none_right_eq_some, Option.some.injEq, eq_cls_iff]
  exact ⟨fun ⟨⟨hd, hb, hc⟩, hk⟩ => ⟨_, hd, ⟨hc, rfl⟩, hb, hk⟩, by rintro ⟨_, hd, ⟨hc, rfl⟩, hb, hk⟩; exact ⟨⟨hd, hb, hc⟩, hk⟩⟩

theorem siOf_eq_some {y : BitVec 20} {k : BitVec 16 → Option Instr} : siOf y k = some i ↔ ∃ v, y = cls 4#4 v ∧ k v = some i := by
  simp only [siOf, Option.ite_none_right_eq_some, eq_cls_iff]
  exact ⟨fun ⟨hc, hk⟩ => ⟨_, ⟨hc, rfl⟩, hk⟩, by rintro ⟨_, ⟨hc, rfl⟩, hk⟩; exact ⟨hc, hk⟩⟩

theorem barOf_eq_some {k : BarLvl → BitVec 4 → Option Instr} :
    barOf f k = some i ↔ ∃ l n, f.a = barA n ∧ f.b = barB l ∧ k l n = some i := by
  simp only [barOf, barA, barB, Option.ite_none_right_eq_some, eq_cls_iff,
    pickAt_eq_some (w := 16) barLvls_listed (by decide)]
  constructor
  · rintro ⟨⟨ha, hb, hv⟩, l, hl, hk⟩
    refine ⟨l, _, ⟨ha, BitVec.eq_of_toNat_eq ?_⟩, ⟨hb, hl⟩, hk⟩
    rw [BitVec.toNat_setWidth, BitVec.toNat_setWidth]
    omega
  · rintro ⟨l, n, ⟨ha, hn⟩, ⟨hb, hl⟩, hk⟩
    have hv := congrArg BitVec.toNat hn
    rw [BitVec.toNat_setWidth] at hv
    refine ⟨⟨ha, hb, by omega⟩, l, hl, ?_⟩
    rwa [hn, BitVec.setWidth_setWidth_of_le _ (by decide), BitVec.setWidth_eq]

theorem ringOf_eq_some {y : BitVec 20} {k : Bool → Bool → Option Instr} :
    ringOf y k = some i ↔ ∃ p l, y = ringB p l ∧ k p l = some i := by
  have hv : ∀ v : BitVec 16, v.toNat < 4 ↔ v.extractLsb' 2 14 = 0#14 := by
    intro v
    rw [← BitVec.toNat_inj, BitVec.extractLsb'_toNat, Nat.shiftRight_eq_div_pow]
    simp only [BitVec.toNat_ofNat]
    omega
  unfold ringOf ringB
  simp (disch := decide) only [hv, eq_cls_iff, bv_eq_append_iff (v := 15) (w := 1), bv_eq_append_iff (v := 14) (w := 1),
    extract_extract, Nat.reduceAdd, extract_one_eq, Option.ite_none_right_eq_some]
  constructor
  · rintro ⟨⟨hc, h0⟩, hk⟩; exact ⟨_, _, ⟨hc, ⟨h0, rfl⟩, rfl⟩, hk⟩
  · rintro ⟨_, _, ⟨hc, ⟨h0, rfl⟩, rfl⟩, hk⟩; exact ⟨⟨hc, h0⟩, hk⟩

theorem brOf_eq_some : brOf f = some i ↔ ∃ off, f.d = 0#20 ∧ f.a = cls 4#4 off ∧
    (f.b = 0#20 ∧ .br f.h off none = i ∨ ∃ r, f.b = cls 4#4 r ∧ .br f.h off (some r) = i) := by
  have h4 : ∀ r, cls 4#4 r ≠ 0#20 := fun r h => absurd (congrArg clsOf h) (by rw [clsOf_cls]; decide)
  simp only [brOf, Option.ite_none_right_eq_some, siOf_eq_some]
  by_cases hb : f.b = 0#20 <;> simp [hb, siOf_eq_some, (h4 _).symm]

theorem trailOf_eq_some {n : Nat} {d a b : BitVec 20} {l : List Opd} : trailOf n d a b = some l ↔
    l.length ≤ 3 ∧ n = l.length ∧ d = nthField l 0 ∧ a = nthField l 1 ∧ b = nthField l 2 ∧ ∀ o ∈ l, o.isLi = false := by
  constructor
  · intro h
    unfold trailOf at h
    split at h
    · obtain ⟨⟨rfl, rfl, rfl⟩, h⟩ := Option.ite_none_right_eq_some.mp h
      obtain rfl := Option.some.inj h
      simp [nthField, optField]
    · simp only [Option.ite_none_right_eq_some, Option.map_eq_some_iff, opdOf_eq_some] at h
      obtain ⟨⟨rfl, rfl⟩, x, ⟨hx, rfl⟩, rfl⟩ := h
      simp [nthField, optField, hx]
    · simp only [Option.ite_none_right_eq_some, Option.bind_eq_some_iff, Option.map_eq_some_iff, opdOf_eq_some] at h
      obtain ⟨rfl, x, ⟨hx, rfl⟩, y, ⟨hy, rfl⟩, rfl⟩ := h
      simp [nthField, optField, hx, hy]
    · simp only [Option.bind_eq_some_iff, Option.map_eq_some_iff, opdOf_eq_some] at h
      obtain ⟨x, ⟨hx, rfl⟩, y, ⟨hy, rfl⟩, z, ⟨hz, rfl⟩, rfl⟩ := h
      simp [nthField, optField, hx, hy, hz]
    · simp at h
  · rintro ⟨hn, rfl, rfl, rfl, rfl, hl⟩
    match l with
    | [] => simp [trailOf, nthField, optField]
    | [x] => simp_all [trailOf, nthField, optField, opdOf_field]
    | [x, y] => simp_all [trailOf, nthField, optField, opdOf_field]
    | [x, y, z] => simp_all [trailOf, nthField, optField, opdOf_field]
    | _ :: _ :: _ :: _ :: _ => simp at hn; omega

/-! The same, for fields that the encoder gives. -/

variable {maj min md : BitVec 8} {h : Hdr} {d a b : Opd}

theorem Fields.dab_field {k : Opd → Opd → Opd → Instr} (hc : ∀ o ∈ [d, a, b], o.isLi = false) :
    Fields.dab ⟨maj, min, h, md, d.field, a.field, b.field⟩ k = some (k d a b) :=
  Fields.dab_eq_some.mpr ⟨d, a, b, ⟨hc _ (by simp), rfl⟩, ⟨hc _ (by simp), rfl⟩, ⟨hc _ (by simp), rfl⟩, rfl⟩

theorem Fields.da_field {k : Opd → Opd → Instr} (hc : ∀ o ∈ [d, a], o.isLi = false) :
    Fields.da ⟨maj, min, h, md, d.field, a.field, 0#20⟩ k = some (k d a) :=
  Fields.da_eq_some.mpr ⟨d, a, ⟨hc _ (by simp), rfl⟩, ⟨hc _ (by simp), rfl⟩, rfl, rfl⟩

theorem Fields.ab_field {k : Opd → Opd → Instr} (hc : ∀ o ∈ [a, b], o.isLi = false) :
    Fields.ab ⟨maj, min, h, md, 0#20, a.field, b.field⟩ k = some (k a b) :=
  Fields.ab_eq_some.mpr ⟨a, b, rfl, ⟨hc _ (by simp), rfl⟩, ⟨hc _ (by simp), rfl⟩, rfl⟩

theorem Fields.a1_field {k : Opd → Instr} (hc : ∀ o ∈ [a], o.isLi = false) :
    Fields.a1 ⟨maj, min, h, md, 0#20, a.field, 0#20⟩ k = some (k a) :=
  Fields.a1_eq_some.mpr ⟨a, rfl, ⟨hc _ (by simp), rfl⟩, rfl, rfl⟩

theorem Fields.d1_field {k : Opd → Instr} (hc : ∀ o ∈ [d], o.isLi = false) :
    Fields.d1 ⟨maj, min, h, md, d.field, 0#20, 0#20⟩ k = some (k d) :=
  Fields.d1_eq_some.mpr ⟨d, ⟨hc _ (by simp), rfl⟩, rfl, rfl, rfl⟩

theorem Fields.daLong_field {k : Opd → Opd → Instr} (hc : ∀ o ∈ [d], o.isLi = false) :
    Fields.daLong ⟨maj, min, h, md, d.field, a.field, a.upper⟩ k = some (k d a) :=
  Fields.daLong_eq_some.mpr ⟨d, a, ⟨hc _ (by simp), rfl⟩, ⟨rfl, rfl⟩, rfl⟩

/-- Operands in D and A, and an optional one in B. -/
theorem daOpt_field {o : Option Opd} {k : Opd → Opd → Option Opd → Instr} (hc : ∀ o ∈ [d, a], o.isLi = false)
    (ho : ∀ y ∈ o, y.isLi = false ∧ y.field ≠ 0#20) :
    ((opdOf d.field).bind fun d => (opdOf a.field).bind fun a => optOf (optField o) fun o => some (k d a o)) = some (k d a o) := by
  rw [opdOf_field (hc d (by simp)), opdOf_field (hc a (by simp))]
  exact (optOf_eq_some (k := fun o => some (k d a o))).mpr ⟨o, ⟨rfl, ho⟩, rfl⟩

end Sys2Proof
end

section
/-!
The decoder is the inverse of the encoder (R53): `build` gives an instruction only at the word that `encode` gives it, and gives
it there where its operands are those that `Instr.wf` allows. Settles O55 and O56.
-/

namespace Sys2Proof
open Sys2Proof.Machine

/-- What the fields of a word build has that word. The cases are the majors of `build` in its order: first those whose MIN or
flags select among instructions, then the three with a MIN or MOD layout of their own (`cvt`, `cvt2`, `br`); the rest are read by
the equations of the field readers alone. -/
theorem encode_of_build {f : Fields} {i : Instr} (h : build f = some i) : encode i = some f.toWord := by
  obtain ⟨maj, min, hd, md, d, a, b⟩ := f
  unfold build at h
  dsimp only at h
  split at h
  case h_121 => cases h
  all_goals (rename_i hm; obtain rfl := (BitVec.toNat_eq_nat.mp hm).2; clear hm)
  -- bit counts, `cpy`, `wait`, `arrv`, `mring`, `mread`
  case' h_21 | h_75 | h_77 | h_78 | h_95 | h_98 =>
    obtain ⟨rfl, h⟩ := whenZ_eq_some.mp h
    split at h <;> rename_i hn <;> revert hn
  -- `plog`
  case' h_23 =>
    obtain ⟨op, rfl, h⟩ := (pickMin_eq_some plogOps_listed).mp h
    cases op
  -- `cmo`
  case' h_69 =>
    obtain ⟨l, rfl, h⟩ := lvlOf_eq_some.mp h
    split at h <;> rename_i hn <;> revert hn
  -- `bar`
  case' h_76 =>
    obtain ⟨rfl, h⟩ := whenZ_eq_some.mp h
    obtain ⟨l, n, rfl, rfl, h⟩ := barOf_eq_some.mp h
    split at h <;> rename_i hn <;> revert hn
  -- `ring`
  case' h_79 =>
    obtain ⟨rfl, h⟩ := whenZ_eq_some.mp h
    obtain ⟨p, l, rfl, h⟩ := ringOf_eq_some.mp h
    split at h <;> rename_i hn <;> revert hn
  -- `mparts` and `mloop`, whose MOD is flags
  case' h_92 =>
    obtain ⟨rfl, h⟩ := whenZ_eq_some.mp h
    obtain ⟨h0, h⟩ := Option.ite_none_right_eq_some.mp h
    obtain ⟨o, c, p, rfl⟩ := exists_flags3 h0
    clear h0
  case' h_93 =>
    obtain ⟨h0, h⟩ := Option.ite_none_right_eq_some.mp h
    obtain ⟨o, c, p, q, t, rfl⟩ := exists_flags h0
    clear h0
    split at h <;> rename_i hn <;> revert hn
  -- `extset`, `link`
  case' h_102 | h_106 =>
    obtain ⟨rfl, h⟩ := whenZ_eq_some.mp h
    split at h <;> rename_i hn <;> revert hn
  -- `cvt`
  case h_53 =>
    obtain ⟨x, hx, h⟩ := (pickAt_eq_some fmts_listed (by decide)).mp h
    obtain ⟨y, hy, h⟩ := (pickAt_eq_some fmts_listed (by decide)).mp h
    obtain rfl := bv_eq_append_iff (v := 4) (w := 4).mpr ⟨hx, hy⟩
    obtain ⟨m, o, rfl, h⟩ := vmodOf_eq_some.mp h
    obtain ⟨d, a, ⟨-, rfl⟩, ⟨-, rfl⟩, rfl, rfl⟩ := Fields.da_eq_some.mp h
    rfl
  -- `cvt2`
  case h_54 =>
    obtain ⟨hm, h⟩ := Option.ite_none_right_eq_some.mp h
    obtain ⟨m, o, rfl, h⟩ := vmodOf_eq_some.mp h
    obtain ⟨d, a, b, ⟨-, rfl⟩, ⟨-, rfl⟩, ⟨-, rfl⟩, rfl⟩ := Fields.dab_eq_some.mp h
    obtain rfl | rfl := hm <;> rfl
  -- `br`
  case h_85 =>
    obtain ⟨rfl, h⟩ := whenZ_eq_some.mp h
    obtain ⟨rfl, h⟩ := whenZ_eq_some.mp h
    obtain ⟨off, rfl, rfl, ⟨rfl, rfl⟩ | ⟨r, rfl, rfl⟩⟩ := brOf_eq_some.mp h <;> rfl
  all_goals
    revert h
    simp only [pickMin_eq_some itys_listed, pickMin_eq_some scales_listed, pickMin_eq_some movWs_listed,
      pickMin_eq_some xmovOps_listed, pickMin_eq_some scanOps_listed, pickMin_eq_some voteOps_listed, pickMin_eq_some ftys_listed,
      pickMin_eq_some ldWs_listed, pickMin_eq_some stWs_listed, pickMin_eq_some atomOps_listed, whenZ_eq_some, satOf_eq_some,
      relOf_eq_some, selOf_eq_some, fmodOf_eq_some, lvlOf_eq_some, scopeOf_eq_some, lastOf_eq_some, mrOf_eq_some, arvOf?_eq_some,
      Fields.dab_eq_some, Fields.da_eq_some, Fields.ab_eq_some, Fields.a1_eq_some, Fields.d1_eq_some, Fields.zero_eq_some,
      Fields.daLong_eq_some, Fields.uiA_eq_some, optOf_eq_some, trailOf_eq_some, opdOf_eq_some, Reads, ReadsOpt, ReadsLong,
      Option.bind_eq_some_iff, Option.map_eq_some_iff, forall_exists_index, and_imp, Option.some.injEq,
      Option.ite_none_right_eq_some, BitVec.toNat_eq_nat, getLsbD_flags, reduceCtorEq, false_implies, if_true, if_false]
  all_goals
    intros
    subst_vars
    rfl

theorem eq_of_mk {maj min : BitVec 8} {h : Hdr} {md : BitVec 8} {d a b : BitVec 20} {f : Fields}
    (he : mk maj min h md d a b = some f.toWord) : f = ⟨maj, min, h, md, d, a, b⟩ := by
  rw [← fieldsOf_toWord f, ← Option.some.inj he, fieldsOf_toWord]

theorem isLi_of_check {p : Opd → Bool} (hp : ∀ x, p (.li x) = false) {o : Opd} (h : p o) : o.isLi = false := by
  cases o with
  | li x => simp [hp] at h
  | _ => rfl

/-- The operands that stand in a field of their own; a source that may be a long immediate is not among them, nor is an
optional operand. -/
def Instr.operands : Instr → List Opd
  | .add _ _ _ d a b | .sub _ _ _ d a b | .mul _ _ _ d a b | .mad _ _ _ d a b
  | .mulhi _ _ d a b | .div _ _ d a b | .rem _ _ d a b | .min _ _ d a b | .max _ _ d a b | .lea _ _ d a b
  | .shr _ _ d a b | .bfx _ _ d a b | .xmov _ _ d a b
  | .and _ d a b | .or _ d a b | .xor _ d a b | .shl _ d a b | .rot _ d a b | .bfi _ d a b
  | .cmprs _ d a b | .expnd _ d a b | .cmp _ _ _ d a b | .sel _ _ _ d a b
  | .fadd _ _ _ d a b | .fsub _ _ _ d a b | .fmul _ _ _ d a b | .fma _ _ _ d a b | .fmin _ _ _ d a b | .fmax _ _ _ d a b
  | .fcmp _ _ _ d a b | .fcls _ d a b | .fdiv _ _ d a b | .scl _ _ d a b | .cvt2 _ _ _ _ d a b
  | .ld _ _ d a b | .st _ _ d a b | .lds _ _ d a b | .sts _ _ d a b | .ldr _ d a b | .str _ d a b
  | .fillc _ d a b | .ldc _ _ _ d a b | .stc _ _ d a b | .atom _ _ d a b | .atoms _ _ d a b
  | .cpy _ d a b | .cpyCvt _ d a b | .cpyFill _ d a b | .waitAny _ d a b | .waitAll _ d a b
  | .mloopDense _ _ _ _ _ _ d a b | .mloopAttn _ _ _ _ _ d a b
  | .link _ d a b | .linkVfy _ d a b | .unlink _ d a b | .ropeq _ d a b | .ovlcommit _ d a b
  | .rngc _ d a b | .gumbel _ d a b => [d, a, b]
  | .abs _ _ d a | .bitPop _ d a | .bitClz _ d a | .bitRev _ d a | .lsred _ _ _ d a | .lscan _ _ _ d a | .vote _ _ d a
  | .fabs _ _ d a | .fneg _ _ d a | .sqrt _ _ d a | .rcp _ _ d a | .rsqrt _ _ d a | .exp2 _ _ d a | .log2 _ _ d a
  | .sin _ _ d a | .cos _ _ d a | .tanh _ _ d a | .frnd _ _ d a | .cvt _ _ _ _ _ d a | .decv _ d a
  | .pin _ d a | .reclaim _ d a | .arrvSet _ d a | .arrvAdd _ d a | .arrvExpect _ d a | .ringTake _ d a _ _
  | .fork _ d a | .call _ d a | .mreadPerm _ d a | .mreadWs _ d a | .repset _ d a | .latexp _ d a | .accept _ d a
  | .launch _ d a | .ballot _ d a _ | .srd _ d a _ | .swr _ d a _ => [d, a]
  | .red _ _ _ _ a b | .cmoClean _ _ a b | .cmoInval _ _ a b | .cmoCleaninval _ _ a b | .pf _ _ a b | .regroup _ a b
  | .mcb _ a b | .msort _ _ a b | .mparts _ _ _ _ a b | .kvapp _ a b | .extset _ a b | .extsetRm _ a b | .qclear _ a b
  | .segbegin _ a b | .segseal _ a b => [a, b]
  | .plog _ _ d a b => d :: a :: b.toList
  | .not _ d _ | .mov _ _ d _ | .unpin _ d | .mringStat _ d => [d]
  | .ringGive _ a _ _ | .ret _ a | .jmp _ a | .epcfg _ a | .pgshare _ a | .pgrel _ a | .extsetClr _ a
  | .kvgath _ _ _ a _ => [a]
  | .trail _ l => l
  | _ => []

theorem exists_li {o : Opd} (h : o.isLi) : ∃ x, o = .li x := by
  cases o with
  | li x => exact ⟨x, rfl⟩
  | _ => simp [Opd.isLi] at h

/-- A long immediate is refused wherever `Instr.wf` names what an operand may be (R57). -/
theorem li_refused (x : Word) :
    (Opd.li x).isV = false ∧ (Opd.li x).isG = false ∧ (Opd.li x).isP = false ∧ (Opd.li x).isUi = false ∧ (Opd.li x).isSi = false ∧
    (Opd.li x).isSr = false ∧ (Opd.li x).isPin = false ∧ (Opd.li x).isRc = false ∧ (Opd.li x).isAw = false ∧
    (Opd.li x).isRing = false ∧ (Opd.li x).vgt = false ∧ (Opd.li x).vg = false ∧ (Opd.li x).gu = false ∧ (Opd.li x).src = false ∧
    (Opd.li x).fsrc = false ∧ (Opd.li x).fsrcI = false ∧ (Opd.li x).apair = false ∧ (Opd.li x).gpair = false ∧
    (Opd.li x).dist = false ∧ (Opd.li x).off = false ∧ wfEngine (.li x) = false ∧ (Opd.li x).isT = false ∧
    (∀ k m, (Opd.li x).block k m = false) ∧ (∀ w, (Opd.li x).data w = false) ∧ (∀ w, (Opd.li x).ldDst w = false) ∧
    (∀ op, (Opd.li x).atomB op = false) := by
  simp [Opd.isV, Opd.isG, Opd.isP, Opd.isUi, Opd.isSi, Opd.isSr, Opd.isPin, Opd.isRc, Opd.isAw, Opd.isRing, Opd.isT, Opd.vgt,
    Opd.vg, Opd.gu, Opd.src, Opd.fsrc, Opd.fsrcI, Opd.apair, Opd.gpair, Opd.dist, Opd.off, wfEngine, Opd.block, Opd.data,
    Opd.ldDst, Opd.atomB]

/-- In a well-formed instruction no operand with a field of its own is a long immediate. -/
theorem isLi_of_wf {i : Instr} (hw : i.wf) : ∀ o ∈ i.operands, o.isLi = false := by
  intro o ho
  by_contra hl
  obtain ⟨x, rfl⟩ := exists_li (Bool.not_eq_false _ ▸ hl)
  cases i
  case' mov w d a => cases w
  case' xmov op d a b => cases op
  case' plog b => cases b
  case trail l =>
    simp only [Instr.wf, Bool.and_eq_true, List.all_eq_true] at hw
    simpa [li_refused] using hw.2 _ ho
  all_goals
    simp only [Instr.operands, List.mem_cons, List.not_mem_nil, or_false, Option.toList] at ho
  any_goals casesm* _ ∨ _
  all_goals
    subst ho
    simp only [Instr.wf, wfBin, wfUn, wfFBin, wfFUn, li_refused, Bool.and_false, Bool.false_and, Bool.or_false, reduceCtorEq] at hw

/-- An optional operand of a class other than a vector register or a long immediate. -/
theorem opt_readable {p : Opd → Bool} {o : Option Opd} (h : optAll p o) (hp : ∀ x, p (.li x) = false := by intro _; rfl)
    (hv : ∀ n, p (.v n) = false := by intro _; rfl) : ∀ y ∈ o, y.isLi = false ∧ y.field ≠ 0#20 := by
  rintro y rfl
  refine ⟨isLi_of_check hp h, field_ne_zero ?_⟩
  cases y with
  | v n => exact absurd (hv n) (by simpa [optAll] using h)
  | _ => rfl

theorem arv_options {h : Hdr} {v : Arv} {d a : Option Opd} (hw : (Instr.eprun h v d a).wf) :
    optAll Opd.isAw d ∧ optAll Opd.gu a := by
  cases v <;> cases d <;> cases a <;> simp_all [Instr.wf, optAll]

/-- The word of a well-formed instruction is read back as the instruction. -/
theorem build_of_encode {f : Fields} {i : Instr} (hw : i.wf) (he : encode i = some f.toWord) : build f = some i := by
  have hc := isLi_of_wf hw
  cases i with
  | add h t s d a b | sub h t s d a b | mul h t s d a b | mad h t s d a b =>
    obtain rfl := eq_of_mk he
    exact (pickMin_eq_some itys_listed).mpr ⟨_, rfl, satOf_eq_some.mpr ⟨_, rfl, Fields.dab_field hc⟩⟩
  | mulhi h t d a b | div h t d a b | rem h t d a b | min h t d a b | max h t d a b | shr h t d a b | bfx h t d a b =>
    obtain rfl := eq_of_mk he
    exact (pickMin_eq_some itys_listed).mpr ⟨_, rfl, whenZ_eq_some.mpr ⟨rfl, Fields.dab_field hc⟩⟩
  | lea h x d a b =>
    obtain rfl := eq_of_mk he
    exact (pickMin_eq_some scales_listed).mpr ⟨_, rfl, whenZ_eq_some.mpr ⟨rfl, Fields.dab_field hc⟩⟩
  | xmov h x d a b =>
    obtain rfl := eq_of_mk he
    exact (pickMin_eq_some xmovOps_listed).mpr ⟨_, rfl, whenZ_eq_some.mpr ⟨rfl, Fields.dab_field hc⟩⟩
  | ld h w d a b | lds h w d a b =>
    obtain rfl := eq_of_mk he
    exact (pickMin_eq_some ldWs_listed).mpr ⟨_, rfl, whenZ_eq_some.mpr ⟨rfl, Fields.dab_field hc⟩⟩
  | st h w d a b | sts h w d a b | stc h w d a b =>
    obtain rfl := eq_of_mk he
    exact (pickMin_eq_some stWs_listed).mpr ⟨_, rfl, whenZ_eq_some.mpr ⟨rfl, Fields.dab_field hc⟩⟩
  | atom h op d a b | atoms h op d a b =>
    obtain rfl := eq_of_mk he
    exact (pickMin_eq_some atomOps_listed).mpr ⟨_, rfl, whenZ_eq_some.mpr ⟨rfl, Fields.dab_field hc⟩⟩
  | and h d a b | or h d a b | xor h d a b | shl h d a b | rot h d a b | bfi h d a b | cmprs h d a b | expnd h d a b
  | fcls h d a b | ldr h d a b | str h d a b | fillc h d a b | unlink h d a b | ropeq h d a b | ovlcommit h d a b
  | rngc h d a b | gumbel h d a b =>
    obtain rfl := eq_of_mk he
    exact whenZ_eq_some.mpr ⟨rfl, whenZ_eq_some.mpr ⟨rfl, Fields.dab_field hc⟩⟩
  | cpy h d a b | cpyCvt h d a b | cpyFill h d a b | waitAny h d a b | waitAll h d a b
  | link h d a b | linkVfy h d a b =>
    obtain rfl := eq_of_mk he
    exact whenZ_eq_some.mpr ⟨rfl, Fields.dab_field hc⟩
  | cmp h t r d a b =>
    obtain rfl := eq_of_mk he
    exact (pickMin_eq_some itys_listed).mpr ⟨_, rfl, relOf_eq_some.mpr ⟨_, rfl, Fields.dab_field hc⟩⟩
  | fcmp h t r d a b =>
    obtain rfl := eq_of_mk he
    exact (pickMin_eq_some ftys_listed).mpr ⟨_, rfl, relOf_eq_some.mpr ⟨_, rfl, Fields.dab_field hc⟩⟩
  | sel h n p d a b =>
    obtain rfl := eq_of_mk he
    exact whenZ_eq_some.mpr ⟨rfl, selOf_eq_some.mpr ⟨_, _, rfl, Fields.dab_field hc⟩⟩
  | fadd h t m d a b | fsub h t m d a b | fmul h t m d a b | fma h t m d a b | fmin h t m d a b | fmax h t m d a b =>
    obtain rfl := eq_of_mk he
    exact (pickMin_eq_some ftys_listed).mpr ⟨_, rfl, fmodOf_eq_some.mpr ⟨_, rfl, Fields.dab_field hc⟩⟩
  | fdiv h m d a b | scl h m d a b =>
    obtain rfl := eq_of_mk he
    exact whenZ_eq_some.mpr ⟨rfl, fmodOf_eq_some.mpr ⟨_, rfl, Fields.dab_field hc⟩⟩
  | cvt2 h bf m o d a b =>
    obtain rfl := eq_of_mk he
    have hm : (if bf then 0x20#8 else 0x10#8) = 0x10#8 ∨ (if bf then 0x20#8 else 0x10#8) = 0x20#8 := by cases bf <;> decide
    refine (if_pos hm).trans (vmodOf_eq_some.mpr ⟨m, o, rfl, .trans (Fields.dab_field hc) ?_⟩)
    cases bf <;> rfl
  | ldc h w l d a b =>
    obtain rfl := eq_of_mk he
    exact (pickMin_eq_some ldWs_listed).mpr ⟨_, rfl, lastOf_eq_some.mpr ⟨_, rfl, Fields.dab_field hc⟩⟩
  | mloopDense h o c p q t d a b =>
    obtain rfl := eq_of_mk he
    obtain ⟨h0, h7, h6, h5, h4, h3⟩ := eq_flags_iff.mp (rfl : flags o c p q t = _)
    refine (if_pos h0).trans (.trans (Fields.dab_field hc) ?_)
    simp only [h7, h6, h5, h4, h3]
  | mloopAttn h o c p q d a b =>
    obtain rfl := eq_of_mk he
    obtain ⟨h0, h7, h6, h5, h4, h3⟩ := eq_flags_iff.mp (rfl : flags o c p q.spb q.ctb = _)
    refine (if_pos h0).trans (.trans (Fields.dab_field hc) ?_)
    simp only [h7, h6, h5, h4, h3]
  | mparts h o c p a b =>
    obtain rfl := eq_of_mk he
    obtain ⟨-, h7, h6, h5, -, -⟩ := eq_flags_iff.mp (rfl : flags o c p false false = _)
    refine whenZ_eq_some.mpr ⟨rfl, (if_pos (flags3_low o c p)).trans (.trans (Fields.ab_field hc) ?_)⟩
    simp only [h7, h6, h5]
  | abs h s d a =>
    obtain rfl := eq_of_mk he
    exact whenZ_eq_some.mpr ⟨rfl, satOf_eq_some.mpr ⟨_, rfl, Fields.da_field hc⟩⟩
  | bitPop h d a | bitClz h d a | bitRev h d a | arrvSet h d a | arrvAdd h d a | arrvExpect h d a | mreadPerm h d a
  | mreadWs h d a =>
    obtain rfl := eq_of_mk he
    exact whenZ_eq_some.mpr ⟨rfl, Fields.da_field hc⟩
  | lsred h op m d a | lscan h op m d a =>
    obtain rfl := eq_of_mk he
    exact (pickMin_eq_some scanOps_listed).mpr ⟨_, rfl, fmodOf_eq_some.mpr ⟨_, rfl, Fields.da_field hc⟩⟩
  | vote h op d a =>
    obtain rfl := eq_of_mk he
    exact (pickMin_eq_some voteOps_listed).mpr ⟨_, rfl, whenZ_eq_some.mpr ⟨rfl, Fields.da_field hc⟩⟩
  | fabs h t d a | fneg h t d a =>
    obtain rfl := eq_of_mk he
    exact (pickMin_eq_some ftys_listed).mpr ⟨_, rfl, whenZ_eq_some.mpr ⟨rfl, Fields.da_field hc⟩⟩
  | sqrt h m d a | rcp h m d a | rsqrt h m d a | exp2 h m d a | log2 h m d a | sin h m d a | cos h m d a | tanh h m d a
  | frnd h m d a =>
    obtain rfl := eq_of_mk he
    exact whenZ_eq_some.mpr ⟨rfl, fmodOf_eq_some.mpr ⟨_, rfl, Fields.da_field hc⟩⟩
  | decv h d a | pin h d a | reclaim h d a | fork h d a | call h d a | repset h d a | latexp h d a | accept h d a
  | launch h d a =>
    obtain rfl := eq_of_mk he
    exact whenZ_eq_some.mpr ⟨rfl, whenZ_eq_some.mpr ⟨rfl, Fields.da_field hc⟩⟩
  | cvt h x y m o d a =>
    obtain rfl := eq_of_mk he
    obtain ⟨hx, hy⟩ := (bv_eq_append_iff (hi := (noIn fmts x).setWidth 4) (lo := (noIn fmts y).setWidth 4)).mp rfl
    exact (pickAt_eq_some fmts_listed (by decide)).mpr ⟨x, hx,
      (pickAt_eq_some fmts_listed (by decide)).mpr ⟨y, hy, vmodOf_eq_some.mpr ⟨m, o, rfl, Fields.da_field hc⟩⟩⟩
  | not h d a =>
    obtain rfl := eq_of_mk he
    exact whenZ_eq_some.mpr ⟨rfl, whenZ_eq_some.mpr ⟨rfl, Fields.daLong_field hc⟩⟩
  | mov h w d a =>
    obtain rfl := eq_of_mk he
    exact (pickMin_eq_some movWs_listed).mpr ⟨_, rfl, whenZ_eq_some.mpr ⟨rfl, Fields.daLong_field hc⟩⟩
  | plog h op d a b =>
    obtain rfl := eq_of_mk he
    refine (pickMin_eq_some plogOps_listed).mpr ⟨op, rfl, whenZ_eq_some.mpr ⟨rfl, ?_⟩⟩
    cases b with
    | none =>
      have hop : op = .not := eq_of_beq (Bool.and_eq_true_iff.mp hw).2
      exact (if_pos hop).trans (Fields.da_field hc)
    | some b =>
      have hop : op ≠ .not := bne_iff_ne.mp (Bool.and_eq_true_iff.mp (Bool.and_eq_true_iff.mp hw).2).1
      exact (if_neg hop).trans (Fields.dab_field hc)
  | ballot h d a b | srd h d a b | swr h d a b =>
    obtain rfl := eq_of_mk he
    obtain ⟨-, hb⟩ := Bool.and_eq_true_iff.mp hw
    exact whenZ_eq_some.mpr ⟨rfl, whenZ_eq_some.mpr ⟨rfl, daOpt_field hc (opt_readable hb)⟩⟩
  | red h op r z a b =>
    obtain rfl := eq_of_mk he
    exact (pickMin_eq_some atomOps_listed).mpr ⟨_, rfl, mrOf_eq_some.mpr ⟨_, _, rfl, Fields.ab_field hc⟩⟩
  | cmoClean h l a b | cmoInval h l a b | cmoCleaninval h l a b =>
    obtain rfl := eq_of_mk he
    exact lvlOf_eq_some.mpr ⟨_, rfl, Fields.ab_field hc⟩
  | fence h s =>
    obtain rfl := eq_of_mk he
    exact whenZ_eq_some.mpr ⟨rfl, scopeOf_eq_some.mpr ⟨_, rfl, rfl⟩⟩
  | pf h l a b =>
    obtain rfl := eq_of_mk he
    exact whenZ_eq_some.mpr ⟨rfl, lvlOf_eq_some.mpr ⟨_, rfl, Fields.ab_field hc⟩⟩
  | regroup h a b | mcb h a b | kvapp h a b | qclear h a b | segbegin h a b | segseal h a b =>
    obtain rfl := eq_of_mk he
    exact whenZ_eq_some.mpr ⟨rfl, whenZ_eq_some.mpr ⟨rfl, Fields.ab_field hc⟩⟩
  | extset h a b | extsetRm h a b =>
    obtain rfl := eq_of_mk he
    exact whenZ_eq_some.mpr ⟨rfl, Fields.ab_field hc⟩
  | msort h c a b =>
    obtain rfl := eq_of_mk he
    exact whenZ_eq_some.mpr ⟨rfl, satOf_eq_some.mpr ⟨_, rfl, Fields.ab_field hc⟩⟩
  | ret h a | jmp h a | epcfg h a | pgshare h a | pgrel h a =>
    obtain rfl := eq_of_mk he
    exact whenZ_eq_some.mpr ⟨rfl, whenZ_eq_some.mpr ⟨rfl, Fields.a1_field hc⟩⟩
  | extsetClr h a =>
    obtain rfl := eq_of_mk he
    exact whenZ_eq_some.mpr ⟨rfl, Fields.a1_field hc⟩
  | unpin h d =>
    obtain rfl := eq_of_mk he
    exact whenZ_eq_some.mpr ⟨rfl, whenZ_eq_some.mpr ⟨rfl, Fields.d1_field hc⟩⟩
  | mringStat h d =>
    obtain rfl := eq_of_mk he
    exact whenZ_eq_some.mpr ⟨rfl, Fields.d1_field hc⟩
  | join h | exit h | mfence h | nop h =>
    obtain rfl := eq_of_mk he
    exact whenZ_eq_some.mpr ⟨rfl, whenZ_eq_some.mpr ⟨rfl, rfl⟩⟩
  | mringPop h =>
    obtain rfl := eq_of_mk he
    exact whenZ_eq_some.mpr ⟨rfl, rfl⟩
  | yield h v | trap h v =>
    obtain rfl := eq_of_mk he
    exact whenZ_eq_some.mpr ⟨rfl, whenZ_eq_some.mpr ⟨rfl, Fields.uiA_eq_some.mpr ⟨_, rfl, rfl, rfl, rfl⟩⟩⟩
  | trail h l =>
    obtain rfl := eq_of_mk he
    obtain ⟨hl, -⟩ := Bool.and_eq_true_iff.mp hw
    have hl := of_decide_eq_true hl
    have hn : (BitVec.ofNat 8 l.length).toNat = l.length := by simp; omega
    exact whenZ_eq_some.mpr ⟨rfl, Option.map_eq_some_iff.mpr ⟨l, trailOf_eq_some.mpr ⟨hl, hn, rfl, rfl, rfl, hc⟩, rfl⟩⟩
  | br h off rec =>
    obtain rfl := eq_of_mk he
    refine whenZ_eq_some.mpr ⟨rfl, whenZ_eq_some.mpr ⟨rfl, brOf_eq_some.mpr ⟨off, rfl, rfl, ?_⟩⟩⟩
    cases rec with
    | none => exact .inl ⟨rfl, rfl⟩
    | some r => exact .inr ⟨r, rfl, rfl⟩
  | ringTake h d a p l =>
    obtain rfl := eq_of_mk he
    refine whenZ_eq_some.mpr ⟨rfl, ringOf_eq_some.mpr ⟨p, l, rfl, ?_⟩⟩
    exact Option.bind_eq_some_iff.mpr ⟨d, opdOf_field (hc d (by simp [Instr.operands])),
      Option.map_eq_some_iff.mpr ⟨a, opdOf_field (hc a (by simp [Instr.operands])), rfl⟩⟩
  | ringGive h a p l =>
    obtain rfl := eq_of_mk he
    refine whenZ_eq_some.mpr ⟨rfl, ringOf_eq_some.mpr ⟨p, l, rfl, ?_⟩⟩
    exact Option.map_eq_some_iff.mpr ⟨a, opdOf_field (hc a (by simp [Instr.operands])), rfl⟩
  | barArrive h d l n | barSync h d l n | barDrop h d l n =>
    obtain rfl := eq_of_mk he
    obtain ⟨hd, -⟩ := Bool.and_eq_true_iff.mp hw
    refine whenZ_eq_some.mpr ⟨rfl, barOf_eq_some.mpr ⟨l, n, rfl, rfl, ?_⟩⟩
    exact optOf_eq_some.mpr ⟨d, ⟨rfl, opt_readable hd⟩, rfl⟩
  | barWait h l n =>
    obtain rfl := eq_of_mk he
    exact whenZ_eq_some.mpr ⟨rfl, barOf_eq_some.mpr ⟨_, _, rfl, rfl, rfl⟩⟩
  | eprun h v d a =>
    obtain rfl := eq_of_mk he
    obtain ⟨hd, ha⟩ := arv_options (a := a) hw
    refine whenZ_eq_some.mpr ⟨rfl, arvOf?_eq_some.mpr ⟨v, rfl, (if_pos rfl).trans ?_⟩⟩
    exact optOf_eq_some.mpr ⟨d, ⟨rfl, opt_readable hd⟩, optOf_eq_some.mpr ⟨a, ⟨rfl, opt_readable ha⟩, rfl⟩⟩
  | kvgath h v d a b =>
    obtain rfl := eq_of_mk he
    obtain ⟨hd, hb⟩ := arv_options (h := h) (a := b) (Bool.and_eq_true_iff.mp hw).2
    refine whenZ_eq_some.mpr ⟨rfl, arvOf?_eq_some.mpr ⟨v, rfl, ?_⟩⟩
    refine optOf_eq_some.mpr ⟨d, ⟨rfl, opt_readable hd⟩, ?_⟩
    exact Option.bind_eq_some_iff.mpr ⟨a, opdOf_field (hc a (by simp [Instr.operands])),
      optOf_eq_some.mpr ⟨b, ⟨rfl, opt_readable hb⟩, rfl⟩⟩
  | _ => cases he

/-- Whether an instruction is one that the issue itself executes: what becomes of an illegal word, and an overrun. -/
def Instr.ofIssue : Instr → Bool
  | .illegalWord _ _ => true
  | .watchdogOverrun => true
  | _ => false

theorem ofIssue_eq_false {i : Instr} : i.ofIssue = false ↔ (∀ c r, i ≠ .illegalWord c r) ∧ i ≠ .watchdogOverrun := by
  unfold Instr.ofIssue
  split
  · simp
  · simp
  · rename_i h1 h2
    exact iff_of_true rfl ⟨h1, h2⟩

theorem isSome_encode (i : Instr) : (encode i).isSome = (!isEvent i && !i.ofIssue) := by
  cases i <;> rfl

/-- R53: the two directions joined. A word decodes exactly to the well-formed instruction that it encodes. -/
theorem decode_eq_some {w : IWord} {i : Instr} : decode w = some i ↔ i.wf ∧ encode i = some w := by
  have hd : decode w = some i ↔ build (fieldsOf w) = some i ∧ i.wf := by
    unfold decode
    cases build (fieldsOf w) with
    | none => simp
    | some j =>
      simp only [Option.ite_none_right_eq_some, Option.some.injEq]
      exact ⟨fun ⟨hw, hj⟩ => ⟨hj, hj ▸ hw⟩, fun ⟨hj, hw⟩ => ⟨hj ▸ hw, hj⟩⟩
  rw [hd]
  constructor
  · rintro ⟨hb, hw⟩
    exact ⟨hw, toWord_fieldsOf w ▸ encode_of_build hb⟩
  · rintro ⟨hw, he⟩
    exact ⟨build_of_encode hw ((toWord_fieldsOf w).symm ▸ he), hw⟩

/-- Settles O55: the word read back is the instruction (`build_of_encode`), and what is read has that word (`encode_of_build`). -/
theorem decodeRoundTrip : Obligations.DecodeRoundTrip := by
  unfold Obligations.DecodeRoundTrip
  intro i
  have he : (encode i).isSome ↔ isEvent i = false ∧ (∀ c r, i ≠ .illegalWord c r) ∧ i ≠ .watchdogOverrun := by
    rw [isSome_encode, ← ofIssue_eq_false]
    simp
  refine ⟨fun w => decode_eq_some, he, fun hw h1 h2 h3 => ?_⟩
  obtain ⟨w, hi⟩ := Option.isSome_iff_exists.mp (he.mpr ⟨h1, h2, h3⟩)
  exact ⟨w, hi, decode_eq_some.mpr ⟨hw, hi⟩⟩

/-- Settles O56: each word is decoded. -/
theorem decodeWords : Obligations.DecodeWords := by
  unfold Obligations.DecodeWords
  exact ⟨rfl, rfl, rfl, rfl, rfl, rfl, rfl, rfl, rfl, rfl, rfl, rfl, rfl, rfl, rfl, rfl, rfl, rfl⟩

end Sys2Proof
end

section
/-!
Outstanding writes (R70): the cells of one are filled in order, so a cell that is named once holds its value, and a register that
no cell names keeps its own. Settles O18.
-/

namespace Sys2Proof.Machine

/-- A group with one cell of an outstanding write filled (R70). -/
def Group.fillCell (g : Group) (e : Cell × Word) : Group :=
  match e.1 with
  | .v n i => { g with v := g.v.set (n * 32 + i) e.2 }
  | .g n => { g with g := g.g.set n e.2 }

theorem fillCell_banks (g : Group) (e : Cell × Word) :
    g.fillCell e = { g with v := (g.fillCell e).v, g := (g.fillCell e).g } := by
  unfold Group.fillCell; split <;> rfl

theorem fillCells_banks (l : List (Cell × Word)) (g : Group) :
    l.foldl Group.fillCell g = { g with v := (l.foldl Group.fillCell g).v, g := (l.foldl Group.fillCell g).g } := by
  induction l generalizing g with
  | nil => rfl
  | cons e r ih =>
    rw [List.foldl_cons, ih, fillCell_banks g e]

/-- `longLatencyWriteback` (R70), where a write is outstanding. -/
theorem longLatencyWriteback_eq {s : State} {gk : Nat} {g : Group} {p : Pend} {r : List Pend} (hg : s.group? gk = some g)
    (ho : g.out = p :: r) :
    exec (.longLatencyWriteback gk) s =
      .next ((s.noteRegs g.crew g (p.cells.foldl Group.fillCell { g with out := r }) p.regs).setGroup
        (p.cells.foldl Group.fillCell { g with out := r })) := by
  change execLongLatencyWriteback gk s = _
  unfold execLongLatencyWriteback
  rw [hg]
  simp only
  rw [ho]
  rfl

/-- A vector register of a thread that no cell names keeps its value. -/
theorem fillCells_v_ne (l : List (Cell × Word)) (g : Group) (k : Nat) (h : ∀ e ∈ l, ∀ c i, e.1 = Cell.v c i → c * 32 + i ≠ k) :
    (l.foldl Group.fillCell g).v.get k = g.v.get k := by
  induction l generalizing g with
  | nil => rfl
  | cons e r ih =>
    rw [List.foldl_cons, ih _ (fun e he => h e (List.mem_cons_of_mem _ he))]
    obtain ⟨c | c, m⟩ := e
    · exact (Bank.get_set _ _ _ _).trans (if_neg (Ne.symm (h _ List.mem_cons_self _ _ rfl)))
    · rfl

theorem fillCells_g_ne (l : List (Cell × Word)) (g : Group) (k : Nat) (h : ∀ e ∈ l, e.1 ≠ Cell.g k) :
    (l.foldl Group.fillCell g).g.get k = g.g.get k := by
  induction l generalizing g with
  | nil => rfl
  | cons e r ih =>
    rw [List.foldl_cons, ih _ (fun e he => h e (List.mem_cons_of_mem _ he))]
    obtain ⟨c | c, m⟩ := e
    · rfl
    · exact (Bank.get_set _ _ _ _).trans (if_neg (fun hk => h _ List.mem_cons_self (congrArg Cell.g hk.symm)))

theorem fillCells_v_mem (l : List (Cell × Word)) (g : Group) (hn : (l.map (·.1)).Nodup)
    (hi : ∀ e ∈ l, ∀ c i, e.1 = Cell.v c i → i < 32) {c i : Nat} {m : Word} (h : (Cell.v c i, m) ∈ l) :
    (l.foldl Group.fillCell g).v.get (c * 32 + i) = m := by
  induction l generalizing g with
  | nil => simp at h
  | cons e r ih =>
    obtain ⟨hne, hn⟩ := List.nodup_cons.mp hn
    rw [List.foldl_cons]
    rcases List.mem_cons.mp h with rfl | hr
    · refine (fillCells_v_ne r _ _ (fun e he c' i' hc hk => hne ?_)).trans (Bank.get_set_same _ _ _)
      have h1 := hi e (List.mem_cons_of_mem _ he) c' i' hc
      have h2 := hi _ List.mem_cons_self c i rfl
      obtain ⟨rfl, rfl⟩ := (key32 h2 h1).mp hk
      exact List.mem_map.mpr ⟨e, he, hc⟩
    · exact ih _ hn (fun e he => hi e (List.mem_cons_of_mem _ he)) hr

theorem fillCells_g_mem (l : List (Cell × Word)) (g : Group) (hn : (l.map (·.1)).Nodup) {c : Nat} {m : Word}
    (h : (Cell.g c, m) ∈ l) : (l.foldl Group.fillCell g).g.get c = m := by
  induction l generalizing g with
  | nil => simp at h
  | cons e r ih =>
    obtain ⟨hne, hn⟩ := List.nodup_cons.mp hn
    rw [List.foldl_cons]
    rcases List.mem_cons.mp h with rfl | hr
    · exact (fillCells_g_ne r _ _ (fun e he hc => hne (List.mem_map.mpr ⟨e, he, hc⟩))).trans (Bank.get_set_same _ _ _)
    · exact ih _ hn hr

/-- Settles O18: the list of cells is filled one by one, and distinct cells do not meet (`key32`). -/
theorem longLatencyWrites : Obligations.LongLatencyWrites := by
  unfold Obligations.LongLatencyWrites
  intro s gk g p r hg ho
  have hb := fillCells_banks p.cells { g with out := r }
  have hk : (p.cells.foldl Group.fillCell { g with out := r }).key = gk :=
    (congrArg Group.key hb).trans (show g.key = gk from group?_key hg)
  have hn := noteRegs_notes s g.crew g (p.cells.foldl Group.fillCell { g with out := r }) p.regs
  refine ⟨_, _, longLatencyWriteback_eq hg ho, group?_setGroup_same ((hn.group? gk).trans hg) hk, by rw [hb],
    (hn.only gk).trans (only_setGroup' _ hk),
    fun hd hi => ⟨fun c i m => fillCells_v_mem _ _ hd hi, fun c m => fillCells_g_mem _ _ hd⟩,
    fillCells_v_ne _ _, fillCells_g_ne _ _, ?_⟩
  rw [hb]
  exact ⟨rfl, rfl, rfl, rfl, rfl, rfl⟩

end Sys2Proof.Machine
end

section
/-!
Control transfers (R54, R173 to R177): each runs at the issuing site and ends its own word by noting the transfer; an indirect one
first checks where it may go. Settles O30.
-/

namespace Sys2Proof.Machine

/-- A meaning that runs at the issuing site. -/
theorem atSite_eq {s : State} {x : Site} (hx : s.site? = some x) (k : Site → Out) : s.atSite k = k x := by
  rw [State.atSite, hx]

/-- A uniform instruction whose guard passes at the lowest thread (R18). -/
theorem uni_eq {s : State} {x : Site} (hx : s.site? = some x) {h : Hdr} (he : x.umask h ≠ 0#32) (k : Site → Word → Out)
    (dst : List Opd) : s.uni h k dst = k x (x.umask h) := by
  rw [State.uni, atSite_eq hx, if_neg he]

/-- A uniform instruction whose guard fails at the lowest thread only counts and goes on (R18). -/
theorem uni_guarded {s : State} {x : Site} (hx : s.site? = some x) {h : Hdr} (he : x.umask h = 0#32) (k : Site → Word → Out) :
    s.uni h k [] = .next (s.finish x []) := by
  rw [State.uni, atSite_eq hx, if_pos he]
  simp [State.prepTemps, tempsOf]

/-- A control transfer's own word ends with the transfer noted (R173). -/
theorem transfer_ends {i : Instr} {s s1 : State} {x : Site} {dst : List Opd} {t : Xfer} (hg : (s1.group? x.g.key).isSome)
    (he : exec i s = .next (s1.transfer x dst t)) : Ends i s { x with f := { x.f with xfer := some t } } s1 dst :=
  finish_ends hg he

/-- R54, R176: where a register-indirect transfer may go. -/
theorem mayGo_iff {x : Site} {a : Nat} :
    x.mayGo a ↔ a < 2 ^ 56 ∧ (x.l.desc.entry : Int) % 12 = (a : Int) % 12 := by
  simp only [Site.mayGo, instrAddr, Bool.and_eq_true, decide_eq_true_eq, beq_iff_eq]
  omega

/-- The link of a call: the address past its trailer in a pair of group registers (R58, R175). -/
theorem write64_link (g : Group) {e : Word} (he : e ≠ 0#32) (d : BitVec 6) (n : Nat) :
    g.write64 true e (.g d) (fun _ => BitVec.ofNat 64 n) =
      { g with g := (g.g.set d.toNat (BitVec.ofNat 32 n)).set (d + 1#6).toNat (BitVec.ofNat 32 (n / 2 ^ 32)) } := by
  have hlo : (BitVec.ofNat 64 n).setWidth 32 = BitVec.ofNat 32 n := BitVec.setWidth_ofNat_of_le (by decide) n
  have hhi : (BitVec.ofNat 64 n).extractLsb' 32 32 = BitVec.ofNat 32 (n / 2 ^ 32) := by
    apply BitVec.eq_of_toNat_eq
    simp only [BitVec.extractLsb'_toNat, BitVec.toNat_ofNat, Nat.shiftRight_eq_div_pow]
    omega
  simp only [Group.write64, Group.write, opdNext, Group.writeAll, if_pos, if_neg he, hlo, hhi]

/-- `jmp` and `ret`: to the address that a pair holds, or the trap of a bad one (R54, R176). -/
theorem indirect_eq {s : State} {x : Site} (hx : s.site? = some x) {h : Hdr} (he : x.umask h ≠ 0#32) (a : Opd) :
    let ta := (x.read64 s (lowest (x.umask h)) a).toNat
    s.indirect h a = if x.mayGo ta then .next (s.transfer x [] (.goto ta)) else .next (s.trap x (Trap.one 0x13#8 ta)) :=
  uni_eq hx he _ _

/-- `exit` (R177). -/
theorem exit_eq {s : State} {x : Site} (hx : s.site? = some x) {h : Hdr} (he : x.umask h ≠ 0#32) :
    exec (.exit h) s = .next (s.transfer x [] .exit) :=
  uni_eq hx he (fun x _ => .next (s.transfer x [] .exit)) []

/-- The state with the link of a call at `x` written (R175). -/
def State.linked (s : State) (x : Site) (d : Opd) (e : Word) : State :=
  s.modGroup x.g.key (fun g => g.write64 true e d (fun _ => BitVec.ofNat 64 (x.f.pc + 24)))

/-- `call` of a relative address (R174, R175). -/
theorem call_relative {s : State} {x : Site} (hx : s.site? = some x) {h : Hdr} (he : x.umask h ≠ 0#32) (d : Opd) (off : BitVec 16) :
    exec (.call h d (.si off)) s =
      .next ((s.linked x d (x.umask h)).transfer x [d, opdNext d] (.goto (branchTarget x.f.pc off))) := by
  change execCall h d (.si off) s = _
  rw [execCall, uni_eq hx he]
  rfl

/-- `call` of the address that a pair holds (R175, R176). -/
theorem call_indirect {s : State} {x : Site} (hx : s.site? = some x) {h : Hdr} (he : x.umask h ≠ 0#32) (d : Opd) (n : BitVec 6) :
    let ta := (x.read64 s (lowest (x.umask h)) (.g n)).toNat
    exec (.call h d (.g n)) s =
      if x.mayGo ta then .next ((s.linked x d (x.umask h)).transfer x [d, opdNext d] (.goto ta))
      else .next (s.trap x (Trap.one 0x13#8 ta)) := by
  change execCall h d (.g n) s = _
  rw [execCall, uni_eq hx he]
  rfl

/-- Settles O30, transfer by transfer: each notes its transfer at its word (`transfer_ends`) or traps. -/
theorem controlTransfers : Obligations.ControlTransfers := by
  unfold Obligations.ControlTransfers
  intro s h x hx
  have hg : (s.group? x.g.key).isSome := by rw [site_group hx]; rfl
  refine ⟨fun off rec => transfer_ends hg (atSite_eq hx _), fun he => ⟨transfer_ends hg (exit_eq hx he), fun a => ?_⟩⟩
  dsimp only
  rw [← mayGo_iff]
  refine ⟨fun hgo => ?_, fun hgo => ?_, fun d ha => ?_⟩
  · have hj := (indirect_eq hx he a).trans (if_pos hgo)
    exact ⟨transfer_ends hg hj, transfer_ends hg hj⟩
  · have hj := (indirect_eq hx he a).trans (if_neg hgo)
    exact ⟨⟨_, rfl, hj⟩, ⟨_, rfl, hj⟩⟩
  · have hl := funext fun g => (write64_link g he d (x.f.pc + 24)).symm
    have hlg : ((s.linked x (.g d) (x.umask h)).group? x.g.key).isSome := by
      rw [State.linked, isSome_modGroup s x.g.key x.g.key _ (fun g => (banks_write64 g _ _ _ _).key)]
      exact hg
    rw [hl]
    refine ⟨fun hgo => ?_, fun hgo => ?_, fun off => transfer_ends hlg (call_relative hx he (.g d) off)⟩
    all_goals
      obtain ⟨n, rfl⟩ : ∃ n, a = .g n := by
        cases a with
        | g n => exact ⟨n, rfl⟩
        | _ => simp [Opd.isG] at ha
    · exact transfer_ends hlg ((call_indirect hx he (.g d) n).trans (if_pos hgo))
    · exact ⟨_, rfl, (call_indirect hx he (.g d) n).trans (if_neg hgo)⟩

end Sys2Proof.Machine
end

section
/-!
The stop of a group (R385, R393) of the site that issues: the group, TRAPS and the record change, and nothing else. Settles O35.
-/

namespace Sys2Proof.Machine

theorem launch?_setLaunch (s : State) (l : Launch) (k : Nat) :
    (s.setLaunch l).launch? k = if k = l.handle then (s.launch? k).map (fun _ => l) else s.launch? k :=
  find?_map_replace s.launches Launch.handle l k

theorem launch?_handle {s : State} {k : Nat} {l : Launch} (h : s.launch? k = some l) : l.handle = k := by
  simpa using List.find?_some h

/-- TRAPS of a launch rises by one (R385). -/
theorem countTrap_launch {s : State} {k : Nat} {l : Launch} (h : s.launch? k = some l) :
    (s.countTrap k).launch? k = some { l with traps := l.traps + 1 } := by
  have hk := launch?_handle h
  rw [State.countTrap, h]
  exact (launch?_setLaunch s _ k).trans (by rw [if_pos hk.symm, h]; rfl)

theorem site_launch {s : State} {x : Site} (hx : s.site? = some x) : s.launch? x.l.handle = some x.l := by
  obtain ⟨-, -, -, -, hl⟩ := site_parts hx
  rwa [launch?_handle hl]

/-- The site as it was found is what the same state holds. -/
theorem refresh_site {s : State} {x : Site} (hx : s.site? = some x) : x.refresh s = x := by
  obtain ⟨hg, -, hc, -, -⟩ := site_parts hx
  rw [Site.refresh, hg, hc, site_launch hx]
  rfl

/-- The group of a site stopped with a resume address (R385, R393). -/
def Site.stoppedAt (x : Site) (w : IWord) (counted : Bool) (resume : Nat) : Group :=
  { x.g.setFrag (lowest x.f.mask) (if counted then x.counted else x.f) with
    stat := .stopped (lowest x.f.mask) resume w, recount := false }

theorem stop_eq {s : State} {x : Site} (hx : s.site? = some x) (t : Trap) (counted : Bool) (resume : Nat) :
    s.stop x t 0#32 counted resume =
      ((s.writeRecord x.c.die (x.record s t 0 0#32)).setGroup (x.stoppedAt s.word counted resume)).countTrap x.l.handle := by
  rw [State.stop, State.stopWith, refresh_site hx]
  cases counted <;> rfl

/-- What a stop leaves (R385): the group stopped, TRAPS, the record, and nothing else. -/
structure Stopped (s u : State) (x : Site) (counted : Bool) (resume : Nat) (r : FaultRec) : Prop where
  group  : u.group? x.g.key = some (x.stoppedAt s.word counted resume)
  others : ∀ k, k ≠ x.g.key → u.group? k = s.group? k
  launch : (u.launch? x.l.handle).map Launch.plain = some { x.l with traps := x.l.traps + 1 }.plain
  rest   : u = { s.writeRecord x.c.die r with groups := u.groups, launches := u.launches }

theorem stop_spec {s : State} {x : Site} (hx : s.site? = some x) (t : Trap) (counted : Bool) (resume : Nat) :
    Stopped s (s.stop x t 0#32 counted resume) x counted resume (x.record s t 0 0#32) := by
  rw [stop_eq hx]
  have hw := only_writeRecord s x.c.die (x.record s t 0 0#32)
  generalize hwr : s.writeRecord x.c.die (x.record s t 0 0#32) = w at hw
  have hwg : w.group? x.g.key = some x.g := (hw.group? _).trans (site_group hx)
  obtain ⟨l, hl⟩ : ∃ l, (w.launch? x.l.handle) = some l ∧ l.plain = x.l.plain := by
    have hp := launch?_plain hw.launches x.l.handle
    rw [site_launch hx] at hp
    exact Option.map_eq_some_iff.mp hp
  have ht := countTrap_launch (s := w.setGroup (x.stoppedAt s.word counted resume)) hl.1
  obtain ⟨ls, hu⟩ := countTrap_same (w.setGroup (x.stoppedAt s.word counted resume)) x.l.handle
  rw [hu] at ht ⊢
  refine ⟨group?_setGroup_same (s := w) hwg rfl, fun k hk => ?_, ?_, by rw [hwr]; rfl⟩
  · exact (group?_setGroup_ne w (x.stoppedAt s.word counted resume) k hk).trans (hw.group? k)
  · have hq : ∀ l : Launch, { l with traps := l.traps + 1 }.plain = { l.plain with traps := l.plain.traps + 1 } := fun _ => rfl
    rw [ht, Option.map_some, hq, hq, hl.2]

/-- What a stop leaves alone: registers of other kinds than the group's, memory but for the record, pins and tables. -/
theorem Stopped.frame {s u : State} {x : Site} {c : Bool} {a : Nat} {r : FaultRec} (h : Stopped s u x c a r) :
    u.mem = (s.writeRecord x.c.die r).mem ∧ u.bufs = s.bufs ∧ u.dev = s.dev ∧ u.crews = (s.writeRecord x.c.die r).crews ∧
      u.crews.map Crew.bare = s.crews.map Crew.bare ∧ u.pins = s.pins ∧ u.tiles = s.tiles ∧ u.stats = s.stats ∧
      u.ctxs = s.ctxs := by
  have hw := only_writeRecord s x.c.die r
  rw [h.rest]
  refine ⟨rfl, hw.bufs, hw.dev, rfl, hw.crews, ?_, ?_, hw.stats, ?_⟩
  all_goals
    dsimp only
    rw [hw.rest]

/-- `trap` stops the group past its trailer, and counts (R398). -/
theorem trap_eq {s : State} {x : Site} (hx : s.site? = some x) {h : Hdr} (he : x.umask h ≠ 0#32) (code : BitVec 16) :
    exec (.trap h code) s = .next (s.stop x (Trap.one 0x40#8 code.toNat) 0#32 true (x.f.pc + 24)) :=
  uni_eq hx he (fun x _ => .next (s.stop x (Trap.one 0x40#8 code.toNat) 0#32 true (x.f.pc + 24))) []

/-- `trap` whose guard fails at the lowest thread only counts and goes on (R18). -/
theorem trap_guarded {s : State} {x : Site} (hx : s.site? = some x) {h : Hdr} (he : x.umask h = 0#32) (code : BitVec 16) :
    exec (.trap h code) s = .next (s.finish x []) :=
  uni_guarded hx he (fun x _ => .next (s.stop x (Trap.one 0x40#8 code.toNat) 0#32 true (x.f.pc + 24)))

/-- Settles O35: the illegal word and `trap` are two uses of what a stop leaves (`stop_spec`). -/
theorem decodeAndSoftwareTraps : Obligations.DecodeAndSoftwareTraps := by
  unfold Obligations.DecodeAndSoftwareTraps
  intro s x hx
  refine ⟨fun cause role => ?_, fun h code he => ?_, fun h code he => ?_⟩
  · have hs := stop_spec hx ⟨cause, 0#64, 0#64, 0#64, role⟩ false x.f.pc
    refine ⟨_, x.record s ⟨cause, 0#64, 0#64, 0#64, role⟩ 0 0#32, atSite_eq hx _, hs.group, hs.others, hs.launch, rfl, rfl, rfl, ?_,
      hs.frame⟩
    cases role <;> rfl
  · have hs := stop_spec hx (Trap.one 0x40#8 code.toNat) true (x.f.pc + 24)
    obtain ⟨hmem, -, -, -, hcrews, -⟩ := hs.frame
    exact ⟨_, _, _, trap_eq hx he code, hs.group, rfl, rfl, rfl, rfl, hs.launch, rfl, BitVec.ofNat_toNat 64 code, rfl, rfl, hmem,
      hcrews⟩
  · exact finish_ends (by rw [site_group hx]; rfl) (trap_guarded hx he code)

end Sys2Proof.Machine
end

section
/-!
The grid of a format (R130, R131). The magnitudes of its finite elements in ascending order are `F.pos 0, F.pos 1, …`, in units of
2^−149 as the statements count them; `pos` goes on past the largest finite magnitude, as rounding without a limit does (R139).
-/

namespace Sys2Proof.Machine

/-- What the five formats have in common, as far as rounding needs it. -/
structure FFmt.Ok (F : FFmt) : Prop where
  width : F.w = F.ew + F.mw + 1
  ew    : 1 ≤ F.ew
  mw    : 2 ≤ F.mw
  bias  : F.bias + F.mw ≤ 150

theorem ok_of_mem {F : FFmt} (h : F ∈ [fp32, fp16, bf16, e4m3, e5m2]) : F.Ok := by
  simp only [List.mem_cons, List.not_mem_nil, or_false] at h
  rcases h with rfl | rfl | rfl | rfl | rfl <;> exact ⟨by decide, by decide, by decide, by decide⟩

theorem fp32_ok : fp32.Ok := ok_of_mem (by decide)

theorem ok_of_mem3 {F : FFmt} (h : F ∈ [fp32, fp16, bf16]) : F.Ok :=
  ok_of_mem (by simp only [List.mem_cons, List.not_mem_nil, or_false] at h ⊢; tauto)

/-- The least subnormal is 2^low units. -/
def FFmt.low (F : FFmt) : Nat := 150 - F.bias - F.mw

/-- The magnitude whose bits are `b`, in least subnormals, with no upper limit. -/
def FFmt.mag (F : FFmt) (b : Nat) : Nat := (b - (b / 2 ^ F.mw - 1) * 2 ^ F.mw) * 2 ^ (b / 2 ^ F.mw - 1)

/-- The magnitude whose bits are `b`, in units of 2^−149. -/
def FFmt.pos (F : FFmt) (b : Nat) : Nat := F.mag b * 2 ^ F.low

/-- An element without its sign bit. -/
def FFmt.body (F : FFmt) (x : Nat) : Nat := x % 2 ^ (F.w - 1)

/-- The sign of a value as a factor. -/
def sgn (n : Bool) : Int := if n then -1 else 1

@[simp] theorem sgn_false : sgn false = 1 := rfl
@[simp] theorem sgn_true : sgn true = -1 := rfl

section
variable {F : FFmt}

theorem mag_index {E k : Nat} (hk : k ≤ 2 ^ (F.mw + 1)) (h : E = 0 ∨ 2 ^ F.mw ≤ k) :
    F.mag (E * 2 ^ F.mw + k) = k * 2 ^ E := by
  have hp : 0 < 2 ^ F.mw := Nat.two_pow_pos _
  rw [Nat.pow_succ] at hk
  unfold FFmt.mag
  generalize 2 ^ F.mw = B at *
  have hdiv : (E * B + k) / B = E + k / B := by rw [Nat.add_comm, Nat.add_mul_div_right _ _ hp, Nat.add_comm]
  rw [hdiv]
  by_cases h0 : k < B
  · obtain rfl : E = 0 := by omega
    simp [Nat.div_eq_of_lt h0]
  · by_cases h1 : k < 2 * B
    · have : k / B = 1 := Nat.div_eq_of_lt_le (by omega) (by omega)
      simp [this]
    · obtain rfl : k = 2 * B := by omega
      have : 2 * B / B = 2 := Nat.mul_div_cancel _ hp
      rw [this, show E + 2 - 1 = E + 1 by omega, show E * B + 2 * B - (E + 1) * B = B by rw [Nat.add_mul]; omega]
      ring

/-- Every index is a number of steps of a binade. -/
theorem index_parts (F : FFmt) (b : Nat) :
    ∃ E k, b = E * 2 ^ F.mw + k ∧ k < 2 ^ (F.mw + 1) ∧ (E = 0 ∨ 2 ^ F.mw ≤ k) := by
  have hp : 0 < 2 ^ F.mw := Nat.two_pow_pos _
  have hb := Nat.div_add_mod' b (2 ^ F.mw)
  have hr := Nat.mod_lt b hp
  rw [Nat.pow_succ]
  generalize 2 ^ F.mw = B at *
  rcases Nat.eq_zero_or_pos (b / B) with h | h
  · exact ⟨0, b, by omega, by rw [h] at hb; omega, .inl rfl⟩
  · obtain ⟨j, hj⟩ : ∃ j, b / B = j + 1 := ⟨b / B - 1, by omega⟩
    rw [hj, Nat.add_mul] at hb
    exact ⟨j, B + b % B, by omega, by omega, .inr (by omega)⟩

theorem mag_succ {E k : Nat} (hk : k < 2 ^ (F.mw + 1)) (h : E = 0 ∨ 2 ^ F.mw ≤ k) :
    F.mag (E * 2 ^ F.mw + k + 1) = (k + 1) * 2 ^ E :=
  mag_index (E := E) (k := k + 1) hk (h.imp_right (by omega))

theorem pos_index {E k : Nat} (hk : k ≤ 2 ^ (F.mw + 1)) (h : E = 0 ∨ 2 ^ F.mw ≤ k) :
    F.pos (E * 2 ^ F.mw + k) = k * 2 ^ (E + F.low) := by
  rw [FFmt.pos, mag_index hk h, Nat.mul_assoc, ← Nat.pow_add]

theorem pos_strictMono (F : FFmt) : StrictMono F.pos := by
  refine strictMono_nat_of_lt_succ fun b => ?_
  obtain ⟨E, k, rfl, hk, h⟩ := index_parts F b
  unfold FFmt.pos
  rw [mag_index hk.le h, mag_succ hk h]
  exact Nat.mul_lt_mul_of_pos_right (Nat.mul_lt_mul_of_pos_right (Nat.lt_succ_self k) (Nat.two_pow_pos _)) (Nat.two_pow_pos _)

theorem pos_zero (F : FFmt) : F.pos 0 = 0 := by simp [FFmt.pos, FFmt.mag]

/-! The fields of an element. -/

theorem body_lt (F : FFmt) (x : Nat) : F.body x < 2 ^ (F.w - 1) := Nat.mod_lt _ (Nat.two_pow_pos _)

theorem two_pow_width (ok : F.Ok) : 2 ^ (F.w - 1) = 2 ^ F.ew * 2 ^ F.mw := by
  rw [ok.width, Nat.add_sub_cancel, Nat.pow_add]

theorem exp_eq (ok : F.Ok) (x : Nat) : F.exp x = F.body x / 2 ^ F.mw := by
  rw [FFmt.exp, FFmt.body, bits, two_pow_width ok, Nat.mul_comm, Nat.mod_mul_right_div_self, Nat.shiftRight_eq_div_pow]
  have := ok.width
  have := ok.ew
  rw [show F.w - 2 + 1 - F.mw = F.ew by omega]

theorem man_eq (ok : F.Ok) (x : Nat) : F.man x = F.body x % 2 ^ F.mw := by
  rw [FFmt.man, FFmt.body, two_pow_width ok, Nat.mod_mod_of_dvd _ (Nat.dvd_mul_left _ _)]

theorem exp_lt (ok : F.Ok) (x : Nat) : F.body x / 2 ^ F.mw < 2 ^ F.ew := by
  have := body_lt F x
  rw [two_pow_width ok] at this
  exact Nat.div_lt_of_lt_mul (by rwa [Nat.mul_comm] at this)

/-- The exponent of all ones of a format with infinities. -/
theorem lt_infBits_iff {b : Nat} (hb : b / 2 ^ F.mw < 2 ^ F.ew) :
    b < (2 ^ F.ew - 1) * 2 ^ F.mw ↔ b / 2 ^ F.mw ≠ 2 ^ F.ew - 1 := by
  rw [← Nat.div_lt_iff_lt_mul (Nat.two_pow_pos _)]
  omega

theorem body_top_iff (ok : F.Ok) (x : Nat) :
    (F.body x / 2 ^ F.mw = 2 ^ F.ew - 1 ∧ F.body x % 2 ^ F.mw = 2 ^ F.mw - 1) ↔ F.body x = 2 ^ (F.w - 1) - 1 := by
  have hb := Nat.div_add_mod' (F.body x) (2 ^ F.mw)
  have he := exp_lt ok x
  have hm := Nat.mod_lt (F.body x) (Nat.two_pow_pos F.mw)
  rw [two_pow_width ok]
  have hE := Nat.two_pow_pos F.ew
  generalize 2 ^ F.mw = B at *
  generalize 2 ^ F.ew = A at *
  obtain ⟨A, rfl⟩ : ∃ A', A = A' + 1 := ⟨A - 1, by omega⟩
  rw [Nat.add_mul, Nat.add_sub_cancel]
  constructor
  · rintro ⟨h1, h2⟩
    rw [h1, h2] at hb
    omega
  · intro h
    have h1 : F.body x / B = A := Nat.div_eq_of_lt_le (by omega) (by rw [Nat.add_mul]; omega)
    rw [h1] at hb
    exact ⟨h1, by omega⟩

/-- The bits beyond the largest finite magnitude: an exponent of all ones, or the one NaN of a format without infinities. -/
theorem maxBits_lt_iff (ok : F.Ok) (x : Nat) : F.maxBits < F.body x ↔
    (F.body x / 2 ^ F.mw = 2 ^ F.ew - 1 ∧ F.inf) ∨ F.body x = 2 ^ (F.w - 1) - 1 := by
  have hw := body_lt F x
  have key := lt_infBits_iff (exp_lt ok x)
  unfold FFmt.maxBits
  cases hi : F.inf
  · have : 2 ≤ 2 ^ (F.w - 1) := Nat.le_self_pow (by have := ok.width; have := ok.mw; omega) 2
    simp only [Bool.false_eq_true, and_false, if_false, false_or]
    omega
  · have hpos : 0 < (2 ^ F.ew - 1) * 2 ^ F.mw :=
      Nat.mul_pos (Nat.sub_pos_of_lt (Nat.one_lt_two_pow (by have := ok.ew; omega))) (Nat.two_pow_pos _)
    simp only [and_true, if_true]
    constructor
    · intro h
      refine .inl (by_contra fun hne => ?_)
      have := key.mpr hne
      omega
    · intro h
      have htop : F.body x / 2 ^ F.mw = 2 ^ F.ew - 1 := h.elim id fun h => ((body_top_iff ok x).mpr h).1
      have := mt key.mp (not_not_intro htop)
      omega

theorem val_of_gt (ok : F.Ok) {x : Nat} (h : F.maxBits < F.body x) : F.val x = .nan ∨ F.val x = .inf (F.neg x) := by
  rw [maxBits_lt_iff ok] at h
  unfold FFmt.val
  simp only [exp_eq ok, man_eq ok, body_top_iff ok]
  split
  · split
    · exact .inr rfl
    · exact .inl rfl
  · rename_i hno
    exact .inl (if_pos (h.resolve_left hno))

/-- A finite element: its sign, and a magnitude that its bits give. -/
theorem val_of_le (ok : F.Ok) {x : Nat} (h : F.body x ≤ F.maxBits) :
    ∃ m e, F.val x = .fin (F.neg x) m e ∧ -149 ≤ e ∧ m * 2 ^ (e + 149).toNat = F.pos (F.body x) := by
  have hb := ok.bias
  have hdm := Nat.div_add_mod' (F.body x) (2 ^ F.mw)
  obtain ⟨h1, h2⟩ := not_or.mp (mt (maxBits_lt_iff ok x).mpr (Nat.not_lt.mpr h))
  unfold FFmt.val
  simp only [exp_eq ok, man_eq ok, body_top_iff ok, if_neg h1, if_neg h2]
  rcases Nat.eq_zero_or_pos (F.body x / 2 ^ F.mw) with h3 | h3
  · rw [if_pos h3]
    refine ⟨_, _, rfl, by omega, ?_⟩
    rw [h3, Nat.zero_mul, Nat.zero_add] at hdm
    rw [hdm, FFmt.pos, FFmt.mag, h3, FFmt.low, show (1 - (F.bias : Int) - F.mw + 149).toNat = 150 - F.bias - F.mw by omega]
    simp
  · rw [if_neg h3.ne']
    obtain ⟨j, hj⟩ : ∃ j, F.body x / 2 ^ F.mw = j + 1 := ⟨F.body x / 2 ^ F.mw - 1, by omega⟩
    refine ⟨_, _, rfl, by omega, ?_⟩
    rw [hj, Nat.add_mul, Nat.one_mul, Nat.add_assoc] at hdm
    have hm := Nat.mod_lt (F.body x) (Nat.two_pow_pos F.mw)
    conv_rhs => rw [← hdm, pos_index (by rw [Nat.pow_succ]; omega) (.inr (by omega))]
    rw [FFmt.low, hj, show ((j + 1 : Nat) - (F.bias : Int) - F.mw + 149).toNat = j + (150 - F.bias - F.mw) by omega]

theorem finite_iff (ok : F.Ok) (x : Nat) : F.finite x ↔ F.body x ≤ F.maxBits := by
  unfold FFmt.finite
  constructor
  · intro h
    by_contra hc
    rcases val_of_gt ok (Nat.not_le.mp hc) with hv | hv <;> simp [hv] at h
  · intro h
    obtain ⟨m, e, hv, -⟩ := val_of_le ok h
    rw [hv]

theorem val_of_finite (ok : F.Ok) {x : Nat} (h : F.finite x) :
    ∃ m e, F.val x = .fin (F.neg x) m e ∧ -149 ≤ e ∧ m * 2 ^ (e + 149).toNat = F.pos (F.body x) :=
  val_of_le ok ((finite_iff ok x).mp h)

theorem units_of_finite (ok : F.Ok) {x : Nat} (h : F.finite x) : F.units x = sgn (F.neg x) * F.pos (F.body x) := by
  obtain ⟨m, e, hv, -, hm⟩ := val_of_finite ok h
  simp only [FFmt.units, hv, hm, sgn]

/-! The element of a sign and a magnitude. -/

theorem sign_body (ok : F.Ok) (n : Bool) {b : Nat} (hb : b < 2 ^ (F.w - 1)) :
    F.sign n + b < 2 ^ F.w ∧ F.neg (F.sign n + b) = n ∧ F.body (F.sign n + b) = b ∧ (F.sign n + b) % 2 = b % 2 := by
  have := ok.mw
  obtain ⟨w, hw⟩ : ∃ w, F.w = w + 2 := ⟨F.w - 2, by have := ok.width; omega⟩
  rw [FFmt.neg, FFmt.body]
  simp only [hw, Nat.add_succ_sub_one, FFmt.sign] at hb ⊢
  have hp := Nat.two_pow_pos w
  cases n
  · refine ⟨?_, ?_, ?_, ?_⟩
    · simp [Nat.pow_succ] at hb ⊢; omega
    · simpa using Nat.testBit_lt_two_pow hb
    · simpa using Nat.mod_eq_of_lt hb
    · simp
  · refine ⟨?_, ?_, ?_, ?_⟩
    · simp [Nat.pow_succ] at hb ⊢; omega
    · simp [Nat.testBit_two_pow_add_eq, Nat.testBit_lt_two_pow hb]
    · simpa using Nat.mod_eq_of_lt hb
    · simp [Nat.pow_succ, Nat.add_mod]

theorem sign_add_body (F : FFmt) {x : Nat} (hx : x < 2 ^ F.w) (hw : 0 < F.w) : x = F.sign (F.neg x) + F.body x := by
  obtain ⟨w, hw⟩ : ∃ w, F.w = w + 1 := ⟨F.w - 1, by omega⟩
  simp only [FFmt.sign, FFmt.neg, FFmt.body, hw, Nat.add_sub_cancel, Nat.pow_succ] at hx ⊢
  rw [Nat.testBit_eq_decide_div_mod_eq]
  have h1 := Nat.div_add_mod' x (2 ^ w)
  have : x / 2 ^ w < 2 := Nat.div_lt_of_lt_mul hx
  generalize x / 2 ^ w = c at *
  obtain rfl | rfl : c = 0 ∨ c = 1 := by omega
  · simpa using h1.symm
  · simpa using h1.symm

theorem maxBits_lt (ok : F.Ok) : F.maxBits < 2 ^ (F.w - 1) := by
  have := Nat.two_pow_pos (F.w - 1)
  have h2 := Nat.two_pow_pos F.mw
  unfold FFmt.maxBits
  split
  · rw [two_pow_width ok, Nat.sub_mul]
    have := Nat.mul_le_mul_right (2 ^ F.mw) (Nat.two_pow_pos F.ew)
    omega
  · omega

theorem finite_sign_add (ok : F.Ok) (n : Bool) {b : Nat} (hb : b ≤ F.maxBits) : F.finite (F.sign n + b) :=
  have ⟨_, _, hbody, _⟩ := sign_body ok n (hb.trans_lt (maxBits_lt ok))
  (finite_iff ok _).mpr (hbody.trans_le hb)

theorem units_sign_add (ok : F.Ok) (n : Bool) {b : Nat} (hb : b ≤ F.maxBits) : F.units (F.sign n + b) = sgn n * F.pos b := by
  obtain ⟨-, hn, hbody, -⟩ := sign_body ok n (hb.trans_lt (maxBits_lt ok))
  rw [units_of_finite ok (finite_sign_add ok n hb), hn, hbody]

end

end Sys2Proof.Machine
end

section
/-!
Rounding once (R139, R140). `FFmt.round` takes the floor of the exact value on the grid of its format, and the next index where
`roundUp?` says so. What that gives is said of exact values as reals, so that it serves roots as well as fractions.
-/

namespace Sys2Proof.Machine

/-- When rounding goes up from an even or odd floor `k` by a part `t` of the step (R139). -/
def RoundsUp (rnd : Nat) (neg : Bool) (k : Nat) (t : ℝ) : Prop :=
  (rnd = 0 ∧ (1 / 2 < t ∨ (t = 1 / 2 ∧ k % 2 = 1))) ∨ (rnd = 2 ∧ neg = false ∧ 0 < t) ∨ (rnd = 3 ∧ neg = true ∧ 0 < t)

/-- What is kept of an exact magnitude `a`: its integer part, and whether more lies below. -/
structure Truncated (m : Nat) (st : Bool) (a : ℝ) : Prop where
  lower  : (m : ℝ) ≤ a
  upper  : a < m + 1
  sticky : st = true ↔ (m : ℝ) < a

theorem truncated_self (m : Nat) : Truncated m false (m : ℝ) := ⟨le_rfl, lt_add_one _, by simp⟩

theorem Truncated.pos_iff {r : Nat} {st : Bool} {a : ℝ} (h : Truncated r st a) : 0 < a ↔ 0 < r ∨ st = true := by
  rw [h.sticky]
  constructor
  · intro ha
    rcases Nat.eq_zero_or_pos r with rfl | hr
    · exact .inr (by simpa using ha)
    · exact .inl hr
  · rintro (hr | hr)
    · exact (Nat.cast_pos.mpr hr).trans_le h.lower
    · exact (Nat.cast_nonneg r).trans_lt hr

/-- How an exact magnitude compares with a whole number that its integer part tells apart. -/
theorem Truncated.compare {r P : Nat} {st : Bool} {a : ℝ} (h : Truncated r st a) :
    ((P : ℝ) < a ↔ P < r ∨ (r = P ∧ st = true)) ∧ (a = P ↔ r = P ∧ st = false) := by
  cases st
  · have ha : a = r := le_antisymm (not_lt.mp (by simpa using h.sticky)) h.lower
    simp [ha]
  · have hlt : (r : ℝ) < a := h.sticky.mp rfl
    have hne : a ≠ P := fun he => by
      have h1 := hlt
      have h2 := h.upper
      rw [he] at h1 h2
      norm_cast at h1 h2
      omega
    refine ⟨⟨fun hP => ?_, fun hP => ?_⟩, by simp [hne]⟩
    · have : P < r + 1 := by exact_mod_cast hP.trans h.upper
      simp only [and_true]
      omega
    · have : P ≤ r := by omega
      exact (Nat.cast_le.mpr this).trans_lt hlt

/-- A part of the step against its half. -/
theorem Truncated.half_iff {r sh : Nat} {st : Bool} {t : ℝ} (hst : st → 1 ≤ sh) (h : Truncated r st (t * 2 ^ sh)) :
    (1 / 2 < t ↔ 2 ^ sh < 2 * r ∨ (2 * r = 2 ^ sh ∧ st = true)) ∧ (t = 1 / 2 ↔ 2 * r = 2 ^ sh ∧ st = false) := by
  have hp : (0 : ℝ) < 2 ^ sh := by positivity
  cases sh with
  | zero =>
    have hst : st = false := by by_contra hc; exact absurd (hst (by simpa using hc)) (by decide)
    subst hst
    have ha : t = r := le_antisymm (not_lt.mp (by simpa using h.sticky)) (by simpa using h.lower)
    have e1 : (1 / 2 < (r : ℝ)) ↔ 1 < 2 * r := by
      rw [div_lt_iff₀ two_pos, mul_comm]
      exact_mod_cast Iff.rfl
    have e2 : ((r : ℝ) = 1 / 2) ↔ 2 * r = 1 := by
      rw [eq_div_iff two_ne_zero, mul_comm]
      exact_mod_cast Iff.rfl
    rw [ha, e1, e2]
    simp
  | succ j =>
    obtain ⟨hlt, heq⟩ := h.compare (P := 2 ^ j)
    have hj : ((2 ^ j : Nat) : ℝ) = 1 / 2 * 2 ^ (j + 1) := by push_cast; ring
    rw [hj, mul_lt_mul_iff_of_pos_right hp] at hlt
    rw [hj, mul_left_inj' hp.ne'] at heq
    have h1 : 2 ^ (j + 1) < 2 * r ↔ 2 ^ j < r := by rw [pow_succ]; omega
    have h2 : 2 * r = 2 ^ (j + 1) ↔ r = 2 ^ j := by rw [pow_succ]; omega
    rw [h1, h2]
    exact ⟨hlt, heq⟩

theorem roundUp?_iff {rnd : Nat} {neg st : Bool} {k r sh : Nat} {t : ℝ} (hrnd : rnd < 4) (hst : st → 1 ≤ sh)
    (h : Truncated r st (t * 2 ^ sh)) : roundUp? rnd neg k r sh st = true ↔ RoundsUp rnd neg k t := by
  obtain ⟨hlt, heq⟩ := h.half_iff hst
  have hpos := h.pos_iff
  rw [mul_pos_iff_of_pos_right (by positivity)] at hpos
  unfold roundUp? RoundsUp
  rw [hpos, hlt, heq]
  obtain rfl | rfl | rfl | rfl : rnd = 0 ∨ rnd = 1 ∨ rnd = 2 ∨ rnd = 3 := by omega
  · cases st <;> simp
  · simp
  · cases neg <;> simp
  · cases neg <;> simp

/-- R139 on a grid `f` of magnitudes: index `b` is where a magnitude `V` rounds to. -/
structure GridRounded {α : Type} [Add α] [LE α] [LT α] (rnd : Nat) (neg : Bool) (f : Nat → α) (V : α) (b : Nat) : Prop where
  below  : rnd = 0 → ∀ c < b, f c + f b ≤ V + V ∧ (f c + f b = V + V → b % 2 = 0)
  above  : rnd = 0 → ∀ c, b < c → V + V ≤ f b + f c ∧ (f b + f c = V + V → b % 2 = 0)
  toward : rnd = 1 ∨ (rnd = 2 ∧ neg = true) ∨ (rnd = 3 ∧ neg = false) → f b ≤ V ∧ V < f (b + 1)
  away   : (rnd = 2 ∧ neg = false) ∨ (rnd = 3 ∧ neg = true) → V ≤ f b ∧ ∀ c < b, f c < V

/-- The floor of a value rounds to itself or to the next index. -/
theorem gridRounded_of_floor {f : Nat → ℝ} (hf : StrictMono f) {rnd : Nat} {neg up : Bool} {V s t : ℝ} {b k : Nat}
    (hV : V = f b + t * s) (hs : f (b + 1) = f b + s) (h0 : 0 ≤ t) (h1 : t < 1) (hk : k % 2 = b % 2)
    (hup : up = true ↔ RoundsUp rnd neg k t) : GridRounded rnd neg f V (if up then b + 1 else b) := by
  have hpos : 0 < s := by have := hf (Nat.lt_succ_self b); linarith [this, hs, show f b.succ = f (b + 1) from rfl]
  have hts : t * s < s := by nlinarith
  have h0s : 0 ≤ t * s := by positivity
  cases up
  · have hno : ¬ RoundsUp rnd neg k t := by simpa using hup
    simp only [Bool.false_eq_true, if_false]
    refine ⟨fun hr c hc => ?_, fun hr c hc => ?_, fun hr => ⟨by linarith, by linarith⟩, fun hr => ?_⟩
    · have := hf hc
      exact ⟨by linarith, fun h => by linarith⟩
    · have hle : f (b + 1) ≤ f c := hf.monotone hc
      have ht : t ≤ 1 / 2 := not_lt.mp fun h => hno (.inl ⟨hr, .inl h⟩)
      have hts2 : t * s ≤ 1 / 2 * s := by gcongr
      refine ⟨by linarith, fun h => ?_⟩
      have : t = 1 / 2 := le_antisymm ht (by nlinarith)
      by_contra hc
      exact hno (.inl ⟨hr, .inr ⟨this, by omega⟩⟩)
    · have ht : t = 0 := by
        refine le_antisymm (not_lt.mp fun h => hno (.inr ?_)) h0
        exact hr.imp (fun h' => ⟨h'.1, h'.2, h⟩) (fun h' => ⟨h'.1, h'.2, h⟩)
      rw [ht, zero_mul, add_zero] at hV
      exact ⟨hV.le, fun c hc => hV ▸ hf hc⟩
  · have hyes : RoundsUp rnd neg k t := hup.mp rfl
    simp only [if_true]
    refine ⟨fun hr c hc => ?_, fun hr c hc => ?_, fun hr => ?_, fun hr => ⟨by linarith, fun c hc => ?_⟩⟩
    · have hle : f c ≤ f b := hf.monotone (Nat.lt_succ_iff.mp hc)
      obtain ⟨-, h⟩ | ⟨h, -⟩ | ⟨h, -⟩ := hyes
      · rcases h with h | ⟨rfl, hodd⟩
        · have : 1 / 2 * s < t * s := by gcongr
          exact ⟨by linarith, fun h => by linarith⟩
        · exact ⟨by linarith, fun _ => by omega⟩
      all_goals omega
    · have := hf hc
      exact ⟨by linarith, fun h => by linarith⟩
    · exfalso
      unfold RoundsUp at hyes
      cases neg <;> simp only [reduceCtorEq, true_and, false_and, and_false, or_false, false_or, and_true] at hyes hr <;> omega
    · have hle : f c ≤ f b := hf.monotone (Nat.lt_succ_iff.mp hc)
      have ht : 0 < t := by
        obtain ⟨h, -⟩ | ⟨-, -, h⟩ | ⟨-, -, h⟩ := hyes
        · omega
        · exact h
        · exact h
      have := mul_pos ht hpos
      linarith

/-- Scaling both sides, and leaving the reals where all values are natural numbers. -/
theorem GridRounded.scaled {rnd : Nat} {neg : Bool} {f : Nat → Nat} {N D b : Nat} (hD : 0 < D)
    (h : GridRounded rnd neg (fun c => (f c : ℝ)) ((N : ℝ) / D) b) : GridRounded rnd neg (fun c => f c * D) N b := by
  have hd : (0 : ℝ) < D := Nat.cast_pos.mpr hD
  have le1 : ∀ x : ℕ, (x : ℝ) ≤ (N : ℝ) / D ↔ x * D ≤ N := fun x => by rw [le_div_iff₀ hd]; exact_mod_cast Iff.rfl
  have lt1 : ∀ x : ℕ, (x : ℝ) < (N : ℝ) / D ↔ x * D < N := fun x => by rw [lt_div_iff₀ hd]; exact_mod_cast Iff.rfl
  have le2 : ∀ x : ℕ, (N : ℝ) / D ≤ x ↔ N ≤ x * D := fun x => by rw [div_le_iff₀ hd]; exact_mod_cast Iff.rfl
  have lt2 : ∀ x : ℕ, (N : ℝ) / D < x ↔ N < x * D := fun x => by rw [div_lt_iff₀ hd]; exact_mod_cast Iff.rfl
  have dbl : (N : ℝ) / D + N / D = ((2 * N : ℕ) : ℝ) / D := by push_cast; ring
  have le3 : ∀ x y : ℕ, (x : ℝ) + y ≤ (N : ℝ) / D + N / D ↔ x * D + y * D ≤ N + N := fun x y => by
    rw [dbl, le_div_iff₀ hd, ← two_mul, ← Nat.add_mul]; exact_mod_cast Iff.rfl
  have le4 : ∀ x y : ℕ, (N : ℝ) / D + N / D ≤ x + y ↔ N + N ≤ x * D + y * D := fun x y => by
    rw [dbl, div_le_iff₀ hd, ← two_mul, ← Nat.add_mul]; exact_mod_cast Iff.rfl
  have eq1 : ∀ x y : ℕ, (x : ℝ) + y = (N : ℝ) / D + N / D ↔ x * D + y * D = N + N := fun x y => by
    rw [le_antisymm_iff, le3, le4, ← le_antisymm_iff]
  refine ⟨fun hr c hc => ?_, fun hr c hc => ?_, fun hr => ?_, fun hr => ?_⟩
  · simpa only [le3, eq1] using h.below hr c hc
  · simpa only [le4, eq1] using h.above hr c hc
  · simpa only [le1, lt2] using h.toward hr
  · simpa only [le2, lt1] using h.away hr

/-- What `FFmt.round` makes of the index that a magnitude rounds to: overflow, flushing, or the element (R139, R140). -/
def FFmt.encode (F : FFmt) (v : FEnv) (neg : Bool) (b : Nat) : Nat × Ev :=
  if F.maxBits < b then F.overflow v neg
  else if v.ftz && decide (b < 2 ^ F.mw) && decide (0 < b) then (F.sign neg, Ev.ofFtz)
  else (F.sign neg + b, Ev.zero)

/-- The grid in the reals. -/
def FFmt.grid (F : FFmt) (b : Nat) : ℝ := (F.pos b : ℝ)

theorem grid_strictMono (F : FFmt) : StrictMono F.grid := fun _ _ h => Nat.cast_lt.mpr (pos_strictMono F h)

section
variable {F : FFmt}

/-- The magnitude `(k + t) × 2^E` least subnormals: `k` is its floor on the grid. -/
theorem gridRounded_of_binade (ok : F.Ok) {rnd : Nat} {neg up : Bool} {E k : Nat} {t : ℝ} (hk : k < 2 ^ (F.mw + 1))
    (hE : E = 0 ∨ 2 ^ F.mw ≤ k) (h0 : 0 ≤ t) (h1 : t < 1) (hup : up = true ↔ RoundsUp rnd neg k t) :
    GridRounded rnd neg F.grid ((k + t) * 2 ^ (E + F.low)) (E * 2 ^ F.mw + if up then k + 1 else k) := by
  have hb : (E * 2 ^ F.mw + if up then k + 1 else k) = if up then (E * 2 ^ F.mw + k) + 1 else E * 2 ^ F.mw + k := by
    cases up <;> rfl
  have hg : F.grid (E * 2 ^ F.mw + k) = k * 2 ^ (E + F.low) := by rw [FFmt.grid, pos_index hk.le hE]; push_cast; rfl
  have hg1 : F.grid (E * 2 ^ F.mw + k + 1) = (k + 1) * 2 ^ (E + F.low) := by
    rw [FFmt.grid, Nat.add_assoc, pos_index hk (hE.imp_right (by omega))]; push_cast; rfl
  have hpar : k % 2 = (E * 2 ^ F.mw + k) % 2 := by
    have := ok.mw
    obtain ⟨j, hj⟩ : ∃ j, F.mw = j + 1 := ⟨F.mw - 1, by omega⟩
    rw [hj, pow_succ, ← Nat.mul_assoc]
    omega
  rw [hb]
  exact gridRounded_of_floor (s := 2 ^ (E + F.low)) (grid_strictMono F) (by rw [hg]; ring) (by rw [hg, hg1]; ring) h0 h1 hpar hup

/-- `FFmt.round` where the step `2^q` of the result is no finer than `2^e`: nothing is cut. -/
theorem gridRounded_uncut (ok : F.Ok) {rnd : Nat} {neg st : Bool} {m E : Nat} {e q : Int} {a : ℝ} (hrnd : rnd < 4) (hm : m ≠ 0)
    (hst : st → 2 ^ (F.mw + 1) ≤ m) (h : Truncated m st a) (hqE : q = F.low - 149 + E)
    (hq : q = e + m.log2 - F.mw ∨ (E = 0 ∧ e + m.log2 - F.mw ≤ q)) (hqe : q ≤ e) :
    GridRounded rnd neg F.grid (a * 2 ^ (e + 149)) (E * 2 ^ F.mw +
      if roundUp? rnd neg (m <<< (e - q).toNat) 0 0 st then m <<< (e - q).toNat + 1 else m <<< (e - q).toNat) := by
  have hL1 : 2 ^ m.log2 ≤ m := Nat.log2_self_le hm
  have hL2 : m < 2 ^ (m.log2 + 1) := Nat.lt_log2_self
  have hst' : st = false := by
    by_contra hs
    have := (Nat.pow_lt_pow_iff_right (by decide)).mp ((hst (by simpa using hs)).trans_lt hL2)
    omega
  subst hst'
  have ha : a = m := le_antisymm (not_lt.mp (by simpa using h.sticky)) h.lower
  obtain ⟨j, hj⟩ : ∃ j : Nat, (e - q).toNat = j := ⟨_, rfl⟩
  rw [hj, Nat.shiftLeft_eq]
  have hV : a * 2 ^ (e + 149) = ((m * 2 ^ j : Nat) + 0) * 2 ^ (E + F.low) := by
    rw [ha, show e + 149 = ((j + (E + F.low) : Nat) : Int) by push_cast; omega, zpow_natCast, pow_add 2 j]
    push_cast
    ring
  rw [hV]
  refine gridRounded_of_binade ok ?_ (hq.symm.imp And.left fun hq => ?_) le_rfl one_pos ?_
  · calc m * 2 ^ j < 2 ^ (m.log2 + 1) * 2 ^ j := Nat.mul_lt_mul_of_pos_right hL2 (Nat.two_pow_pos j)
      _ = 2 ^ (m.log2 + 1 + j) := (Nat.pow_add ..).symm
      _ ≤ 2 ^ (F.mw + 1) := Nat.pow_le_pow_right two_pos (by omega)
  · calc 2 ^ F.mw = 2 ^ m.log2 * 2 ^ j := by rw [← Nat.pow_add]; congr 1; omega
      _ ≤ m * 2 ^ j := Nat.mul_le_mul_right _ hL1
  · exact roundUp?_iff hrnd (by simp) (by simpa using truncated_self 0)

/-- `FFmt.round` where `sh` bits are cut. -/
theorem gridRounded_cut (ok : F.Ok) {rnd : Nat} {neg st : Bool} {m E sh : Nat} {e q : Int} {a : ℝ} (hrnd : rnd < 4) (hm : m ≠ 0)
    (h : Truncated m st a) (hqE : q = F.low - 149 + E) (hq : q = e + m.log2 - F.mw ∨ (E = 0 ∧ e + m.log2 - F.mw ≤ q))
    (hsh : (sh : Int) = q - e) (hsh1 : 1 ≤ sh) :
    GridRounded rnd neg F.grid (a * 2 ^ (e + 149)) (E * 2 ^ F.mw +
      if roundUp? rnd neg (m >>> sh) (m % 2 ^ sh) sh st then m >>> sh + 1 else m >>> sh) := by
  have hL1 : 2 ^ m.log2 ≤ m := Nat.log2_self_le hm
  have hL2 : m < 2 ^ (m.log2 + 1) := Nat.lt_log2_self
  have hp : (0 : ℝ) < 2 ^ sh := by positivity
  rw [Nat.shiftRight_eq_div_pow]
  have hm' : (m : ℝ) = (m / 2 ^ sh : Nat) * 2 ^ sh + (m % 2 ^ sh : Nat) := by exact_mod_cast (Nat.div_add_mod' m (2 ^ sh)).symm
  have hr' : ((m % 2 ^ sh : Nat) : ℝ) + 1 ≤ 2 ^ sh := by exact_mod_cast Nat.mod_lt m (Nat.two_pow_pos sh)
  have hr0 : (0 : ℝ) ≤ (m % 2 ^ sh : Nat) := Nat.cast_nonneg _
  have hV : a * 2 ^ (e + 149) =
      ((m / 2 ^ sh : Nat) + (a - (m / 2 ^ sh : Nat) * 2 ^ sh) / 2 ^ sh) * 2 ^ (E + F.low) := by
    have h2 : (2 : ℝ) ^ (E + F.low) = 2 ^ sh * 2 ^ (e + 149) := by
      rw [← zpow_natCast 2 sh, ← zpow_add₀ two_ne_zero, ← zpow_natCast]
      congr 1
      push_cast
      omega
    rw [h2]
    field_simp
    ring
  have ht : (a - (m / 2 ^ sh : Nat) * 2 ^ sh) / 2 ^ sh * 2 ^ sh = a - (m / 2 ^ sh : Nat) * 2 ^ sh := div_mul_cancel₀ _ hp.ne'
  obtain ⟨hlo, hhi, hsticky⟩ := h
  rw [hV]
  refine gridRounded_of_binade ok ?_ (hq.symm.imp And.left fun hq => ?_) ?_ ?_ ?_
  · refine Nat.div_lt_of_lt_mul (hL2.trans_le ?_)
    rw [← Nat.pow_add]
    exact Nat.pow_le_pow_right two_pos (by omega)
  · rw [Nat.le_div_iff_mul_le (Nat.two_pow_pos sh), ← Nat.pow_add]
    exact (Nat.pow_le_pow_right two_pos (by omega)).trans hL1
  · exact div_nonneg (by linarith) hp.le
  · rw [div_lt_one hp]
    linarith
  · refine roundUp?_iff hrnd (fun _ => hsh1) ⟨?_, ?_, ?_⟩ <;> rw [ht]
    · linarith
    · linarith
    · rw [hsticky]
      constructor <;> intro <;> linarith

/-- `FFmt.round` rounds the exact magnitude once, if what it is given of it suffices. -/
theorem round_gridRounded (ok : F.Ok) {v : FEnv} {neg st : Bool} {m : Nat} {e : Int} {a : ℝ} (hrnd : v.rnd < 4) (hm : m ≠ 0)
    (hst : st → 2 ^ (F.mw + 1) ≤ m) (h : Truncated m st a) :
    ∃ b, GridRounded v.rnd neg F.grid (a * 2 ^ (e + 149)) b ∧ F.round v neg m e st = F.encode v neg b := by
  have hbias := ok.bias
  have hlow : ((F.low : Nat) : Int) = 150 - F.bias - F.mw := by rw [FFmt.low]; omega
  unfold FFmt.round
  rw [if_neg hm]
  extract_lets top emin q sh k r k1 b
  refine ⟨b, ?_, rfl⟩
  obtain ⟨E, hE, hqE⟩ : ∃ E : Nat, (q - (emin - F.mw)).toNat = E ∧ q = F.low - 149 + E :=
    ⟨_, rfl, by simp only [q]; split <;> omega⟩
  have hq : q = e + m.log2 - F.mw ∨ (E = 0 ∧ e + m.log2 - F.mw ≤ q) := by
    simp only [q] at hqE ⊢
    split <;> split at hqE <;> omega
  simp only [b, k1, hE]
  rcases le_or_gt q e with hqe | hqe
  · have hk : k = m <<< (e - q).toNat := if_pos hqe
    have hr : r = 0 := if_pos hqe
    have hsh : sh = 0 := by simp only [sh]; omega
    rw [hk, hr, hsh]
    exact gridRounded_uncut ok hrnd hm hst h hqE hq hqe
  · have hk : k = m >>> sh := if_neg (not_le.mpr hqe)
    have hr : r = m % 2 ^ sh := if_neg (not_le.mpr hqe)
    rw [hk, hr]
    exact gridRounded_cut ok hrnd hm h hqE hq (by simp only [sh]; omega) (by simp only [sh]; omega)

end

end Sys2Proof.Machine
end

section
/-!
A value on the grid of its format is the exact value rounded once, as the statements say it (`FFmt.Rounds`): overflow where the
index passes the largest finite one, else the nearest element of the mode.
-/

namespace Sys2Proof.Machine

section
variable {F : FFmt}

theorem sgn_mul_natAbs (X : Int) : X = sgn (decide (X < 0)) * X.natAbs := by
  rcases lt_or_ge X 0 with h | h
  · rw [decide_eq_true h, sgn_true]; omega
  · rw [decide_eq_false (not_lt.mpr h), sgn_false]; omega

theorem sign_zero_add (F : FFmt) (b : Nat) : F.sign false + b = b := Nat.zero_add b

theorem units_magnitude (ok : F.Ok) {b : Nat} (hb : b ≤ F.maxBits) : F.units b = F.pos b := by
  have := units_sign_add ok false hb
  rwa [sign_zero_add, sgn_false, Int.one_mul] at this

theorem maxBits_add (ok : F.Ok) : ∃ A, 0 < A ∧ F.maxBits + (if F.inf then 1 else 2) = A * 2 ^ F.mw := by
  have hE := Nat.one_lt_two_pow (n := F.ew) (by have := ok.ew; omega)
  have hB := Nat.pow_le_pow_right two_pos ok.mw
  unfold FFmt.maxBits
  cases F.inf
  · refine ⟨2 ^ F.ew, by omega, ?_⟩
    rw [two_pow_width ok]
    have := Nat.mul_le_mul hE.le hB
    simp only [Bool.false_eq_true, if_false]
    omega
  · refine ⟨2 ^ F.ew - 1, by omega, ?_⟩
    have := Nat.mul_le_mul (Nat.sub_pos_of_lt hE) hB
    simp only [if_true]
    omega

/-- The step above the largest finite magnitude is the one below it. -/
theorem pos_maxBits (ok : F.Ok) : F.pos (F.maxBits + 1) + F.pos (F.maxBits - 1) = 2 * F.pos F.maxBits ∧
    F.maxBits % 2 = if F.inf then 1 else 0 := by
  obtain ⟨A, hA, hM⟩ := maxBits_add ok
  obtain ⟨j, hj⟩ : ∃ j, F.mw = j + 2 := ⟨F.mw - 2, by have := ok.mw; omega⟩
  have hj' : 2 ^ F.mw = 4 * 2 ^ j := by rw [hj, pow_add]; ring
  have hge : 2 ^ F.mw ≤ A * 2 ^ F.mw := Nat.le_mul_of_pos_left _ hA
  have hjp := Nat.two_pow_pos j
  have hpos : 0 < F.maxBits := by split at hM <;> omega
  refine ⟨?_, ?_⟩
  · obtain ⟨E, k, hb, hk, hE⟩ := index_parts F (F.maxBits - 1)
    have hk1 : k + 1 < 2 ^ (F.mw + 1) := by
      refine lt_of_le_of_ne hk fun h => ?_
      have hd : F.maxBits = (E + 2) * 2 ^ F.mw := by rw [Nat.add_mul, Nat.mul_comm 2, ← pow_succ]; omega
      have hdvd : 2 ^ F.mw ∣ if F.inf then 1 else 2 :=
        (Nat.dvd_add_right (Dvd.intro_left (E + 2) hd.symm)).mp (Dvd.intro_left A hM.symm)
      have := Nat.le_of_dvd (by split <;> decide) hdvd
      split at this <;> omega
    have e0 : F.pos (F.maxBits - 1) = k * 2 ^ (E + F.low) := by rw [hb, pos_index hk.le hE]
    have e1 : F.pos F.maxBits = (k + 1) * 2 ^ (E + F.low) := by
      rw [← pos_index hk1.le (hE.imp_right (by omega))]
      congr 1
      omega
    have e2 : F.pos (F.maxBits + 1) = (k + 2) * 2 ^ (E + F.low) := by
      rw [← pos_index hk1 (hE.imp_right (by omega))]
      congr 1
      omega
    rw [e0, e1, e2]
    ring
  · have : A * 2 ^ F.mw = 2 * (A * (2 * 2 ^ j)) := by rw [hj']; ring
    split at hM
    · rename_i h
      rw [if_pos h]
      omega
    · rename_i h
      rw [if_neg h]
      omega

/-- `FFmt.passes` is that the index lies beyond the largest finite one (R139). -/
theorem passes_iff (ok : F.Ok) {rnd : Nat} {X : Int} {D b : Nat} (hD : 0 < D) (hrnd : rnd < 4) (hX : X ≠ 0)
    (h : GridRounded rnd (decide (X < 0)) (fun c => F.pos c * D) X.natAbs b) : F.passes rnd X D ↔ F.maxBits < b := by
  obtain ⟨hstep, hpar⟩ := pos_maxBits ok
  have mono {c d} (hcd : c ≤ d) : F.pos c * D ≤ F.pos d * D := Nat.mul_le_mul_right D ((pos_strictMono F).monotone hcd)
  have strict {c d} (hcd : c < d) : F.pos c * D < F.pos d * D := Nat.mul_lt_mul_of_pos_right (pos_strictMono F hcd) hD
  have hs : (F.pos F.maxBits : Int) + (F.pos F.maxBits - F.pos (F.maxBits - 1)) = F.pos (F.maxBits + 1) := by omega
  have hs2 : 2 * (F.pos F.maxBits : Int) + (F.pos F.maxBits - F.pos (F.maxBits - 1)) = F.pos F.maxBits + F.pos (F.maxBits + 1) := by
    omega
  obtain ⟨hbelow, habove, htoward, haway⟩ := h
  unfold FFmt.passes
  simp only [units_magnitude ok le_rfl, units_magnitude ok (Nat.sub_le F.maxBits 1), hs, hs2]
  norm_cast
  by_cases h0 : rnd = 0
  · simp only [if_pos h0, Nat.add_mul]
    rcases Nat.lt_or_ge F.maxBits b with hb | hb
    · obtain ⟨h1, h2⟩ := hbelow h0 _ hb
      have : F.pos (F.maxBits + 1) * D ≤ F.pos b * D := mono hb
      have hodd : F.pos (F.maxBits + 1) * D = F.pos b * D → b = F.maxBits + 1 := fun he =>
        ((Nat.succ_le_of_lt hb).eq_of_not_lt fun hlt => (strict hlt).ne he).symm
      cases hi : F.inf <;> simp only [hi, if_true, if_false, Bool.false_eq_true] at hpar ⊢ <;> omega
    · obtain ⟨h1, h2⟩ := habove h0 (F.maxBits + 1) (Nat.lt_succ_of_le hb)
      have := mono hb
      have hodd : F.pos b * D = F.pos F.maxBits * D → b = F.maxBits := fun he =>
        hb.eq_of_not_lt fun hlt => (strict hlt).ne he
      cases hi : F.inf <;> simp only [hi, if_true, if_false, Bool.false_eq_true] at hpar ⊢ <;> omega
  · rw [if_neg h0]
    by_cases hdir : rnd = 2 ∧ 0 < X ∨ rnd = 3 ∧ X < 0
    · rw [if_pos hdir]
      obtain ⟨h1, h2⟩ := haway (hdir.imp (fun h => ⟨h.1, by simpa using h.2.le⟩) (fun h => ⟨h.1, by simpa using h.2⟩))
      refine ⟨fun hT => ?_, fun hlt => h2 _ hlt⟩
      by_contra hc
      have := mono (Nat.not_lt.mp hc)
      omega
    · rw [if_neg hdir]
      obtain ⟨h1, h2⟩ := htoward (by simp only [decide_eq_true_eq, decide_eq_false_iff_not]; omega)
      refine ⟨fun hT => ?_, fun hlt => (mono (Nat.succ_le_of_lt hlt)).trans h1⟩
      by_contra hc
      have : F.pos (b + 1) * D ≤ F.pos (F.maxBits + 1) * D := mono (Nat.succ_le_succ (Nat.not_lt.mp hc))
      omega

/-- What rounding to an index says of any other magnitude of the grid, and of zero. -/
theorem GridRounded.against {rnd D N b : Nat} {neg : Bool} {f : Nat → Nat} (h : GridRounded rnd neg (fun c => f c * D) N b)
    (hf : StrictMono f) (hD : 0 < D) (h0 : f 0 = 0) (c : Nat) :
    (rnd = 0 → (f c * D < f b * D → f c * D + f b * D ≤ N + N ∧ (f c * D + f b * D = N + N → b % 2 = 0)) ∧
      (f b * D < f c * D → N + N ≤ f b * D + f c * D ∧ (f b * D + f c * D = N + N → b % 2 = 0))) ∧
    (rnd = 0 → f b * D ≤ N + N ∧ (f b * D = N + N → f b * D = 0 ∨ b % 2 = 0)) ∧
    (rnd = 1 ∨ (rnd = 2 ∧ neg = true) ∨ (rnd = 3 ∧ neg = false) → f b * D ≤ N ∧ (f c * D ≤ N → f c * D ≤ f b * D)) ∧
    ((rnd = 2 ∧ neg = false) ∨ (rnd = 3 ∧ neg = true) → N ≤ f b * D ∧ (N ≤ f c * D → f b * D ≤ f c * D)) := by
  have strict {c d} : f c * D < f d * D ↔ c < d := by rw [Nat.mul_lt_mul_right hD]; exact hf.lt_iff_lt
  have mono {c d} (hcd : c ≤ d) : f c * D ≤ f d * D := Nat.mul_le_mul_right D (hf.monotone hcd)
  refine ⟨fun hr => ⟨fun hlt => h.below hr c (strict.mp hlt), fun hlt => h.above hr c (strict.mp hlt)⟩, fun hr => ?_,
    fun hr => ?_, fun hr => ?_⟩
  · rcases Nat.eq_zero_or_pos b with rfl | hb
    · simp [h0]
    · obtain ⟨h1, h2⟩ := h.below hr 0 hb
      rw [h0, Nat.zero_mul, Nat.zero_add] at h1 h2
      exact ⟨h1, fun he => .inr (h2 he)⟩
  · obtain ⟨h1, h2⟩ := h.toward hr
    exact ⟨h1, fun hc => mono (Nat.lt_succ_iff.mp (strict.mp (hc.trans_lt h2)))⟩
  · obtain ⟨h1, h2⟩ := h.away hr
    exact ⟨h1, fun hc => mono (not_lt.mp fun hlt => (h2 c hlt).not_ge hc)⟩

/-- Two magnitudes of the sign of the exact one: the rounded one is no farther, and even where both are as near. -/
theorem nearest_same {A C N : Nat} {P : Prop} (h : (C < A → C + A ≤ N + N ∧ (C + A = N + N → P)) ∧
    (A < C → N + N ≤ A + C ∧ (A + C = N + N → P))) :
    ((A : Int) - N).natAbs ≤ ((C : Int) - N).natAbs ∧ (((A : Int) - N).natAbs = ((C : Int) - N).natAbs → C ≠ A → P) := by
  obtain ⟨h1, h2⟩ := h
  rcases lt_trichotomy C A with hlt | rfl | hlt
  · obtain ⟨h3, h4⟩ := h1 hlt
    exact ⟨by omega, fun he _ => h4 (by omega)⟩
  · exact ⟨le_rfl, fun _ hne => absurd rfl hne⟩
  · obtain ⟨h3, h4⟩ := h2 hlt
    exact ⟨by omega, fun he _ => h4 (by omega)⟩

/-- A magnitude of the other sign is at the distance of the sum. -/
theorem nearest_opposite {A C N : Nat} {P : Prop} (h : A ≤ N + N ∧ (A = N + N → A = 0 ∨ P)) :
    ((A : Int) - N).natAbs ≤ C + N ∧ (((A : Int) - N).natAbs = C + N → A ≠ 0 ∨ C ≠ 0 → P) := by
  obtain ⟨h1, h2⟩ := h
  refine ⟨by omega, fun he hne => ?_⟩
  rcases Nat.lt_or_ge N A with hlt | hge
  · exact (h2 (by omega)).resolve_left (by omega)
  · omega

theorem natAbs_sgn_sub (s : Bool) (C N : Nat) : (sgn s * C - sgn s * N).natAbs = ((C : Int) - N).natAbs := by
  cases s
  · rw [sgn_false, Int.one_mul, Int.one_mul]
  · rw [sgn_true]; omega

theorem natAbs_sgn_not_sub (s : Bool) (C N : Nat) : (sgn (!s) * C - sgn s * N).natAbs = C + N := by
  cases s
  · rw [Bool.not_false, sgn_true, sgn_false]; omega
  · rw [Bool.not_true, sgn_true, sgn_false]; omega

theorem natAbs_sgn_mul (s : Bool) (C : Nat) : (sgn s * C).natAbs = C := by
  cases s <;> simp

/-- The element at the index is the exact value rounded (R139). -/
theorem isRounded_of_grid (ok : F.Ok) {rnd : Nat} {X : Int} {D b : Nat} (hD : 0 < D)
    (h : GridRounded rnd (decide (X < 0)) (fun c => F.pos c * D) X.natAbs b) (hb : b ≤ F.maxBits) :
    F.IsRounded rnd X D (F.sign (decide (X < 0)) + b) := by
  obtain ⟨hw, hneg, -, hpar⟩ := sign_body ok (decide (X < 0)) (hb.trans_lt (maxBits_lt ok))
  refine ⟨hw, finite_sign_add ok _ hb, hneg, fun y _ hy => ?_⟩
  have hX := sgn_mul_natAbs X
  obtain ⟨hnear, hzero, htoward, haway⟩ := h.against (pos_strictMono F) hD (pos_zero F) (F.body y)
  simp only [units_sign_add ok _ hb, units_of_finite ok hy, hpar, Int.mul_assoc]
  norm_cast
  generalize F.pos (F.body y) * D = C at *
  generalize F.pos b * D = A at *
  generalize F.neg y = n
  generalize X.natAbs = N at *
  generalize decide (X < 0) = s at *
  subst hX
  refine ⟨fun hr => ?_, fun hr => ?_, fun hr => ?_, fun hr => ?_⟩
  · rcases Bool.eq_or_eq_not n s with rfl | rfl
    · simp only [natAbs_sgn_sub]
      obtain ⟨h1, h2⟩ := nearest_same (hnear hr)
      exact ⟨h1, fun he hne => h2 he fun h => hne (by rw [h])⟩
    · simp only [natAbs_sgn_sub, natAbs_sgn_not_sub]
      obtain ⟨h1, h2⟩ := nearest_opposite (C := C) (hzero hr)
      refine ⟨h1, fun he hne => h2 he ?_⟩
      by_contra hc
      obtain ⟨rfl, rfl⟩ : A = 0 ∧ C = 0 := by omega
      exact hne (by simp)
  · simpa only [natAbs_sgn_mul] using htoward (.inl hr)
  · cases s
    · have h1 := haway (.inl ⟨hr, rfl⟩)
      cases n <;> simp only [sgn_true, sgn_false] <;> omega
    · have h1 := htoward (.inr (.inl ⟨hr, rfl⟩))
      cases n <;> simp only [sgn_true, sgn_false] <;> omega
  · cases s
    · have h1 := htoward (.inr (.inr ⟨hr, rfl⟩))
      cases n <;> simp only [sgn_true, sgn_false] <;> omega
    · have h1 := haway (.inr ⟨hr, rfl⟩)
      cases n <;> simp only [sgn_true, sgn_false] <;> omega

end

end Sys2Proof.Machine
end

section
/-!
From what is kept of the exact value to the result: `FFmt.round` gives what the statements ask of a value rounded once
(`round_rounds`, `round_exact`).
-/

namespace Sys2Proof.Machine

section
variable {F : FFmt}

theorem isSub_sign_add (ok : F.Ok) (n : Bool) {b : Nat} (hb : b ≤ F.maxBits) :
    F.isSub (F.sign n + b) = (decide (b < 2 ^ F.mw) && decide (0 < b)) := by
  obtain ⟨-, -, hbody, -⟩ := sign_body ok n (hb.trans_lt (maxBits_lt ok))
  rw [FFmt.isSub, exp_eq ok, man_eq ok, hbody]
  rcases Nat.lt_or_ge b (2 ^ F.mw) with h | h
  · simp [Nat.div_eq_of_lt h, Nat.mod_eq_of_lt h, h, Nat.pos_iff_ne_zero, bne, beq_eq_decide]
  · have : b / 2 ^ F.mw ≠ 0 := (Nat.div_pos h (Nat.two_pow_pos _)).ne'
    simp [this, Nat.not_lt.mpr h]

/-- Overflow under each mode (R139, R142). -/
theorem overflow_inf {v : FEnv} {X : Int} (hrnd : v.rnd < 4) (hX : X ≠ 0) (hi : F.inf) :
    F.overflow v (decide (X < 0)) = (if (v.rnd = 0 ∨ (v.rnd = 2 ∧ 0 < X) ∨ (v.rnd = 3 ∧ X < 0)) ∧ v.sat = false
      then F.infBits (decide (X < 0)) else F.sign (decide (X < 0)) + F.maxBits, Ev.ofSat) := by
  unfold FFmt.overflow
  rw [if_neg (by simp [hi])]
  have hneg : (0 < X ↔ ¬ X < 0) := by omega
  obtain h | h | h | h : v.rnd = 0 ∨ v.rnd = 1 ∨ v.rnd = 2 ∨ v.rnd = 3 := by omega
  · cases v.sat <;> simp [h]
  · simp [h]
  · by_cases hx : X < 0
    · simp [h, hx, hneg]
    · cases v.sat <;> simp [h, hx, hneg]
  · by_cases hx : X < 0
    · cases v.sat <;> simp [h, hx]
    · simp [h, hx]

theorem overflow_noInf {v : FEnv} {n : Bool} (hi : F.inf = false) :
    F.overflow v n = if v.ovn then (if v.nanc then F.canon else F.infBits n, Ev.ofSat.plus Ev.ofNan)
      else (F.sign n + F.maxBits, Ev.ofSat) := by
  unfold FFmt.overflow
  rw [if_pos (by simp [hi])]

/-- R139, R140: what `FFmt.round` makes of the index is what the statements say of the exact value. -/
theorem encode_rounds (ok : F.Ok) {v : FEnv} {X : Int} {D b : Nat} (hrnd : v.rnd < 4) (hX : X ≠ 0) (hD : 0 < D)
    (h : GridRounded v.rnd (decide (X < 0)) F.grid ((X.natAbs : ℝ) / D) b) : F.Rounds v X D (F.encode v (decide (X < 0)) b) := by
  have hs := h.scaled hD
  unfold FFmt.Rounds FFmt.encode
  rw [passes_iff ok hD hrnd hX hs]
  refine ⟨fun hgt => ?_, fun hle => ⟨_, isRounded_of_grid ok hD hs (Nat.not_lt.mp hle), ?_⟩⟩
  · rw [if_pos hgt]
    refine ⟨fun hi => overflow_inf hrnd hX hi, fun hi ho => ?_, fun hi ho => ?_⟩
    · rw [overflow_noInf hi, if_neg (by simp [ho])]
    · rw [overflow_noInf hi, if_pos ho]
  · rw [if_neg hle, isSub_sign_add ok _ (Nat.not_lt.mp hle)]
    simp only [Bool.and_eq_true, and_assoc]

/-- The exact value X / D, given by its sign and by what was kept of its magnitude, is rounded once (R139, R140). -/
theorem round_rounds (ok : F.Ok) {v : FEnv} {n st : Bool} {X : Int} {D m : Nat} {e : Int} {a : ℝ} (hrnd : v.rnd < 4)
    (hD : 0 < D) (hX : X ≠ 0) (hst : st → 2 ^ (F.mw + 1) ≤ m) (ht : Truncated m st a)
    (ha : (X : ℝ) / D = sgn n * (a * 2 ^ (e + 149))) : F.Rounds v X D (F.round v n m e st) := by
  have hd : (0 : ℝ) < D := Nat.cast_pos.mpr hD
  have hp : (0 : ℝ) < 2 ^ (e + 149) := zpow_pos two_pos _
  have ha0 : 0 ≤ a * 2 ^ (e + 149) := mul_nonneg ((Nat.cast_nonneg m).trans ht.lower) hp.le
  have hne : a * 2 ^ (e + 149) ≠ 0 := fun h0 => by
    rw [h0, mul_zero, div_eq_zero_iff] at ha
    exact hX (by exact_mod_cast ha.resolve_right hd.ne')
  have hpos : 0 < a * 2 ^ (e + 149) := lt_of_le_of_ne ha0 hne.symm
  have hn : n = decide (X < 0) ∧ (X.natAbs : ℝ) / D = a * 2 ^ (e + 149) := by
    rw [div_eq_iff hd.ne'] at ha ⊢
    have hprod := mul_pos hpos hd
    cases n
    · have hx : (0 : ℝ) < X := by rw [ha]; simpa using hprod
      have hx' : 0 < X := by exact_mod_cast hx
      refine ⟨by simpa using hx'.le, ?_⟩
      rw [Nat.cast_natAbs, abs_of_pos hx', ha, sgn_false, Int.cast_one, one_mul]
    · have hx : (X : ℝ) < 0 := by rw [ha]; simpa using hprod
      have hx' : X < 0 := by exact_mod_cast hx
      refine ⟨by simpa using hx', ?_⟩
      rw [Nat.cast_natAbs, abs_of_neg hx']
      push_cast
      rw [ha]
      simp
  have hm : m ≠ 0 := by
    rintro rfl
    cases st
    · have : a = 0 := le_antisymm (not_lt.mp (by simpa using ht.sticky)) (by simpa using ht.lower)
      exact hne (by rw [this, zero_mul])
    · exact absurd (hst rfl) (Nat.not_le.mpr (Nat.two_pow_pos _))
  obtain ⟨b, hb, he⟩ := round_gridRounded (neg := n) (e := e) ok hrnd hm hst ht
  rw [he, hn.1]
  rw [← hn.2, hn.1] at hb
  exact encode_rounds ok hrnd hX hD hb

/-- R139: the result is the exact value X / D rounded once; an exact zero is the zero of a sign. -/
def FFmt.Exact (F : FFmt) (v : FEnv) (X : Int) (D : Nat) (n : Bool) (z : Nat × Ev) : Prop :=
  (X ≠ 0 → F.Rounds v X D z) ∧ (X = 0 → z = (F.sign n, Ev.zero))

@[simp] theorem round_zero (F : FFmt) (v : FEnv) (n : Bool) (e : Int) (st : Bool) : F.round v n 0 e st = (F.sign n, Ev.zero) :=
  if_pos rfl

theorem round_exact (ok : F.Ok) {v : FEnv} {n : Bool} {X : Int} {D m : Nat} {e : Int} (hrnd : v.rnd < 4) (hD : 0 < D)
    (ha : (X : ℝ) / D = sgn n * (m * 2 ^ (e + 149))) : F.Exact v X D n (F.round v n m e false) := by
  refine ⟨fun hX => round_rounds ok hrnd hD hX (by simp) (truncated_self m) ha, ?_⟩
  rintro rfl
  have hs : (sgn n : ℝ) ≠ 0 := by cases n <;> simp
  have hp : (2 : ℝ) ^ (e + 149) ≠ 0 := (zpow_pos two_pos _).ne'
  have hm : m = 0 := by
    rw [Int.cast_zero, zero_div, eq_comm, mul_eq_zero, mul_eq_zero] at ha
    exact_mod_cast (ha.resolve_left hs).resolve_right hp
  rw [hm, round_zero]

/-- A finite element in units, from the sign, number and exponent that its value holds. -/
theorem units_of_val (ok : F.Ok) {x : Nat} {n : Bool} {m : Nat} {e : Int} (h : F.val x = .fin n m e) :
    (F.units x : ℝ) = sgn n * (m * 2 ^ (e + 149)) ∧ n = F.neg x ∧ -149 ≤ e ∧ (F.units x = 0 ↔ m = 0) := by
  have hf : F.finite x := by rw [FFmt.finite, h]
  obtain ⟨m', e', hv, he, -⟩ := val_of_finite ok hf
  rw [h] at hv
  cases hv
  have hz : ((e + 149).toNat : Int) = e + 149 := by omega
  refine ⟨?_, rfl, he, ?_⟩
  · rw [FFmt.units, h]
    simp only [sgn]
    rw [← hz, zpow_natCast, Int.toNat_natCast]
    push_cast
    rfl
  · rw [FFmt.units, h]
    simp only [mul_eq_zero]
    have : (if F.neg x = true then (-1 : Int) else 1) ≠ 0 := by split <;> decide
    simp [this]

theorem finite_iff_val (F : FFmt) (x : Nat) : F.finite x ↔ ∃ n m e, F.val x = .fin n m e := by
  unfold FFmt.finite
  cases F.val x <;> simp

theorem isNan_iff (F : FFmt) (x : Nat) : F.isNan x ↔ F.val x = .nan := by simp [FFmt.isNan]

end

end Sys2Proof.Machine
end

section
/-!
The arithmetic of elements (R139 to R141, R183, R188): exact results rounded once, NaNs, and invalid operations.
-/

namespace Sys2Proof.Machine

section
variable {F : FFmt}

/-- A signed number brought to a lower exponent. -/
theorem signed_shift (n : Bool) (m : Nat) {e f : Int} (hf : e ≤ f) :
    (((m <<< (f - e).toNat : Nat) : Int) * (if n then -1 else 1) : Int) * (2 : ℝ) ^ (e + 149) = sgn n * (m * 2 ^ (f + 149)) := by
  have hpow : (2 : ℝ) ^ (f + 149) = 2 ^ (f - e).toNat * 2 ^ (e + 149) := by
    rw [← zpow_natCast, ← zpow_add₀ two_ne_zero]
    congr 1
    omega
  rw [Nat.shiftLeft_eq, hpow]
  cases n
  · rw [if_neg Bool.false_ne_true, sgn_false]; push_cast; ring
  · rw [if_pos rfl, sgn_true]; push_cast; ring

theorem roundSum_exact (ok : F.Ok) {v : FEnv} {na nb : Bool} {ma mb : Nat} {ea eb : Int} {X : Int} {D : Nat} (hrnd : v.rnd < 4)
    (hD : 0 < D) (h : (X : ℝ) / D = sgn na * (ma * 2 ^ (ea + 149)) + sgn nb * (mb * 2 ^ (eb + 149))) :
    F.Exact v X D (if na = nb then na else v.rnd == 3) (F.roundSum v na ma ea nb mb eb) := by
  unfold FFmt.roundSum
  extract_lets e xa xb z
  have hle : e ≤ ea ∧ e ≤ eb := by simp only [e]; split <;> omega
  have hz : (X : ℝ) / D = (z : ℝ) * 2 ^ (e + 149) := by
    rw [h, ← signed_shift na ma hle.1, ← signed_shift nb mb hle.2]
    simp only [z, xa, xb]
    push_cast
    ring
  by_cases hz0 : z = 0
  · rw [if_pos hz0]
    have hX : X = 0 := by
      have hd : (D : ℝ) ≠ 0 := by exact_mod_cast hD.ne'
      rw [hz0, Int.cast_zero, zero_mul, div_eq_zero_iff] at hz
      exact_mod_cast hz.resolve_right hd
    exact ⟨fun h => absurd hX h, fun _ => by simp only [beq_iff_eq]⟩
  · rw [if_neg hz0]
    have key : F.Exact v X D (decide (z < 0)) (F.round v (decide (z < 0)) z.natAbs e false) := by
      refine round_exact ok hrnd hD ?_
      have := congrArg (Int.cast (R := ℝ)) (sgn_mul_natAbs z)
      push_cast at this
      rw [hz, ← mul_assoc, Nat.cast_natAbs, Int.cast_abs, ← this]
    refine ⟨key.1, fun hX => absurd ?_ hz0⟩
    rw [hX, Int.cast_zero, zero_div, eq_comm, mul_eq_zero] at hz
    exact_mod_cast hz.resolve_right (zpow_pos two_pos _).ne'

/-! The operand as it is read, and with its sign flipped. -/

theorem flush_lt (ok : F.Ok) (v : FEnv) {x : Nat} (hx : x < 2 ^ F.w) : F.flush v x < 2 ^ F.w := by
  unfold FFmt.flush
  split
  · exact (sign_body ok (F.neg x) (Nat.two_pow_pos _)).1
  · exact hx

theorem negate_eq (ok : F.Ok) {x : Nat} (hx : x < 2 ^ F.w) : F.negate x = F.sign (!F.neg x) + F.body x := by
  obtain ⟨w, hw⟩ : ∃ w, F.w = w + 1 := ⟨F.w - 1, by have := ok.width; omega⟩
  have hb := body_lt F x
  rw [FFmt.negate]
  conv_lhs => rw [sign_add_body F hx (by omega)]
  generalize F.body x = b at *
  simp only [FFmt.sign, hw, Nat.add_sub_cancel] at hb ⊢
  have key : b ^^^ 2 ^ w = 2 ^ w + b := by
    refine Nat.eq_of_testBit_eq fun i => ?_
    rw [Nat.testBit_xor, Nat.testBit_two_pow]
    rcases lt_trichotomy i w with h | rfl | h
    · simp [Nat.testBit_two_pow_add_gt h, h.ne']
    · simp [Nat.testBit_two_pow_add_eq]
    · have h1 : (2 ^ w + b).testBit i = false := Nat.testBit_lt_two_pow (by
        have := Nat.pow_le_pow_right two_pos h
        rw [pow_succ] at this
        omega)
      rw [h1, Nat.testBit_lt_two_pow (hb.trans (Nat.pow_lt_pow_right (by decide) h))]
      simp [h.ne]
  cases F.neg x
  · simpa using key
  · simp only [if_true, Bool.not_true, Bool.false_eq_true, if_false, Nat.zero_add]
    rw [← key, Nat.xor_assoc, Nat.xor_self, Nat.xor_zero]

theorem val_congr {x y : Nat} (hb : F.body x = F.body y) (ok : F.Ok) : F.val y = match F.val x with
    | .nan => .nan
    | .inf _ => .inf (F.neg y)
    | .fin _ m e => .fin (F.neg y) m e := by
  unfold FFmt.val
  simp only [exp_eq ok, man_eq ok, hb]
  split
  · split <;> rfl
  · split
    · rfl
    · split <;> rfl

theorem val_negate (ok : F.Ok) {x : Nat} (hx : x < 2 ^ F.w) : F.val (F.negate x) = match F.val x with
    | .nan => .nan
    | .inf n => .inf (!n)
    | .fin n m e => .fin (!n) m e := by
  obtain ⟨-, hn, hb, -⟩ := sign_body ok (!F.neg x) (body_lt F x)
  have hx' := val_congr (rfl : F.body x = F.body x) ok
  rw [negate_eq ok hx, val_congr hb.symm ok, hn]
  revert hx'
  cases F.val x <;> simp [eq_comm]

/-! The operations on elements as they are read. -/

theorem addCore_exact (ok : F.Ok) {v : FEnv} {p q : Nat} {X : Int} {nq : Bool} {mq : Nat} {eq : Int} (hrnd : v.rnd < 4)
    (hp : F.finite p) (hq : F.val q = .fin nq mq eq) (hX : (X : ℝ) = F.units p + sgn nq * (mq * 2 ^ (eq + 149))) :
    F.Exact v X 1 (if F.neg p = nq then F.neg p else v.rnd == 3) (F.addCore v p q) := by
  obtain ⟨n, m, e, hv⟩ := (finite_iff_val F p).mp hp
  obtain ⟨hu, rfl, -⟩ := units_of_val ok hv
  simp only [FFmt.addCore, hv, hq]
  exact roundSum_exact ok hrnd one_pos (by rw [hX, hu, Nat.cast_one, div_one])

theorem add_exact (ok : F.Ok) {v : FEnv} {p0 q0 : Nat} (hrnd : v.rnd < 4) (hp : F.finite (F.flush v p0))
    (hq : F.finite (F.flush v q0)) : F.Exact v (F.units (F.flush v p0) + F.units (F.flush v q0)) 1
      (if F.neg (F.flush v p0) = F.neg (F.flush v q0) then F.neg (F.flush v p0) else v.rnd == 3) (F.add v p0 q0) := by
  obtain ⟨n, m, e, hv⟩ := (finite_iff_val F _).mp hq
  obtain ⟨hu, rfl, -⟩ := units_of_val ok hv
  exact addCore_exact ok hrnd hp hv (by rw [Int.cast_add, hu])

theorem sub_eq (F : FFmt) (v : FEnv) (p0 q0 : Nat) : F.sub v p0 q0 = F.addCore v (F.flush v p0)
    (if F.isNan (F.flush v q0) then F.flush v q0 else F.negate (F.flush v q0)) := rfl

theorem sub_exact (ok : F.Ok) {v : FEnv} {p0 q0 : Nat} (hrnd : v.rnd < 4) (hlt : q0 < 2 ^ F.w) (hp : F.finite (F.flush v p0))
    (hq : F.finite (F.flush v q0)) : F.Exact v (F.units (F.flush v p0) - F.units (F.flush v q0)) 1
      (if F.neg (F.flush v p0) = !F.neg (F.flush v q0) then F.neg (F.flush v p0) else v.rnd == 3) (F.sub v p0 q0) := by
  obtain ⟨n, m, e, hv⟩ := (finite_iff_val F _).mp hq
  obtain ⟨hu, rfl, -⟩ := units_of_val ok hv
  have hv' := val_negate ok (flush_lt ok v hlt)
  rw [hv] at hv'
  have hnan : F.isNan (F.flush v q0) = false := by simp [FFmt.isNan, hv]
  rw [sub_eq, hnan]
  simp only [Bool.false_eq_true, if_false]
  refine addCore_exact ok hrnd hp hv' ?_
  rw [Int.cast_sub, hu]
  cases F.neg (F.flush v q0) <;> simp [sub_eq_add_neg]

theorem sgn_bne (a b : Bool) : sgn (a != b) = sgn a * sgn b := by cases a <;> cases b <;> rfl

/-- A product of two finite elements, and the number and exponent that `mul` and `fma` form. -/
theorem units_mul (ok : F.Ok) {p q : Nat} {np nq : Bool} {mp mq : Nat} {ep eq : Int} (hp : F.val p = .fin np mp ep)
    (hq : F.val q = .fin nq mq eq) : ((F.units p * F.units q : Int) : ℝ) / (2 ^ 149 : Nat) =
      sgn (np != nq) * ((mp * mq : Nat) * 2 ^ (ep + eq + 149)) := by
  obtain ⟨hu, -⟩ := units_of_val ok hp
  obtain ⟨hu', -⟩ := units_of_val ok hq
  have h149 : ((2 ^ 149 : Nat) : ℝ) = 2 ^ (149 : Int) := by norm_cast
  rw [Int.cast_mul, hu, hu', sgn_bne, h149, show ep + eq + 149 = (ep + 149) + (eq + 149) - 149 by ring,
    zpow_sub₀ two_ne_zero, zpow_add₀ two_ne_zero (ep + 149)]
  push_cast
  ring

theorem mul_exact (ok : F.Ok) {v : FEnv} {p0 q0 : Nat} (hrnd : v.rnd < 4) (hp : F.finite (F.flush v p0))
    (hq : F.finite (F.flush v q0)) : F.Exact v (F.units (F.flush v p0) * F.units (F.flush v q0)) (2 ^ 149)
      (F.neg (F.flush v p0) != F.neg (F.flush v q0)) (F.mul v p0 q0) := by
  obtain ⟨np, mp, ep, hvp⟩ := (finite_iff_val F _).mp hp
  obtain ⟨nq, mq, eq, hvq⟩ := (finite_iff_val F _).mp hq
  obtain ⟨-, rfl, -⟩ := units_of_val ok hvp
  obtain ⟨-, rfl, -⟩ := units_of_val ok hvq
  simp only [FFmt.mul, hvp, hvq]
  exact round_exact ok hrnd (Nat.two_pow_pos _) (units_mul ok hvp hvq)

theorem fma_exact (ok : F.Ok) {v : FEnv} {p0 q0 r0 : Nat} (hrnd : v.rnd < 4) (hp : F.finite (F.flush v p0))
    (hq : F.finite (F.flush v q0)) (hr : F.finite (F.flush v r0)) :
    F.Exact v (F.units (F.flush v p0) * F.units (F.flush v q0) + 2 ^ 149 * F.units (F.flush v r0)) (2 ^ 149)
      (if (F.neg (F.flush v p0) != F.neg (F.flush v q0)) = F.neg (F.flush v r0)
        then F.neg (F.flush v p0) != F.neg (F.flush v q0) else v.rnd == 3) (F.fma v p0 q0 r0) := by
  obtain ⟨np, mp, ep, hvp⟩ := (finite_iff_val F _).mp hp
  obtain ⟨nq, mq, eq, hvq⟩ := (finite_iff_val F _).mp hq
  obtain ⟨nr, mr, er, hvr⟩ := (finite_iff_val F _).mp hr
  obtain ⟨-, rfl, -⟩ := units_of_val ok hvp
  obtain ⟨-, rfl, -⟩ := units_of_val ok hvq
  obtain ⟨hur, rfl, -⟩ := units_of_val ok hvr
  simp only [FFmt.fma, hvp, hvq, hvr]
  refine roundSum_exact ok hrnd (Nat.two_pow_pos _) ?_
  rw [← units_mul ok hvp hvq, ← hur, Int.cast_add, add_div]
  congr 1
  push_cast
  rw [mul_div_cancel_left₀ _ (by positivity)]

theorem val_fin_lt {x : Nat} {n : Bool} {m : Nat} {e : Int} (h : F.val x = .fin n m e) : m < 2 ^ (F.mw + 1) := by
  have hm : F.man x < 2 ^ F.mw := Nat.mod_lt _ (Nat.two_pow_pos _)
  rw [pow_succ]
  unfold FFmt.val at h
  simp only at h
  split at h
  · split at h <;> cases h
  · split at h
    · cases h
    · split at h <;> cases h <;> omega

theorem truncated_div (n : Nat) {b : Nat} (hb : 0 < b) : Truncated (n / b) (n % b != 0) ((n : ℝ) / b) := by
  have hb' : (0 : ℝ) < b := Nat.cast_pos.mpr hb
  have hdm := Nat.div_add_mod' n b
  refine ⟨Nat.cast_div_le, ?_, ?_⟩
  · rw [div_lt_iff₀ hb']
    exact_mod_cast Nat.lt_mul_of_div_lt (Nat.lt_succ_self _) hb
  · rw [lt_div_iff₀ hb', bne_iff_ne]
    norm_cast
    omega

theorem sign_div_natAbs {z : Int} (hz : z ≠ 0) : (z.sign : ℝ) / z.natAbs = 1 / z := by
  rcases lt_or_gt_of_ne hz with h | h
  · rw [Int.sign_eq_neg_one_of_neg h, Nat.cast_natAbs, abs_of_neg h]
    push_cast
    rw [neg_div_neg_eq]
  · rw [Int.sign_eq_one_of_pos h, Nat.cast_natAbs, abs_of_pos h, Int.cast_one]

theorem one_div_sgn (n : Bool) : (1 : ℝ) / sgn n = sgn n := by cases n <;> simp

/-- Division: the quotient of the shifted number holds more bits than FP32, and the remainder says whether more lies below. -/
theorem div_exact {v : FEnv} {p0 q0 : Nat} (hrnd : v.rnd < 4) (hp : fp32.finite (fp32.flush v p0))
    (hq : fp32.finite (fp32.flush v q0)) (hq0 : fp32.units (fp32.flush v q0) ≠ 0) :
    fp32.Exact v (fp32.units (fp32.flush v p0) * 2 ^ 149 * (fp32.units (fp32.flush v q0)).sign)
      (fp32.units (fp32.flush v q0)).natAbs (fp32.neg (fp32.flush v p0) != fp32.neg (fp32.flush v q0)) (fdiv32 v p0 q0) := by
  have ok := fp32_ok
  obtain ⟨np, mp, ep, hvp⟩ := (finite_iff_val _ _).mp hp
  obtain ⟨nq, mq, eq, hvq⟩ := (finite_iff_val _ _).mp hq
  obtain ⟨hup, rfl, -, hp0⟩ := units_of_val ok hvp
  obtain ⟨huq, rfl, -, hq0'⟩ := units_of_val ok hvq
  have hmq : mq ≠ 0 := mt hq0'.mpr hq0
  simp only [fdiv32, hvp, hvq, if_neg hmq]
  generalize fp32.units (fp32.flush v p0) = P at *
  generalize fp32.units (fp32.flush v q0) = Q at *
  generalize fp32.neg (fp32.flush v p0) = np at *
  generalize fp32.neg (fp32.flush v q0) = nq at *
  by_cases hmp : mp = 0
  · rw [if_pos hmp, hp0.mpr hmp]
    exact ⟨fun h => absurd (by simp) h, fun _ => rfl⟩
  · rw [if_neg hmp]
    have hP : P ≠ 0 := mt hp0.mp hmp
    have hX : P * 2 ^ 149 * Q.sign ≠ 0 := mul_ne_zero (mul_ne_zero hP (by decide)) (by simpa using hq0)
    refine ⟨fun _ => ?_, fun h => absurd h hX⟩
    refine round_rounds ok hrnd (Int.natAbs_pos.mpr hq0) hX (fun _ => ?_) (truncated_div _ (Nat.pos_of_ne_zero hmq)) ?_
    · have hlt : mq < 2 ^ 24 := val_fin_lt hvq
      rw [Nat.shiftLeft_eq, Nat.le_div_iff_mul_le (Nat.pos_of_ne_zero hmq)]
      calc 2 ^ 24 * mq ≤ 2 ^ 24 * 2 ^ 24 := Nat.mul_le_mul_left _ hlt.le
        _ ≤ 1 * 2 ^ 80 := by decide
        _ ≤ mp * 2 ^ 80 := Nat.mul_le_mul_right _ (Nat.pos_of_ne_zero hmp)
    · have e1 : ((P * 2 ^ 149 * Q.sign : Int) : ℝ) / (Q.natAbs : ℝ) = P * 2 ^ (149 : Int) * (1 / Q) := by
        rw [← sign_div_natAbs hq0, Int.cast_mul, Int.cast_mul, mul_div_assoc]
        norm_cast
      have e2 : ∀ y : ℝ, 1 / (sgn nq * y) = sgn nq * (1 / y) := fun y => by rw [← one_div_mul_one_div, one_div_sgn]
      have h80 : (2 : ℝ) ^ (80 : Int) = 2 ^ 80 := by norm_cast
      have hb : (2 : ℝ) ^ (eq + 149) ≠ 0 := (zpow_pos two_pos _).ne'
      rw [e1, hup, huq, e2, sgn_bne, Nat.shiftLeft_eq, show ep - eq - 80 + 149 = (ep + 149) + 149 - (eq + 149) - 80 by ring,
        zpow_sub₀ two_ne_zero, zpow_sub₀ two_ne_zero, zpow_add₀ two_ne_zero (ep + 149), h80]
      generalize (2 : ℝ) ^ (eq + 149) = y at *
      generalize (2 : ℝ) ^ (ep + 149) = x
      generalize (2 : ℝ) ^ (149 : Int) = c
      simp only [Int.cast_mul, Nat.cast_mul, Nat.cast_pow, Nat.cast_ofNat]
      field_simp

/-! NaNs and invalid operations (R141). -/

theorem addCore_nan_left {v : FEnv} {p : Nat} (q : Nat) (hp : F.val p = .nan) : F.addCore v p q = F.nanOf v p := by
  simp only [FFmt.addCore, hp]

theorem addCore_nan_right {v : FEnv} {p q : Nat} (hp : F.val p ≠ .nan) (hq : F.val q = .nan) :
    F.addCore v p q = F.nanOf v q := by
  simp only [FFmt.addCore, hq]

theorem nan_left {v : FEnv} {p0 : Nat} (q0 r0 : Nat) (hp : F.val (F.flush v p0) = .nan) :
    F.add v p0 q0 = F.nanOf v (F.flush v p0) ∧ F.sub v p0 q0 = F.nanOf v (F.flush v p0) ∧
      F.mul v p0 q0 = F.nanOf v (F.flush v p0) ∧ F.fma v p0 q0 r0 = F.nanOf v (F.flush v p0) :=
  ⟨addCore_nan_left _ hp, addCore_nan_left _ hp, by simp only [FFmt.mul, hp], by simp only [FFmt.fma, hp]⟩

theorem nan_right {v : FEnv} {p0 q0 : Nat} (r0 : Nat) (hp : F.val (F.flush v p0) ≠ .nan) (hq : F.val (F.flush v q0) = .nan) :
    F.add v p0 q0 = F.nanOf v (F.flush v q0) ∧ F.sub v p0 q0 = F.nanOf v (F.flush v q0) ∧
      F.mul v p0 q0 = F.nanOf v (F.flush v q0) ∧ F.fma v p0 q0 r0 = F.nanOf v (F.flush v q0) := by
  refine ⟨addCore_nan_right hp hq, ?_, ?_, ?_⟩
  · rw [sub_eq, if_pos ((isNan_iff F _).mpr hq)]
    exact addCore_nan_right hp hq
  · simp only [FFmt.mul, hq]
  · simp only [FFmt.fma, hq]

theorem fma_nan_last {v : FEnv} {p0 q0 r0 : Nat} (hp : F.val (F.flush v p0) ≠ .nan) (hq : F.val (F.flush v q0) ≠ .nan)
    (hr : F.val (F.flush v r0) = .nan) : F.fma v p0 q0 r0 = F.nanOf v (F.flush v r0) := by
  simp only [FFmt.fma, hr]

/-- A sum of opposite infinities. -/
theorem add_opposite {v : FEnv} {p0 q0 : Nat} {n : Bool} (hp : F.val (F.flush v p0) = .inf n)
    (hq : F.val (F.flush v q0) = .inf (!n)) : F.add v p0 q0 = F.invalid := by
  simp only [FFmt.add, FFmt.addCore, hp, hq]
  cases n <;> rfl

theorem sub_same (ok : F.Ok) {v : FEnv} {p0 q0 : Nat} {n : Bool} (hlt : q0 < 2 ^ F.w) (hp : F.val (F.flush v p0) = .inf n)
    (hq : F.val (F.flush v q0) = .inf n) : F.sub v p0 q0 = F.invalid := by
  have hv := val_negate ok (flush_lt ok v hlt)
  have hnan : F.isNan (F.flush v q0) = false := by simp [FFmt.isNan, hq]
  rw [hq] at hv
  rw [sub_eq, hnan]
  simp only [Bool.false_eq_true, if_false, FFmt.addCore, hp, hv]
  cases n <;> rfl

/-- A factor that is an infinity and one that is a zero. -/
theorem mul_inf_zero {v : FEnv} {p0 q0 : Nat}
    (h : (F.val (F.flush v p0) = .inf (F.neg (F.flush v p0)) ∧ ∃ n e, F.val (F.flush v q0) = .fin n 0 e) ∨
      (F.val (F.flush v q0) = .inf (F.neg (F.flush v q0)) ∧ ∃ n e, F.val (F.flush v p0) = .fin n 0 e)) :
    F.mul v p0 q0 = F.invalid ∧ ∀ r0, F.val (F.flush v r0) ≠ .nan → F.fma v p0 q0 r0 = F.invalid := by
  obtain ⟨hp, n, e, hq⟩ | ⟨hq, n, e, hp⟩ := h
  · refine ⟨by simp only [FFmt.mul, hp, hq, if_true], fun r0 hr => ?_⟩
    simp only [FFmt.fma, hp, hq]
    cases h : F.val (F.flush v r0)
    case nan => exact absurd h hr
    all_goals simp
  · refine ⟨by simp only [FFmt.mul, hp, hq, if_true], fun r0 hr => ?_⟩
    simp only [FFmt.fma, hp, hq]
    cases h : F.val (F.flush v r0)
    case nan => exact absurd h hr
    all_goals simp

/-- An infinite product: its sign, and an infinity of the other sign added to it. -/
theorem mul_inf {v : FEnv} {p0 q0 : Nat} {np : Bool} (hp : F.val (F.flush v p0) = .inf np)
    (hq : (∃ n m e, F.val (F.flush v q0) = .fin n m e ∧ m ≠ 0 ∧ n = F.neg (F.flush v q0)) ∨
      F.val (F.flush v q0) = .inf (F.neg (F.flush v q0))) :
    F.mul v p0 q0 = (F.infBits (np != F.neg (F.flush v q0)), Ev.zero) ∧
      ∀ r0, F.val (F.flush v r0) = .inf (!(np != F.neg (F.flush v q0))) → F.fma v p0 q0 r0 = F.invalid := by
  obtain ⟨n, m, e, hq, hm, rfl⟩ | hq := hq
  · refine ⟨by simp only [FFmt.mul, hp, hq, if_neg hm], fun r0 hr => ?_⟩
    simp only [FFmt.fma, hp, hq, hr]
    simp [hm]
  · refine ⟨by simp only [FFmt.mul, hp, hq], fun r0 hr => ?_⟩
    simp only [FFmt.fma, hp, hq, hr]
    simp

theorem div_by_zero {v : FEnv} {p0 q0 : Nat} (hp : fp32.finite (fp32.flush v p0)) (hq : fp32.finite (fp32.flush v q0))
    (hq0 : fp32.units (fp32.flush v q0) = 0) : fdiv32 v p0 q0 = if fp32.units (fp32.flush v p0) = 0 then fp32.invalid
      else (fp32.infBits (fp32.neg (fp32.flush v p0) != fp32.neg (fp32.flush v q0)), Ev.zero) := by
  have ok := fp32_ok
  obtain ⟨np, mp, ep, hvp⟩ := (finite_iff_val _ _).mp hp
  obtain ⟨nq, mq, eq, hvq⟩ := (finite_iff_val _ _).mp hq
  obtain ⟨-, rfl, -, hp0⟩ := units_of_val ok hvp
  obtain ⟨-, rfl, -, hq0'⟩ := units_of_val ok hvq
  simp only [fdiv32, hvp, hvq, hq0'.mp hq0, if_true, hp0]

end

end Sys2Proof.Machine
end

section
/-!
The instructions: what `alu_spec` and `aluEv_spec` say of one whose meaning is `alu` or `aluEv`.
-/

namespace Sys2Proof.Machine

theorem computesEv_of_exec {i : Instr} {s : State} {h : Hdr} {d : Opd} {src : List Opd} {f : Site → Nat → Word × Ev}
    (he : exec i s = s.aluEv h d src f) (hd : d.isReg ∧ (d.isG → uniform (d :: src))) : ComputesEv i s h d src f := by
  intro x hx
  obtain ⟨t, g, ht, hg, hw, ha, ho⟩ := aluEv_spec s h d src f hd.1 hd.2 x hx
  exact ⟨t, g, he.trans ht, hg, hw, ha, ho⟩

theorem computes_of_exec {i : Instr} {s : State} {h : Hdr} {d : Opd} {src : List Opd} {f : Site → Nat → Word}
    (he : exec i s = s.alu h d src f) (hd : d.isReg ∧ (d.isG → uniform (d :: src))) : Computes i s h d src f := by
  intro x hx
  obtain ⟨t, g, ht, hg, hw, ha, ho⟩ := alu_spec s h d src f hd.1 hd.2 x hx
  exact ⟨t, g, he.trans ht, hg, hw, ha, ho⟩

theorem opdIsV_eq (o : Opd) : opdIsV o = o.isV := by cases o <;> rfl

/-- A written destination that does not mix with its sources (R155). -/
theorem written_of_noMix {d : Opd} {l : List Opd} (hd : d.vgt) (hm : noMix d l) : d.isReg ∧ (d.isG → uniform (d :: l)) := by
  refine ⟨by revert hd; cases d <;> simp [Opd.vgt, Opd.isReg, Opd.isV, Opd.isG, Opd.isT, Opd.isP], fun hg => ?_⟩
  have hl : l.any Opd.isV = false := by simpa [noMix, hg] using hm
  have hv : d.isV = false := by revert hg; cases d <;> simp [Opd.isG, Opd.isV]
  have : opdIsV = Opd.isV := funext opdIsV_eq
  rw [uniform, List.any_cons, this, hv, hl]
  rfl

theorem written_of_wfFBin {d a b : Opd} (h : wfFBin d a b) : d.isReg ∧ (d.isG → uniform [d, a, b]) := by
  simp only [wfFBin, Bool.and_eq_true] at h
  obtain ⟨⟨⟨hd, -⟩, -⟩, hm⟩ := h
  exact written_of_noMix hd hm

theorem written_of_wfFUn {d a : Opd} (h : wfFUn d a) : d.isReg ∧ (d.isG → uniform [d, a]) := by
  simp only [wfFUn, Bool.and_eq_true] at h
  obtain ⟨⟨hd, -⟩, hm⟩ := h
  exact written_of_noMix hd hm

/-- `fma` reads its destination as well (R61). -/
theorem written_of_fma {d a b : Opd} (h : wfFBin d a b) : d.isReg ∧ (d.isG → uniform [d, a, b, d]) := by
  obtain ⟨h1, h2⟩ := written_of_wfFBin h
  refine ⟨h1, fun hg => ?_⟩
  have hu := h2 hg
  simp only [uniform, List.any_cons, List.any_nil, Bool.or_false, Bool.not_or, Bool.and_eq_true] at hu ⊢
  obtain ⟨hud, hua, hub⟩ := hu
  exact ⟨hud, hua, hub, hud⟩

end Sys2Proof.Machine
end

section
/-! Floating arithmetic (R182 to R185, R188). -/

namespace Sys2Proof.Machine

section
variable {F : FFmt}

theorem val_not_nan {x : Nat} (h : F.isNan x = false) : F.val x ≠ .nan := fun hv => by simp [FFmt.isNan, hv] at h

theorem inf_or_units (ok : F.Ok) {x : Nat} (h : (F.finite x ∧ F.units x ≠ 0) ∨ F.val x = .inf (F.neg x)) :
    (∃ n m e, F.val x = .fin n m e ∧ m ≠ 0 ∧ n = F.neg x) ∨ F.val x = .inf (F.neg x) := by
  refine h.imp_left fun ⟨hf, hu⟩ => ?_
  obtain ⟨n, m, e, hv⟩ := (finite_iff_val F x).mp hf
  obtain ⟨-, hn, -, h0⟩ := units_of_val ok hv
  exact ⟨n, m, e, hv, mt h0.mpr hu, hn⟩

theorem val_of_zero (ok : F.Ok) {x : Nat} (h : F.finite x) (h0 : F.units x = 0) : ∃ e, F.val x = .fin (F.neg x) 0 e := by
  obtain ⟨n, m, e, hv⟩ := (finite_iff_val F x).mp h
  obtain ⟨-, hn, -, hm⟩ := units_of_val ok hv
  exact ⟨e, by rw [hv, hm.mp h0, hn]⟩

end

/-- Settles O7: each instruction is one use of `aluEv_spec` or `alu_spec`; the values are those of the lemmas about `add`, `sub`,
`mul`, `fma` and the division above. -/
theorem floatArithmeticResults : Obligations.FloatArithmeticResults := by
  unfold Obligations.FloatArithmeticResults
  intro s h ty m d a b env elem two
  refine ⟨fun hw => ?_, fun hw => ?_, fun hw => ?_, fun F hF v p0 q0 r0 hrnd hp0 hq0 hr0 => ?_⟩
  · have hd := written_of_wfFBin hw
    refine ⟨computesEv_of_exec rfl hd, computesEv_of_exec rfl hd, computesEv_of_exec rfl hd,
      computesEv_of_exec rfl (written_of_fma hw), ?_⟩
    rintro rfl
    exact computesEv_of_exec rfl hd
  · have hd := written_of_wfFBin (Bool.and_eq_true_iff.mp hw).1
    exact ⟨computesEv_of_exec rfl hd, computesEv_of_exec rfl hd⟩
  · have hd := written_of_wfFUn hw
    exact ⟨computes_of_exec rfl hd, computes_of_exec rfl hd⟩
  · have ok := ok_of_mem3 hF
    intro p q r exact' zero nan bad neg
    refine ⟨fun hp hq => ⟨add_exact ok hrnd hp hq, sub_exact ok hrnd hq0 hp hq, mul_exact ok hrnd hp hq,
        fun hr => fma_exact ok hrnd hp hq hr⟩,
      fun hp => nan_left _ _ ((isNan_iff F _).mp hp),
      fun hp hq => nan_right _ (val_not_nan hp) ((isNan_iff F _).mp hq),
      fun hp hq hr => fma_nan_last (val_not_nan hp) (val_not_nan hq) ((isNan_iff F _).mp hr),
      fun n hp => ⟨add_opposite hp, sub_same ok hq0 hp⟩, fun hpq => ?_, fun hp hq => ?_, ?_⟩
    · obtain ⟨h1, h2⟩ := mul_inf_zero (hpq.imp (fun ⟨h, hf, h0⟩ => ⟨h, _, val_of_zero ok hf h0⟩)
        (fun ⟨h, hf, h0⟩ => ⟨h, _, val_of_zero ok hf h0⟩))
      exact ⟨h1, fun hr => h2 r0 (val_not_nan hr)⟩
    · obtain ⟨h1, h2⟩ := mul_inf hp (inf_or_units ok hq)
      exact ⟨h1, h2 r0⟩
    · rintro rfl hp hq
      exact ⟨div_exact hrnd hp hq, div_by_zero hp hq⟩

end Sys2Proof.Machine
end

section
/-!
Roots (R188, R189): `fsqrt32` and `frsqrt32` take the integer part of a root of a number shifted far enough; that the square misses
the number says whether more lies below. The result is then the exact root rounded once.
-/

namespace Sys2Proof.Machine

theorem isqrtFrom_spec (n k r : Nat) (hlo : r * r ≤ n) (hhi : n < (r + 2 ^ (k + 1)) * (r + 2 ^ (k + 1))) :
    isqrtFrom n k r * isqrtFrom n k r ≤ n ∧ n < (isqrtFrom n k r + 1) * (isqrtFrom n k r + 1) := by
  induction k generalizing r with
  | zero =>
    unfold isqrtFrom
    split
    · exact ⟨by assumption, hhi⟩
    · exact ⟨hlo, Nat.not_le.mp (by assumption)⟩
  | succ k ih =>
    unfold isqrtFrom
    split
    · refine ih _ (by assumption) ?_
      rwa [Nat.add_assoc, ← Nat.two_mul, ← Nat.pow_succ']
    · exact ih _ hlo (Nat.not_le.mp (by assumption))

theorem isqrt_eq_sqrt (n : Nat) : isqrt n = Nat.sqrt n := by
  have hlt : n < (0 + 2 ^ (n.log2 / 2 + 1 + 1)) * (0 + 2 ^ (n.log2 / 2 + 1 + 1)) := by
    rw [Nat.zero_add, ← Nat.pow_add]
    exact Nat.lt_log2_self.trans_le (Nat.pow_le_pow_right two_pos (by omega))
  obtain ⟨h1, h2⟩ := isqrtFrom_spec n _ 0 (Nat.zero_le n) hlt
  exact Nat.eq_sqrt.mpr ⟨h1, h2⟩

theorem truncated_sqrt {y : ℝ} {r : Nat} {st : Bool} (hlo : (r : ℝ) ^ 2 ≤ y) (hhi : y < ((r : ℝ) + 1) ^ 2)
    (hst : st = true ↔ (r : ℝ) ^ 2 ≠ y) : Truncated r st (√y) := by
  have hr : (0 : ℝ) ≤ r := Nat.cast_nonneg r
  refine ⟨Real.le_sqrt_of_sq_le hlo, (Real.sqrt_lt' (by positivity)).mpr hhi, ?_⟩
  rw [hst, Real.lt_sqrt hr]
  exact ⟨fun h => lt_of_le_of_ne hlo h, fun h => h.ne⟩

/-! Comparing a natural number with a root. -/

theorem le_root_iff {N D : Nat} (hD : 0 < D) (z : Nat) : (z : ℝ) ≤ √((N : ℝ) / D) ↔ z ^ 2 * D ≤ N := by
  rw [Real.le_sqrt (Nat.cast_nonneg z) (by positivity), le_div_iff₀ (Nat.cast_pos.mpr hD)]
  exact_mod_cast Iff.rfl

theorem root_le_iff {N D : Nat} (hD : 0 < D) (z : Nat) : √((N : ℝ) / D) ≤ z ↔ N ≤ z ^ 2 * D := by
  rw [Real.sqrt_le_left (Nat.cast_nonneg z), div_le_iff₀ (Nat.cast_pos.mpr hD)]
  exact_mod_cast Iff.rfl

theorem two_root (N D : Nat) : √((N : ℝ) / D) + √((N : ℝ) / D) = √(((4 * N : Nat) : ℝ) / D) := by
  rw [← two_mul, Nat.cast_mul, mul_div_assoc, Real.sqrt_mul (Nat.cast_nonneg _), show ((4 : Nat) : ℝ) = 2 ^ 2 by norm_num,
    Real.sqrt_sq two_pos.le]

/-! Bounds of an index from bounds of the value. -/

theorem GridRounded.le_index {rnd b c : Nat} {neg : Bool} {f : Nat → ℝ} {V : ℝ} (h : GridRounded rnd neg f V b) (hf : StrictMono f)
    (hrnd : rnd < 4) (hc : f c ≤ V) : c ≤ b := by
  by_contra hlt
  have hlt := Nat.not_le.mp hlt
  have hfc := hf hlt
  by_cases h0 : rnd = 0
  · linarith [(h.above h0 c hlt).1]
  · by_cases ht : rnd = 1 ∨ (rnd = 2 ∧ neg = true) ∨ (rnd = 3 ∧ neg = false)
    · linarith [(h.toward ht).2, hf.monotone (Nat.succ_le_of_lt hlt)]
    · linarith [(h.away (by cases neg <;> simp at ht ⊢ <;> omega)).1]

theorem GridRounded.index_le {rnd b c : Nat} {neg : Bool} {f : Nat → ℝ} {V : ℝ} (h : GridRounded rnd neg f V b) (hf : StrictMono f)
    (hrnd : rnd < 4) (hc : V ≤ f c) : b ≤ c := by
  by_contra hlt
  have hlt := Nat.not_le.mp hlt
  have hfc := hf hlt
  by_cases h0 : rnd = 0
  · linarith [(h.below h0 c hlt).1]
  · by_cases ht : rnd = 1 ∨ (rnd = 2 ∧ neg = true) ∨ (rnd = 3 ∧ neg = false)
    · linarith [(h.toward ht).1]
    · linarith [(h.away (by cases neg <;> simp at ht ⊢ <;> omega)).2 c hlt]

theorem fp32_pos_max : fp32.pos fp32.maxBits = (2 ^ 24 - 1) * 2 ^ 253 := by decide +kernel

theorem fp32_pos_normal : fp32.pos (2 ^ 23) = 2 ^ 23 := by decide +kernel

/-- An index is the root rounded (R139). -/
theorem rootRounded_of_grid {rnd N D b : Nat} (hD : 0 < D) (h : GridRounded rnd false fp32.grid (√((N : ℝ) / D)) b)
    (hb : b ≤ fp32.maxBits) : RootRounded rnd N D b := by
  have strict {c d} : fp32.pos c < fp32.pos d → c < d := (pos_strictMono fp32).lt_iff_lt.mp
  have mono {c d} (hcd : c ≤ d) : fp32.pos c ≤ fp32.pos d := (pos_strictMono fp32).monotone hcd
  have hu {c} (hc : c ≤ fp32.maxBits) : (fp32.units c).toNat = fp32.pos c := by rw [units_magnitude fp32_ok hc, Int.toNat_natCast]
  refine ⟨hb.trans_lt (maxBits_lt fp32_ok), by simpa [FFmt.sign] using finite_sign_add fp32_ok false hb, fun y hy hyf => ?_⟩
  have hyb : fp32.body y = y := Nat.mod_eq_of_lt hy
  have hym : y ≤ fp32.maxBits := by simpa only [hyb] using (finite_iff fp32_ok y).mp hyf
  simp only [hu hb, hu hym]
  have hgrid : fp32.grid = fun c => (fp32.pos c : ℝ) := rfl
  rw [hgrid] at h
  refine ⟨fun hr => ⟨fun hlt => ?_, fun hlt => ?_⟩, fun hr => ?_, fun hr => ?_⟩
  · have := (h.above hr y (strict hlt)).1
    rw [two_root] at this
    exact (root_le_iff hD _).mp (by push_cast; exact_mod_cast this)
  · have := (h.below hr y (strict hlt)).1
    rw [two_root, add_comm] at this
    exact (le_root_iff hD _).mp (by push_cast; exact_mod_cast this)
  · obtain ⟨h1, h2⟩ := h.toward (hr.imp_right fun h => .inr ⟨h, rfl⟩)
    refine ⟨(le_root_iff hD _).mp h1, fun hle => mono (Nat.lt_succ_iff.mp (strict ?_))⟩
    exact_mod_cast ((le_root_iff hD _).mpr hle).trans_lt h2
  · obtain ⟨h1, h2⟩ := h.away (.inl ⟨hr, rfl⟩)
    refine ⟨(root_le_iff hD _).mp h1, fun hle => mono (not_lt.mp fun hlt => ?_)⟩
    exact (h2 y hlt).not_ge ((root_le_iff hD _).mpr hle)

/-- A root that is neither subnormal nor beyond the largest element, rounded once without an event. -/
theorem round_root {v : FEnv} {N D m : Nat} {e : Int} {st : Bool} {a : ℝ} (hrnd : v.rnd < 4) (hD : 0 < D) (hm : 2 ^ 24 ≤ m)
    (ht : Truncated m st a) (ha : a * 2 ^ (e + 149) = √((N : ℝ) / D)) (hlo : (2 ^ 23) ^ 2 * D ≤ N)
    (hhi : N ≤ ((2 ^ 24 - 1) * 2 ^ 253) ^ 2 * D) :
    ∃ k, fp32.round v false m e st = (k, Ev.zero) ∧ RootRounded v.rnd N D k := by
  obtain ⟨b, hb, he⟩ := round_gridRounded (neg := false) (e := e) fp32_ok hrnd (by omega) (fun _ => hm) ht
  rw [ha] at hb
  have h1 : 2 ^ 23 ≤ b := hb.le_index (grid_strictMono fp32) hrnd (by
    rw [FFmt.grid, fp32_pos_normal]
    exact (le_root_iff hD _).mpr hlo)
  have h2 : b ≤ fp32.maxBits := hb.index_le (grid_strictMono fp32) hrnd (by
    rw [FFmt.grid, fp32_pos_max]
    exact (root_le_iff hD _).mpr hhi)
  refine ⟨b, ?_, rootRounded_of_grid hD hb h2⟩
  have hsub : ¬ b < 2 ^ fp32.mw := Nat.not_lt.mpr h1
  rw [he, FFmt.encode, if_neg (Nat.not_lt.mpr h2)]
  simp [hsub, FFmt.sign]

/-! The two functions. -/

/-- A positive finite element: its number in units, and the number and exponent that its value holds. -/
theorem positive_parts {p : Nat} (hp : fp32.finite p) (h0 : 0 < fp32.units p) :
    ∃ m e, fp32.val p = .fin false m e ∧ m ≠ 0 ∧ m < 2 ^ 24 ∧ ((fp32.units p).toNat : ℝ) = m * 2 ^ (e + 149) ∧
      0 < (fp32.units p).toNat ∧ (fp32.units p).toNat ≤ (2 ^ 24 - 1) * 2 ^ 253 := by
  obtain ⟨n, m, e, hv⟩ := (finite_iff_val _ _).mp hp
  obtain ⟨hu, hn, -, hm0⟩ := units_of_val fp32_ok hv
  have hle := (finite_iff fp32_ok p).mp hp
  have hmax := (pos_strictMono fp32).monotone hle
  rw [fp32_pos_max] at hmax
  have hb := units_of_finite fp32_ok hp
  rw [← hn] at hb
  cases n
  case true =>
    rw [sgn_true] at hb
    omega
  rw [sgn_false, Int.one_mul] at hb
  refine ⟨m, e, hv, mt hm0.mpr h0.ne', val_fin_lt hv, ?_, by omega, by rw [hb, Int.toNat_natCast]; exact hmax⟩
  have hz : (((fp32.units p).toNat : Int) : ℝ) = fp32.units p := by rw [Int.toNat_of_nonneg h0.le]
  rw [← Int.cast_natCast (R := ℝ), hz, hu]
  simp

/-- A root by its square. -/
theorem eq_sqrt_of_sq {x y : ℝ} (hx : 0 ≤ x) (h : x ^ 2 = y) : x = √y := by rw [← h, Real.sqrt_sq hx]

theorem sqrt_shift_sq (m : Nat) {e f h : Int} {n : ℝ} {sh : Nat} (hn : n = m * 2 ^ (e + 149)) (hh : 2 * h = e - sh)
    (hf : f = h + 149) : (√((m * 2 ^ sh : Nat) : ℝ) * 2 ^ f) ^ 2 = n * 2 ^ (149 : Int) := by
  have he : (2 : ℝ) ^ (e + 149) * 2 ^ (149 : Int) = 2 ^ sh * (2 ^ f) ^ 2 := by
    rw [← zpow_natCast (2 ^ f), ← zpow_mul, ← zpow_natCast 2 sh, ← zpow_add₀ two_ne_zero, ← zpow_add₀ two_ne_zero]
    congr 1
    push_cast
    omega
  rw [mul_pow, Real.sq_sqrt (Nat.cast_nonneg _), hn, mul_assoc, he]
  push_cast
  ring

theorem fsqrt32_root {v : FEnv} {p0 : Nat} (hrnd : v.rnd < 4) (hp : fp32.finite (fp32.flush v p0))
    (h0 : 0 < fp32.units (fp32.flush v p0)) :
    ∃ k, fsqrt32 v p0 = (k, Ev.zero) ∧ RootRounded v.rnd ((fp32.units (fp32.flush v p0)).toNat * 2 ^ 149) 1 k := by
  obtain ⟨m, e, hv, hm, -, hn, hpos, hmax⟩ := positive_parts hp h0
  generalize (fp32.units (fp32.flush v p0)).toNat = n at *
  simp only [fsqrt32, hv, if_neg hm, Bool.false_eq_true, if_false, isqrt_eq_sqrt]
  obtain ⟨sh, hsh, heven, hge⟩ : ∃ sh : Nat, (if e % 2 = 0 then 80 else 81) = sh ∧ (e - sh) % 2 = 0 ∧ 80 ≤ sh := by
    split
    · exact ⟨80, rfl, by omega, le_rfl⟩
    · exact ⟨81, rfl, by omega, by omega⟩
  rw [hsh, Nat.shiftLeft_eq]
  have hbig : 2 ^ 24 ≤ Nat.sqrt (m * 2 ^ sh) := by
    rw [Nat.le_sqrt, ← Nat.pow_add]
    calc 2 ^ (24 + 24) ≤ 2 ^ sh := Nat.pow_le_pow_right two_pos (by omega)
      _ ≤ m * 2 ^ sh := Nat.le_mul_of_pos_left _ (Nat.pos_of_ne_zero hm)
  refine round_root hrnd one_pos hbig (truncated_sqrt (y := ((m * 2 ^ sh : Nat) : ℝ)) ?_ ?_ ?_) ?_ ?_ ?_
  · exact_mod_cast Nat.sqrt_le' _
  · exact_mod_cast Nat.lt_succ_sqrt' _
  · rw [bne_iff_ne, ← Nat.pow_two]
    exact_mod_cast Iff.rfl
  · refine eq_sqrt_of_sq (by positivity) ?_
    rw [sqrt_shift_sq m (h := (e - sh) / 2) hn (by omega) rfl]
    norm_cast
    simp
  · nlinarith
  · exact (Nat.mul_le_mul_right _ hmax).trans (by norm_num)

theorem frsqrt32_root {v : FEnv} {p0 : Nat} (hr : v.rnd = 0) (hp : fp32.finite (fp32.flush v p0))
    (h0 : 0 < fp32.units (fp32.flush v p0)) :
    ∃ k, frsqrt32 v p0 = (k, Ev.zero) ∧ RootRounded v.rnd (2 ^ 447) (fp32.units (fp32.flush v p0)).toNat k := by
  obtain ⟨m, e, hv, hm, hmlt, hn, hpos, hmax⟩ := positive_parts hp h0
  generalize (fp32.units (fp32.flush v p0)).toNat = n at *
  simp only [frsqrt32, hv, if_neg hm, Bool.false_eq_true, if_false, isqrt_eq_sqrt]
  obtain ⟨y, h, hy, hh, hye, hy1, hylt⟩ : ∃ (y : Nat) (h : Int), (if e % 2 = 0 then m else 2 * m) = y ∧
      (if e % 2 = 0 then e / 2 else (e - 1) / 2) = h ∧ (y : ℝ) * 2 ^ (2 * h) = m * 2 ^ e ∧ 0 < y ∧ y < 2 ^ 25 := by
    split
    · refine ⟨m, e / 2, rfl, rfl, ?_, by omega, by omega⟩
      rw [show 2 * (e / 2) = e by omega]
    · refine ⟨2 * m, (e - 1) / 2, rfl, rfl, ?_, by omega, by omega⟩
      rw [show 2 * ((e - 1) / 2) = e - 1 by omega, zpow_sub₀ two_ne_zero]
      push_cast
      ring
  rw [hy, hh]
  have hy0 : (0 : ℝ) < y := Nat.cast_pos.mpr hy1
  have hbig : 2 ^ 24 ≤ Nat.sqrt (2 ^ 160 / y) := by
    rw [Nat.le_sqrt, Nat.le_div_iff_mul_le hy1]
    exact (Nat.mul_le_mul_left _ hylt.le).trans (by norm_num)
  have hlo := (Nat.le_div_iff_mul_le hy1).mp (Nat.sqrt_le' (2 ^ 160 / y))
  have hhi := (Nat.div_lt_iff_lt_mul hy1).mp (Nat.lt_succ_sqrt' (2 ^ 160 / y))
  generalize Nat.sqrt (2 ^ 160 / y) = r at *
  refine round_root (by omega) hpos hbig (truncated_sqrt (y := (2 ^ 160 : ℝ) / y) ?_ ?_ ?_) ?_ ?_ ?_
  · rw [le_div_iff₀ hy0]
    exact_mod_cast hlo
  · rw [div_lt_iff₀ hy0]
    exact_mod_cast hhi
  · rw [bne_iff_ne, ← Nat.pow_two, Ne, Ne, eq_div_iff hy0.ne']
    exact_mod_cast Iff.rfl
  · refine eq_sqrt_of_sq (by positivity) ?_
    have hn' : (n : ℝ) = y * 2 ^ (2 * h) * 2 ^ (149 : Int) := by rw [hye, hn, zpow_add₀ two_ne_zero, mul_assoc]
    have he : (2 ^ (-h - 80 + 149)) ^ 2 * ((2 : ℝ) ^ (2 * h) * 2 ^ (149 : Int)) * 2 ^ 160 = 2 ^ 447 := by
      rw [← zpow_natCast (2 ^ (-h - 80 + 149)), ← zpow_mul, ← zpow_natCast 2 160, ← zpow_natCast 2 447, ← zpow_add₀ two_ne_zero,
        ← zpow_add₀ two_ne_zero, ← zpow_add₀ two_ne_zero]
      congr 1
      push_cast
      omega
    rw [mul_pow, Real.sq_sqrt (by positivity), hn', Nat.cast_pow, Nat.cast_ofNat, ← he]
    have h1 : (2 : ℝ) ^ (2 * h) ≠ 0 := (zpow_pos two_pos _).ne'
    have h2 : (2 : ℝ) ^ (149 : Int) ≠ 0 := (zpow_pos two_pos _).ne'
    generalize (2 : ℝ) ^ (2 * h) = x at *
    generalize (2 : ℝ) ^ (149 : Int) = c at *
    field_simp
  · exact (Nat.mul_le_mul_left _ hmax).trans (by decide +kernel)
  · exact le_trans (by decide +kernel) (Nat.le_mul_of_pos_right _ hpos)

theorem root_of_negative {v : FEnv} {p0 : Nat}
    (h : fp32.finite (fp32.flush v p0) ∧ fp32.units (fp32.flush v p0) < 0 ∨ fp32.val (fp32.flush v p0) = .inf true) :
    fsqrt32 v p0 = fp32.invalid ∧ frsqrt32 v p0 = fp32.invalid := by
  obtain ⟨hf, h0⟩ | hv := h
  · obtain ⟨n, m, e, hv⟩ := (finite_iff_val _ _).mp hf
    obtain ⟨hu, hn, -, hm0⟩ := units_of_val fp32_ok hv
    have hm : m ≠ 0 := mt hm0.mpr h0.ne
    cases n
    case false =>
      have hb := units_of_finite fp32_ok hf
      rw [← hn, sgn_false] at hb
      omega
    exact ⟨by simp only [fsqrt32, hv, if_neg hm, if_true], by simp only [frsqrt32, hv, if_neg hm, if_true]⟩
  · exact ⟨by simp only [fsqrt32, hv, if_true], by simp only [frsqrt32, hv, if_true]⟩

/-- Settles O8: the instructions by `aluEv_spec`, the roots by `fsqrt32_root` and `frsqrt32_root`. -/
theorem floatFunctionResults : Obligations.FloatFunctionResults := by
  unfold Obligations.FloatFunctionResults
  intro s h m d a b one
  refine ⟨fun hw => ?_, fun hw => ?_, fun v p0 hrnd _ => ⟨fun hp h0 => ?_, fun hneg => ?_⟩⟩
  · have hd := written_of_wfFUn hw
    refine ⟨computesEv_of_exec rfl hd, computesEv_of_exec rfl hd, fun _ => ?_, fun _ => computesEv_of_exec rfl hd⟩
    exact ⟨computesEv_of_exec rfl hd, computesEv_of_exec rfl hd, computesEv_of_exec rfl hd, computesEv_of_exec rfl hd,
      computesEv_of_exec rfl hd, computesEv_of_exec rfl hd⟩
  · simp only [Instr.wf, Bool.and_eq_true] at hw
    obtain ⟨⟨⟨hd, -⟩, -⟩, hm⟩ := hw
    exact computesEv_of_exec rfl (written_of_noMix hd hm)
  · exact ⟨fsqrt32_root hrnd hp h0, frsqrt32_root (v := { v with rnd := 0 }) rfl hp h0⟩
  · exact ⟨(root_of_negative hneg).1, (root_of_negative (v := { v with rnd := 0 }) hneg).2⟩

end Sys2Proof.Machine
end

section
/-!
Conversions (R142 to R144): between floating formats, of a floating element to an integer and back, and what a NaN and an infinity
become.
-/

namespace Sys2Proof.Machine

section
variable {F G : FFmt}

theorem cvtFF_exact (ok : F.Ok) (okG : G.Ok) {v : FEnv} {p0 : Nat} (hrnd : v.rnd < 4) (hp : F.finite (F.flush v p0)) :
    G.Exact v (F.units (F.flush v p0)) 1 (F.neg (F.flush v p0)) (cvtFF F G v p0) := by
  obtain ⟨n, m, e, hv⟩ := (finite_iff_val F _).mp hp
  obtain ⟨hu, rfl, -⟩ := units_of_val ok hv
  have he : cvtFF F G v p0 = G.round v (F.neg (F.flush v p0)) m e false := by
    simp only [cvtFF, hv]
    split
    · rename_i h
      rw [h, round_zero]
    · rfl
  rw [he]
  exact round_exact okG hrnd one_pos (by rw [hu, Nat.cast_one, div_one])

theorem cvtFF_inf {v : FEnv} {p0 : Nat} {n : Bool} (hp : F.val (F.flush v p0) = .inf n) :
    cvtFF F G v p0 = if G.inf then (G.infBits n, Ev.zero) else G.overflow v n := by
  simp only [cvtFF, hp]

theorem cvtIF_exact (okG : G.Ok) {v : FEnv} (hrnd : v.rnd < 4) (z : Int) :
    G.Exact v (z * 2 ^ 149) 1 (decide (z < 0)) (cvtIF G v z) := by
  refine round_exact okG hrnd one_pos ?_
  have h := congrArg (Int.cast (R := ℝ)) (sgn_mul_natAbs z)
  rw [Int.cast_mul, Int.cast_natCast] at h
  rw [Nat.cast_one, div_one, ← mul_assoc, ← h, Int.cast_mul, zero_add]
  norm_cast

/-! To an integer. -/

/-- The exact value as whole units and a part below, and where rounding goes up: the rounded integer (R143). -/
theorem intRounded_of_parts {rnd k w : Nat} {n up : Bool} (hw : w < 2 ^ 149)
    (hup : up = true ↔ RoundsUp rnd n k ((w : ℝ) / 2 ^ 149)) :
    IntRounded rnd (sgn n * (k * 2 ^ 149 + w : Nat)) (sgn n * (if up then k + 1 else k : Nat)) := by
  have hp : (0 : ℝ) < 2 ^ 149 := by positivity
  have half : (1 / 2 : ℝ) * 2 ^ 149 = ((2 ^ 148 : Nat) : ℝ) := by norm_num
  have e1 : 1 / 2 < (w : ℝ) / 2 ^ 149 ↔ 2 ^ 148 < w := by rw [lt_div_iff₀ hp, half, Nat.cast_lt]
  have e2 : (w : ℝ) / 2 ^ 149 = 1 / 2 ↔ w = 2 ^ 148 := by rw [div_eq_iff hp.ne', half, Nat.cast_inj]
  have e3 : 0 < (w : ℝ) / 2 ^ 149 ↔ 0 < w := by rw [div_pos_iff_of_pos_right hp, Nat.cast_pos]
  rw [RoundsUp, e1, e2, e3] at hup
  obtain ⟨K, hK, hcase⟩ : ∃ K, (if up then k + 1 else k) = K ∧ (up = true ∧ K = k + 1 ∨ ¬ up = true ∧ K = k) := by
    cases up <;> simp
  rw [hup] at hcase
  rw [hK]
  unfold IntRounded
  refine ⟨fun hr => ?_, fun hr => ?_, fun hr => ?_, fun hr => ?_⟩
  · cases n <;> simp only [sgn_true, sgn_false] <;> omega
  · have htd : ((k * 2 ^ 149 + w : Nat) : Int).tdiv (2 ^ 149) = K := by
      rw [Int.tdiv_eq_ediv_of_nonneg (Int.natCast_nonneg _)]
      omega
    cases n
    · rw [sgn_false, Int.one_mul, Int.one_mul, htd]
    · rw [sgn_true, Int.neg_mul, Int.neg_mul, Int.one_mul, Int.one_mul, Int.neg_tdiv, htd]
  · cases n <;> simp only [sgn_true, sgn_false, reduceCtorEq, true_and, false_and, and_false, or_false, false_or] at hcase ⊢ <;> omega
  · cases n <;> simp only [sgn_true, sgn_false, reduceCtorEq, true_and, false_and, and_false, or_false, false_or] at hcase ⊢ <;> omega

theorem intRounded_roundInt {rnd m : Nat} {n : Bool} {e X : Int} (hrnd : rnd < 4) (he : -149 ≤ e)
    (hX : (X : ℝ) = sgn n * (m * 2 ^ (e + 149))) : IntRounded rnd X (sgn n * (roundInt rnd n m e : Nat)) := by
  have hpow : (2 : ℝ) ^ (e + 149) = ((2 ^ (e + 149).toNat : Nat) : ℝ) := by
    rw [Nat.cast_pow, Nat.cast_ofNat, ← zpow_natCast, Int.toNat_of_nonneg (by omega)]
  rw [hpow] at hX
  norm_cast at hX
  unfold roundInt
  split
  · -- already an integer
    have hm : X = sgn n * (m <<< e.toNat * 2 ^ 149 + 0 : Nat) := by
      rw [hX, Nat.shiftLeft_eq, Nat.add_zero, Nat.mul_assoc, ← Nat.pow_add, show (e + 149).toNat = e.toNat + 149 by omega]
    rw [hm]
    exact intRounded_of_parts (up := false) (by decide) (by simp [RoundsUp])
  · -- `sh` bits are cut
    extract_lets sh k
    obtain ⟨j, hj⟩ : ∃ j, 149 = j + sh := ⟨149 - sh, by omega⟩
    have hj149 : 2 ^ 149 = 2 ^ j * 2 ^ sh := by rw [← Nat.pow_add, ← hj]
    have hdm : m = k * 2 ^ sh + m % 2 ^ sh := by
      simp only [k, Nat.shiftRight_eq_div_pow]
      exact (Nat.div_add_mod' m (2 ^ sh)).symm
    have hr := Nat.mod_lt m (Nat.two_pow_pos sh)
    have hm : X = sgn n * (k * 2 ^ 149 + m % 2 ^ sh * 2 ^ j : Nat) := by
      rw [hX, show (e + 149).toNat = j by omega]
      conv_lhs => rw [hdm]
      rw [hj149]
      congr 2
      ring
    rw [hm]
    refine intRounded_of_parts ?_ ?_
    · rw [hj149, Nat.mul_comm (2 ^ j)]
      exact Nat.mul_lt_mul_of_pos_right hr (Nat.two_pow_pos j)
    · refine roundUp?_iff hrnd (by simp) ?_
      have : ((m % 2 ^ sh * 2 ^ j : Nat) : ℝ) / 2 ^ 149 * 2 ^ sh = (m % 2 ^ sh : Nat) := by
        have h149 : (2 : ℝ) ^ 149 = 2 ^ j * 2 ^ sh := by exact_mod_cast hj149
        rw [h149, Nat.cast_mul, Nat.cast_pow, Nat.cast_ofNat]
        field_simp
      rw [this]
      exact truncated_self _

theorem cvtFI_eq {F : FFmt} (ok : F.Ok) {v : FEnv} {lo hi : Int} {p0 : Nat} (hrnd : v.rnd < 4) (hp : F.finite (F.flush v p0)) :
    ∃ z, IntRounded v.rnd (F.units (F.flush v p0)) z ∧ cvtFI F v lo hi p0 = clampEv z lo hi := by
  obtain ⟨n, m, e, hv⟩ := (finite_iff_val F _).mp hp
  obtain ⟨hu, -, he, -⟩ := units_of_val ok hv
  refine ⟨_, intRounded_roundInt hrnd he hu, ?_⟩
  simp only [cvtFI, hv]
  cases n <;> simp

/-! A NaN keeps its sign and the leading bits of its payload, and becomes quiet (R142). -/

theorem or_mul_add {j a b c : Nat} (hb : b < 2 ^ j) (hc : c < 2 ^ j) : (2 ^ j * a + b) ||| c = 2 ^ j * a + (b ||| c) := by
  rw [Nat.two_pow_add_eq_or_of_lt hb, Nat.two_pow_add_eq_or_of_lt (Nat.or_lt_two_pow hb hc), Nat.or_assoc]

theorem sign_eq_mul (ok : F.Ok) (n : Bool) : ∃ S, F.sign n = 2 ^ F.mw * S := by
  cases n
  · exact ⟨0, rfl⟩
  · exact ⟨2 ^ F.ew, by rw [FFmt.sign, if_pos rfl, two_pow_width ok, Nat.mul_comm]⟩

/-- The NaN of a format with infinities with a payload that has its quiet bit. -/
theorem quiet_nan (ok : F.Ok) (hi : F.inf) (n : Bool) {m : Nat} (hm : m < 2 ^ F.mw) :
    F.isNan (F.quiet (F.infBits n + m)) ∧ F.neg (F.quiet (F.infBits n + m)) = n ∧
      ∀ j < F.mw, (F.quiet (F.infBits n + m)).testBit j = (m ||| 2 ^ (F.mw - 1)).testBit j := by
  have hmw := ok.mw
  have hbit : 2 ^ (F.mw - 1) < 2 ^ F.mw := Nat.pow_lt_pow_right (by decide) (by omega)
  have hq := Nat.or_lt_two_pow hm hbit
  have hq0 : m ||| 2 ^ (F.mw - 1) ≠ 0 := fun h => by
    have := congrArg (·.testBit (F.mw - 1)) h
    simp at this
  obtain ⟨A, hA⟩ : ∃ A, 2 ^ F.ew = A + 1 := ⟨2 ^ F.ew - 1, by have := Nat.two_pow_pos F.ew; omega⟩
  obtain ⟨S, hS⟩ := sign_eq_mul ok n
  have hx : F.quiet (F.infBits n + m) = 2 ^ F.mw * (S + A) + (m ||| 2 ^ (F.mw - 1)) := by
    rw [← or_mul_add hm hbit, FFmt.quiet, FFmt.infBits, if_pos hi, hA, hS, Nat.add_sub_cancel, Nat.mul_add, Nat.mul_comm A]
  have hx' : F.quiet (F.infBits n + m) = F.sign n + (2 ^ F.mw * A + (m ||| 2 ^ (F.mw - 1))) := by
    rw [hx, hS, Nat.mul_add, Nat.add_assoc]
  have hlt : 2 ^ F.mw * A + (m ||| 2 ^ (F.mw - 1)) < 2 ^ (F.w - 1) := by
    rw [two_pow_width ok, hA, Nat.add_mul, Nat.mul_comm A]
    omega
  obtain ⟨-, hneg, hbody, -⟩ := sign_body ok n hlt
  refine ⟨?_, hx' ▸ hneg, fun j hj => by rw [hx, Nat.testBit_two_pow_mul_add _ hq, if_pos hj]⟩
  rw [isNan_iff, hx', FFmt.val]
  have he : (2 ^ F.mw * A + (m ||| 2 ^ (F.mw - 1))) / 2 ^ F.mw = A := by
    rw [Nat.mul_add_div (Nat.two_pow_pos _), Nat.div_eq_of_lt hq, Nat.add_zero]
  have hman : (2 ^ F.mw * A + (m ||| 2 ^ (F.mw - 1))) % 2 ^ F.mw = m ||| 2 ^ (F.mw - 1) := by
    rw [Nat.mul_add_mod, Nat.mod_eq_of_lt hq]
  simp only [exp_eq ok, man_eq ok, hbody, he, hman]
  rw [if_pos ⟨by omega, hi⟩, if_neg hq0]

theorem canon_isNan {G : FFmt} (h : G ∈ [fp32, fp16, bf16, e4m3, e5m2]) : G.isNan G.canon := by
  revert G
  decide

theorem infBits_isNan {G : FFmt} (h : G ∈ [fp32, fp16, bf16, e4m3, e5m2]) :
    G.inf = false → ∀ n, G.isNan (G.infBits n) ∧ G.neg (G.infBits n) = n := by
  revert G
  decide

/-- A NaN of a format without infinities has every bit of its payload set. -/
theorem man_of_nan {x : Nat} (hi : F.inf = false) (h : F.val x = .nan) : F.man x = 2 ^ F.mw - 1 := by
  unfold FFmt.val at h
  simp only [hi, Bool.false_eq_true, and_false, if_false] at h
  split at h
  · rename_i h'
    exact h'.2
  · split at h <;> cases h

/-- The payload moved to the width of another format, from its leading bit on. -/
def FFmt.payload (F G : FFmt) (x : Nat) : Nat :=
  if F.mw ≤ G.mw then F.man x <<< (G.mw - F.mw) else F.man x >>> (F.mw - G.mw)

theorem cvtFF_nan {v : FEnv} {p0 : Nat} (hp : F.val (F.flush v p0) = .nan) : cvtFF F G v p0 =
    (if v.nanc then G.canon else if G.inf then G.quiet (G.infBits (F.neg (F.flush v p0)) + F.payload G (F.flush v p0))
      else G.infBits (F.neg (F.flush v p0)), Ev.ofNan) := by
  have hm : (if F.inf then F.man (F.flush v p0) else 2 ^ F.mw - 1) = F.man (F.flush v p0) := by
    split
    · rfl
    · rename_i h
      exact (man_of_nan (by simpa using h) hp).symm
  simp only [cvtFF, hp, hm, FFmt.payload]
  cases G.inf <;> rfl

theorem payload_lt (F G : FFmt) (x : Nat) : F.payload G x < 2 ^ G.mw := by
  have hm : F.man x < 2 ^ F.mw := Nat.mod_lt _ (Nat.two_pow_pos _)
  unfold FFmt.payload
  split
  · rename_i h
    rw [Nat.shiftLeft_eq]
    calc F.man x * 2 ^ (G.mw - F.mw) < 2 ^ F.mw * 2 ^ (G.mw - F.mw) := Nat.mul_lt_mul_of_pos_right hm (Nat.two_pow_pos _)
      _ = 2 ^ G.mw := by rw [← Nat.pow_add]; congr 1; omega
  · rw [Nat.shiftRight_eq_div_pow]
    refine Nat.div_lt_of_lt_mul ?_
    rw [← Nat.pow_add]
    exact hm.trans_eq (by congr 1; omega)

theorem payload_testBit (F G : FFmt) (x : Nat) {i : Nat} (hi : i < G.mw) :
    (F.payload G x).testBit (G.mw - 1 - i) = (decide (i < F.mw) && x.testBit (F.mw - 1 - i)) := by
  unfold FFmt.payload FFmt.man
  split
  · rw [Nat.testBit_shiftLeft, Nat.testBit_mod_two_pow]
    by_cases h : i < F.mw
    · rw [show G.mw - 1 - i - (G.mw - F.mw) = F.mw - 1 - i by omega]
      have h1 : G.mw - 1 - i ≥ G.mw - F.mw := by omega
      have h2 : F.mw - 1 - i < F.mw := by omega
      simp [h, h1, h2]
    · have h1 : ¬ G.mw - 1 - i ≥ G.mw - F.mw := by omega
      simp [h, h1]
  · rw [Nat.testBit_shiftRight, Nat.testBit_mod_two_pow, show F.mw - G.mw + (G.mw - 1 - i) = F.mw - 1 - i by omega]
    have h1 : F.mw - 1 - i < F.mw := by omega
    have h2 : i < F.mw := by omega
    simp [h1, h2]

/-- R142: the NaN that a conversion gives. -/
theorem cvtFF_nan_spec (hG : G ∈ [fp32, fp16, bf16, e4m3, e5m2]) {v : FEnv} {p0 : Nat} (hp : F.val (F.flush v p0) = .nan) :
    let r := cvtFF F G v p0
    r.2 = Ev.ofNan ∧ G.isNan r.1 ∧ (v.nanc → r.1 = G.canon) ∧ (v.nanc = false → G.neg r.1 = F.neg (F.flush v p0) ∧
      (G.inf → r.1.testBit (G.mw - 1) ∧ ∀ i, 1 ≤ i → i < G.mw →
        r.1.testBit (G.mw - 1 - i) = (decide (i < F.mw) && (F.flush v p0).testBit (F.mw - 1 - i)))) := by
  have okG := ok_of_mem hG
  have hmw := okG.mw
  intro r
  have hr : r = _ := cvtFF_nan hp
  rw [hr]
  cases hn : v.nanc
  · simp only [Bool.false_eq_true, if_false]
    cases hi : G.inf
    · obtain ⟨h1, h2⟩ := infBits_isNan hG hi (F.neg (F.flush v p0))
      exact ⟨trivial, h1, fun h => absurd h (by decide), fun _ => ⟨h2, fun h => absurd h (by decide)⟩⟩
    · obtain ⟨h1, h2, h3⟩ := quiet_nan okG hi (F.neg (F.flush v p0)) (payload_lt F G (F.flush v p0))
      refine ⟨trivial, h1, fun h => absurd h (by decide), fun _ => ⟨h2, fun _ => ⟨?_, fun i hi1 hi2 => ?_⟩⟩⟩
      · rw [if_pos rfl, h3 _ (by omega)]
        simp
      · rw [if_pos rfl, h3 _ (by omega), Nat.testBit_or, payload_testBit F G _ hi2, Nat.testBit_two_pow]
        have : ¬ G.mw - 1 = G.mw - 1 - i := by omega
        simp [this]
  · exact ⟨rfl, canon_isNan hG, fun _ => rfl, fun h => absurd h (by decide)⟩

end

theorem cvtFI_nan {F : FFmt} {v : FEnv} {lo hi : Int} {p0 : Nat} (hp : F.val (F.flush v p0) = .nan) :
    cvtFI F v lo hi p0 = (0, Ev.ofInv) := by simp only [cvtFI, hp]

theorem cvtFI_inf {F : FFmt} {v : FEnv} {lo hi : Int} {p0 : Nat} {n : Bool} (hp : F.val (F.flush v p0) = .inf n) :
    cvtFI F v lo hi p0 = (if n then lo else hi, Ev.ofSat) := by
  simp only [cvtFI, hp]
  cases n <;> rfl

/-- `fcmp` asks every element of the type (R186). -/
theorem all_elements (ty : FTy) (f : Nat → Bool) :
    (List.range (ftyCount ty)).all f = if ty = .f32 then f 0 else f 0 && f 1 := by
  cases ty <;> simp [ftyCount, List.range_succ]

theorem getLsbD_eq_div (w : Word) (k : Nat) : w.getLsbD k = (w.toNat / 2 ^ k % 2 == 1) := by
  rw [BitVec.getLsbD, Nat.testBit_eq_decide_div_mod_eq, beq_eq_decide]

theorem written_of_isP {d : Opd} {l : List Opd} (h : d.isP) : d.isReg ∧ (d.isG → uniform (d :: l)) := by
  cases d
  case p n => exact ⟨rfl, fun hg => absurd hg (by simp [Opd.isG])⟩
  all_goals exact absurd h (by simp [Opd.isP])

/-- Settles O9: the instructions by `alu_spec` and `aluEv_spec`, the conversions by the lemmas above. -/
theorem floatTestAndConversionResults : Obligations.FloatTestAndConversionResults := by
  unfold Obligations.FloatTestAndConversionResults
  intro s h d a b
  refine ⟨fun ty rel hw => ?_, fun hw => ?_, fun dst src m ovn hw => ?_, fun bf m ovn hw => ?_, fun F hF v p0 hrnd hp0 => ?_⟩
  · simp only [Instr.wf, Bool.and_eq_true] at hw
    obtain ⟨⟨hd, -⟩, -⟩ := hw
    refine computes_of_exec ?_ (written_of_isP hd)
    exact congrArg (s.alu h d [a, b]) (funext fun x => funext fun i => congrArg wordOf (all_elements ty _))
  · simp only [Instr.wf, Bool.and_eq_true] at hw
    obtain ⟨⟨hd, -⟩, -⟩ := hw
    refine computes_of_exec ?_ (written_of_isP hd)
    exact congrArg (s.alu h d [a, b]) (funext fun x => funext fun i => congrArg wordOf (getLsbD_eq_div _ _))
  · simp only [Instr.wf, Bool.and_eq_true] at hw
    exact computesEv_of_exec rfl (written_of_wfFUn hw.2)
  · simp only [Instr.wf, Bool.and_eq_true] at hw
    obtain ⟨⟨⟨hd, -⟩, -⟩, hm⟩ := hw
    refine computesEv_of_exec ?_ (written_of_noMix hd hm)
    exact congrArg (s.aluEv h d [a, b]) (funext fun x => funext fun i => Prod.ext (BitVec.or_comm _ _) rfl)
  · have ok := ok_of_mem hF
    refine ⟨fun G hG => ⟨fun hp => cvtFF_exact ok (ok_of_mem hG) hrnd hp, fun hp => cvtFF_nan_spec hG ((isNan_iff F _).mp hp),
      fun n hp => ?_⟩, fun lo hi => ⟨fun hp => cvtFI_eq ok hrnd hp, fun hp => cvtFI_nan ((isNan_iff F _).mp hp),
      fun n hp => cvtFI_inf hp⟩, fun z => ?_⟩
    · rw [cvtFF_inf hp]
      refine ⟨fun hi => if_pos hi, fun hi ho => ?_, fun hi ho => ?_⟩
      · rw [if_neg (by simp [hi]), overflow_noInf hi, if_neg (by simp [ho])]
      · rw [if_neg (by simp [hi]), overflow_noInf hi, if_pos ho]
    · exact ⟨fun hz => (cvtIF_exact ok hrnd z).1 (mul_ne_zero hz (by decide)), round_zero F v false 0 false⟩

end Sys2Proof.Machine
end

section
/-!
The integer family (R158): the exact result in the integers, narrowed, is the operation on words. Settles O1.
-/

namespace Sys2Proof.Machine

theorem written_of_wfBin {d a b : Opd} (h : wfBin d a b) : d.isReg ∧ (d.isG → uniform [d, a, b]) := by
  simp only [wfBin, Bool.and_eq_true] at h
  obtain ⟨⟨⟨hd, -⟩, -⟩, hm⟩ := h
  exact written_of_noMix hd hm

theorem written_of_wfUn {d a : Opd} (h : wfUn d a) : d.isReg ∧ (d.isG → uniform [d, a]) := by
  simp only [wfUn, Bool.and_eq_true] at h
  obtain ⟨⟨hd, -⟩, hm⟩ := h
  exact written_of_noMix hd hm

theorem wfUn_of_wfBin {d a b : Opd} (h : wfBin d a b) : wfUn d a := by
  simp only [wfBin, Bool.and_eq_true] at h
  obtain ⟨⟨⟨hd, ha⟩, -⟩, hm⟩ := h
  have hma : noMix d [a] := by
    revert hm
    simp only [noMix, List.any_cons, List.any_nil]
    cases d.isG <;> cases a.isV <;> simp
  rw [wfUn, hd, ha, hma]
  rfl

theorem noMix_self (d : Opd) (l : List Opd) : noMix d (l ++ [d]) = noMix d l := by
  cases d <;> simp [noMix, Opd.isG, Opd.isV]

/-- `mad` and `bfi` read their destination as well (R61). -/
theorem written_of_wfBin_third {d a b : Opd} (h : wfBin d a b) : d.isReg ∧ (d.isG → uniform [d, a, b, d]) := by
  simp only [wfBin, Bool.and_eq_true] at h
  obtain ⟨⟨⟨hd, -⟩, -⟩, hm⟩ := h
  exact written_of_noMix hd ((noMix_self d [a, b]).trans hm)

/-- `computes_of_exec` where the meaning gives the result by another expression. -/
theorem computes_of_value {i : Instr} {s : State} {h : Hdr} {d : Opd} {src : List Opd} {f f' : Site → Nat → Word}
    (he : exec i s = s.alu h d src f') (hd : d.isReg ∧ (d.isG → uniform (d :: src))) (hf : ∀ x k, f' x k = f x k) :
    Computes i s h d src f :=
  computes_of_exec (he.trans (congrArg _ (funext fun x => funext (hf x)))) hd

/-! The value of a word and its narrowing. -/

@[simp] theorem ofInt_ityVal (ty : ITy) (p : Word) : BitVec.ofInt 32 (ityVal ty p) = p := by
  cases ty
  · exact BitVec.ofInt_toInt
  · exact (BitVec.ofInt_natCast 32 p.toNat).trans (BitVec.ofNat_toNat 32 p |>.trans (BitVec.setWidth_eq p))

theorem narrow_wrap (ty : ITy) (z : Int) : narrow ty false z = BitVec.ofInt 32 z := rfl

theorem narrow_sat (ty : ITy) (z : Int) : narrow ty true z = clampTo ty z := by
  have hr : (ityRange ty).1 ≤ (ityRange ty).2 := by cases ty <;> decide
  refine congrArg (BitVec.ofInt 32) ?_
  split
  · omega
  · split <;> omega

theorem narrow_add (ty : ITy) (p q : Word) : narrow ty false (ityVal ty p + ityVal ty q) = p + q := by
  rw [narrow_wrap, BitVec.ofInt_add, ofInt_ityVal, ofInt_ityVal]

theorem narrow_sub (ty : ITy) (p q : Word) : narrow ty false (ityVal ty p - ityVal ty q) = p - q := by
  rw [narrow_wrap, Int.sub_eq_add_neg, BitVec.ofInt_add, BitVec.ofInt_neg, ofInt_ityVal, ofInt_ityVal, BitVec.sub_eq_add_neg]

theorem narrow_mul (ty : ITy) (p q : Word) : narrow ty false (ityVal ty p * ityVal ty q) = p * q := by
  rw [narrow_wrap, BitVec.ofInt_mul, ofInt_ityVal, ofInt_ityVal]

theorem narrow_mad (ty : ITy) (p q r : Word) :
    narrow ty false (ityVal ty p * ityVal ty q + ityVal ty r) = p * q + r := by
  rw [narrow_wrap, BitVec.ofInt_add, BitVec.ofInt_mul, ofInt_ityVal, ofInt_ityVal, ofInt_ityVal]

/-! `mulhi`. -/

/-- The high word of an integer in 64 bits. -/
theorem ofInt_ediv_high (z : Int) : BitVec.ofInt 32 (z / 4294967296) = (BitVec.ofInt 64 z).extractLsb' 32 32 := by
  apply BitVec.eq_of_toNat_eq
  rw [BitVec.extractLsb'_toNat, BitVec.toNat_ofInt, BitVec.toNat_ofInt, Nat.shiftRight_eq_div_pow]
  omega

/-- A word widened as its type says. -/
theorem ofInt64_ityVal (ty : ITy) (p : Word) :
    BitVec.ofInt 64 (ityVal ty p) = if ty = .s32 then p.signExtend 64 else p.setWidth 64 := by
  cases ty
  · rfl
  · exact (BitVec.ofInt_natCast 64 p.toNat).trans (BitVec.ofNat_toNat 64 p)

/-! Division. -/

theorem toInt_eq_zero (q : Word) : q.toInt = 0 ↔ q = 0#32 := by rw [← BitVec.toInt_inj]; rfl

theorem ofInt_tdiv (p q : Word) : BitVec.ofInt 32 (p.toInt.tdiv q.toInt) = p.sdiv q := by
  apply BitVec.eq_of_toInt_eq
  rw [BitVec.toInt_ofInt, BitVec.toInt_sdiv]

theorem narrow_div_signed (p q : Word) : narrow .s32 false (divExact .s32 p.toInt q.toInt) =
    if q = 0#32 then (if p.msb then 0x80000000#32 else 0x7FFFFFFF#32) else p.sdiv q := by
  simp only [divExact, toInt_eq_zero, narrow_wrap]
  split
  · rw [BitVec.msb_eq_toInt]
    by_cases hp : p.toInt < 0
    · rw [if_neg (by omega), if_pos (by simpa using hp)]; rfl
    · rw [if_pos (by omega), if_neg (by simpa using hp)]; rfl
  · exact ofInt_tdiv p q

theorem narrow_div_unsigned (p q : Word) : narrow .n32 false (divExact .n32 p.toNat q.toNat) =
    if q = 0#32 then 0xFFFFFFFF#32 else p / q := by
  have hq : ((q.toNat : Int) = 0) ↔ q = 0#32 := by rw [BitVec.toNat_eq]; exact Int.natCast_eq_zero
  simp only [divExact, hq, narrow_wrap]
  split
  · rw [if_pos (Int.natCast_nonneg _)]; rfl
  · rw [← Int.ofNat_tdiv, ← BitVec.toNat_udiv]
    exact ofInt_ityVal .n32 (p / q)

theorem narrow_rem_signed (p q : Word) : narrow .s32 false (remExact p.toInt q.toInt) = p.srem q := by
  simp only [remExact, toInt_eq_zero, narrow_wrap]
  split
  · subst q
    rw [BitVec.ofInt_toInt, BitVec.srem_zero]
  · rw [← BitVec.toInt_srem, BitVec.ofInt_toInt]

theorem narrow_rem_unsigned (p q : Word) : narrow .n32 false (remExact p.toNat q.toNat) = p % q := by
  have hr : remExact p.toNat q.toNat = ((p % q).toNat : Int) := by
    rw [remExact, BitVec.toNat_umod]
    split
    · rename_i hq
      rw [Int.natCast_eq_zero.mp hq, Nat.mod_zero]
    · exact Int.ofNat_tmod _ _
  rw [hr]
  exact ofInt_ityVal .n32 (p % q)

/-! The lesser, the greater and the absolute value. -/

theorem ityVal_le_signed (p q : Word) : ityVal .s32 p ≤ ityVal .s32 q ↔ p.sle q := BitVec.sle_iff_toInt_le.symm

theorem ityVal_le_unsigned (p q : Word) : ityVal .n32 p ≤ ityVal .n32 q ↔ p ≤ q := by
  rw [BitVec.le_def]; exact Int.ofNat_le

theorem narrow_abs (p : Word) : narrow .s32 false p.toInt.natAbs = p.abs := by
  rw [narrow_wrap, BitVec.abs, BitVec.msb_eq_toInt]
  by_cases hp : p.toInt < 0
  · rw [Int.ofNat_natAbs_of_nonpos hp.le, BitVec.ofInt_neg, BitVec.ofInt_toInt, if_pos (by simpa using hp)]
    rfl
  · rw [Int.natAbs_of_nonneg (by omega), BitVec.ofInt_toInt, if_neg (by simpa using hp)]

/-- The magnitude passes the range only at the smallest number. -/
theorem narrow_abs_sat (p : Word) : narrow .s32 true p.toInt.natAbs =
    if p = 0x80000000#32 then 0x7FFFFFFF#32 else p.abs := by
  split
  · subst p; decide
  · rename_i hp
    have hlo : p.toInt ≠ -2147483648 := fun e => hp (BitVec.eq_of_toInt_eq e)
    have hge := BitVec.le_toInt p
    have hlt := BitVec.toInt_lt (x := p)
    have hr : max (ityRange .s32).1 (min (ityRange .s32).2 (p.toInt.natAbs : Int)) = p.toInt.natAbs := by
      simp only [ityRange]
      omega
    rw [narrow_sat, clampTo, hr]
    exact narrow_abs p

/-- Settles O1: each instruction is one use of `alu_spec`, and its narrowed exact result is the operation on words. -/
theorem integerResults : Obligations.IntegerResults := by
  unfold Obligations.IntegerResults
  intro s h ty d a b hw val bySign
  have hd := written_of_wfBin hw
  have hd3 := written_of_wfBin_third hw
  have ha := written_of_wfUn (wfUn_of_wfBin hw)
  refine ⟨computes_of_value rfl hd fun _ _ => narrow_add ty _ _, computes_of_value rfl hd fun _ _ => narrow_sat ty _,
    computes_of_value rfl hd fun _ _ => narrow_sub ty _ _, computes_of_value rfl hd fun _ _ => narrow_sat ty _,
    computes_of_value rfl hd fun _ _ => narrow_mul ty _ _, computes_of_value rfl hd fun _ _ => narrow_sat ty _,
    computes_of_value rfl hd fun x k => ?mulhi,
    computes_of_value rfl hd3 fun _ _ => narrow_mad ty _ _ _, computes_of_value rfl hd3 fun _ _ => narrow_sat ty _,
    computes_of_value rfl hd fun x k => ?div, computes_of_value rfl hd fun x k => ?rem,
    computes_of_value rfl hd fun x k => ?min, computes_of_value rfl hd fun x k => ?max,
    computes_of_value rfl ha fun _ _ => narrow_abs _, computes_of_value rfl ha fun _ _ => narrow_abs_sat _⟩
  case mulhi =>
    rw [narrow_wrap, ofInt_ediv_high, BitVec.ofInt_mul, ofInt64_ityVal, ofInt64_ityVal]
    cases ty <;> rfl
  case div =>
    cases ty
    · exact narrow_div_signed _ _
    · exact narrow_div_unsigned _ _
  case rem =>
    cases ty
    · exact narrow_rem_signed _ _
    · exact narrow_rem_unsigned _ _
  case min =>
    rw [narrow_wrap, apply_ite (BitVec.ofInt 32), ofInt_ityVal, ofInt_ityVal]
    cases ty
    · simp only [ityVal_le_signed, bySign, if_true]
    · simp only [ityVal_le_unsigned, bySign, reduceCtorEq, if_false]
  case max =>
    rw [narrow_wrap, apply_ite (BitVec.ofInt 32), ofInt_ityVal, ofInt_ityVal]
    cases ty
    · simp only [ityVal_le_signed, bySign, if_true]
    · simp only [ityVal_le_unsigned, bySign, reduceCtorEq, if_false]

end Sys2Proof.Machine
end

section
/-!
Logic, shifts and bit fields (R160 to R162): shifts as products and quotients, fields and counts bit by bit. Settles O2 and O3.
-/

namespace Sys2Proof.Machine

/-! Shifts and rotation. -/

theorem shiftLeft_eq_mul (p : Word) (n : Nat) :
    p <<< n = if 32 ≤ n then 0#32 else BitVec.ofNat 32 (p.toNat * 2 ^ n) := by
  split
  · exact BitVec.shiftLeft_eq_zero ‹_›
  · apply BitVec.eq_of_toNat_eq
    rw [BitVec.toNat_shiftLeft, BitVec.toNat_ofNat, Nat.shiftLeft_eq]

theorem ushiftRight_eq_div (p : Word) (n : Nat) : p >>> n = BitVec.ofNat 32 (p.toNat / 2 ^ n) := by
  apply BitVec.eq_of_toNat_eq
  rw [BitVec.toNat_ushiftRight, BitVec.toNat_ofNat, Nat.shiftRight_eq_div_pow,
    Nat.mod_eq_of_lt ((Nat.div_le_self _ _).trans_lt p.isLt)]

/-- An arithmetic shift by the whole width leaves the sign in every bit. -/
theorem sshiftRight_eq_div (p : Word) (n : Nat) : p.sshiftRight n =
    if 32 ≤ n then (if p.msb then 0xFFFFFFFF#32 else 0#32) else BitVec.ofInt 32 (p.toInt / (2 : Int) ^ n) := by
  split
  · change _ = if p.msb then BitVec.allOnes 32 else 0#32
    apply BitVec.eq_of_getLsbD_eq
    intro j hj
    rw [BitVec.getLsbD_sshiftRight, if_neg (by omega), apply_ite (BitVec.getLsbD · j), BitVec.getLsbD_allOnes,
      BitVec.getLsbD_zero]
    simp [hj]
  · exact congrArg (BitVec.ofInt 32) (Int.shiftRight_eq_div_pow _ _)

theorem rotateLeft_eq_or (p : Word) (n : Nat) :
    p.rotateLeft (n % 32) = (p <<< (n % 32)) ||| (p >>> (32 - n % 32)) := by
  rw [BitVec.rotateLeft_def, Nat.mod_mod]

/-- Settles O2: each instruction is one use of `alu_spec`, the shifts with their arithmetic form. -/
theorem logicAndShiftResults : Obligations.LogicAndShiftResults := by
  unfold Obligations.LogicAndShiftResults
  intro s h d a b hw bin
  have hd := written_of_wfBin hw
  exact ⟨computes_of_exec rfl hd, computes_of_exec rfl hd, computes_of_exec rfl hd,
    computes_of_value rfl hd fun _ _ => shiftLeft_eq_mul _ _, computes_of_value rfl hd fun _ _ => ushiftRight_eq_div _ _,
    computes_of_value rfl hd fun _ _ => sshiftRight_eq_div _ _, computes_of_value rfl hd fun _ _ => rotateLeft_eq_or _ _⟩

/-! Bit fields (R161). -/

theorem fieldLen_le (b : Word) : fieldLen b ≤ 32 - fieldPos b := Nat.min_le_right _ _

/-- The field of a word at a position and a length, as `bfx` and `bfi` compute them and as the statements write them. -/
theorem fieldLen_eq (b : Word) : fieldLen b = min (b.toNat / 256 % 64) (32 - b.toNat % 32) := by
  rw [fieldLen, bits, Nat.shiftRight_eq_div_pow]
  rfl

/-- A number of `n` bits, `n` not zero, taken as two's complement is the word of `n` bits taken so. -/
theorem sextNat_eq_toInt (x : Nat) {n : Nat} (hn : n ≠ 0) : sextNat x n = (BitVec.ofNat n x).toInt := by
  obtain ⟨k, rfl⟩ := Nat.exists_eq_succ_of_ne_zero hn
  rw [sextNat, BitVec.toInt_eq_toNat_cond, BitVec.toNat_ofNat]
  simp only [Nat.succ_eq_add_one, Nat.add_sub_cancel, Nat.pow_succ]
  push_cast
  split <;> split <;> omega

/-- The field that `bfx` takes, as a word of its own length. -/
theorem bfxVal_eq_extract (ty : ITy) (p b : Word) : bfxVal ty p b =
    if fieldLen b = 0 then 0#32
    else match ty with
      | .s32 => (p.extractLsb' (fieldPos b) (fieldLen b)).signExtend 32
      | .n32 => (p.extractLsb' (fieldPos b) (fieldLen b)).setWidth 32 := by
  have hf : BitVec.ofNat (fieldLen b) (p.toNat >>> fieldPos b % 2 ^ fieldLen b) = p.extractLsb' (fieldPos b) (fieldLen b) := by
    apply BitVec.eq_of_toNat_eq
    rw [BitVec.toNat_ofNat, Nat.mod_mod, BitVec.extractLsb'_toNat]
  unfold bfxVal
  dsimp only
  split
  · rfl
  · rename_i hn
    cases ty
    · change BitVec.ofInt 32 (sextNat _ _) = BitVec.ofInt 32 _
      rw [sextNat_eq_toInt _ hn, hf]
    · change _ = BitVec.setWidth 32 _
      rw [← hf, ← BitVec.ofNat_toNat, BitVec.toNat_ofNat, Nat.mod_mod]

/-- A field between two shifts: up to the top bit, and down with its sign. -/
theorem signExtend_extract (p : Word) {pos n : Nat} (hn : n ≠ 0) (h : n ≤ 32 - pos) :
    (p.extractLsb' pos n).signExtend 32 = (p <<< (32 - pos - n)).sshiftRight (32 - n) := by
  have hm : (p.extractLsb' pos n).msb = (p <<< (32 - pos - n)).msb := by
    rw [BitVec.msb_eq_getLsbD_last, BitVec.msb_eq_getLsbD_last, BitVec.getLsbD_extractLsb', BitVec.getLsbD_shiftLeft]
    grind
  apply BitVec.eq_of_getLsbD_eq
  intro j hj
  rw [BitVec.getLsbD_signExtend, BitVec.getLsbD_sshiftRight, hm, BitVec.getLsbD_extractLsb', BitVec.getLsbD_shiftLeft]
  grind

theorem setWidth_extract (p : Word) {pos n : Nat} (h : n ≤ 32 - pos) :
    (p.extractLsb' pos n).setWidth 32 = (p <<< (32 - pos - n)) >>> (32 - n) := by
  apply BitVec.eq_of_getLsbD_eq
  intro j hj
  rw [BitVec.getLsbD_setWidth, BitVec.getLsbD_ushiftRight, BitVec.getLsbD_extractLsb', BitVec.getLsbD_shiftLeft]
  grind

theorem bfxVal_eq_fieldOf (ty : ITy) (p b : Word) : bfxVal ty p b = fieldOf ty p b := by
  rw [bfxVal_eq_extract]
  unfold fieldOf
  dsimp only
  rw [← fieldLen_eq]
  have hle := fieldLen_le b
  split
  · rfl
  · rename_i hn
    cases ty
    · exact signExtend_extract p hn hle
    · exact setWidth_extract p hle

/-- The mask of a field, bit by bit. -/
theorem getLsbD_fieldMask (pos n k : Nat) (hk : k < 32) :
    (BitVec.ofNat 32 ((2 ^ n - 1) <<< pos)).getLsbD k = decide (pos ≤ k ∧ k < pos + n) := by
  rw [BitVec.getLsbD_ofNat, Nat.testBit_shiftLeft, Nat.testBit_two_pow_sub_one]
  grind

theorem bfiVal_eq_fieldInto (q p b : Word) : bfiVal q p b = fieldInto q p b := by
  rw [bfiVal, fieldInto, ← fieldLen_eq]
  apply BitVec.eq_of_getLsbD_eq
  intro k hk
  rw [getLsbD_maskOf _ _ hk, BitVec.getLsbD_or, BitVec.getLsbD_and, BitVec.getLsbD_and, BitVec.getLsbD_not,
    getLsbD_fieldMask _ _ _ hk, BitVec.getLsbD_shiftLeft, fieldPos]
  by_cases hin : b.toNat % 32 ≤ k ∧ k < b.toNat % 32 + fieldLen b
  · have hge : ¬ k < b.toNat % 32 := by omega
    simp [hin, hk, hge]
  · simp [hin, hk]

/-! Bit counts (R162). -/

theorem cpopNatRec_eq_filter (p : Word) (n : Nat) : p.cpopNatRec n 0 = ((List.range n).filter (fun i => p.getLsbD i)).length := by
  induction n with
  | zero => rfl
  | succ n ih =>
    rw [BitVec.cpopNatRec_succ, BitVec.cpopNatRec_eq, ih, List.range_succ, List.filter_append, List.length_append]
    cases hb : p.getLsbD n <;> simp [hb]

theorem popcount_eq_cpop (p : Word) : BitVec.ofNat 32 (popcount p) = p.cpop :=
  congrArg (BitVec.ofNat 32) (cpopNatRec_eq_filter p 32).symm

theorem clzVal_eq_clz (p : Word) : BitVec.ofNat 32 (clzVal p) = p.clz := by
  have hc : clzVal p = p.clz.toNat := by
    rw [clzVal]
    split
    · rw [BitVec.clz_eq_iff_eq_zero.mpr ‹_›]
      rfl
    · rename_i hp
      have h0 : p.toNat ≠ 0 := fun e => hp (BitVec.eq_of_toNat_eq e)
      have hlt : p.clz.toNat < 32 := BitVec.clz_lt_iff_ne_zero.mpr hp
      have hlog : p.toNat.log2 = 31 - p.clz.toNat := by
        rw [Nat.log2_eq_iff h0]
        refine ⟨BitVec.two_pow_sub_clz_le_toNat_of_ne_zero (by decide) hp, ?_⟩
        have hs : 31 - p.clz.toNat + 1 = 32 - p.clz.toNat := by omega
        rw [hs]
        exact BitVec.toNat_lt_two_pow_sub_clz
      omega
  rw [hc]
  exact (BitVec.ofNat_toNat 32 _).trans (BitVec.setWidth_eq _)

theorem reversed_eq (p : Word) : maskOf (fun k => p.getLsbD (31 - k)) = p.reverse := by
  apply BitVec.eq_of_getLsbD_eq
  intro k hk
  rw [getLsbD_maskOf _ _ hk, BitVec.getLsbD_reverse, BitVec.getMsbD, decide_eq_true hk, Bool.true_and]

theorem not_eq_sub (p : Word) : ~~~ p = 0xFFFFFFFF#32 - p := by
  apply BitVec.eq_of_toNat_eq
  have hp := p.isLt
  rw [BitVec.toNat_not, BitVec.toNat_sub]
  simp only [BitVec.toNat_ofNat]
  omega

/-- Settles O3: each instruction is one use of `alu_spec`, with its value bit by bit. -/
theorem bitFieldResults : Obligations.BitFieldResults := by
  unfold Obligations.BitFieldResults
  intro s h d a b
  refine ⟨fun hw => ?_, fun hw => ?_, fun hw => ?_⟩
  · simp only [Instr.wf, Bool.and_eq_true] at hw
    obtain ⟨⟨hd, -⟩, hm⟩ := hw
    exact computes_of_value rfl (written_of_noMix hd hm) fun _ _ => not_eq_sub _
  · have hd := written_of_wfUn hw
    exact ⟨computes_of_value rfl hd fun _ _ => popcount_eq_cpop _, computes_of_value rfl hd fun _ _ => clzVal_eq_clz _,
      computes_of_value rfl hd fun _ _ => reversed_eq _⟩
  · exact ⟨fun ty => computes_of_value rfl (written_of_wfBin hw) fun _ _ => bfxVal_eq_fieldOf ty _ _,
      computes_of_value rfl (written_of_wfBin_third hw) fun _ _ => bfiVal_eq_fieldInto _ _ _⟩

end Sys2Proof.Machine
end

section
/-!
Instructions whose meaning is one `commit` of a write: what `commit_spec` says of them. Comparison, predicate logic,
selection and moves (R159, R163 to R167). Settles O4.
-/

namespace Sys2Proof.Machine

theorem Advanced.of_clock {x : Site} {s s' : State} {e : Word} {dst src : List Opd} {g : Group} (h : Advanced x s' e dst src g)
    (ht : s'.tsc = s.tsc) (hn : s'.nanos = s.nanos) : Advanced x s e dst src g := by
  unfold Advanced at h ⊢
  rwa [latch_congr x.g s s' src ht hn] at h

theorem getLsbD_lowest {e : Word} (he : e ≠ 0#32) : e.getLsbD (lowest e) := by
  cases hf : (List.range Config.W).find? (fun i => e.getLsbD i) with
  | none =>
    refine absurd (BitVec.eq_of_getLsbD_eq fun i hi => ?_) he
    simpa using List.find?_eq_none.mp hf i (List.mem_range.mpr hi)
  | some i =>
    have hl : lowest e = i := congrArg (Option.getD · Config.W) hf
    rw [hl]
    exact List.find?_some hf

/-- A write takes its values from the threads of its mask only. -/
theorem Written.congr {x : Site} {u : Bool} {e : Word} {d : Opd} {f f' : Nat → Word} {g : Group} (h : Written x u e d f g)
    (hf : ∀ k, e.getLsbD k → f k = f' k) : Written x u e d f' g := by
  refine ⟨fun i hi he h0 => ?_, h.left, h.others⟩
  rw [h.result i hi he h0]
  cases u
  · exact congrArg (asReg d) (hf i he)
  · exact congrArg (asReg d) (hf _ (getLsbD_lowest (by simpa [ExecutesFor] using he)))

theorem reg_latch_of_mask (g : Group) (s : State) (e : Word) (src : List Opd) (i : Nat) (o : Opd) :
    (if e = 0#32 then g else g.latch s src).reg i o = g.reg i o := by
  split
  · rfl
  · exact reg_latch _ _ _ _ _

/-- An instruction whose meaning is one write of D, upon a state `base` in which the groups are as they were (R18, R19). -/
theorem computesAs_of_commit {i : Instr} {s : State} {u : Bool} {e : Site → Word} {d : Opd} {src : List Opd}
    {f f' : Site → Nat → Word} {base : Site → State}
    (he : exec i s = s.atSite fun x => .next ((base x).commit x (e x) [d] src fun g => g.write u (e x) d (f' x)))
    (hd : d.isReg) (hv : u → d.isV = false) (hg : u = false → d.isG = false)
    (hb : ∀ x, (base x).groups = s.groups ∧ (base x).tsc = s.tsc ∧ (base x).nanos = s.nanos)
    (hf : ∀ x k, (e x).getLsbD k → f' x k = f x k) : ComputesAs i s u e d src f base := by
  intro x hx
  obtain ⟨hbg, hbt, hbn⟩ := hb x
  have hgrp : (base x).group? x.g.key = some x.g := by
    rw [State.group?, hbg]
    exact site_group hx
  obtain ⟨t, g, ht, htg, hadv, hot, hreg⟩ := commit_spec (base x) (base x) x (e x) [d] src
    (fun g => g.write u (e x) d (f' x)) hgrp (.refl _) (.refl _ _) (fun g => banks_write g u (e x) d (f' x))
  have hlat := reg_latch_of_mask x.g (base x) (e x) src
  have hw := written_of_write x u (e x) d (f' x) _ hd hv hg (fun o i _ _ _ => hlat i o) (fun i _ _ _ => hlat i d)
  have hwg : Written x u (e x) d (f' x) g :=
    ⟨fun i hi hx h0 => (hreg i d).trans (hw.result i hi hx h0), fun i hi hx hk => (hreg i d).trans (hw.left i hi hx hk),
      fun o i hi ho hne => (hreg i o).trans (hw.others o i hi ho hne)⟩
  exact ⟨t, g, (he.trans (atSite_eq hx _)).trans (by rw [ht]), htg, hwg.congr (hf x), hadv.of_clock hbt hbn, hot⟩

/-- As `computes_of_value`, for a pair. -/
theorem computes64_of_value {i : Instr} {s : State} {h : Hdr} {d : Opd} {src : List Opd} {f f' : Site → Nat → DWord}
    (he : exec i s = s.alu64 h d src f') (hd : d.vgt) (hm : noMix d src) (hf : ∀ x k, f' x k = f x k) :
    Computes64 i s h d src f := by
  intro x hx
  obtain ⟨hr, hu⟩ := written_of_noMix hd hm
  have hp : d.isP = false := by revert hd; cases d <;> simp [Opd.vgt, Opd.isV, Opd.isG, Opd.isT, Opd.isP]
  obtain rfl : f' = f := funext fun x => funext (hf x)
  obtain ⟨t, g, ht, hg, hw, ha, ho⟩ := alu64_spec s h d src f' hr hp hu x hx
  exact ⟨t, g, he.trans ht, hg, hw, ha, ho⟩

/-! Predicates as they are read (R20). -/

@[simp] theorem read_p (x : Site) (s : State) (i : Nat) (n : BitVec 3) : x.read s i (.p n) = wordOf (x.g.pred n i) := rfl
@[simp] theorem wordOf_bne_zero (b : Bool) : (wordOf b != 0#32) = b := by cases b <;> decide
@[simp] theorem wordOf_eq_one (b : Bool) : (wordOf b = 1#32) = (b = true) := by cases b <;> decide

theorem isP_elim {o : Opd} (h : o.isP) : ∃ n, o = .p n := by
  cases o
  case p n => exact ⟨n, rfl⟩
  all_goals exact absurd h (by simp [Opd.isP])

theorem isV_elim {o : Opd} (h : o.isV) : ∃ n, o = .v n := by
  cases o
  case v n => exact ⟨n, rfl⟩
  all_goals exact absurd h (by simp [Opd.isV])

theorem read_isP {o : Opd} (ho : o.isP) (x : Site) (s : State) (i : Nat) :
    (x.read s i o != 0#32) = decide (x.read s i o = 1#32) := by
  obtain ⟨n, rfl⟩ := isP_elim ho
  simp

/-! The values. -/

theorem bne_eq_decide (p q : Int) : (p != q) = decide (p ≠ q) := by rw [bne, beq_eq_decide, decide_not]

theorem scaled_eq_shift (sc : Scale) (y : DWord) : y * BitVec.ofNat 64 (scaleOf sc) = y <<< (match sc with
    | .x1 => 0
    | .x2 => 1
    | .x4 => 2
    | .x8 => 3) := by
  rw [BitVec.shiftLeft_eq_mul_twoPow]
  cases sc <;> rfl

/-- Settles O4: `alu_spec` and `alu64_spec`, but for `plog`, which commits for itself, and `nop`, which only ends. -/
theorem compareSelectMoveResults : Obligations.CompareSelectMoveResults := by
  unfold Obligations.CompareSelectMoveResults
  intro s h d a b
  refine ⟨fun sc hw => ?lea, fun ty rel hw => ?cmp, fun op c hw => ?plog, fun neg prd hw => ?sel, fun hw => ?mov,
    fun hw => ?mov64, fun x hx => ?nop⟩
  case lea =>
    simp only [Instr.wf, Bool.and_eq_true] at hw
    obtain ⟨⟨⟨⟨⟨hd, -⟩, -⟩, -⟩, -⟩, hm⟩ := hw
    exact computes64_of_value rfl hd hm fun _ _ => congrArg _ (scaled_eq_shift sc _)
  case cmp =>
    simp only [Instr.wf, Bool.and_eq_true] at hw
    obtain ⟨⟨⟨⟨hd, -⟩, -⟩, -⟩, -⟩ := hw
    refine computes_of_value rfl (written_of_isP hd) fun _ _ => congrArg wordOf ?_
    cases rel
    case ne => exact bne_eq_decide _ _
    all_goals rfl
  case plog =>
    simp only [Instr.wf, Bool.and_eq_true] at hw
    obtain ⟨⟨hd, ha⟩, hc⟩ := hw
    obtain ⟨hr, -⟩ := written_of_isP (l := []) hd
    have hg : d.isG = false := by obtain ⟨n, rfl⟩ := isP_elim hd; rfl
    refine computesAs_of_commit rfl hr (by simp) (fun _ => hg) (fun _ => ⟨rfl, rfl, rfl⟩) fun x k _ => ?_
    rw [read_isP ha]
    cases c with
    | none => rfl
    | some o =>
      obtain ⟨-, ho⟩ := Bool.and_eq_true_iff.mp hc
      simp only [read_isP ho]
  case sel =>
    simp only [Instr.wf, Bool.and_eq_true] at hw
    refine computes_of_value rfl (written_of_wfBin hw.1) fun x k => ?_
    cases x.g.pred prd k <;> cases neg <;> rfl
  case mov =>
    simp only [Instr.wf, Bool.and_eq_true] at hw
    exact computes_of_exec rfl (written_of_noMix hw.1.1 hw.2)
  case mov64 =>
    simp only [Instr.wf, Bool.and_eq_true] at hw
    obtain ⟨⟨⟨hd, -⟩, -⟩, hm⟩ := hw
    exact computes64_of_value rfl hd hm fun _ _ => rfl
  case nop =>
    obtain ⟨t, ht, ho, hg⟩ := finish_spec s x [] (site_group hx)
    exact ⟨t, _, (atSite_eq hx _).trans (congrArg _ ht), hg, rfl, ho⟩

end Sys2Proof.Machine
end

section
/-!
Instructions between threads (R168, R169, R171, R172): the thread that a move reads from, votes over the fragment's mask, and the
writes of `cmprs` and `expnd`, which pair threads to write with threads to read. Settles O5.
-/

namespace Sys2Proof.Machine

/-! Moves (R169). -/

theorem xmovSource_eq_moveFrom (op : XmovOp) {i : Nat} (hi : i < 32) (sh : Nat) : xmovSource op i sh = moveFrom op i sh := by
  have hW : Config.W = 32 := rfl
  cases op <;> simp only [xmovSource, moveFrom]
  case idx => rw [if_pos (by omega)]; rfl
  all_goals
    split
    · rw [if_pos (by omega)]; omega
    · rw [if_neg (by omega)]

theorem xmovShift_ui (x : Site) (s : State) (i : Nat) (v : BitVec 16) :
    xmovShift x s i (.ui v) = if v.getLsbD 15 then 32 / 2 ^ (v.toNat % 16) else v.toNat :=
  congrArg (if v.getLsbD 15 then · else v.toNat) (Nat.shiftRight_eq_div_pow _ _)

/-! Votes (R171). -/

section
variable (l : List Nat) (p : Nat → Bool)

theorem voteVal_all : voteVal .all (l.map p) = decide (∀ i ∈ l, p i) := by
  simp [voteVal, List.all_eq]

theorem voteVal_any : voteVal .any (l.map p) = decide (∃ i ∈ l, p i) := by
  simp [voteVal, List.any_eq]

/-- One value across the set: all of it, or none. -/
theorem voteVal_uni : voteVal .uni (l.map p) = decide (∀ i ∈ l, ∀ j ∈ l, p i = p j) := by
  rw [Bool.eq_iff_iff, decide_eq_true_iff]
  change (voteVal .all (l.map p) || !voteVal .any (l.map p)) = true ↔ _
  rw [voteVal_all, voteVal_any, Bool.or_eq_true, Bool.not_eq_true', decide_eq_true_iff, decide_eq_false_iff_not]
  refine ⟨?_, fun h => ?_⟩
  · rintro (h | h) i hi j hj
    · rw [h i hi, h j hj]
    · rw [Bool.eq_false_iff.mpr fun hp => h ⟨i, hi, hp⟩, Bool.eq_false_iff.mpr fun hp => h ⟨j, hj, hp⟩]
  · by_cases ha : ∃ j ∈ l, p j
    · obtain ⟨j, hj, hp⟩ := ha
      exact Or.inl fun i hi => (h i hi j hj).trans hp
    · exact Or.inr ha

end

/-- A group register or a predicate, beside a predicate. -/
theorem written_beside_p {d : Opd} (hd : d.isG || d.isP) (n : BitVec 3) : d.isReg ∧ (d.isG → uniform [d, .p n]) := by
  rcases Bool.or_eq_true_iff.mp hd with hg | hp
  · exact written_of_noMix (by simp [Opd.vgt, hg]) (by simp [noMix, Opd.isV])
  · exact written_of_isP hp

theorem computes_vote {s : State} {h : Hdr} {op : VoteOp} {d : Opd} {n : BitVec 3} {val : Site → Bool}
    (hw : (Instr.vote h op d (.p n)).wf) (hv : ∀ x, voteVal op ((lanes x.f.mask).map (x.g.pred n)) = val x) :
    Computes (.vote h op d (.p n)) s h d [.p n] (fun x _ => wordOf (val x)) := by
  simp only [Instr.wf, Bool.and_eq_true] at hw
  refine computes_of_value rfl (written_beside_p hw.1 n) fun x _ => congrArg wordOf ?_
  simp only [read_p, wordOf_bne_zero]
  exact hv x

/-- The threads from 32 k on: a mask has the first 32 only. -/
theorem ballot_word (m : Word) (p : Nat → Bool) (k : Nat) : maskOf (fun i => m.getLsbD (32 * k + i) && p (32 * k + i)) =
    maskOf (fun j => 32 * k == 0 && m.getLsbD j && p j) := by
  by_cases hk : k = 0
  · subst hk
    simp
  · refine congrArg maskOf (funext fun i => ?_)
    rw [BitVec.getLsbD_of_ge m _ (by omega)]
    simp [hk]

/-! `cmprs` and `expnd` (R172). -/

/-- The writes that pair threads to write with values: each thread listed first, with the value listed beside it. -/
def Group.writePairs (g : Group) (d : Opd) (r : Nat → Word) (l : List (Nat × Nat)) : Group :=
  l.foldl (fun g y => g.writeAt y.1 d (r y.2)) g

section
variable {d : Opd} {r : Nat → Word} {l : List (Nat × Nat)} {g : Group}

theorem banks_writePairs (g : Group) (d : Opd) (r : Nat → Word) (l : List (Nat × Nat)) : BanksOnly g (g.writePairs d r l) :=
  banks_fold l _ (fun g (y : Nat × Nat) => banks_writeAt g y.1 d (r y.2)) g

theorem reg_writePairs_ne (hl : ∀ y ∈ l, y.1 < 32) {o : Opd} (ho : o ≠ d) {j : Nat} (hj : j < 32) :
    (g.writePairs d r l).reg j o = g.reg j o := by
  induction l generalizing g with
  | nil => rfl
  | cons y l ih =>
    exact (ih fun z hz => hl z (List.mem_cons_of_mem _ hz)).trans
      (reg_writeAt_ne g y.1 j d o _ (hl y List.mem_cons_self) hj ho)

theorem reg_writePairs_left (hl : ∀ y ∈ l, y.1 < 32) (hg : d.isG = false) {j : Nat} (hj : j < 32) (hn : ∀ y ∈ l, y.1 ≠ j) :
    (g.writePairs d r l).reg j d = g.reg j d := by
  induction l generalizing g with
  | nil => rfl
  | cons y l ih =>
    exact (ih (fun z hz => hl z (List.mem_cons_of_mem _ hz)) fun z hz => hn z (List.mem_cons_of_mem _ hz)).trans
      (reg_writeAt_thread g y.1 j d _ (hl y List.mem_cons_self) hj (hn y List.mem_cons_self).symm hg)

theorem reg_writePairs_mem (hl : ∀ y ∈ l, y.1 < 32) (hd : d.isReg) (hg : d.isG = false) (h0 : d ≠ .p 0#3)
    (hnd : (l.map Prod.fst).Nodup) {i j : Nat} (hm : (i, j) ∈ l) : (g.writePairs d r l).reg i d = asReg d (r j) := by
  induction l generalizing g with
  | nil => simp at hm
  | cons y l ih =>
    obtain ⟨hy, hnd⟩ := List.nodup_cons.mp hnd
    have hl' : ∀ z ∈ l, z.1 < 32 := fun z hz => hl z (List.mem_cons_of_mem _ hz)
    rcases List.mem_cons.mp hm with rfl | hm
    · have hi : i < 32 := hl _ List.mem_cons_self
      refine (reg_writePairs_left hl' hg hi fun z hz e => hy (List.mem_map.mpr ⟨z, hz, e⟩)).trans ?_
      exact reg_writeAt_same g i d (r j) hi hd h0
    · exact ih hl' hnd hm

end

theorem map_fst_zip_sublist (l l' : List Nat) : ((l.zip l').map Prod.fst).Sublist l := by
  induction l generalizing l' with
  | nil => simp
  | cons a l ih =>
    cases l' with
    | nil => simp
    | cons b l' => exact (ih l').cons_cons a

/-- Entry k of a list of threads takes what entry k of another reads; no other thread, and no other register, changes. -/
theorem completes_of_pairs {i : Instr} {s : State} {x : Site} (hx : s.site? = some x) {e : Word} {d a : Opd} {src : List Opd}
    {tgt srcs : List Nat} (hto : ∀ k ∈ tgt, k < 32) (hnd : tgt.Nodup) (hd : d.isV)
    (he : exec i s = .next (s.commit x e [d] src fun g => g.writePairs d (fun k => x.read s k a) (tgt.zip srcs))) :
    Completes i s x (fun t g =>
      (∀ k i j : Nat, tgt[k]? = some i → srcs[k]? = some j → g.reg i d = x.read s j a) ∧
      (∀ i : Nat, i < 32 → (∀ k : Nat, k < srcs.length → tgt[k]? ≠ some i) → g.reg i d = x.g.reg i d) ∧
      (∀ o i, i < 32 → o.isReg → o ≠ d → g.reg i o = x.g.reg i o) ∧
      Advanced x s e [d] src g ∧ OnlyGroup s t x.g.key) := by
  have hl : ∀ y ∈ tgt.zip srcs, y.1 < 32 := fun y hy => hto _ (List.of_mem_zip hy).1
  have hndz : ((tgt.zip srcs).map Prod.fst).Nodup := hnd.sublist (map_fst_zip_sublist tgt srcs)
  obtain ⟨n, rfl⟩ := isV_elim hd
  obtain ⟨t, g, ht, htg, hadv, hot, hreg⟩ := commit_spec s s x e [.v n] src _ (site_group hx) (.refl _) (.refl _ _)
    (fun g => banks_writePairs g (.v n) (fun k => x.read s k a) (tgt.zip srcs))
  have hlat := reg_latch_of_mask x.g s e src
  refine ⟨t, g, he.trans (by rw [ht]), htg, fun k i j hi hj => ?_, fun i hi hk => ?_, fun o i hi _ hne => ?_, hadv, hot⟩
  · rw [hreg]
    refine reg_writePairs_mem hl rfl rfl (by simp) hndz (List.mem_of_getElem? (i := k) ?_)
    rw [List.getElem?_zip_eq_some]
    exact ⟨hi, hj⟩
  · rw [hreg, reg_writePairs_left hl rfl hi, hlat]
    rintro ⟨i', j⟩ hy rfl
    obtain ⟨k, hk'⟩ := List.mem_iff_getElem?.mp hy
    rw [List.getElem?_zip_eq_some] at hk'
    exact hk k (List.getElem?_eq_some_iff.mp hk'.2).1 hk'.1
  · rw [hreg, reg_writePairs_ne hl hne hi, hlat]

/-- Settles O5: moves and votes write D once or per thread; `cmprs` and `expnd` write pairs of threads, one the other way round. -/
theorem acrossThreadsResults : Obligations.AcrossThreadsResults := by
  unfold Obligations.AcrossThreadsResults
  intro s h d a b
  have source : ∀ op (x : Site) (k : Nat), (x.vmask h).getLsbD k →
      x.read s (xmovSource op k (xmovShift x s k b)) a = x.read s (moveFrom op k (match b with
        | .ui v => if v.getLsbD 15 then 32 / 2 ^ (v.toNat % 16) else v.toNat
        | o => (x.read s k o).toNat)) a := fun op x k hk => by
    rw [xmovSource_eq_moveFrom op (BitVec.lt_of_getLsbD hk)]
    cases b
    case ui v => rw [xmovShift_ui]
    all_goals rfl
  refine ⟨fun op hw => ?xmov, fun n hw => computes_vote hw fun _ => voteVal_all _ _,
    fun n hw => computes_vote hw fun _ => voteVal_any _ _, fun n hw => computes_vote hw fun _ => voteVal_uni _ _,
    fun n k hw => ?ballot, fun hw x hx => ?cmprs, fun hw x hx => ?expnd⟩
  case xmov =>
    cases d
    case v n => exact computesAs_of_commit rfl rfl (by simp [Opd.isG]) (fun _ => rfl) (fun _ => ⟨rfl, rfl, rfl⟩) (source op)
    case g n =>
      exact computesAs_of_commit (f' := fun x k => x.read s (xmovSource op k (xmovShift x s k b)) a) rfl rfl (fun _ => rfl)
        (by simp [Opd.isG]) (fun _ => ⟨rfl, rfl, rfl⟩) (source op)
    all_goals
      simp only [Instr.wf, Bool.and_eq_true] at hw
      cases op <;> simp [Opd.isV, Opd.isG] at hw
  case ballot =>
    simp only [Instr.wf, Bool.and_eq_true] at hw
    obtain ⟨⟨hd, -⟩, -⟩ := hw
    refine computes_of_value rfl (written_beside_p (by rw [hd]; rfl) n) fun x _ => ?_
    simp only [read_p, wordOf_bne_zero]
    rw [ballot_word]
    cases k with
    | none => rfl
    | some o => cases o <;> rfl
  case cmprs =>
    simp only [Instr.wf, Bool.and_eq_true] at hw
    obtain ⟨⟨hd, -⟩, hb⟩ := hw
    refine completes_of_pairs hx (fun k hk => ((mem_lanes _ k).mp hk).1) (lanes_nodup _) hd ((atSite_eq hx _).trans ?_)
    simp only [read_isP hb]
    rfl
  case expnd =>
    simp only [Instr.wf, Bool.and_eq_true] at hw
    obtain ⟨⟨hd, -⟩, hb⟩ := hw
    have hc : Completes (.expnd h d a b) s x _ := completes_of_pairs hx (e := x.vmask h) (a := a) (src := [a, b])
      (tgt := (lanes (x.vmask h)).filter (fun i => x.read s i b = 1#32)) (srcs := lanes (x.vmask h))
      (fun k hk => ((mem_lanes _ k).mp (List.mem_filter.mp hk).1).1) ((lanes_nodup _).filter _) hd
      ((atSite_eq hx _).trans (by simp only [read_isP hb]; rfl))
    obtain ⟨t, g, ht, htg, hres, hleft, hrest⟩ := hc
    exact ⟨t, g, ht, htg, hres, fun i hi hn => hleft i hi fun k _ hk => hn (List.mem_of_getElem? hk), hrest⟩

end Sys2Proof.Machine
end

section
/-!
Reductions and scans (R170). For an associative operation whose empty result is neutral, a level of the tree keeps the fold of the
values, and a step of the scan doubles the window of threads that each value is the fold of. Settles O6.
-/

namespace Sys2Proof.Machine

/-- An operation of `lsred` and `lscan` that is an exact associative function with the empty result as its neutral element. -/
structure ScanFold (op : ScanOp) (f : Word → Word → Word) : Prop where
  exact : scanFloat op = false
  value : ∀ v p q, (scanOp op v p q).1 = f p q
  assoc : ∀ p q r, f (f p q) r = f p (f q r)
  left  : ∀ p, f (scanEmpty op) p = p
  right : ∀ p, f p (scanEmpty op) = p

theorem scanFold_iadd : ScanFold .iadd (· + ·) := ⟨rfl, fun _ _ _ => rfl, BitVec.add_assoc, BitVec.zero_add, BitVec.add_zero⟩
theorem scanFold_and : ScanFold .and (· &&& ·) :=
  ⟨rfl, fun _ _ _ => rfl, BitVec.and_assoc, fun _ => BitVec.allOnes_and, fun _ => BitVec.and_allOnes⟩
theorem scanFold_or : ScanFold .or (· ||| ·) :=
  ⟨rfl, fun _ _ _ => rfl, BitVec.or_assoc, fun _ => BitVec.zero_or, fun _ => BitVec.or_zero⟩
theorem scanFold_xor : ScanFold .xor (· ^^^ ·) :=
  ⟨rfl, fun _ _ _ => rfl, BitVec.xor_assoc, fun _ => BitVec.zero_xor, fun _ => BitVec.xor_zero⟩

/-- The value that a thread brings to a fold: nothing counts as the empty result. -/
def partVal (op : ScanOp) (p : Option Part) : Word := (p.map Part.w).getD (scanEmpty op)

/-- The fold of the values of a list of threads. -/
def foldParts (op : ScanOp) (f : Word → Word → Word) (l : List (Option Part)) : Word :=
  (l.map (partVal op)).foldl f (scanEmpty op)

/-- The value of a thread by its number; none beyond the list. -/
def partAt (l : List (Option Part)) (i : Nat) : Option Part := (l[i]?).getD none

section
variable {op : ScanOp} {f : Word → Word → Word} (hf : ScanFold op f) {v : FEnv}
include hf

theorem foldParts_append (l l' : List (Option Part)) :
    foldParts op f (l ++ l') = f (foldParts op f l) (foldParts op f l') := by
  have : Std.Associative f := ⟨hf.assoc⟩
  rw [foldParts, List.map_append, List.foldl_append]
  exact (congrArg (List.foldl f · _) (hf.right _).symm).trans List.foldl_assoc

theorem foldParts_singleton (p : Option Part) : foldParts op f [p] = partVal op p := hf.left _

theorem foldParts_cons (p : Option Part) (l : List (Option Part)) :
    foldParts op f (p :: l) = f (partVal op p) (foldParts op f l) := by
  rw [← foldParts_singleton hf p, ← foldParts_append hf]
  rfl

theorem partVal_comb (p q : Option Part) : partVal op (comb op v p q).1 = f (partVal op p) (partVal op q) := by
  cases p with
  | none => exact (hf.left _).symm
  | some p =>
    cases q with
    | none => exact (hf.right _).symm
    | some q => exact hf.value v p.w q.w

/-! The tree of `lsred`. -/

theorem foldParts_redLevel : ∀ l : List (Option Part), foldParts op f (redLevel op v l).1 = foldParts op f l
  | [] => rfl
  | [_] => by simp [redLevel]
  | p :: q :: r => by
    simp only [redLevel]
    rw [foldParts_cons hf, foldParts_redLevel r, partVal_comb hf, hf.assoc, ← foldParts_cons hf, ← foldParts_cons hf]

omit hf in
theorem length_redLevel : ∀ l : List (Option Part), (redLevel op v l).1.length = (l.length + 1) / 2
  | [] => rfl
  | [_] => by simp [redLevel]
  | _ :: _ :: r => by
    simp only [redLevel, List.length_cons, length_redLevel r]
    omega

theorem partVal_redTree (k : Nat) (l : List (Option Part)) (hl : l.length ≤ 2 ^ k) :
    partVal op (redTree op v k l).1 = foldParts op f l := by
  induction k generalizing l with
  | zero =>
    match l, hl with
    | [], _ => rfl
    | [p], _ => exact (foldParts_singleton hf p).symm
  | succ k ih =>
    have hk : (redLevel op v l).1.length ≤ 2 ^ k := by
      rw [length_redLevel]
      omega
    exact (ih _ hk).trans (foldParts_redLevel hf l)

/-! The steps of `lscan`. -/

/-- The fold of the last `sh` threads up to thread `i`. -/
def windowFold (op : ScanOp) (f : Word → Word → Word) (q : Nat → Option Part) (sh i : Nat) : Word :=
  foldParts op f ((List.range' (i + 1 - sh) (min sh (i + 1))).map q)

/-- A window of twice the width is two windows, or the same where the list has no thread below it. -/
theorem windowFold_double (q : Nat → Option Part) (sh i : Nat) : windowFold op f q (2 * sh) i =
    if i < sh then windowFold op f q sh i else f (windowFold op f q sh (i - sh)) (windowFold op f q sh i) := by
  unfold windowFold
  split
  · have h1 : i + 1 - 2 * sh = i + 1 - sh := by omega
    have h2 : min (2 * sh) (i + 1) = min sh (i + 1) := by omega
    rw [h1, h2]
  · rw [← foldParts_append hf, ← List.map_append]
    have h1 : i - sh + 1 - sh = i + 1 - 2 * sh := by omega
    have h2 : i + 1 - sh = i + 1 - 2 * sh + min sh (i - sh + 1) := by omega
    have h3 : min (2 * sh) (i + 1) = min sh (i - sh + 1) + min sh (i + 1) := by omega
    rw [h1, h2, h3, List.range'_append_1]

end

/-- One step of `lscan`. -/
def scanStep (op : ScanOp) (v : FEnv) (sh : Nat) (l : List (Option Part)) : List (Option Part × Ev) :=
  l.zipIdx.map (fun e => if e.2 < sh then (e.1, Ev.zero) else comb op v (partAt l (e.2 - sh)) e.1)

theorem scanSteps_succ (op : ScanOp) (v : FEnv) (k sh : Nat) (l : List (Option Part)) :
    (scanSteps op v (k + 1) sh l).1 = (scanSteps op v k (2 * sh) ((scanStep op v sh l).map (·.1))).1 := rfl

@[simp] theorem length_scanStep (op : ScanOp) (v : FEnv) (sh : Nat) (l : List (Option Part)) :
    ((scanStep op v sh l).map (·.1)).length = l.length := by simp [scanStep]

theorem partAt_scanStep (op : ScanOp) (v : FEnv) (sh : Nat) (l : List (Option Part)) {i : Nat} (hi : i < l.length) :
    partAt ((scanStep op v sh l).map (·.1)) i =
      if i < sh then partAt l i else (comb op v (partAt l (i - sh)) (partAt l i)).1 := by
  have hl : l[i]? = some l[i] := List.getElem?_eq_getElem hi
  simp only [partAt, scanStep, List.getElem?_map, List.getElem?_zipIdx, hl, Option.map_some, Option.getD_some, Nat.zero_add]
  exact apply_ite Prod.fst _ _ _

/-- A thread that brings a value keeps one. -/
theorem isSome_partAt_scanSteps (op : ScanOp) (v : FEnv) (k sh : Nat) (l : List (Option Part)) {i : Nat} (hi : i < l.length)
    (hs : (partAt l i).isSome) : (partAt (scanSteps op v k sh l).1 i).isSome := by
  induction k generalizing sh l with
  | zero => exact hs
  | succ k ih =>
    rw [scanSteps_succ]
    refine ih _ _ (by rwa [length_scanStep]) ?_
    rw [partAt_scanStep op v sh l hi]
    split
    · exact hs
    · obtain ⟨p, hp⟩ := Option.isSome_iff_exists.mp hs
      rw [hp]
      cases partAt l (i - sh) <;> rfl

/-- After k steps the windows are 2 ^ k times as wide. -/
theorem partVal_scanSteps {op : ScanOp} {f : Word → Word → Word} (hf : ScanFold op f) (v : FEnv) (q : Nat → Option Part)
    (k sh : Nat) (l : List (Option Part)) (hl : ∀ i < l.length, partVal op (partAt l i) = windowFold op f q sh i)
    {i : Nat} (hi : i < l.length) : partVal op (partAt (scanSteps op v k sh l).1 i) = windowFold op f q (2 ^ k * sh) i := by
  induction k generalizing sh l with
  | zero =>
    rw [Nat.pow_zero, Nat.one_mul]
    exact hl i hi
  | succ k ih =>
    rw [scanSteps_succ, Nat.pow_succ, Nat.mul_assoc]
    refine ih _ _ (fun j hj => ?_) (by rwa [length_scanStep])
    rw [length_scanStep] at hj
    rw [partAt_scanStep op v sh l hj, windowFold_double hf]
    split
    · exact hl j hj
    · rw [partVal_comb hf, hl _ (by omega), hl j hj]

/-! The threads of the mask. -/

/-- What a thread of a mask brings. -/
def partOf (x : Site) (s : State) (e : Word) (a : Opd) (i : Nat) : Option Part :=
  if e.getLsbD i then some ⟨x.read s i a, false⟩ else none

theorem partsOf_eq (x : Site) (s : State) (e : Word) (a : Opd) : partsOf x s e a = (List.range 32).map (partOf x s e a) := rfl

theorem partAt_partsOf (x : Site) (s : State) (e : Word) (a : Opd) {i : Nat} (hi : i < 32) :
    partAt (partsOf x s e a) i = partOf x s e a i := by
  rw [partsOf_eq, partAt, List.getElem?_map, List.getElem?_range hi]
  rfl

theorem length_partsOf (x : Site) (s : State) (e : Word) (a : Opd) : (partsOf x s e a).length = 32 := by
  rw [partsOf_eq, List.length_map, List.length_range]

/-- Threads outside the mask leave the fold as it is. -/
theorem foldParts_partOf {op : ScanOp} {f : Word → Word → Word} (hf : ScanFold op f) (x : Site) (s : State) (e : Word) (a : Opd)
    (l : List Nat) : foldParts op f (l.map (partOf x s e a)) =
      ((l.filter (fun i => e.getLsbD i)).map (fun i => x.read s i a)).foldl f (scanEmpty op) := by
  rw [foldParts, List.map_map, List.foldl_map, List.foldl_map, List.foldl_filter]
  refine congrArg (fun g => List.foldl g (scanEmpty op) l) (funext fun w => funext fun i => ?_)
  cases he : e.getLsbD i
  · simp only [Function.comp, partOf, he, Bool.false_eq_true, if_false]
    exact hf.right w
  · simp only [Function.comp, partOf, he, if_true]
    rfl

theorem lanes_filter_le (e : Word) {i : Nat} (hi : i < 32) :
    (lanes e).filter (fun j => decide (j ≤ i)) = (List.range (i + 1)).filter (fun j => e.getLsbD j) := by
  have hr : (List.range 32).filter (fun j => decide (j ≤ i)) = List.range (i + 1) := by
    have hs : List.range 32 = List.range (i + 1) ++ (List.range (31 - i)).map (i + 1 + ·) := by
      rw [← List.range_add]
      congr 1
      omega
    rw [hs, List.filter_append, List.filter_eq_self.mpr, List.filter_eq_nil_iff.mpr, List.append_nil]
    · simp only [List.mem_map, decide_eq_true_eq]
      rintro _ ⟨j, -, rfl⟩
      omega
    · simp only [List.mem_range, decide_eq_true_eq]
      omega
  rw [← hr, lanes, Config.W, List.filter_filter, List.filter_filter]
  simp only [Bool.and_comm]

section
variable {op : ScanOp} {f : Word → Word → Word} (hf : ScanFold op f) (v : FEnv) (x : Site) (s : State) (e : Word) (a : Opd)
include hf

theorem partVal_tree : partVal op (redTree op v 5 (partsOf x s e a)).1 =
    ((lanes e).map (fun i => x.read s i a)).foldl f (scanEmpty op) := by
  rw [partVal_redTree hf 5 _ (length_partsOf x s e a).le, partsOf_eq, foldParts_partOf hf]
  rfl

theorem partVal_prefix {i : Nat} (hi : i < 32) : partVal op (partAt (scanSteps op v 5 1 (partsOf x s e a)).1 i) =
    (((lanes e).filter (fun j => decide (j ≤ i))).map (fun j => x.read s j a)).foldl f (scanEmpty op) := by
  have hlen := length_partsOf x s e a
  rw [partVal_scanSteps hf v (partOf x s e a) 5 1 _ (fun j hj => ?_) (by omega)]
  · have h1 : i + 1 - 2 ^ 5 * 1 = 0 := by omega
    have h2 : min (2 ^ 5 * 1) (i + 1) = i + 1 := by omega
    rw [windowFold, h1, h2, ← List.range_eq_range', foldParts_partOf hf, lanes_filter_le e hi]
  · have h1 : min 1 (j + 1) = 1 := by omega
    rw [partAt_partsOf x s e a (by omega), windowFold, h1, Nat.add_sub_cancel]
    exact (foldParts_singleton hf _).symm

end

/-! The instructions. -/

/-- What a thread's value is written as, with its events; the empty result where there is none. -/
def partOut (op : ScanOp) (v : FEnv) (p : Option Part) : Word × Ev :=
  match p with
  | some p => partResult op v p
  | none => (scanEmpty op, Ev.zero)

theorem partOut_exact {op : ScanOp} (h : scanFloat op = false) (v : FEnv) (p : Option Part) :
    (partOut op v p).1 = partVal op p := by
  cases p with
  | none => rfl
  | some p => simp only [partOut, partResult, h]; rfl

/-- A vector register is no counter: the mask of a read of it latches nothing. -/
theorem commit_of_isV {a : Opd} (ha : a.isV) (s : State) (x : Site) (e e' : Word) (dst : List Opd) (F : Group → Group) :
    s.commit x e dst [a] F = s.commit x e' dst [a] F := by
  have hl : ∀ (g : Group) (e : Word), (if e = 0#32 then g else g.latch s [a]) = g := fun g e => by
    obtain ⟨n, rfl⟩ := isV_elim ha
    simp [Group.latch]
  simp only [State.commit, hl]

/-- A group register is written once, for all threads, unless the guard is the never guard (R155). -/
theorem write_unless_never (h : Hdr) (g : Group) (n : BitVec 6) (w : Word) :
    (if neverGuard h then g else g.writeAll (.g n) w) =
      g.write true (if neverGuard h then 0#32 else allThreads) (.g n) (fun _ => w) := by
  cases neverGuard h <;> rfl

/-- What `lscan` gives a thread, as its meaning has it: no event, and a word that is not written, where there is no value. -/
def scanOut (op : ScanOp) (v : FEnv) (p : Option Part) : Word × Ev :=
  match p with
  | some p => partResult op v p
  | none => (0#32, Ev.zero)

theorem scanOut_events (op : ScanOp) (v : FEnv) (p : Option Part) : (scanOut op v p).2 = (partOut op v p).2 := by
  cases p <;> rfl

theorem scanOut_of_isSome (op : ScanOp) (v : FEnv) {p : Option Part} (hp : p.isSome) : scanOut op v p = partOut op v p := by
  obtain ⟨p, rfl⟩ := Option.isSome_iff_exists.mp hp
  rfl

/-- Settles O6: the instructions by `commit_spec`, the folds by `partVal_tree` and `partVal_prefix`. -/
theorem reduceAndScanResults : Obligations.ReduceAndScanResults := by
  unfold Obligations.ReduceAndScanResults
  intro s h op m d a tree scan value
  have hval : ∀ x p, value x p = partOut op (scanEnv x op m) p := fun x p => by cases p <;> rfl
  refine ⟨fun hw => ?lsred, fun hw => ?lscan, fun f hop x => ?folds⟩
  case lsred =>
    simp only [Instr.wf, Bool.and_eq_true] at hw
    obtain ⟨⟨hd, ha⟩, -⟩ := hw
    cases d
    case v n =>
      exact computesAs_of_commit rfl rfl (by simp [Opd.isG]) (fun _ => rfl) (fun _ => ⟨rfl, rfl, rfl⟩) fun _ _ _ => rfl
    case g n =>
      refine computesAs_of_commit (f' := fun x _ => (value x (tree x).1).1) (congrArg s.atSite (funext fun x => ?_)) rfl
        (fun _ => rfl) (by simp [Opd.isG]) (fun _ => ⟨rfl, rfl, rfl⟩) fun _ _ _ => rfl
      rw [commit_of_isV ha _ x _ (x.vmask h)]
      simp only [Opd.isG, if_true, ← write_unless_never]
      rfl
    all_goals exact absurd hd (by simp [Opd.vg, Opd.isV, Opd.isG])
  case lscan =>
    simp only [Instr.wf, Bool.and_eq_true] at hw
    obtain ⟨⟨hd, -⟩, -⟩ := hw
    obtain ⟨n, rfl⟩ := isV_elim hd
    refine computesAs_of_commit (f' := fun x k => (scanOut op (scanEnv x op m) (((scan x).1[k]?).getD none)).1)
      (congrArg s.atSite (funext fun x => ?_)) rfl (by simp) (fun _ => rfl) (fun _ => ⟨rfl, rfl, rfl⟩) fun x k hk => ?_
    · simp only [hval, ← scanOut_events, scan]
      generalize scanSteps op (scanEnv x op m) 5 1 (partsOf x s (x.vmask h) a) = t
      rfl
    · have hk32 := BitVec.lt_of_getLsbD hk
      have hs : (partAt (scan x).1 k).isSome := isSome_partAt_scanSteps op _ 5 1 _ (by rwa [length_partsOf]) (by
        rw [partAt_partsOf x s _ a hk32, partOf, if_pos hk]
        rfl)
      rw [partAt] at hs
      rw [hval, scanOut_of_isSome op _ hs]
  case folds =>
    have hf : ScanFold op f := by
      rcases hop with ⟨rfl, rfl⟩ | ⟨rfl, rfl⟩ | ⟨rfl, rfl⟩ | ⟨rfl, rfl⟩
      · exact scanFold_iadd
      · exact scanFold_and
      · exact scanFold_or
      · exact scanFold_xor
    refine ⟨?_, fun i hi => ?_⟩
    · rw [hval, partOut_exact hf.exact]
      exact partVal_tree hf _ x s _ a
    · rw [hval, partOut_exact hf.exact]
      exact partVal_prefix hf _ x s _ a (BitVec.lt_of_getLsbD hi)

end Sys2Proof.Machine
end
